-- ==== Sys2Proof/Word.lean ====
section
/-! DEFINITION. The words of the part, and tables of fixed size. -/

namespace Sys2Proof

/-- A word of the register window (00_scope section 6.2). -/
abbrev Word := BitVec 16

/-- A byte of a timeslot. -/
abbrev Byte := BitVec 8

/-- A table of `2 ^ d` entries, held as a balanced tree so that looking one up and comparing two tables stay
short. The entries with an even index stand in the left subtree, those with an odd index in the right one. -/
inductive Table (α : Type) : Nat → Type where
  | leaf (a : α) : Table α 0
  | node {d : Nat} (even odd : Table α d) : Table α (d + 1)
  deriving DecidableEq, Repr

/-- Entry `i` of the table (`i` modulo the table's size). -/
def Table.get {α : Type} : {d : Nat} → Table α d → Nat → α
  | _, .leaf a, _ => a
  | _, .node e o, i => if i % 2 = 0 then e.get (i / 2) else o.get (i / 2)

/-- The table with entry `i` (`i` modulo the table's size) replaced. -/
def Table.set {α : Type} : {d : Nat} → Table α d → Nat → α → Table α d
  | _, .leaf _, _, a => .leaf a
  | _, .node e o, i, a => if i % 2 = 0 then .node (e.set (i / 2) a) o else .node e (o.set (i / 2) a)

/-- The table whose entry `i` is `f i`. -/
def Table.tabulate {α : Type} : (d : Nat) → (Nat → α) → Table α d
  | 0, f => .leaf (f 0)
  | d + 1, f => .node (tabulate d fun i => f (2 * i)) (tabulate d fun i => f (2 * i + 1))

/-- The table with every entry the same. -/
def Table.replicate {α : Type} : (d : Nat) → α → Table α d
  | 0, a => .leaf a
  | d + 1, a => .node (replicate d a) (replicate d a)

end Sys2Proof
end

