-- ==== Sys2Proof/Config.lean ====
section
/-! DEFINITION. What the spec leaves open: free values. -/

namespace Sys2Proof

/-- A free value of a type, a fresh one for each draw number: nothing in Lean can evaluate it or prove a value of
it. Used once, for R177: a RESET_N assertion shorter than the minimum "leaves every piece of state of the part at
an arbitrary value of its range". DESIGN CHOICE (notes/assumptions/1.md), safe. -/
opaque Config.freeValue {α : Type} [Inhabited α] : Nat → α

end Sys2Proof
end

