-- ==== Sys2Proof/Syntax.lean ====
section
/-! DEFINITION. The commands of the part: one constructor per row of spec/opcode_table.json. -/

namespace Sys2Proof

/-- What the outside shows the part at one frame start (an FSYNC pulse, R1). -/
structure FrameEvent where
  /-- levels of SF0 to SF15 when the frame start is taken, 1 asserted (R89) -/
  sf : Word
  /-- level of CSTROBE when the frame start is taken (R56) -/
  cstrobe : Bool
  /-- the frame start cuts off, partway through its byte, the slot that was the last to be formed (R3) -/
  cut : Bool
  /-- bit n: engine n's frame-start work is taken before a commit applied at this frame start; clear: after it (R131) -/
  workFirst : BitVec 4
  deriving DecidableEq, Repr

/-- How a write access on the local bus goes (R171). -/
inductive BusCycle where
  /-- the strobe and the chip select stay until RDY: the write is taken -/
  | whole
  /-- the strobe or the chip select is deasserted before RDY: the write is not taken -/
  | endedEarly
  /-- RD_N and WR_N are both asserted: neither a read nor a write -/
  | bothStrobes
  deriving DecidableEq, Repr

/-- The word of a write access, with the levels of SF0 to SF15 when the write is taken: an inspection shows them (R102,
log 8). -/
structure BusWord where
  value : Word
  sf : Word
  deriving DecidableEq, Repr

/-- What holds the part in reset (R177). -/
inductive ResetCause where
  /-- the RESET_N pin -/
  | resetN
  /-- the hold from power-up until the supply is within range -/
  | powerUp
  deriving DecidableEq, Repr

/-- The commands, in the order of the opcode table. A command of the Command Engine has no operand of its own: its
completion works from the parameters latched in State when it was taken (R147). -/
inductive Instr where
  /-- FRAME_START (R1): an FSYNC pulse is taken -/
  | frameStart (e : FrameEvent)
  /-- LEASE_EXPIRY (R82): a frame start at which a HELD record's count reaches 0 -/
  | leaseExpiry (e : FrameEvent)
  /-- COMMIT_APPLICATION (R57): a frame start at which a pending commit's trigger is met -/
  | commitApplication (e : FrameEvent)
  /-- DURATION_EXPIRY (R129): a frame start at which a run reaches its duration -/
  | durationExpiry (e : FrameEvent)
  /-- INPUT_BYTE_CAPTURE (R6): the byte of an input slot is complete -/
  | inputByteCapture (stream slot : Nat) (byte : Byte)
  /-- OUTPUT_SLOT_FORMATION (R111): the OA forms an output slot -/
  | outputSlotFormation (stream slot : Nat)
  /-- CONNECT completes (R46) -/
  | connect
  /-- SET CONSTANT completes (R47) -/
  | setConstant
  /-- SET TEST completes (R48) -/
  | setTest
  /-- DISCONNECT completes (R49) -/
  | disconnect
  /-- COMMIT completes (R53) -/
  | commit
  /-- CANCEL completes (R60) -/
  | cancel
  /-- DISCARD completes (R61) -/
  | discard
  /-- RESERVE completes (R69) -/
  | reserve
  /-- HUNT completes (R70 to R72) -/
  | hunt
  /-- RELEASE completes (R74) -/
  | release
  /-- RENEW completes (R75) -/
  | renew
  /-- CONFIGURE ENGINE completes (R105) -/
  | configureEngine
  /-- START completes (R127) -/
  | start
  /-- STOP completes (R130) -/
  | stop
  /-- INJECT completes (R114) -/
  | inject
  /-- SNAPSHOT completes (R135) -/
  | snapshot
  /-- POP completes (R140) -/
  | pop
  /-- SOFT RESET completes (R156) -/
  | softReset
  /-- a command whose code names none completes (R154) -/
  | unknownCommand
  /-- COMMAND_OVERRUN (R152): a write of CMD while BUSY -/
  | commandOverrun (value : Word)
  /-- OVERRUN_FLAG_CLEAR (R153): a write of CMDSTAT -/
  | overrunFlagClear (value : Word)
  /-- IDLEC_WRITE (R17) -/
  | idlecWrite (value : Word)
  /-- FOLIM_WRITE (R32) -/
  | folimWrite (value : Word)
  /-- SVEN_WRITE (R93) -/
  | svenWrite (value : Word)
  /-- SVFRC_WRITE (R94) -/
  | svfrcWrite (value : Word)
  /-- SVTHR_WRITE (R91) -/
  | svthrWrite (value : Word)
  /-- EXPF_CLEAR (R83): a write of word EXPF0 or EXPF1 -/
  | expfClear (word : Nat) (value : Word)
  /-- IFLAG_CLEAR (R161): a write of word IFLAG0 or IFLAG1 -/
  | iflagClear (word : Nat) (value : Word)
  /-- IMASK_WRITE (R163): a write of word IMASK0 or IMASK1 -/
  | imaskWrite (word : Nat) (value : Word)
  /-- ILVL_WRITE (R164): a write of one of the words ILVL0 to ILVL6 -/
  | ilvlWrite (word : Nat) (value : Word)
  /-- ITHR_WRITE (R165) -/
  | ithrWrite (value : Word)
  /-- INSPECT_ACTIVE_ENTRY (R35): an INSA write with selector 0 -/
  | inspectActiveEntry (index : BitVec 11)
  /-- INSPECT_EFFECTIVE_ENTRY (R36): selector 1 -/
  | inspectEffectiveEntry (index : BitVec 11)
  /-- INSPECT_JOURNAL (R42): selector 2 -/
  | inspectJournal (index : BitVec 11)
  /-- INSPECT_FAN_OUT (R37): selector 3 -/
  | inspectFanOut (index : BitVec 11)
  /-- INSPECT_RESERVATION (R87): selector 4 -/
  | inspectReservation (index : BitVec 11)
  /-- INSPECT_ENGINE_CONFIGURATION (R117): selector 5 -/
  | inspectEngineConfiguration (index : BitVec 11)
  /-- INSPECT_LIVE_COUNTERS (R136): selector 6 -/
  | inspectLiveCounters (index : BitVec 11)
  /-- INSPECT_SNAPSHOT (R136): selector 7 -/
  | inspectSnapshot (index : BitVec 11)
  /-- INSPECT_RESULT_QUEUE (R142): selector 8 -/
  | inspectResultQueue (index : BitVec 11)
  /-- INSPECT_HOLD_BYTE (R103): selector 9 -/
  | inspectHoldByte (index : BitVec 11)
  /-- INSPECT_SUPERVISOR (R102): selector 10, with the levels of SF0 to SF15 at that moment -/
  | inspectSupervisor (index : BitVec 11) (sf : Word)
  /-- INSPECT_INVALID (R175): an INSA write whose selector names no table, or whose index is out of range, with the levels
  of SF0 to SF15 at that moment -/
  | inspectInvalid (value : BusWord)
  /-- REGISTER_WRITE (R172): a write access to any word of the window, with the levels of SF0 to SF15 at that moment, which
  an INSA write for the supervisor table shows (R102) -/
  | registerWrite (cycle : BusCycle) (address : BitVec 7) (value : BusWord)
  /-- HARDWARE_RESET (R177): RESET_N is asserted, or power-up -/
  | hardwareReset (cause : ResetCause)
  /-- COMMAND_TAKEN (R146): a write of CMD while IDLE -/
  | commandTaken (value : Word)
  /-- RESET_N_RELEASE (R177): RESET_N is released (`minimumMet`: it had been asserted for at least the minimum of
  Table 10-8), or the power-up hold ends -/
  | resetNRelease (cause : ResetCause) (minimumMet : Bool)
  deriving DecidableEq, Repr

end Sys2Proof
end

