-- ==== Sys2Proof/WellFormed.lean ====
section
/-! DEFINITION. The operands that name a stream, a slot or a register word name one that the part has. -/

namespace Sys2Proof

/-- A stream number and a slot number of the part (00_scope section 6.1). -/
def placeOk (stream slot : Nat) : Bool := stream < 16 && slot < 64

/-- The check of a command's operands. -/
def Instr.wellFormed : Instr → Bool
  | .frameStart _ => true
  | .leaseExpiry _ => true
  | .commitApplication _ => true
  | .durationExpiry _ => true
  | .inputByteCapture s u _ => placeOk s u
  | .outputSlotFormation s t => placeOk s t
  | .connect => true
  | .setConstant => true
  | .setTest => true
  | .disconnect => true
  | .commit => true
  | .cancel => true
  | .discard => true
  | .reserve => true
  | .hunt => true
  | .release => true
  | .renew => true
  | .configureEngine => true
  | .start => true
  | .stop => true
  | .inject => true
  | .snapshot => true
  | .pop => true
  | .softReset => true
  | .unknownCommand => true
  | .commandOverrun _ => true
  | .overrunFlagClear _ => true
  | .idlecWrite _ => true
  | .folimWrite _ => true
  | .svenWrite _ => true
  | .svfrcWrite _ => true
  | .svthrWrite _ => true
  | .expfClear k _ => k < 2
  | .iflagClear k _ => k < 2
  | .imaskWrite k _ => k < 2
  | .ilvlWrite k _ => k < 7
  | .ithrWrite _ => true
  | .inspectActiveEntry _ => true
  | .inspectEffectiveEntry _ => true
  | .inspectJournal _ => true
  | .inspectFanOut _ => true
  | .inspectReservation _ => true
  | .inspectEngineConfiguration _ => true
  | .inspectLiveCounters _ => true
  | .inspectSnapshot _ => true
  | .inspectResultQueue _ => true
  | .inspectHoldByte _ => true
  | .inspectSupervisor _ _ => true
  | .inspectInvalid _ => true
  | .registerWrite _ _ _ => true
  | .hardwareReset _ => true
  | .commandTaken _ => true
  | .resetNRelease _ _ => true

end Sys2Proof
end

