-- ==== Sys2Proof/Machine/State.lean ====
section
/-! DEFINITION. The state of the part, block by block (00_scope Table 0-1), and its value after reset. -/

namespace Sys2Proof.Machine

/-! ## Connection map and journal (chapters 2 and 3) -/

/-- Delay mode of a SWITCHED entry (Table 2-1). -/
inductive Delay where
  | minimum | aligned
  deriving DecidableEq, Repr

/-- Conditioning of a SWITCHED entry (Table 2-1). -/
inductive Conditioning where
  | pass | idleCode | allOnes | hold
  deriving DecidableEq, Repr

/-- An entry record with exactly the fields its mode has (R20). Equality of entries is R22's. -/
inductive Entry where
  | idle
  /-- `source` is the flat index of the input slot that feeds this slot -/
  | switched (source : Nat) (delay : Delay) (invert : Bool) (cond : Conditioning) (width member : Nat)
  | constant (byte : Byte) (width member : Nat)
  | test (engine width member : Nat)
  deriving DecidableEq, Repr

/-- One staged change: the flat index of an output slot and its entry (R39). -/
structure JournalEntry where
  slot : Nat
  entry : Entry
  deriving DecidableEq, Repr

/-- The trigger of a pending commit (section 3.3). -/
inductive Trigger where
  | next
  | atFrame (target : Word)
  | onStrobe
  deriving DecidableEq, Repr

/-- Connection Map (R26, R29, R32). -/
structure ConnectionMap where
  active : Table Entry 10
  fanout : Table Nat 10
  folim : BitVec 7
  deriving DecidableEq, Repr

/-- Change Journal and Commit Controller (R39, R52, R59). `commit` absent is the commit state NONE. -/
structure CommitController where
  /-- position 0, the oldest, first -/
  journal : List JournalEntry
  commit : Option Trigger
  cseq : Word
  lcf : Word
  deriving DecidableEq, Repr

/-! ## Reservations (chapter 4) -/

/-- The fields of a HELD or BOUND record (Table 4-2). -/
structure Claim where
  stream : Nat
  first : Nat
  width : Nat
  tag : Word
  lease : Word
  remaining : Word
  deriving DecidableEq, Repr

/-- A reservation record: a FREE one has its state alone (R67). -/
inductive Reservation where
  | free
  | held (c : Claim)
  | bound (c : Claim)
  deriving DecidableEq, Repr

/-- Slot Allocation Unit (R67, R83). -/
structure SlotAllocation where
  recs : Table Reservation 5
  expf : BitVec 32
  deriving DecidableEq, Repr

/-! ## Supervisors and hold store (chapter 5) -/

/-- State and count of a supervisor (Table 5-1): the count is 0 in CLEAR and FAULT. -/
inductive SvState where
  | clear
  | suspect (count : BitVec 4)
  | fault
  | recovering (count : Byte)
  deriving DecidableEq, Repr

/-- One supervisor (R88). -/
structure Supervisor where
  state : SvState
  /-- asserted (true), deasserted (false) or absent -/
  lastSample : Option Bool
  deriving DecidableEq, Repr

/-- The stream supervisors and their settings (R88, R91, R93, R94). -/
structure Supervisors where
  sups : Table Supervisor 4
  sven : Word
  svfrc : Word
  decl : BitVec 4
  clrc : Byte
  deriving DecidableEq, Repr

/-! ## Test engines and result queue (chapters 6 and 7) -/

/-- Patterns (Table 6-1). -/
inductive Pattern where
  | prbs9 | prbs23 | prbs31 | word
  deriving DecidableEq, Repr

/-- Duration units (Table 6-1). -/
inductive DurationUnit where
  | frames | seconds
  deriving DecidableEq, Repr

/-- The configuration record of an engine (R104, Table 6-1). -/
structure EngineConfig where
  pattern : Pattern
  invert : Bool
  word : BitVec 32
  /-- word length L -/
  len : Nat
  chkStream : Nat
  chkSlot : Nat
  /-- 0 means not configured -/
  chkWidth : Nat
  lossThreshold : Nat
  duration : Word
  unit : DurationUnit
  deriving DecidableEq, Repr

/-- The sequence state (R107): in `reg`, bit k − 1 is the bit produced k bits ago. -/
structure Sequence where
  reg : BitVec 31
  wordPos : Nat
  deriving DecidableEq, Repr

/-- A generator (R107). -/
structure Generator where
  seq : Sequence
  pendingInj : Nat
  deriving DecidableEq, Repr

/-- The reference of a checker (R119): the last predicted bits for a PRBS, the next word position for WORD. -/
inductive Reference where
  | prbs (reg : BitVec 31)
  | word (pos : Nat)
  deriving DecidableEq, Repr

/-- A checker with what it holds in each state (R119, Table 7-1). -/
inductive Checker where
  | off
  /-- the collection, oldest bit first -/
  | hunting (collection : List Bool)
  | confirming (ref : Reference) (count : Nat)
  | locked (ref : Reference) (blockBits blockErrors : Nat)
  deriving DecidableEq, Repr

/-- The live counters of a run (R133, Table 7-3). -/
structure LiveCounters where
  framesRun : BitVec 32
  framesLocked : BitVec 32
  bitErrors : BitVec 32
  syncLosses : Word
  faultFrames : BitVec 32
  errorsInjected : Word
  firstLock : Option (BitVec 32)
  deriving DecidableEq, Repr

/-- How a run ends (section 7.3). -/
inductive RunOutcome where
  | completed | stopped | pathRemoved
  deriving DecidableEq, Repr

/-- A result record (R137, Table 7-5); its counter fields are the live counters at the run's end. -/
structure ResultRecord where
  engine : Nat
  outcome : RunOutcome
  runSeq : Word
  startCseq : Word
  live : LiveCounters
  deriving DecidableEq, Repr

/-- The run state of an engine (Table 7-2): RUNNING with the start CSEQ of the run (R127), ENDED with the result
record it holds (R139). -/
inductive RunState where
  | idle
  | running (startCseq : Word)
  | ended (record : ResultRecord)
  deriving DecidableEq, Repr

/-- Run states by name, as a snapshot and the status words show them (R173). -/
inductive RunName where
  | idle | running | ended
  deriving DecidableEq, Repr

/-- Checker states by name (R173). -/
inductive CheckerName where
  | off | hunting | confirming | locked
  deriving DecidableEq, Repr

/-- The snapshot record of an engine (R135). -/
structure Snapshot where
  live : LiveCounters
  runSeq : Word
  run : RunName
  checker : CheckerName
  fcnt : Word
  deriving DecidableEq, Repr

/-- A test engine. -/
structure Engine where
  cfg : EngineConfig
  gen : Generator
  checker : Checker
  run : RunState
  live : LiveCounters
  /-- run sequence number of the last START (R127) -/
  lastRun : Word
  snap : Snapshot
  deriving DecidableEq, Repr

/-- The four engines and the run sequence counter they share (R127). -/
structure TestEngines where
  engines : Table Engine 2
  runCounter : Word
  deriving DecidableEq, Repr

/-- Result Queue (R138) and backlog (R139): the oldest first in both. -/
structure ResultQueue where
  queue : List ResultRecord
  backlog : List Nat
  deriving DecidableEq, Repr

/-! ## Byte path (chapter 1) -/

/-- Receive Frame Memory (R6, R7), by the flat index of the input slot. -/
structure ReceiveMemory where
  receiving : Table Byte 10
  completed : Table Byte 10
  /-- per input stream, the slot after the one last captured since the frame start: with `OutputAssembler.next`, where
  the line stands in the frame (R5) -/
  captured : Table Nat 4
  deriving DecidableEq, Repr

/-- That an engine supplies bytes in the frame in progress (R11), decided at its frame start: the configuration of
the run, and, once a later START has reseeded the generator within the frame, the sequence state from which the
ended run supplies the rest of the frame. DEDUCED (notes/assumptions/7.md). -/
structure Emission where
  cfg : EngineConfig
  tail : Option Sequence
  deriving DecidableEq, Repr

/-- Output Assembler: the idle code register and the output frame in progress, with the per-frame inputs that are
fixed at its frame start (R8, R11, R17, R95). -/
structure OutputAssembler where
  idlec : Byte
  /-- the idle code in force (R17) -/
  idleInForce : Byte
  /-- whether a frame is in progress (R2, R18) -/
  inProgress : Bool
  /-- the bytes of the frame in progress by flat output slot; absent until the slot is formed -/
  frame : Table (Option Byte) 10
  /-- per output stream, the lowest slot not yet formed in this frame -/
  next : Table Nat 4
  /-- per input stream, the frame state of its supervisor for the frame in progress (R95) -/
  frameState : Table SvState 4
  /-- per engine, whether and how it supplies bytes in the frame in progress -/
  emit : Table (Option Emission) 2
  deriving DecidableEq, Repr

/-! ## Command Engine (chapter 8) -/

/-- Completion codes (Table 8-3). -/
inductive Completion where
  | ok | unknownCommand | badParameter | commitPending | noCommitPending | journalFull | slotsBusy | slotIdle
  | partOfWide | slotReserved | notReserved | tagMismatch | bound | reservationsFull | noneFree | fanoutExceeded
  | engineInUse | engineBusy | engineNotRunning | notConfigured | queueEmpty
  deriving DecidableEq, Repr

/-- The parameter words PARAM0 to PARAM5 (R147). -/
structure Params where
  p0 : Word
  p1 : Word
  p2 : Word
  p3 : Word
  p4 : Word
  p5 : Word
  deriving DecidableEq, Repr

/-- The result words RES0 to RES3 (R149). -/
structure ResultWords where
  r0 : Word
  r1 : Word
  r2 : Word
  r3 : Word
  deriving DecidableEq, Repr

/-- The command in progress: its code and the latched parameters (R145). -/
structure InProgress where
  code : Byte
  params : Params
  deriving DecidableEq, Repr

/-- Command Engine (R145). `busy` absent is the engine state IDLE. -/
structure CommandEngine where
  busy : Option InProgress
  lastCode : Option Byte
  code : Completion
  res : ResultWords
  overrun : Bool
  params : Params
  deriving DecidableEq, Repr

/-! ## Interrupts and the register window (chapters 9 and 10) -/

/-- Interrupt Unit (section 9.1 to 9.3). -/
structure InterruptUnit where
  flags : BitVec 26
  masks : BitVec 26
  /-- the levels of sources 0 to 25 (entries 26 to 31 stand for no source and are never used) -/
  levels : Table (BitVec 3) 5
  ithr : BitVec 3
  deriving DecidableEq, Repr

/-- The inspection data words INSD0 to INSD7 (R175). -/
structure DataWords where
  d0 : Word
  d1 : Word
  d2 : Word
  d3 : Word
  d4 : Word
  d5 : Word
  d6 : Word
  d7 : Word
  deriving DecidableEq, Repr

/-- The inspection port (R175). -/
structure BusInterface where
  insa : Word
  /-- INSS: VALID -/
  valid : Bool
  insd : DataWords
  deriving DecidableEq, Repr

/-- Levels of the input pins as last given by an event (log 8). -/
structure Pins where
  sf : Word
  cstrobe : Bool
  deriving DecidableEq, Repr

/-- What holds the part in reset (R177). -/
structure ResetHold where
  resetN : Bool
  powerUp : Bool
  deriving DecidableEq, Repr

/-- The state of the part. -/
structure State where
  /-- FCNT, the frame counter (R2) -/
  fcnt : Word
  rfm : ReceiveMemory
  oa : OutputAssembler
  cm : ConnectionMap
  cj : CommitController
  sau : SlotAllocation
  sv : Supervisors
  /-- the hold bytes by flat output slot (R98) -/
  hold : Table Byte 10
  te : TestEngines
  rq : ResultQueue
  ce : CommandEngine
  iu : InterruptUnit
  biu : BusInterface
  pins : Pins
  held : ResetHold
  /-- how many free values have been drawn: the model's own counter (log 16) -/
  freeDraws : Nat
  /-- the commands waiting, first in first out -/
  pending : List Instr
  deriving DecidableEq, Repr

/-- Faults: the spec gives the part none. -/
inductive Fault where
  /-- A command's operand names a stream, a slot or a register word that the part does not have. Raised by
  INPUT_BYTE_CAPTURE, OUTPUT_SLOT_FORMATION, EXPF_CLEAR, IFLAG_CLEAR, IMASK_WRITE and ILVL_WRITE on operands that
  are not well-formed. DESIGN CHOICE (notes/assumptions/18.md), safe: no event of the hardware is such a command. -/
  | noSuchPlace
  deriving DecidableEq, Repr

/-- Refusals. -/
inductive Refusal where
  /-- A command that has no meaning yet, raised by exec's arm. Safe. No arm uses it. -/
  | notModelled (mnemonic : String)
  deriving DecidableEq, Repr

/-! ## Reset values -/

/-- All counters 0 and the first-lock offset absent (R133). -/
def LiveCounters.zero : LiveCounters :=
  { framesRun := 0, framesLocked := 0, bitErrors := 0, syncLosses := 0, faultFrames := 0, errorsInjected := 0,
    firstLock := none }

/-- The snapshot record after a reset (R135). -/
def Snapshot.zero : Snapshot :=
  { live := .zero, runSeq := 0, run := .idle, checker := .off, fcnt := 0 }

/-- The configuration record after hardware reset (Table 6-1). -/
def EngineConfig.reset : EngineConfig :=
  { pattern := .prbs23, invert := false, word := 0, len := 16, chkStream := 0, chkSlot := 0, chkWidth := 0,
    lossThreshold := 16, duration := 0, unit := .frames }

/-- An engine after hardware reset (R104, R107, R119, R127, R144). -/
def Engine.reset : Engine :=
  { cfg := .reset, gen := { seq := { reg := BitVec.allOnes 31, wordPos := 0 }, pendingInj := 0 }, checker := .off,
    run := .idle, live := .zero, lastRun := 0, snap := .zero }

/-- Receive frame memory after hardware reset (R7). `captured` before frame 1 is a DESIGN CHOICE (log 10). -/
def ReceiveMemory.reset : ReceiveMemory :=
  { receiving := .replicate 10 0x00, completed := .replicate 10 0x00, captured := .replicate 4 0 }

/-- Output Assembler after hardware reset (R17, R18). Before frame 1 no frame is in progress, and the spec gives no value
for what it defines from a frame start on: the idle code in force (R17), the frame states (R95, held as CLEAR), and what
the frame in progress holds (`frame`, `next`, `emit`: nothing formed, nothing supplied). These are a DESIGN CHOICE
(log 10). -/
def OutputAssembler.reset : OutputAssembler :=
  { idlec := 0x54, idleInForce := 0x54, inProgress := false, frame := .replicate 10 none, next := .replicate 4 0,
    frameState := .replicate 4 .clear, emit := .replicate 2 none }

/-- Connection Map after hardware reset (R26, R29, R32). -/
def ConnectionMap.reset : ConnectionMap :=
  { active := .replicate 10 .idle, fanout := .replicate 10 0, folim := 64 }

/-- Journal and commit state after hardware reset (R64). -/
def CommitController.reset : CommitController := { journal := [], commit := none, cseq := 0, lcf := 0 }

/-- Reservations after hardware reset (R86). -/
def SlotAllocation.reset : SlotAllocation := { recs := .replicate 5 .free, expf := 0 }

/-- Supervisors after hardware reset (R88). -/
def Supervisors.reset : Supervisors :=
  { sups := .replicate 4 { state := .clear, lastSample := none }, sven := 0, svfrc := 0, decl := 3, clrc := 8 }

/-- Test engines after hardware reset (R144). -/
def TestEngines.reset : TestEngines := { engines := .replicate 2 .reset, runCounter := 0 }

/-- Result queue after hardware reset (R144). -/
def ResultQueue.reset : ResultQueue := { queue := [], backlog := [] }

/-- Command Engine after hardware reset (Table 8-1). -/
def CommandEngine.reset : CommandEngine :=
  { busy := none, lastCode := none, code := .ok, res := ⟨0, 0, 0, 0⟩, overrun := false, params := ⟨0, 0, 0, 0, 0, 0⟩ }

/-- Interrupt Unit after hardware reset (Table 9-2). -/
def InterruptUnit.reset : InterruptUnit :=
  { flags := 0, masks := BitVec.allOnes 26, levels := .replicate 5 1, ithr := 0 }

/-- Inspection port after hardware reset (R175). -/
def BusInterface.reset : BusInterface := { insa := 0, valid := false, insd := ⟨0, 0, 0, 0, 0, 0, 0, 0⟩ }

/-- The part right after the release of RESET_N (R177). The pin levels and the two fields of the model's own
(`freeDraws`, `pending`) are a DESIGN CHOICE (logs 8, 16 and 21). -/
def State.reset : State :=
  { fcnt := 0, rfm := .reset, oa := .reset, cm := .reset, cj := .reset, sau := .reset, sv := .reset,
    hold := .replicate 10 0x54, te := .reset, rq := .reset, ce := .reset, iu := .reset, biu := .reset,
    pins := { sf := 0, cstrobe := false }, held := { resetN := false, powerUp := false }, freeDraws := 0,
    pending := [] }

end Sys2Proof.Machine
end

