-- ==== Sys2Proof/Machine/Ops.lean ====
section
/-! DEFINITION. Shared operations: what every command and event goes through. -/

namespace Sys2Proof.Machine

/-- What a command answers. -/
abbrev Answer := Host.Outcome State Fault Refusal

/-- The part is held in reset, by RESET_N or by the power-up hold (R177). -/
def State.inReset (s : State) : Bool := s.held.resetN || s.held.powerUp

/-- An event taken by the part: while it is held in reset "no frame start is taken, no command is taken and no event
is raised" and "every write is ignored" (R177). -/
def taken (s : State) (effect : State → State) : Answer :=
  if s.inReset then .next s else .next (effect s)

/-! ## Interrupt events (R160) -/

/-- An event of source `k` sets its flag (R160). -/
def raise (k : Nat) (s : State) : State :=
  { s with iu := { s.iu with flags := s.iu.flags ||| (1#26 <<< k) } }

/-- An event of source `k`, if it happens. -/
def raiseIf (b : Bool) (k : Nat) (s : State) : State := if b then raise k s else s

/-- Source numbers (Table 9-1). -/
def srcCommandDone : Nat := 0
def srcCommitDone : Nat := 1
def srcReservationExpired : Nat := 2
def srcResultReady : Nat := 3
def srcResultBacklog : Nat := 4
def srcCommandOverrun : Nat := 5
def srcSyncChange (n : Nat) : Nat := 6 + n
def srcStreamChange (s : Nat) : Nat := 10 + s

/-! ## Command completion (R149) -/

/-- A number as a result word. -/
def word (n : Nat) : Word := BitVec.ofNat 16 n

/-- A completion: the code and all four result words are loaded, the command in progress is dropped and COMMAND_DONE
is raised (R149). -/
def complete (code : Completion) (r0 r1 r2 r3 : Word) (s : State) : State :=
  raise srcCommandDone { s with ce := { s.ce with busy := none, code := code, res := ⟨r0, r1, r2, r3⟩ } }

/-- The completion event of the command with code `code`: it happens only while that command is in progress, and works
on the parameters latched when it was taken (R147, R149). -/
def completion (code : Byte) (s : State) (effect : Params → State → State) : Answer :=
  taken s fun s =>
    match s.ce.busy with
    | some c => if c.code = code then effect c.params s else s
    | none => s

/-- Command codes (Table 10-2). -/
def codeConnect : Byte := 0x10
def codeSetConstant : Byte := 0x11
def codeSetTest : Byte := 0x12
def codeDisconnect : Byte := 0x13
def codeCommit : Byte := 0x18
def codeCancel : Byte := 0x19
def codeDiscard : Byte := 0x1A
def codeReserve : Byte := 0x20
def codeHunt : Byte := 0x21
def codeRelease : Byte := 0x22
def codeRenew : Byte := 0x23
def codeConfigureEngine : Byte := 0x30
def codeStart : Byte := 0x31
def codeStop : Byte := 0x32
def codeInject : Byte := 0x33
def codeSnapshot : Byte := 0x34
def codePop : Byte := 0x38
def codeSoftReset : Byte := 0x5A

/-- The codes of Table 10-2: every other code names no command (R154). -/
def commandCodes : List Byte :=
  [codeConnect, codeSetConstant, codeSetTest, codeDisconnect, codeCommit, codeCancel, codeDiscard, codeReserve,
   codeHunt, codeRelease, codeRenew, codeConfigureEngine, codeStart, codeStop, codeInject, codeSnapshot, codePop,
   codeSoftReset]

/-! ## Counters -/

/-- One step of a saturating counter (00_scope section 6.2). -/
def satInc {w : Nat} (x : BitVec w) : BitVec w := if x = BitVec.allOnes w then x else x + 1

/-! ## Slots -/

/-- The flat index of a slot (00_scope section 6.1). -/
def flat (stream slot : Nat) : Nat := 64 * stream + slot

/-- The stream of a flat index. -/
def streamOf (i : Nat) : Nat := i / 64

/-- The slot of a flat index. -/
def slotOf (i : Nat) : Nat := i % 64

/-- The lowest flat slot index for which `p` holds. -/
def lowestSlot (p : Nat → Bool) : Option Nat :=
  (List.range 16).findSome? fun s => ((List.range 64).find? fun t => p (flat s t)).map (flat s)

/-- How many of the 1024 slots satisfy `p`. -/
def countSlots (p : Nat → Bool) : Nat :=
  ((List.range 16).map fun s => (List.range 64).countP fun t => p (flat s t)).sum

/-- Engine `n`. -/
def State.engine (s : State) (n : Nat) : Engine := s.te.engines.get n

/-- Engine `n` replaced. -/
def State.setEngine (s : State) (n : Nat) (e : Engine) : State :=
  { s with te := { s.te with engines := s.te.engines.set n e } }

end Sys2Proof.Machine
end

