-- ==== Sys2Proof/Machine/Operands.lean ====
section
/-! DEFINITION. Every operand form: the fields of the parameter words (R174, Table 10-3) and their codes. -/

namespace Sys2Proof.Machine

/-- Bits `lo + len − 1` to `lo` of a word. -/
def field (w : Word) (lo len : Nat) : Nat := w.toNat / 2 ^ lo % 2 ^ len

/-- Slot and stream: the slot in bits 7:0, the stream in bits 15:8. -/
def slotField (w : Word) : Nat := field w 0 8
def streamField (w : Word) : Nat := field w 8 8

/-- Path options (CONNECT): delay in bits 1:0, invert in bits 3:2, conditioning in bits 6:4. -/
def delayOf : Nat → Option Delay
  | 0 => some .minimum
  | 1 => some .aligned
  | _ => none

/-- Invert: 0 no, 1 yes, any other value names neither. -/
def invertOf : Nat → Option Bool
  | 0 => some false
  | 1 => some true
  | _ => none

def conditioningOf : Nat → Option Conditioning
  | 0 => some .pass
  | 1 => some .idleCode
  | 2 => some .allOnes
  | 3 => some .hold
  | _ => none

def pathDelay (w : Word) : Option Delay := delayOf (field w 0 2)
def pathInvert (w : Word) : Option Bool := invertOf (field w 2 2)
def pathConditioning (w : Word) : Option Conditioning := conditioningOf (field w 4 3)

/-- Trigger kind (COMMIT), with T. -/
def triggerOf (kind target : Word) : Option Trigger :=
  match kind.toNat with
  | 0 => some .next
  | 1 => some (.atFrame target)
  | 2 => some .onStrobe
  | _ => none

/-- Alignment and reserve (HUNT): alignment in bits 7:0, reserve in bit 15. -/
def alignmentField (w : Word) : Nat := field w 0 8
def reserveField (w : Word) : Bool := w.getLsbD 15

/-- The five alignments (R70). -/
def alignmentOk (a : Nat) : Bool := a = 1 || a = 2 || a = 4 || a = 8 || a = 16

/-- Pattern and duration unit (CONFIGURE ENGINE). -/
def patternOf : Nat → Option Pattern
  | 0 => some .prbs9
  | 1 => some .prbs23
  | 2 => some .prbs31
  | 3 => some .word
  | _ => none

def unitOf : Nat → Option DurationUnit
  | 0 => some .frames
  | 1 => some .seconds
  | _ => none

/-- The engine of CONFIGURE ENGINE: bits 2:0 of PARAM0. -/
def configEngine (p : Params) : Nat := field p.p0 0 3

/-- The configuration record that the parameters of CONFIGURE ENGINE give, where every field names a legal value
(check 1 of R105, but for the engine number). -/
def configOf (p : Params) : Option EngineConfig :=
  match patternOf (field p.p0 3 3), invertOf (field p.p0 6 2), unitOf (field p.p0 8 2) with
  | some pattern, some invert, some unit =>
    let len := field p.p0 10 6
    let first := field p.p3 0 8
    let width := field p.p3 8 5
    let threshold := field p.p4 0 8
    let stream := field p.p4 8 5
    if 8 ≤ len ∧ len ≤ 32 ∧ stream ≤ 15 ∧ first ≤ 63 ∧ width ≤ 16 ∧ (width = 0 ∨ first + width - 1 ≤ 63) ∧
        1 ≤ threshold ∧ threshold ≤ 64 then
      some { pattern := pattern, invert := invert, word := p.p2 ++ p.p1, len := len, chkStream := stream,
             chkSlot := first, chkWidth := width, lossThreshold := threshold, duration := p.p5, unit := unit }
    else none
  | _, _, _ => none

/-- A legal run of output slots: stream, first slot, width (R44, R69). -/
def runOk (stream first width : Nat) : Bool :=
  stream ≤ 15 && first ≤ 63 && 1 ≤ width && width ≤ 16 && first + width - 1 ≤ 63

/-- A tag of a staging command (R44). -/
def tagOk (tag : Word) : Bool := tag.toNat ≤ 255

/-- A tag that can claim: 1 to 255 (R69, R70, R74). -/
def claimTagOk (tag : Word) : Bool := tag ≠ 0 && tag.toNat ≤ 255

/-! ## Codes that software reads -/

/-- Completion code values (Table 8-3). -/
def Completion.value : Completion → Nat
  | .ok => 0x00
  | .unknownCommand => 0x01
  | .badParameter => 0x02
  | .commitPending => 0x03
  | .noCommitPending => 0x04
  | .journalFull => 0x05
  | .slotsBusy => 0x06
  | .slotIdle => 0x07
  | .partOfWide => 0x08
  | .slotReserved => 0x09
  | .notReserved => 0x0A
  | .tagMismatch => 0x0B
  | .bound => 0x0C
  | .reservationsFull => 0x0D
  | .noneFree => 0x0E
  | .fanoutExceeded => 0x0F
  | .engineInUse => 0x10
  | .engineBusy => 0x11
  | .engineNotRunning => 0x12
  | .notConfigured => 0x13
  | .queueEmpty => 0x14

/-- Run states and checker states by name. -/
def RunState.name : RunState → RunName
  | .idle => .idle
  | .running _ => .running
  | .ended _ => .ended

def Checker.name : Checker → CheckerName
  | .off => .off
  | .hunting _ => .hunting
  | .confirming _ _ => .confirming
  | .locked _ _ _ => .locked

/-- The run state code (R173). -/
def RunName.value : RunName → Nat
  | .idle => 0
  | .running => 1
  | .ended => 2

/-- The checker state code (R173). -/
def CheckerName.value : CheckerName → Nat
  | .off => 0
  | .hunting => 1
  | .confirming => 2
  | .locked => 3

/-- The run state code of an engine as a result word. -/
def runCode (e : Engine) : Word := word e.run.name.value

end Sys2Proof.Machine
end

