-- ==== Sys2Proof/Machine/Flags.lean ====
section
/-! DEFINITION. What follows at every moment from the interrupt flags, masks, levels and threshold (chapter 9). -/

namespace Sys2Proof.Machine

/-- A source is pending when its flag is set and its mask bit is clear (R166). -/
def InterruptUnit.pendingSource (u : InterruptUnit) (k : Nat) : Bool := u.flags.getLsbD k && !u.masks.getLsbD k

/-- The level of a source (R164). -/
def InterruptUnit.level (u : InterruptUnit) (k : Nat) : BitVec 3 := u.levels.get k

/-- The better of the source named so far and the next source in ascending order (R166). -/
def InterruptUnit.better (u : InterruptUnit) (best : Option Nat) (k : Nat) : Option Nat :=
  if u.pendingSource k then
    match best with
    | none => some k
    | some b => if u.level b < u.level k then some k else some b
  else best

/-- The source that IVEC names: the highest level, and of those the lowest number; none when no source is pending
(R166). -/
def InterruptUnit.vector (u : InterruptUnit) : Option Nat := (List.range 26).foldl u.better none

/-- INT_N is asserted while IVEC names a source whose level is above ITHR (R167). -/
def InterruptUnit.intAsserted (u : InterruptUnit) : Bool :=
  match u.vector with
  | some k => u.ithr < u.level k
  | none => false

/-- The IVEC word (R166, R173). -/
def InterruptUnit.ivec (u : InterruptUnit) : Word :=
  match u.vector with
  | some k => word (k + 2 ^ 8 * (u.level k).toNat + if u.intAsserted then 2 ^ 15 else 0)
  | none => 0x003F

/-- Bits 16·k to 16·k + 15 of a flag or mask register, as the word k of its pair (R161, R163, R173). -/
def half {w : Nat} (x : BitVec w) (k : Nat) : Word := (x >>> (16 * k)).setWidth 16

/-- A word of a pair moved to its place in the register; bits the register does not have are dropped (R161). -/
def place {w : Nat} (v : Word) (k : Nat) : BitVec w :=
  (v.setWidth 32 <<< (16 * k)).setWidth w

/-- Writing 1 to a bit of word `k` clears it; writing 0 leaves it (R83, R161). -/
def clearOnes {w : Nat} (x : BitVec w) (k : Nat) (v : Word) : BitVec w := x &&& ~~~(place v k)

/-- A write of word `k` replaces the bits that the word holds (R163). -/
def replaceHalf {w : Nat} (x : BitVec w) (k : Nat) (v : Word) : BitVec w :=
  (x &&& ~~~(place 0xFFFF k)) ||| place v k

/-- One level field: 1 to 7 replaces the level, 0 leaves it (R164). -/
def newLevel (old : BitVec 3) (v : Word) (j : Nat) : BitVec 3 :=
  let f : BitVec 3 := (v >>> (4 * j)).setWidth 3
  if f = 0 then old else f

/-- A write of ILVL word `k`: source 4·k + j has bits 4·j + 2 to 4·j; there is no source above 25 (R164, R172, R173). -/
def writeLevels (levels : Table (BitVec 3) 5) (k : Nat) (v : Word) : Table (BitVec 3) 5 :=
  .tabulate 5 fun i => if i / 4 = k ∧ i < 26 then newLevel (levels.get i) v (i % 4) else levels.get i

/-- The level field that word ILVL`k` shows at nibble `j`, 0 above source 25 (R172, R173). -/
def shownLevel (u : InterruptUnit) (k j : Nat) : Nat := if 4 * k + j < 26 then (u.level (4 * k + j)).toNat else 0

/-- Word ILVL`k` (R173). -/
def levelWord (u : InterruptUnit) (k : Nat) : Word :=
  word (shownLevel u k 0 + 2 ^ 4 * shownLevel u k 1 + 2 ^ 8 * shownLevel u k 2 + 2 ^ 12 * shownLevel u k 3)

end Sys2Proof.Machine
end

