-- ==== Sys2Proof/Machine/Views.lean ====
section
/-! DEFINITION. The journal, the effective view, the fan-out counts, claims and the free set (chapters 2 to 4). -/

namespace Sys2Proof.Machine

/-! ## Entries -/

/-- The input slot that feeds an entry, if it is SWITCHED (R20). -/
def Entry.source? : Entry → Option Nat
  | .switched src _ _ _ _ _ => some src
  | _ => none

/-- Width and member index, in the modes that have them (R20). -/
def Entry.place? : Entry → Option (Nat × Nat)
  | .idle => none
  | .switched _ _ _ _ w m => some (w, m)
  | .constant _ w m => some (w, m)
  | .test _ w m => some (w, m)

/-- The engine of a TEST entry. -/
def Entry.engine? : Entry → Option Nat
  | .test n _ _ => some n
  | _ => none

/-! ## Journal and effective view -/

/-- The journal's entry for a slot (R27). Of two entries for one slot, which only too short a reset leaves, it is the first:
a DESIGN CHOICE (log 19). -/
def journalGet (j : List JournalEntry) (slot : Nat) : Option Entry :=
  (j.find? fun e => e.slot == slot).map (·.entry)

/-- The active entry of a slot. -/
def State.activeEntry (s : State) (slot : Nat) : Entry := s.cm.active.get slot

/-- The effective entry of a slot: its journal entry, and its active entry where it has none (R27). -/
def State.effective (s : State) (slot : Nat) : Entry := (journalGet s.cj.journal slot).getD (s.activeEntry slot)

/-- The journal count (R39). -/
def State.journalCount (s : State) : Nat := s.cj.journal.length

/-- The journal count as a result word. -/
def State.jcnt (s : State) : Word := word s.journalCount

/-! ## Fan-out -/

/-- The number of output slots whose active entry is SWITCHED from each input slot (R31). -/
def recount (active : Table Entry 10) : Table Nat 10 :=
  .tabulate 10 fun u => countSlots fun i => (active.get i).source? == some u

/-- The counter of `source` one lower, if there is a source (R30). -/
def fanDown (fan : Table Nat 10) (source : Option Nat) : Table Nat 10 :=
  match source with
  | some u => fan.set u (fan.get u - 1)
  | none => fan

/-- The counter of `source` one higher, if there is a source (R30). -/
def fanUp (fan : Table Nat 10) (source : Option Nat) : Table Nat 10 :=
  match source with
  | some u => fan.set u (fan.get u + 1)
  | none => fan

/-! ## Claims -/

/-- The claim of a HELD or BOUND record. -/
def Reservation.claim? : Reservation → Option Claim
  | .free => none
  | .held c => some c
  | .bound c => some c

/-- A record covers the slots of its stream from its first slot to first slot + width − 1 (R65). -/
def Claim.covers (c : Claim) (slot : Nat) : Bool :=
  streamOf slot == c.stream && c.first ≤ slotOf slot && slotOf slot < c.first + c.width

/-- Record `r` is HELD or BOUND, its claim satisfies `p`, and it covers the slot. -/
def SlotAllocation.coversWith (u : SlotAllocation) (p : Claim → Bool) (slot r : Nat) : Bool :=
  match (u.recs.get r).claim? with
  | some c => p c && c.covers slot
  | none => false

/-- The lowest-numbered HELD or BOUND record that covers a slot and whose claim satisfies `p`. -/
def SlotAllocation.coveringWith (u : SlotAllocation) (p : Claim → Bool) (slot : Nat) : Option Nat :=
  (List.range 32).find? fun r => u.coversWith p slot r

/-- The lowest-numbered HELD or BOUND record that covers a slot. -/
def SlotAllocation.covering (u : SlotAllocation) (slot : Nat) : Option Nat := u.coveringWith (fun _ => true) slot

/-- The lowest-numbered FREE record (R67). -/
def SlotAllocation.lowestFree (u : SlotAllocation) : Option Nat :=
  (List.range 32).find? fun r => u.recs.get r == .free

/-! ## The free set -/

/-- An output slot is free when it is IDLE in both views and no HELD or BOUND record covers it (R65). -/
def State.isFree (s : State) (slot : Nat) : Bool :=
  s.activeEntry slot == .idle && s.effective slot == .idle && (s.sau.covering slot).isNone

end Sys2Proof.Machine
end

