-- ==== Sys2Proof/Machine/Staging.lean ====
section
/-! DEFINITION. The staging commands CONNECT, SET CONSTANT, SET TEST and DISCONNECT (sections 3.2 and 4.6). -/

namespace Sys2Proof.Machine

/-- The staged entries of a command: target slot and entry, in member order from the head (R40). -/
abbrev Plan := List (Nat × Entry)

/-- The plan of a run of `width` slots from flat slot `head`, member i with entry `entry i`. -/
def planOf (head width : Nat) (entry : Nat → Entry) : Plan := (List.range width).map fun i => (head + i, entry i)

/-- The four cases of R40. -/
inductive Treatment where
  | placed | unchanged | superseded | withdrawn
  deriving DecidableEq, Repr

/-- Which case of R40 applies to one target slot. -/
def treatmentOf (active : Table Entry 10) (j : List JournalEntry) (p : Nat × Entry) : Treatment :=
  match (journalGet j p.1).isSome, p.2 == active.get p.1 with
  | false, false => .placed
  | false, true => .unchanged
  | true, false => .superseded
  | true, true => .withdrawn

/-- The journal after one target slot is treated by R40. Of several entries for one slot, which only too short a reset
leaves, all are superseded or withdrawn, while R41 and the result words count one: a DESIGN CHOICE (log 19). -/
def treat (active : Table Entry 10) (j : List JournalEntry) (p : Nat × Entry) : List JournalEntry :=
  match treatmentOf active j p with
  | .placed => j ++ [⟨p.1, p.2⟩]
  | .unchanged => j
  | .superseded => j.map fun e => if e.slot = p.1 then ⟨p.1, p.2⟩ else e
  | .withdrawn => j.filter fun e => e.slot ≠ p.1

/-- The journal after a staging command (R40). The target slots are distinct, so treating them one after another is
treating each against the journal before the command. -/
def treatAll (active : Table Entry 10) (j : List JournalEntry) (plan : Plan) : List JournalEntry :=
  plan.foldl (treat active) j

/-- How many target slots a case of R40 applies to, on the journal before the command. -/
def countTreated (active : Table Entry 10) (j : List JournalEntry) (plan : Plan) (c : Treatment) : Nat :=
  plan.countP fun p => treatmentOf active j p == c

/-- The final size of the journal (R41). -/
def finalSize (active : Table Entry 10) (j : List JournalEntry) (plan : Plan) : Nat :=
  j.length + countTreated active j plan .placed - countTreated active j plan .withdrawn

/-- One target slot in the fan-out table: down for its effective source before, up for its source after (R30). -/
def fanStep (s : State) (fan : Table Nat 10) (p : Nat × Entry) : Table Nat 10 :=
  fanUp (fanDown fan (s.effective p.1).source?) p.2.source?

/-- The fan-out table after a staging command (R30). -/
def fanAfter (s : State) (plan : Plan) : Table Nat 10 := plan.foldl (fanStep s) s.cm.fanout

/-- The first source, in member order, whose counter would end above FOLIM and above its value before (R33). Only a
source that the plan stages can rise, and the sources of a connection ascend, so it is the lowest such input slot
(log 12). -/
def fanExceeded (s : State) (plan : Plan) : Option Nat :=
  (plan.filterMap (·.2.source?)).find? fun u =>
    s.cm.folim.toNat < (fanAfter s plan).get u && s.cm.fanout.get u < (fanAfter s plan).get u

/-- What the reservation check answers (R77): the record to bind, or the code's RES1 and RES2. -/
inductive ClaimCheck where
  | passed (record : Option Nat)
  | slotReserved (slot record : Nat)
  | notReserved (slot record : Nat)
  deriving DecidableEq, Repr

/-- Part 1 of the reservation check: the first target slot covered under another tag, and the record (R77). -/
def foreignClaim (u : SlotAllocation) (tag : Word) (slots : List Nat) : Option (Nat × Nat) :=
  slots.findSome? fun t => (u.coveringWith (fun c => c.tag != tag) t).map fun r => (t, r)

/-- The reservation check on the target slots (R77): part 1, then part 2 when the tag is not 0. Of several records of the
tag over the head, which only too short a reset leaves, the lowest-numbered alone is looked at: a DESIGN CHOICE (log
19). -/
def claimCheck (u : SlotAllocation) (tag : Word) (slots : List Nat) : ClaimCheck :=
  match foreignClaim u tag slots with
  | some (t, r) => .slotReserved t r
  | none =>
    if tag = 0 then .passed none
    else
      match slots with
      | [] => .passed none
      | head :: _ =>
        match u.coveringWith (fun c => c.tag == tag) head with
        | none => .notReserved head 32
        | some r =>
          match slots.find? fun t => !u.coversWith (fun c => c.tag == tag) t r with
          | some t => .notReserved t r
          | none => .passed (some r)

/-- Some slot that the claim covers has a journal entry. -/
def Claim.inJournal (c : Claim) (j : List JournalEntry) : Bool := j.any fun e => c.covers e.slot

/-- The record of a tagged command that completes with OK: BOUND if a slot it covers has a journal entry, HELD
otherwise; a record that goes from BOUND to HELD starts its lease anew (R79). -/
def rebind (j : List JournalEntry) (r : Reservation) : Reservation :=
  match r with
  | .free => .free
  | .held c => if c.inJournal j then .bound c else .held c
  | .bound c => if c.inJournal j then .bound c else .held { c with remaining := c.lease }

/-- The binding of R79 on the record that the check found. -/
def SlotAllocation.bind (u : SlotAllocation) (j : List JournalEntry) (record : Option Nat) : SlotAllocation :=
  match record with
  | some r => { u with recs := u.recs.set r (rebind j (u.recs.get r)) }
  | none => u

/-- A staging command refused (R51): RES0 the journal count, RES1 and RES2 as its code has them. -/
def refuseStaging (code : Completion) (r1 r2 : Word) (s : State) : State := complete code s.jcnt r1 r2 0 s

/-- The head of engine `n`'s TEST connection in the effective view (R24, R48, R51). After too short a reset alone there
can be several, of which the lowest slot is taken, and a member index `m` above the slot, where `i - m` on the flat index
lies in the stream before, or is 0: DESIGN CHOICES (log 19). -/
def State.effectiveTestHead (s : State) (n : Nat) : Option Nat :=
  (lowestSlot fun i => (s.effective i).engine? == some n).map fun i =>
    match (s.effective i).place? with
    | some (_, m) => i - m
    | none => i

/-- Check 5: the first target slot that is not effective IDLE (R46). -/
def firstBusy (s : State) (plan : Plan) : Option Nat := (plan.map (·.1)).find? fun t => s.effective t != .idle

/-- Check 7: the head of the TEST connection that the engine already has (R48). -/
def engineInUse (s : State) (engine : Option Nat) : Option Nat := engine.bind s.effectiveTestHead

/-- A staging command whose checks 1 to 8 have passed: journal, fan-out and reservation change as one step, and the
result words count the cases (R40, R30, R79, R51). -/
def stageOk (plan : Plan) (record : Option Nat) (s : State) : State :=
  let j := treatAll s.cm.active s.cj.journal plan
  complete .ok (word j.length) (word (countTreated s.cm.active s.cj.journal plan .placed))
    (word (countTreated s.cm.active s.cj.journal plan .superseded))
    (word (countTreated s.cm.active s.cj.journal plan .withdrawn))
    { s with cm := { s.cm with fanout := fanAfter s plan }, cj := { s.cj with journal := j }, sau := s.sau.bind j record }

/-- Checks 4 to 8 of Table 3-1 and the effect. `needIdle` makes check 5, `engine` makes check 7. -/
def stage (plan : Plan) (tag : Word) (needIdle : Bool) (engine : Option Nat) (s : State) : State :=
  match claimCheck s.sau tag (plan.map (·.1)) with
  | .slotReserved t r => refuseStaging .slotReserved (word t) (word r) s
  | .notReserved t r => refuseStaging .notReserved (word t) (word r) s
  | .passed record =>
    match (if needIdle then firstBusy s plan else none) with
    | some t => refuseStaging .slotsBusy (word t) 0 s
    | none =>
      match fanExceeded s plan with
      | some u => refuseStaging .fanoutExceeded (word u) 0 s
      | none =>
        match engineInUse s engine with
        | some h => refuseStaging .engineInUse (word h) 0 s
        | none =>
          if 64 < finalSize s.cm.active s.cj.journal plan then
            refuseStaging .journalFull (word (finalSize s.cm.active s.cj.journal plan)) 0 s
          else stageOk plan record s

/-- Checks 1 and 2 of Table 3-1: `plan` is absent when a parameter is illegal (R44, R45). -/
def stageChecked (plan : Option Plan) (tag : Word) (engine : Option Nat) (s : State) : State :=
  match plan with
  | none => refuseStaging .badParameter 0 0 s
  | some plan =>
    if s.cj.commit.isSome then refuseStaging .commitPending 0 0 s else stage plan tag true engine s

/-- The plan of CONNECT (R44, R46): member i from source slot u + i. -/
def connectPlan (p : Params) : Option Plan :=
  let w := p.p2.toNat
  match pathDelay p.p3, pathInvert p.p3, pathConditioning p.p3 with
  | some d, some inv, some c =>
    if runOk (streamField p.p0) (slotField p.p0) w ∧ runOk (streamField p.p1) (slotField p.p1) w ∧
        ¬(2 ≤ w ∧ d = .minimum) ∧ tagOk p.p5 then
      some (planOf (flat (streamField p.p0) (slotField p.p0)) w fun i =>
        .switched (flat (streamField p.p1) (slotField p.p1) + i) d inv c w i)
    else none
  | _, _, _ => none

/-- The plan of SET CONSTANT (R44, R47). -/
def constantPlan (p : Params) : Option Plan :=
  let w := p.p2.toNat
  if runOk (streamField p.p0) (slotField p.p0) w ∧ p.p4.toNat ≤ 0xFF ∧ tagOk p.p5 then
    some (planOf (flat (streamField p.p0) (slotField p.p0)) w fun i => .constant (p.p4.setWidth 8) w i)
  else none

/-- The plan of SET TEST (R44, R48). -/
def testPlan (p : Params) : Option Plan :=
  let w := p.p2.toNat
  if runOk (streamField p.p0) (slotField p.p0) w ∧ p.p4.toNat ≤ 3 ∧ tagOk p.p5 then
    some (planOf (flat (streamField p.p0) (slotField p.p0)) w fun i => .test p.p4.toNat w i)
  else none

/-- The effect of DISCONNECT (R44, R45, R49): checks 1 to 3, then the IDLE entries of the effective connection. Where its
width runs past slot 63, which only too short a reset leaves, the target slots run on by flat index into the next stream:
a DESIGN CHOICE (log 19). -/
def disconnect (p : Params) (s : State) : State :=
  if streamField p.p0 ≤ 15 ∧ slotField p.p0 ≤ 63 ∧ tagOk p.p5 then
    if s.cj.commit.isSome then refuseStaging .commitPending 0 0 s
    else
      let head := flat (streamField p.p0) (slotField p.p0)
      match (s.effective head).place? with
      | none => refuseStaging .slotIdle 0 0 s
      | some (w, m) =>
        if m ≠ 0 then refuseStaging .partOfWide 0 0 s
        else stage (planOf head w fun _ => .idle) p.p5 false none s
  else refuseStaging .badParameter 0 0 s

/-- CONNECT completes (R43, R46). -/
def execConnect (s : State) : Answer :=
  completion codeConnect s fun p => stageChecked (connectPlan p) p.p5 none

/-- SET CONSTANT completes (R43, R47). -/
def execSetConstant (s : State) : Answer :=
  completion codeSetConstant s fun p => stageChecked (constantPlan p) p.p5 none

/-- SET TEST completes (R43, R48). -/
def execSetTest (s : State) : Answer :=
  completion codeSetTest s fun p => stageChecked (testPlan p) p.p5 (some p.p4.toNat)

/-- DISCONNECT completes (R43, R49). -/
def execDisconnect (s : State) : Answer := completion codeDisconnect s disconnect

end Sys2Proof.Machine
end

