-- ==== Sys2Proof/Machine/Commits.lean ====
section
/-! DEFINITION. COMMIT, CANCEL, DISCARD and the application of a commit (sections 3.3 to 3.5). -/

namespace Sys2Proof.Machine

/-- COMMIT (R53). -/
def commitCommand (p : Params) (s : State) : State :=
  match triggerOf p.p0 p.p1 with
  | none => complete .badParameter s.jcnt 0 0 0 s
  | some t =>
    if s.cj.commit.isSome then complete .commitPending s.jcnt 0 0 0 s
    else complete .ok s.jcnt (s.cj.cseq + 1) 0 0 { s with cj := { s.cj with commit := some t } }

/-- CANCEL (R60): the journal and the BOUND records stay. -/
def cancelCommand (s : State) : State :=
  if s.cj.commit.isSome then complete .ok s.jcnt 0 0 0 { s with cj := { s.cj with commit := none } }
  else complete .noCommitPending s.jcnt 0 0 0 s

/-- A BOUND record returns to HELD with a fresh lease at DISCARD (R80). -/
def Reservation.unbind : Reservation → Reservation
  | .bound c => .held { c with remaining := c.lease }
  | r => r

/-- A BOUND record is freed by commit application (R81). -/
def Reservation.applied : Reservation → Reservation
  | .bound _ => .free
  | r => r

/-- Every record changed by `f`. -/
def SlotAllocation.mapRecs (u : SlotAllocation) (f : Reservation → Reservation) : SlotAllocation :=
  { u with recs := .tabulate 5 fun r => f (u.recs.get r) }

/-- DISCARD (R61, R80). R61 names no result word for its refusal, so all are 0 there (log 11). R61 also says that a
DISCARD of an empty journal changes no counter and no record: where too short a reset has left counters that differ from
the recount, or a BOUND record without a journal entry, it recomputes and unbinds all the same, a DESIGN CHOICE (log
19). -/
def discardCommand (s : State) : State :=
  if s.cj.commit.isSome then complete .commitPending 0 0 0 0 s
  else
    complete .ok s.jcnt 0 0 0
      { s with cj := { s.cj with journal := [] }, cm := { s.cm with fanout := recount s.cm.active },
               sau := s.sau.mapRecs Reservation.unbind }

/-- COMMIT completes (R53). -/
def execCommit (s : State) : Answer := completion codeCommit s commitCommand

/-- CANCEL completes (R60). -/
def execCancel (s : State) : Answer := completion codeCancel s fun _ => cancelCommand

/-- DISCARD completes (R61). -/
def execDiscard (s : State) : Answer := completion codeDiscard s fun _ => discardCommand

/-! ## Application at a frame start -/

/-- The trigger is met at the frame start that takes FCNT to `f`, with CSTROBE sampled there (R54 to R56). -/
def triggerMet (t : Trigger) (f : Word) (cstrobe : Bool) : Bool :=
  match t with
  | .next => true
  | .atFrame target => target == f
  | .onStrobe => cstrobe

/-- A commit is applied at the frame start that takes FCNT to `f` (R52). -/
def CommitController.due (c : CommitController) (f : Word) (cstrobe : Bool) : Bool :=
  match c.commit with
  | some t => triggerMet t f cstrobe
  | none => false

/-- Every journal entry written into its slot (R57). Of two entries for one slot, which only too short a reset leaves, the
last one stays: a DESIGN CHOICE (log 19). -/
def applyJournal (active : Table Entry 10) (j : List JournalEntry) : Table Entry 10 :=
  j.foldl (fun m e => m.set e.slot e.entry) active

/-- The hold bytes after an application: every slot whose active entry changes takes the idle code in force (R99). -/
def applyHold (idle : Byte) (old new : Table Entry 10) (hold : Table Byte 10) : Table Byte 10 :=
  .tabulate 10 fun i => if new.get i = old.get i then hold.get i else idle

/-- The application of the pending commit at the frame start at which FCNT has become `s.fcnt` (R57, R81, R99). The
runs that it ends are ended by the frame start that carries it (R131, Machine/FrameStart.lean). R57 also says that an
empty commit frees no reservation: where too short a reset has left a BOUND record without a journal entry, it is freed
all the same, a DESIGN CHOICE (log 19). -/
def applyCommit (s : State) : State :=
  let active := applyJournal s.cm.active s.cj.journal
  raise srcCommitDone
    { s with cm := { s.cm with active := active }
             cj := { journal := [], commit := none, cseq := s.cj.cseq + 1, lcf := s.fcnt }
             sau := s.sau.mapRecs Reservation.applied
             hold := applyHold s.oa.idleInForce s.cm.active active s.hold }

end Sys2Proof.Machine
end

