-- ==== Sys2Proof/Machine/Slots.lean ====
section
/-! DEFINITION. RESERVE, HUNT, RELEASE, RENEW, the countdown of leases and the expiry flags (chapter 4). -/

namespace Sys2Proof.Machine

/-- A new HELD record over a run: the remaining count is the lease (R67, R69). -/
def newClaim (stream first width : Nat) (tag lease : Word) : Claim :=
  { stream := stream, first := first, width := width, tag := tag, lease := lease, remaining := lease }

/-- Record `r` replaced. -/
def State.setRec (s : State) (r : Nat) (x : Reservation) : State :=
  { s with sau := { s.sau with recs := s.sau.recs.set r x } }

/-- The first slot of a run that is not free (R69). -/
def firstNotFree (s : State) (stream first width : Nat) : Option Nat :=
  ((List.range width).map fun i => flat stream first + i).find? fun t => !s.isFree t

/-- Why a slot is not free: RES2 and RES3 of RESERVE's SLOTS_BUSY (R69). -/
def busyReason (s : State) (slot : Nat) : Word × Word :=
  if s.activeEntry slot ≠ .idle then (1, 0)
  else if (journalGet s.cj.journal slot).isSome then (2, 0)
  else (3, word ((s.sau.covering slot).getD 0))

/-- RESERVE (R69). -/
def reserveCommand (p : Params) (s : State) : State :=
  let stream := streamField p.p0
  let first := slotField p.p0
  let width := p.p2.toNat
  if runOk stream first width ∧ claimTagOk p.p5 ∧ p.p3 ≠ 0 then
    match firstNotFree s stream first width with
    | some t => complete .slotsBusy 0 (word t) (busyReason s t).1 (busyReason s t).2 s
    | none =>
      match s.sau.lowestFree with
      | none => complete .reservationsFull 0 0 0 0 s
      | some r =>
        complete .ok (word r) (word (flat stream first)) 0 0
          (s.setRec r (.held (newClaim stream first width p.p5 p.p3)))
  else complete .badParameter 0 0 0 0 s

/-- The candidate first slots of HUNT in one stream, ascending (R71). -/
def candidates (start width align : Nat) : List Nat :=
  (List.range 64).filter fun q => start ≤ q && q % align == 0 && q + width ≤ 64

/-- A candidate is accepted when all its slots are free (R71). -/
def accepted (s : State) (stream width q : Nat) : Bool := (firstNotFree s stream q width).isNone

/-- The search of HUNT: streams of the mask ascending, candidates ascending (R71). -/
def huntSearch (s : State) (mask : Word) (start width align : Nat) : Option (Nat × Nat) :=
  ((List.range 16).filter fun st => mask.getLsbD st).findSome? fun st =>
    ((candidates start width align).find? fun q => accepted s st width q).map fun q => (st, q)

/-- The parameter check of HUNT (R70). -/
def huntOk (p : Params) : Bool :=
  p.p0 ≠ 0 && 1 ≤ p.p2.toNat && p.p2.toNat ≤ 16 && p.p1.toNat ≤ 63 && alignmentOk (alignmentField p.p4) &&
    (!reserveField p.p4 || (claimTagOk p.p5 && p.p3 ≠ 0))

/-- HUNT (R70 to R72). -/
def huntCommand (p : Params) (s : State) : State :=
  if huntOk p then
    match huntSearch s p.p0 p.p1.toNat p.p2.toNat (alignmentField p.p4) with
    | none => complete .noneFree 0 0 0 0 s
    | some (st, q) =>
      if reserveField p.p4 then
        match s.sau.lowestFree with
        | none => complete .reservationsFull 0 0 0 0 s
        | some r =>
          complete .ok (word st) (word q) (word (flat st q)) (word r)
            (s.setRec r (.held (newClaim st q p.p2.toNat p.p5 p.p3)))
      else complete .ok (word st) (word q) (word (flat st q)) 0xFFFF s
  else complete .badParameter 0 0 0 0 s

/-- RELEASE (R74). RES0 is the record number in every case. -/
def releaseCommand (p : Params) (s : State) : State :=
  if p.p0.toNat ≤ 31 ∧ claimTagOk p.p5 then
    match s.sau.recs.get p.p0.toNat with
    | .free => complete .notReserved p.p0 0 0 0 s
    | .bound c => if c.tag ≠ p.p5 then complete .tagMismatch p.p0 0 0 0 s else complete .bound p.p0 0 0 0 s
    | .held c =>
      if c.tag ≠ p.p5 then complete .tagMismatch p.p0 0 0 0 s
      else complete .ok p.p0 0 0 0 (s.setRec p.p0.toNat .free)
  else complete .badParameter p.p0 0 0 0 s

/-- RENEW (R75). -/
def renewCommand (p : Params) (s : State) : State :=
  if p.p0.toNat ≤ 31 ∧ claimTagOk p.p5 ∧ p.p3 ≠ 0 then
    match s.sau.recs.get p.p0.toNat with
    | .free => complete .notReserved p.p0 0 0 0 s
    | .bound c => if c.tag ≠ p.p5 then complete .tagMismatch p.p0 0 0 0 s else complete .bound p.p0 0 0 0 s
    | .held c =>
      if c.tag ≠ p.p5 then complete .tagMismatch p.p0 0 0 0 s
      else complete .ok p.p0 p.p3 0 0 (s.setRec p.p0.toNat (.held { c with lease := p.p3, remaining := p.p3 }))
  else complete .badParameter p.p0 0 0 0 s

/-- RESERVE completes (R69). -/
def execReserve (s : State) : Answer := completion codeReserve s reserveCommand

/-- HUNT completes (R70 to R72). -/
def execHunt (s : State) : Answer := completion codeHunt s huntCommand

/-- RELEASE completes (R74). -/
def execRelease (s : State) : Answer := completion codeRelease s releaseCommand

/-- RENEW completes (R75). -/
def execRenew (s : State) : Answer := completion codeRenew s renewCommand

/-! ## Leases at a frame start -/

/-- A HELD record whose remaining count reaches 0 at the next frame start (R82). -/
def Reservation.expires : Reservation → Bool
  | .held c => c.remaining - 1 == 0
  | _ => false

/-- A record after a frame start's countdown (R82). -/
def Reservation.countDown : Reservation → Reservation
  | .held c => if c.remaining - 1 = 0 then .free else .held { c with remaining := c.remaining - 1 }
  | r => r

/-- Some record expires at the next frame start. -/
def SlotAllocation.expiryDue (u : SlotAllocation) : Bool := (List.range 32).any fun r => (u.recs.get r).expires

/-- The expiry flags after the countdown (R82, R83). -/
def SlotAllocation.expiryFlags (u : SlotAllocation) : BitVec 32 :=
  (List.range 32).foldl (fun f r => if (u.recs.get r).expires then f ||| (1#32 <<< r) else f) u.expf

/-- The countdown of leases at a frame start: one RESERVATION_EXPIRED however many records expire (R82). -/
def leaseCountdown (s : State) : State :=
  raiseIf s.sau.expiryDue srcReservationExpired
    { s with sau := { recs := .tabulate 5 fun r => (s.sau.recs.get r).countDown, expf := s.sau.expiryFlags } }

end Sys2Proof.Machine
end

