-- ==== Sys2Proof/Machine/Supervision.lean ====
section
/-! DEFINITION. The stream supervisors and their settings (sections 5.1 and 5.2). -/

namespace Sys2Proof.Machine

/-- Faulted for conditioning and SVSTAT (Table 5-1): FAULT or RECOVERING. -/
def SvState.faulted : SvState → Bool
  | .clear => false
  | .suspect _ => false
  | .fault => true
  | .recovering _ => true

/-- A supervisor at an asserted sample (Table 5-2). -/
def SvState.asserted (decl : BitVec 4) : SvState → SvState
  | .clear => if decl = 1 then .fault else .suspect 1
  | .suspect k => if decl.toNat ≤ k.toNat + 1 then .fault else .suspect (k + 1)
  | .fault => .fault
  | .recovering _ => .fault

/-- A supervisor at a deasserted sample (Table 5-2). -/
def SvState.deasserted (clrc : Byte) : SvState → SvState
  | .clear => .clear
  | .suspect _ => .clear
  | .fault => if clrc = 1 then .clear else .recovering 1
  | .recovering k => if clrc.toNat ≤ k.toNat + 1 then .clear else .recovering (k + 1)

/-- A supervisor at a sample (R90). -/
def SvState.sample (decl : BitVec 4) (clrc : Byte) (input : Bool) (st : SvState) : SvState :=
  if input then st.asserted decl else st.deasserted clrc

/-- A move that raises STREAM_CHANGE: into FAULT from another state, or into CLEAR from FAULT or RECOVERING (R90,
R92). -/
def SvState.changes (old new : SvState) : Bool :=
  (new == .fault && old != .fault) || (new == .clear && old.faulted)

/-- The input of supervisor `i`: its SF line or its force bit (R89). -/
def Supervisors.input (v : Supervisors) (sf : Word) (i : Nat) : Bool := sf.getLsbD i || v.svfrc.getLsbD i

/-- Supervisor `i` after a frame start's sample; a disabled one takes none (R89). That a disabled one outside CLEAR, which
only too short a reset leaves, keeps its state is a DESIGN CHOICE (log 19). -/
def Supervisors.sampled (v : Supervisors) (sf : Word) (i : Nat) : Supervisor :=
  if v.sven.getLsbD i then
    { state := (v.sups.get i).state.sample v.decl v.clrc (v.input sf i), lastSample := some (v.input sf i) }
  else v.sups.get i

/-- The STREAM_CHANGE events of the streams for which `p` holds (R92). -/
def raiseStreams (p : Nat → Bool) (s : State) : State :=
  (List.range 16).foldl (fun s i => raiseIf (p i) (srcStreamChange i) s) s

/-- The samples of a frame start (R89, R90, R92). -/
def sampleSupervisors (sf : Word) (s : State) : State :=
  raiseStreams (fun i => (s.sv.sups.get i).state.changes (s.sv.sampled sf i).state)
    { s with sv := { s.sv with sups := .tabulate 4 fun i => s.sv.sampled sf i } }

/-- Bit `i` of SVEN goes from 1 to 0 at a write (R93). -/
def Supervisors.disabledBy (v : Supervisors) (value : Word) (i : Nat) : Bool :=
  v.sven.getLsbD i && !value.getLsbD i

/-- A write of SVEN (R93): a supervisor it disables moves to CLEAR with its last sample absent, and raises
STREAM_CHANGE if it was in FAULT or RECOVERING. That one it enables keeps a state outside CLEAR, or a last sample, which
only too short a reset leaves, is a DESIGN CHOICE (log 19). -/
def writeSven (value : Word) (s : State) : State :=
  raiseStreams (fun i => s.sv.disabledBy value i && (s.sv.sups.get i).state.faulted)
    { s with sv := { s.sv with
        sven := value
        sups := .tabulate 4 fun i =>
          if s.sv.disabledBy value i then { state := .clear, lastSample := none } else s.sv.sups.get i } }

/-- A write of SVFRC (R94). -/
def writeSvfrc (value : Word) (s : State) : State := { s with sv := { s.sv with svfrc := value } }

/-- A write of SVTHR (R91): DECL in bits 3:0, CLRC in bits 15:8, each replaced unless it is 0. -/
def writeSvthr (value : Word) (s : State) : State :=
  let d : BitVec 4 := value.setWidth 4
  let c : Byte := (value >>> 8).setWidth 8
  { s with sv := { s.sv with decl := if d = 0 then s.sv.decl else d, clrc := if c = 0 then s.sv.clrc else c } }

/-- SVEN_WRITE (R93). -/
def execSvenWrite (value : Word) (s : State) : Answer := taken s (writeSven value)

/-- SVFRC_WRITE (R94). -/
def execSvfrcWrite (value : Word) (s : State) : Answer := taken s (writeSvfrc value)

/-- SVTHR_WRITE (R91). -/
def execSvthrWrite (value : Word) (s : State) : Answer := taken s (writeSvthr value)

end Sys2Proof.Machine
end

