-- ==== Sys2Proof/Machine/Patterns.lean ====
section
/-! DEFINITION. The sequences and the generators (chapter 6). -/

namespace Sys2Proof.Machine

/-- Order and second tap of a PRBS: b(n) = b(n − S) XOR b(n − T) (Table 6-2). WORD has neither. -/
def Pattern.taps : Pattern → Option (Nat × Nat)
  | .prbs9 => some (9, 5)
  | .prbs23 => some (23, 18)
  | .prbs31 => some (31, 28)
  | .word => none

/-- The next bit of a PRBS, bit k − 1 of the register being the bit k places back (R108). -/
def prbsBit (order tap : Nat) (reg : BitVec 31) : Bool := reg.getLsbD (order - 1) ^^ reg.getLsbD (tap - 1)

/-- The register once a further bit has been produced (R107). -/
def pushBit (reg : BitVec 31) (b : Bool) : BitVec 31 := (reg <<< 1) ||| (if b then 1 else 0)

/-- The word bit at a word position: bit L − 1 − k of the word value (R109). -/
def EngineConfig.wordBit (c : EngineConfig) (k : Nat) : Bool := c.word.getLsbD (c.len - 1 - k)

/-- The word position after position `k`: 0 after L − 1 (R109). -/
def EngineConfig.nextPos (c : EngineConfig) (k : Nat) : Nat := if k + 1 < c.len then k + 1 else 0

/-- The next bit of the sequence, before inversion, and the sequence state after it (R107 to R109). -/
def nextBit (c : EngineConfig) (q : Sequence) : Bool × Sequence :=
  match c.pattern.taps with
  | some (order, tap) =>
    let b := prbsBit order tap q.reg
    (b, { q with reg := pushBit q.reg b })
  | none =>
    let b := c.wordBit q.wordPos
    (b, { reg := pushBit q.reg b, wordPos := c.nextPos q.wordPos })

/-- `k` further bits of the sequence, the first the most significant, shifted into `acc` (R110). -/
def takeBits (c : EngineConfig) : Nat → Byte → Sequence → Byte × Sequence
  | 0, acc, q => (acc, q)
  | k + 1, acc, q =>
    let r := nextBit c q
    takeBits c k ((acc <<< 1) ||| (if r.1 then 1 else 0)) r.2

/-- The next byte of the sequence, inverted where the configuration says so (R110). -/
def nextByte (c : EngineConfig) (q : Sequence) : Byte × Sequence :=
  let r := takeBits c 8 0 q
  (if c.invert then ~~~r.1 else r.1, r.2)

/-- Seeding (R108): the S latest bits become 1 and the word position 0. WORD has no seed bits (log 13). -/
def seedSequence (p : Pattern) (q : Sequence) : Sequence :=
  match p.taps with
  | some (order, _) => { reg := q.reg ||| BitVec.ofNat 31 (2 ^ order - 1), wordPos := 0 }
  | none => { q with wordPos := 0 }

/-- The run state of engine `n` is RUNNING. -/
def RunState.isRunning : RunState → Bool
  | .running _ => true
  | _ => false

/-- CONFIGURE ENGINE (R105). -/
def configureCommand (p : Params) (s : State) : State :=
  let n := configEngine p
  if n ≤ 3 then
    match configOf p with
    | none => complete .badParameter (word n) 0 0 0 s
    | some cfg =>
      match (s.engine n).run with
      | .idle => complete .ok (word n) 0 0 0 (s.setEngine n { s.engine n with cfg := cfg })
      | _ => complete .engineBusy (word n) (runCode (s.engine n)) 0 0 s
  else complete .badParameter 0 0 0 0 s

/-- INJECT (R114). -/
def injectCommand (p : Params) (s : State) : State :=
  let n := p.p0.toNat
  let c := p.p1.toNat
  if n ≤ 3 ∧ 1 ≤ c ∧ c ≤ 255 then
    if (s.engine n).run.isRunning then
      let total := (s.engine n).gen.pendingInj + c
      complete .ok (word n) (word (min total 255)) (word (total - 255)) 0
        (s.setEngine n { s.engine n with gen := { (s.engine n).gen with pendingInj := min total 255 } })
    else complete .engineNotRunning (word n) (runCode (s.engine n)) 0 0 s
  else complete .badParameter (if n ≤ 3 then word n else 0) 0 0 0 s

/-- CONFIGURE ENGINE completes (R105). -/
def execConfigureEngine (s : State) : Answer := completion codeConfigureEngine s configureCommand

/-- INJECT completes (R114). -/
def execInject (s : State) : Answer := completion codeInject s injectCommand

end Sys2Proof.Machine
end

