-- ==== Sys2Proof/Machine/Checkers.lean ====
section
/-! DEFINITION. The checkers (sections 7.1 and 7.2) and the frame-start work of an engine (R126). -/

namespace Sys2Proof.Machine

/-- S of a checker: the order of the PRBS, or L for WORD (R119). -/
def EngineConfig.seedLength (c : EngineConfig) : Nat :=
  match c.pattern.taps with
  | some (order, _) => order
  | none => c.len

/-- A register whose latest bits are those of a list, oldest first. -/
def regOfBits (bits : List Bool) : BitVec 31 := bits.foldl pushBit 0

/-- Rotation `k` of the word: positions k, …, L − 1, 0, …, k − 1 (R122). -/
def EngineConfig.rotation (c : EngineConfig) (k : Nat) : List Bool :=
  (List.range c.len).map fun i => c.wordBit ((k + i) % c.len)

/-- The reference that a full collection gives, if it gives one (R122). -/
def EngineConfig.candidate (c : EngineConfig) (bits : List Bool) : Option Reference :=
  match c.pattern.taps with
  | some _ => if bits.any id then some (.prbs (regOfBits bits)) else none
  | none => ((List.range c.len).find? fun k => c.rotation k == bits).map Reference.word

/-- The bit that a reference predicts, and the reference advanced by it (R123, R124). -/
def Reference.predict (c : EngineConfig) : Reference → Bool × Reference
  | .prbs reg =>
    match c.pattern.taps with
    | some (order, tap) => (prbsBit order tap reg, .prbs (pushBit reg (prbsBit order tap reg)))
    | none => (false, .prbs reg)
  | .word k => (c.wordBit k, .word (c.nextPos k))

/-- The checker's work within one frame start: the checker, the counters it changes, whether it has entered or left
LOCKED (R125) and whether it has entered LOCKED (R134). -/
structure CheckWork where
  checker : Checker
  bitErrors : BitVec 32
  syncLosses : Word
  changed : Bool
  entered : Bool
  deriving DecidableEq, Repr

/-- A bit taken in HUNTING (R122). A collection that holds S bits already, which only too short a reset leaves, takes the
bit too and all S + 1 bits are judged: a DESIGN CHOICE (log 19). -/
def huntBit (c : EngineConfig) (coll : List Bool) (b : Bool) : Checker :=
  let bits := coll ++ [b]
  if bits.length < c.seedLength then .hunting bits
  else
    match c.candidate bits with
    | some ref => .confirming ref 0
    | none => .hunting (bits.drop 1)

/-- A bit taken in CONFIRMING (R123). -/
def confirmBit (c : EngineConfig) (ref : Reference) (count : Nat) (b : Bool) : Checker :=
  if b = (ref.predict c).1 then
    if 64 ≤ count + 1 then .locked (ref.predict c).2 0 0 else .confirming (ref.predict c).2 (count + 1)
  else .hunting []

/-- A bit taken in LOCKED (R124): the reference runs freely; at 256 bits the block is evaluated. -/
def lockedBit (c : EngineConfig) (ref : Reference) (bits errs : Nat) (b : Bool) (w : CheckWork) : CheckWork :=
  let wrong := b != (ref.predict c).1
  let errs := if wrong then errs + 1 else errs
  let w := { w with bitErrors := if wrong then satInc w.bitErrors else w.bitErrors }
  if bits + 1 < 256 then { w with checker := .locked (ref.predict c).2 (bits + 1) errs }
  else if c.lossThreshold ≤ errs then
    { w with checker := .hunting [], syncLosses := satInc w.syncLosses, changed := true }
  else { w with checker := .locked (ref.predict c).2 0 0 }

/-- The checker takes one received bit (R122 to R124). -/
def checkBit (c : EngineConfig) (w : CheckWork) (b : Bool) : CheckWork :=
  match w.checker with
  | .off => w
  | .hunting coll => { w with checker := huntBit c coll b }
  | .confirming ref count =>
    let k := confirmBit c ref count b
    if k.name = .locked then { w with checker := k, changed := true, entered := true } else { w with checker := k }
  | .locked ref bits errs => lockedBit c ref bits errs b w

/-- The bits of a byte, most significant first, complemented where the configuration inverts (R120). -/
def receivedBits (invert : Bool) (byte : Byte) : List Bool :=
  [7, 6, 5, 4, 3, 2, 1, 0].map fun k => byte.getLsbD k ^^ invert

/-- The bits that a frame start presents to the checker: its slots in ascending order (R120). Where the width runs past
slot 63, which only too short a reset leaves, they run on by flat index into the next stream: a DESIGN CHOICE (log
19). -/
def checkedBits (c : EngineConfig) (completed : Table Byte 10) : List Bool :=
  (List.range c.chkWidth).flatMap fun i => receivedBits c.invert (completed.get (flat c.chkStream c.chkSlot + i))

/-- A fault frame (R121): no bit is taken; from LOCKED it is a sync loss. -/
def faultFrame (w : CheckWork) : CheckWork :=
  match w.checker with
  | .off => w
  | .hunting _ => { w with checker := .hunting [] }
  | .confirming _ _ => { w with checker := .hunting [] }
  | .locked _ _ _ => { w with checker := .hunting [], syncLosses := satInc w.syncLosses, changed := true }

/-- What an engine's frame-start work gives: the engine, whether SYNC_CHANGE is raised, and whether the duration is
reached. -/
structure EngineWork where
  engine : Engine
  syncChange : Bool
  durationReached : Bool
  deriving DecidableEq, Repr

/-- The frames to which the duration limits a run, if it does (R129). -/
def EngineConfig.limit (c : EngineConfig) : Option Nat :=
  if c.duration = 0 then none
  else
    match c.unit with
    | .frames => some c.duration.toNat
    | .seconds => some (c.duration.toNat * 8000)

/-- Steps 2 and 3 of the frame-start work: what the checker does at a frame start (R120, R121, R126). -/
def checkerWork (c : EngineConfig) (first faulted : Bool) (completed : Table Byte 10) (w : CheckWork) : CheckWork :=
  if first then w
  else if faulted then faultFrame w
  else (checkedBits c completed).foldl (checkBit c) w

/-- The frame-start work of a RUNNING engine, as one step: frames run, the checker, the counters, the duration test
(R126). `faulted`: the supervisor of the checker stream, after its sample, is FAULT or RECOVERING (R121). -/
def engineWork (completed : Table Byte 10) (faulted : Bool) (e : Engine) : EngineWork :=
  let run := satInc e.live.framesRun
  let first := e.live.framesRun == 0
  let w := checkerWork e.cfg first faulted completed
    { checker := e.checker, bitErrors := e.live.bitErrors, syncLosses := e.live.syncLosses, changed := false,
      entered := false }
  let live : LiveCounters :=
    { framesRun := run
      framesLocked := if w.checker.name = .locked then satInc e.live.framesLocked else e.live.framesLocked
      bitErrors := w.bitErrors
      syncLosses := w.syncLosses
      faultFrames := if !first && faulted then satInc e.live.faultFrames else e.live.faultFrames
      errorsInjected := e.live.errorsInjected
      firstLock := if w.entered && e.live.firstLock.isNone then some run else e.live.firstLock }
  { engine := { e with checker := w.checker, live := live }, syncChange := w.changed,
    durationReached := e.cfg.limit == some run.toNat }

end Sys2Proof.Machine
end

