-- ==== Sys2Proof/Machine/Runs.lean ====
section
/-! DEFINITION. Test runs, the result queue, and START, STOP, SNAPSHOT and POP (sections 7.3 to 7.6). -/

namespace Sys2Proof.Machine

/-- The result record of engine `n` (R137). -/
def recordOf (n : Nat) (e : Engine) (startCseq : Word) (o : RunOutcome) : ResultRecord :=
  { engine := n, outcome := o, runSeq := e.lastRun, startCseq := startCseq, live := e.live }

/-- An engine whose run has ended: pending injections dropped, checker OFF, the live counters kept (R132). -/
def Engine.ended (e : Engine) (run : RunState) : Engine :=
  { e with gen := { e.gen with pendingInj := 0 }, checker := .off, run := run }

/-- A run ends with an outcome, as one step (R132): its record is appended to a queue with room and the engine is IDLE
(R138), or the engine enters ENDED and joins the backlog (R139). That it joins at the end also where too short a reset has
left it, or four engines, in the backlog already is a DESIGN CHOICE (log 19). -/
def endRun (n : Nat) (o : RunOutcome) (s : State) : State :=
  match (s.engine n).run with
  | .running c =>
    let r := recordOf n (s.engine n) c o
    if s.rq.queue.length < 8 then
      raise srcResultReady
        { s.setEngine n ((s.engine n).ended .idle) with rq := { s.rq with queue := s.rq.queue ++ [r] } }
    else
      raise srcResultBacklog
        { s.setEngine n ((s.engine n).ended (.ended r)) with rq := { s.rq with backlog := s.rq.backlog ++ [n] } }
  | _ => s

/-- START seeds the generator and starts the run of an engine (R127, R108). -/
def Engine.started (e : Engine) (runSeq cseq : Word) : Engine :=
  { e with live := .zero, lastRun := runSeq,
           gen := { seq := seedSequence e.cfg.pattern e.gen.seq, pendingInj := 0 },
           checker := .hunting [], run := .running cseq }

/-- A run that ended within the frame goes on supplying the frame's bytes from its own sequence state when START
reseeds the generator (R11, R111; log 7). -/
def keepTail (n : Nat) (s : State) : State :=
  match s.oa.emit.get n with
  | some em =>
    match em.tail with
    | none =>
      { s with oa := { s.oa with emit := s.oa.emit.set n (some { em with tail := some (s.engine n).gen.seq }) } }
    | some _ => s
  | none => s

/-- START (R127). -/
def startCommand (p : Params) (s : State) : State :=
  let n := p.p0.toNat
  if n ≤ 3 then
    match (s.engine n).run with
    | .idle =>
      if (s.engine n).cfg.chkWidth = 0 then complete .notConfigured (word n) 0 0 0 s
      else
        let runSeq := s.te.runCounter + 1
        let s1 := (keepTail n s).setEngine n ((s.engine n).started runSeq s.cj.cseq)
        complete .ok (word n) runSeq s.cj.cseq 0 { s1 with te := { s1.te with runCounter := runSeq } }
    | _ => complete .engineBusy (word n) (runCode (s.engine n)) 0 0 s
  else complete .badParameter 0 0 0 0 s

/-- STOP (R130). Its rule names RES0 for OK only (log 11). -/
def stopCommand (p : Params) (s : State) : State :=
  let n := p.p0.toNat
  if n ≤ 3 then
    if (s.engine n).run.isRunning then
      let s1 := endRun n .stopped s
      complete .ok (word n) (s.engine n).lastRun (word s1.rq.queue.length)
        (if (s1.engine n).run.name = .ended then 1 else 0) s1
    else complete .engineNotRunning 0 (runCode (s.engine n)) 0 0 s
  else complete .badParameter 0 0 0 0 s

/-- The copy that SNAPSHOT makes (R135). -/
def snapshotOf (e : Engine) (fcnt : Word) : Snapshot :=
  { live := e.live, runSeq := e.lastRun, run := e.run.name, checker := e.checker.name, fcnt := fcnt }

/-- SNAPSHOT (R135). -/
def snapshotCommand (p : Params) (s : State) : State :=
  let n := p.p0.toNat
  if n ≤ 3 then
    complete .ok (word n) (s.engine n).lastRun (runCode (s.engine n)) 0
      (s.setEngine n { s.engine n with snap := snapshotOf (s.engine n) s.fcnt })
  else complete .badParameter 0 0 0 0 s

/-- The engine that POP serves, with the record it holds: the first of the backlog (R141). That none is served where that
engine is not ENDED, which only a state that breaks law 10 shows, is a DESIGN CHOICE (log 19). -/
def State.served (s : State) : Option (Nat × ResultRecord) :=
  match s.rq.backlog with
  | [] => none
  | n :: _ =>
    match (s.engine n).run with
    | .ended r => some (n, r)
    | _ => none

/-- POP serves the first engine of the backlog (R141). -/
def serveBacklog (s : State) : State :=
  match s.served with
  | none => s
  | some (n, r) =>
    raise srcResultReady
      { s.setEngine n { s.engine n with run := .idle } with
          rq := { queue := s.rq.queue ++ [r], backlog := s.rq.backlog.tail } }

/-- POP (R140, R141): RES3 is the engine served, or FFFFh if none was. -/
def popCommand (s : State) : State :=
  match s.rq.queue with
  | [] => complete .queueEmpty 0 0 0 0 s
  | r :: rest =>
    let s1 := serveBacklog { s with rq := { s.rq with queue := rest } }
    complete .ok (word s1.rq.queue.length) (word r.engine) r.runSeq
      (match s.served with
        | none => 0xFFFF
        | some (n, _) => word n) s1

/-- START completes (R127). -/
def execStart (s : State) : Answer := completion codeStart s startCommand

/-- STOP completes (R130). -/
def execStop (s : State) : Answer := completion codeStop s stopCommand

/-- SNAPSHOT completes (R135). -/
def execSnapshot (s : State) : Answer := completion codeSnapshot s snapshotCommand

/-- POP completes (R140). -/
def execPop (s : State) : Answer := completion codePop s fun _ => popCommand

end Sys2Proof.Machine
end

