-- ==== Sys2Proof/Machine/BytePath.lean ====
section
/-! DEFINITION. The byte path: input capture and the formation of output slots (chapter 1, R111, R115). -/

namespace Sys2Proof.Machine

/-- The source byte of a SWITCHED slot `t` from input slot `src`: from the frame being received under MINIMUM when
u + 2 ≤ t, and from the completed frame otherwise (R12 to R14). -/
def sourceByte (r : ReceiveMemory) (src t : Nat) : Delay → Byte
  | .minimum => if slotOf src + 2 ≤ t then r.receiving.get src else r.completed.get src
  | .aligned => r.completed.get src

/-- The source byte, complemented where the entry inverts (R15). -/
def pathByte (invert : Bool) (b : Byte) : Byte := if invert then ~~~b else b

/-- The byte of a SWITCHED slot: its path byte, or the substitute that its conditioning selects while the frame state
of its source stream is FAULT or RECOVERING (R16, R97). -/
def switchedByte (s : State) (i src : Nat) (delay : Delay) (invert : Bool) (cond : Conditioning) : Byte :=
  let path := pathByte invert (sourceByte s.rfm src (slotOf i) delay)
  if (s.oa.frameState.get (streamOf src)).faulted then
    match cond with
    | .pass => path
    | .idleCode => s.oa.idleInForce
    | .allOnes => 0xFF
    | .hold => s.hold.get i
  else path

/-- One injection applied to a byte: its least significant bit complemented (R115). -/
def injected (b : Byte) : Byte := b ^^^ 1

/-- Engine `n` supplies a byte from its own sequence state, with an injection if one is pending (R111, R115), by the
configuration of the frame (log 7). That the engine is RUNNING is not asked again: a DESIGN CHOICE where too short a
reset has drawn the two apart (log 19). -/
def supplyByte (n : Nat) (em : Emission) (s : State) : Byte × State :=
  let e := s.engine n
  let r := nextByte em.cfg e.gen.seq
  if 0 < e.gen.pendingInj then
    (injected r.1,
      s.setEngine n { e with gen := { seq := r.2, pendingInj := e.gen.pendingInj - 1 },
                             live := { e.live with errorsInjected := satInc e.live.errorsInjected } })
  else (r.1, s.setEngine n { e with gen := { e.gen with seq := r.2 } })

/-- An ended run whose generator a later START has reseeded supplies a byte from the sequence it had reached, without
injection (R11, R111, R116; log 7). -/
def supplyTail (n : Nat) (em : Emission) (q : Sequence) (s : State) : Byte × State :=
  let r := nextByte em.cfg q
  (r.1, { s with oa := { s.oa with emit := s.oa.emit.set n (some { em with tail := some r.2 }) } })

/-- The byte of a TEST slot of engine `n`: the generator's if the engine was RUNNING after the frame start, the idle
code in force otherwise (R11, R111). Where the active map holds several TEST connections or loose TEST members for the
engine, which only too short a reset leaves, each such slot takes the next byte as it is formed: a DESIGN CHOICE (log
19). -/
def testByte (n : Nat) (s : State) : Byte × State :=
  match s.oa.emit.get n with
  | none => (s.oa.idleInForce, s)
  | some em =>
    match em.tail with
    | none => supplyByte n em s
    | some q => supplyTail n em q s

/-- The byte that the OA forms for output slot `i`, by the mode of its active entry (R9 to R12), each slot by its own
entry (log 14; also where too short a reset has left members that make no connection, log 19). -/
def slotByte (i : Nat) (s : State) : Byte × State :=
  match s.activeEntry i with
  | .idle => (s.oa.idleInForce, s)
  | .switched src delay invert cond _ _ => (switchedByte s i src delay invert cond, s)
  | .constant b _ _ => (b, s)
  | .test n _ _ => testByte n s

/-- The byte stored in the frame in progress; the slots up to it are not formed again in this frame (R4). -/
def putSlot (stream slot : Nat) (b : Byte) (s : State) : State :=
  { s with oa := { s.oa with frame := s.oa.frame.set (flat stream slot) (some b),
                             next := s.oa.next.set stream (slot + 1) } }

/-- The OA forms output slot OSstream:slot, once in a frame; a repeated frame forms nothing (R4, R8, R111, R113). -/
def formSlot (stream slot : Nat) (s : State) : State :=
  if s.oa.inProgress ∧ s.oa.next.get stream ≤ slot then
    let r := slotByte (flat stream slot) s
    putSlot stream slot r.1 r.2
  else s

/-! ## The order of the line (R5)

All streams are timed from one frame start: slot t of every output stream goes on the line when slot t of every input
stream is received. When the bytes of input slots u are complete, output slots u have been sent and output slots u + 2
have not been formed. The formation of slots u + 1 meets that moment, and which of the two stands first makes no
difference: no slot u + 1 takes a byte of slot u from the frame being received (R13). -/

/-- Output slot `t` of every output stream is formed, where it has not been. -/
def formColumn (t : Nat) (s : State) : State := (List.range 16).foldl (fun s st => formSlot st t s) s

/-- The slot before which every output slot of every stream has been formed. -/
def State.lineSlot (s : State) : Nat := (List.range 16).foldl (fun m o => min m (s.oa.next.get o)) 64

/-- Output slots 0 to `k` − 1 of every output stream are formed, slot after slot, where they have not been. -/
def formSlots (k : Nat) (s : State) : State :=
  (List.range' s.lineSlot (k - s.lineSlot)).foldl (fun s t => formColumn t s) s

/-- The line has passed the end of input slot `slot` of a stream in this pass: the stream's own byte of that slot or of a
later one has been captured, or an output slot from slot + 2 on has been formed, or a byte of a later slot has been
captured on another stream. A byte of that slot can then only come in a later pass, in which the frame is repeated (R4). -/
def State.passed (s : State) (stream slot : Nat) : Bool :=
  slot < s.rfm.captured.get stream ||
    (List.range 16).any fun o => slot + 2 < s.oa.next.get o || slot + 1 < s.rfm.captured.get o

/-- How many slots of each output stream have certainly been formed when the byte of an input slot is complete: those up
to that slot, which have been sent (R5), and all of them once the frame is being repeated (R4). -/
def State.formedBy (s : State) (stream slot : Nat) : Nat := if s.passed stream slot then 64 else slot + 1

/-- The byte of an input slot is complete and is written into the receiving frame, while a frame is in progress (R6,
R18); the output slots that the line has sent by then have been formed (R5). -/
def captureByte (stream slot : Nat) (byte : Byte) (s : State) : State :=
  if s.oa.inProgress then
    let f := formSlots (s.formedBy stream slot) s
    { f with rfm := { f.rfm with receiving := f.rfm.receiving.set (flat stream slot) byte,
                                 captured := f.rfm.captured.set stream (slot + 1) } }
  else s

/-- The line comes to output slot OSstream:slot: every earlier slot of every output stream has been formed (R5), and the
OA forms this one. A slot that the frame has already formed is only sent again (R4). -/
def formInOrder (stream slot : Nat) (s : State) : State :=
  if s.oa.next.get stream ≤ slot then formSlot stream slot (formSlots slot s) else s

/-- INPUT_BYTE_CAPTURE (R5, R6). -/
def execInputByteCapture (stream slot : Nat) (byte : Byte) (s : State) : Answer :=
  if placeOk stream slot then taken s (captureByte stream slot byte) else .fault .noSuchPlace

/-- OUTPUT_SLOT_FORMATION (R5, R111). -/
def execOutputSlotFormation (stream slot : Nat) (s : State) : Answer :=
  if placeOk stream slot then taken s (formInOrder stream slot) else .fault .noSuchPlace

/-- The byte that output stream lines carry for a slot: logic 1 in every bit while no frame is in progress (R18), and
the byte formed otherwise, also in a repeated frame (R4); absent before the slot is formed. -/
def State.lineByte (s : State) (stream slot : Nat) : Option Byte :=
  if s.oa.inProgress then s.oa.frame.get (flat stream slot) else some 0xFF

end Sys2Proof.Machine
end

