-- ==== Sys2Proof/Machine/FrameStart.lean ====
section
/-! DEFINITION. The frame start: what every block does when an FSYNC pulse is taken (R1). -/

namespace Sys2Proof.Machine

/-- FCNT advances (R2), and the pins show the levels that the event carries. -/
def beginFrame (e : FrameEvent) (s : State) : State :=
  { s with fcnt := s.fcnt + 1, pins := { sf := e.sf, cstrobe := e.cstrobe } }

/-- No output stream has formed a slot after slot `t`: the line is in slot `t` or before it. -/
def OutputAssembler.noneAfter (o : OutputAssembler) (t : Nat) : Bool := (List.range 16).all fun st => o.next.get st ≤ t + 1

/-- Output slot `i` was sent in full in the frame that ends: it was formed, and it is not in the slot that a short frame
cuts off (R3, R98, R113). That the frame holds a byte for it decides, also where too short a reset has drawn `frame` and
`next` apart: a DESIGN CHOICE (log 19). -/
def OutputAssembler.sentInFull (o : OutputAssembler) (cut : Bool) (i : Nat) : Bool :=
  (o.frame.get i).isSome && !(cut && o.noneAfter (slotOf i))

/-- The hold byte of slot `i` that the Hold Store writes at a frame start: the byte sent, for a SWITCHED slot whose
source's frame state was CLEAR; otherwise the byte it holds (R98). -/
def heldByte (s : State) (cut : Bool) (i : Nat) : Byte :=
  match s.activeEntry i with
  | .switched src _ _ _ _ _ =>
    if s.oa.frameState.get (streamOf src) = .clear ∧ s.oa.sentInFull cut i then (s.oa.frame.get i).getD (s.hold.get i)
    else s.hold.get i
  | _ => s.hold.get i

/-- The Hold Store's update at a frame start (R98), by the map, frame states and bytes of the frame that ends. -/
def updateHold (cut : Bool) (s : State) : State := { s with hold := .tabulate 10 (heldByte s cut) }

/-- The completed frames become copies of the receiving frames (R7), and the line stands before slot 0 (R5). -/
def completeFrames (s : State) : State :=
  { s with rfm := { s.rfm with completed := s.rfm.receiving, captured := .replicate 4 0 } }

/-- The idle code in force for the new frame (R17). -/
def takeIdleCode (s : State) : State := { s with oa := { s.oa with idleInForce := s.oa.idlec } }

/-- The active map holds a TEST connection for engine `n` (R25, R131). That a loose TEST member, which only too short a
reset leaves, counts as one is a DESIGN CHOICE (log 19). -/
def State.hasTest (s : State) (n : Nat) : Bool := (lowestSlot fun i => (s.activeEntry i).engine? == some n).isSome

/-- What happens to one engine at a frame start: the engine, whether it raises SYNC_CHANGE, and the outcome with which
its run ends there, if it does. -/
structure EngineStart where
  engine : Engine
  syncChange : Bool
  outcome : Option RunOutcome
  deriving DecidableEq, Repr

/-- The frame-start work of a RUNNING engine and its duration test (R126, R129). -/
def workStart (completed : Table Byte 10) (faulted : Bool) (e : Engine) : EngineStart :=
  let w := engineWork completed faulted e
  { engine := w.engine, syncChange := w.syncChange, outcome := if w.durationReached then some .completed else none }

/-- One engine at a frame start. `removed`: a commit is applied there and leaves no TEST connection for the engine.
With the application first, the run ends and no frame-start work is done; with the work first, the frame start is
counted, and the run ends COMPLETED if its duration is reached and PATH_REMOVED otherwise (R131). -/
def engineStart (completed : Table Byte 10) (faulted removed workFirst : Bool) (e : Engine) : EngineStart :=
  if e.run.isRunning then
    if removed then
      if workFirst then
        let w := workStart completed faulted e
        { w with outcome := some (w.outcome.getD .pathRemoved) }
      else { engine := e, syncChange := false, outcome := some .pathRemoved }
    else workStart completed faulted e
  else { engine := e, syncChange := false, outcome := none }

/-- Engine `n` at the frame start, on the state in which the supervisors have sampled, the input frames are completed
and a commit that is due has been applied (R58, R121). -/
def engineStartOf (e : FrameEvent) (applied : Bool) (s : State) (n : Nat) : EngineStart :=
  engineStart s.rfm.completed (s.sv.sups.get (s.engine n).cfg.chkStream).state.faulted
    (applied && !s.hasTest n) (e.workFirst.getLsbD n) (s.engine n)

/-- The SYNC_CHANGE events of a frame start (R125). -/
def raiseSyncs (p : Nat → Bool) (s : State) : State :=
  (List.range 4).foldl (fun s n => raiseIf (p n) (srcSyncChange n) s) s

/-- The run of engine `n` ends, if an outcome is given. -/
def endRunIf (o : Option RunOutcome) (n : Nat) (s : State) : State :=
  match o with
  | some o => endRun n o s
  | none => s

/-- The runs that end at a frame start hand over their records in ascending engine number (R139). -/
def endRuns (o : Nat → Option RunOutcome) (s : State) : State :=
  (List.range 4).foldl (fun s n => endRunIf (o n) n s) s

/-- The test engines at a frame start (R126, R131, R139). -/
def startEngines (e : FrameEvent) (applied : Bool) (s : State) : State :=
  endRuns (fun n => (engineStartOf e applied s n).outcome)
    (raiseSyncs (fun n => (engineStartOf e applied s n).syncChange)
      { s with te := { s.te with engines := .tabulate 2 fun n => (engineStartOf e applied s n).engine } })

/-- What engine `n` supplies in the new frame: bytes, if it is RUNNING after the frame start (R11). -/
def emission (e : Engine) : Option Emission := if e.run.isRunning then some { cfg := e.cfg, tail := none } else none

/-- The new output frame: nothing formed yet, with the frame states and run states as they stand after the frame start
(R8, R11, R95). -/
def beginOutput (s : State) : State :=
  { s with oa := { s.oa with inProgress := true
                             frame := .replicate 10 none
                             next := .replicate 4 0
                             frameState := .tabulate 4 fun i => (s.sv.sups.get i).state
                             emit := .tabulate 2 fun n => emission (s.engine n) } }

/-- The pending commit is applied if its trigger is met (R52, R57). -/
def applyIf (b : Bool) (s : State) : State := if b then applyCommit s else s

/-- A pending commit's trigger is met at this frame start, which takes FCNT one further (R54 to R56). -/
def State.applicationDue (s : State) (e : FrameEvent) : Bool := s.cj.due (s.fcnt + 1) e.cstrobe

/-- The state at a frame start once FCNT has advanced and the Hold Store, the RFM, the idle code, the supervisors, the
leases and the commit have been worked, before the engines' work. -/
def frameStartMap (e : FrameEvent) (s : State) : State :=
  applyIf (s.applicationDue e)
    (leaseCountdown (sampleSupervisors e.sf (takeIdleCode (completeFrames (updateHold e.cut (beginFrame e s))))))

/-- A frame start, whole (R1): see `frameStartMap`, then the engines and the new output frame. -/
def frameStart (e : FrameEvent) (s : State) : State :=
  beginOutput (startEngines e (s.applicationDue e) (frameStartMap e s))

/-- A run reaches its duration at this frame start (R129). -/
def State.durationDue (s : State) (e : FrameEvent) : Bool :=
  (List.range 4).any fun n =>
    (engineStartOf e (s.applicationDue e) (frameStartMap e s) n).outcome == some .completed

/-- FRAME_START (R1): everything that falls due at the frame start happens in it. -/
def execFrameStart (e : FrameEvent) (s : State) : Answer := taken s (frameStart e)

/-- LEASE_EXPIRY (R82): the frame start at which a HELD record's count reaches 0. Where no record's count does, there
is no such event (log 2). -/
def execLeaseExpiry (e : FrameEvent) (s : State) : Answer :=
  taken s fun s => if s.sau.expiryDue then frameStart e s else s

/-- COMMIT_APPLICATION (R57): the frame start at which the pending commit's trigger is met. Where none is, there is no
such event (log 2). -/
def execCommitApplication (e : FrameEvent) (s : State) : Answer :=
  taken s fun s => if s.applicationDue e then frameStart e s else s

/-- DURATION_EXPIRY (R129): the frame start at which a run reaches its duration and ends COMPLETED. Where none does,
there is no such event (log 2). -/
def execDurationExpiry (e : FrameEvent) (s : State) : Answer :=
  taken s fun s => if s.durationDue e then frameStart e s else s

end Sys2Proof.Machine
end

