-- ==== Sys2Proof/Machine/Ranges.lean ====
section
/-! DEFINITION. The range of every piece of state, and the state brought into range piece by piece: what a RESET_N
assertion that was too short leaves (R177, log 1). -/

namespace Sys2Proof.Machine

/-- A value where it is in its range, and a given value of the range where it is not: of a free value, a free value of
the range. -/
def within {α : Type} (inRange : α → Bool) (d x : α) : α := if inRange x then x else d

/-- Every entry of a table brought into range. -/
def Table.within {α : Type} {d : Nat} (inRange : α → Bool) (x : α) (t : Table α d) : Table α d :=
  .tabulate d fun i => Machine.within inRange x (t.get i)

/-- Width and member index of an entry (Table 2-1). -/
def placeInRange (width member : Nat) : Bool := width ≤ 16 && member < width

/-- An entry (Table 2-1). -/
def Entry.inRange : Entry → Bool
  | .idle => true
  | .switched src _ _ _ w m => src < 1024 && placeInRange w m
  | .constant _ w m => placeInRange w m
  | .test n w m => n < 4 && placeInRange w m

/-- A journal entry (R39). -/
def JournalEntry.inRange (e : JournalEntry) : Bool := e.slot < 1024 && e.entry.inRange

/-- A claim (Table 4-2), with the bound that the table gives the width by the first slot. -/
def Claim.inRange (c : Claim) : Bool :=
  c.stream ≤ 15 && 1 ≤ c.width && c.width ≤ 16 && c.first + c.width ≤ 64 && c.tag ≠ 0 && c.tag.toNat ≤ 255 &&
    c.lease ≠ 0 && c.remaining ≠ 0

/-- A reservation record (Table 4-2). -/
def Reservation.inRange (r : Reservation) : Bool := r.claim?.all Claim.inRange

/-- State and count of a supervisor (Table 5-1). -/
def SvState.inRange : SvState → Bool
  | .clear => true
  | .suspect k => 1 ≤ k.toNat && k.toNat ≤ 14
  | .fault => true
  | .recovering k => 1 ≤ k.toNat && k.toNat ≤ 254

/-- A configuration record (Table 6-1). That the checked slots end at slot 63 is R105's check of a command and no range
of a field. -/
def EngineConfig.inRange (c : EngineConfig) : Bool :=
  8 ≤ c.len && c.len ≤ 32 && c.chkStream ≤ 15 && c.chkSlot ≤ 63 && c.chkWidth ≤ 16 &&
    1 ≤ c.lossThreshold && c.lossThreshold ≤ 64

/-- A sequence state (R107). -/
def Sequence.inRange (c : EngineConfig) (q : Sequence) : Bool := q.wordPos < c.len

/-- The reference of a checker (R119). -/
def Reference.inRange (c : EngineConfig) : Reference → Bool
  | .prbs _ => c.pattern ≠ .word
  | .word k => c.pattern = .word && k < c.len

/-- A checker (R119). -/
def Checker.inRange (c : EngineConfig) : Checker → Bool
  | .off => true
  | .hunting l => l.length ≤ c.seedLength
  | .confirming ref n => ref.inRange c && n ≤ 64
  | .locked ref b e => ref.inRange c && b ≤ 255 && e ≤ 256

/-- Live counters and their copies: the least first-lock offset is 2 (R134, Table 7-5; log 1). -/
def LiveCounters.inRange (l : LiveCounters) : Bool := l.firstLock.all fun x => 2 ≤ x.toNat

/-- A result record (Table 7-5). -/
def ResultRecord.inRange (r : ResultRecord) : Bool := r.engine < 4 && r.live.inRange

/-- A run state, with the record that an ENDED engine holds (R139). -/
def RunState.inRange : RunState → Bool
  | .ended r => r.inRange
  | _ => true

/-- The reset value of a sequence state. -/
def Sequence.reset : Sequence := Engine.reset.gen.seq

/-- An engine, piece by piece, on a configuration record that is in range (R104, R107, R119, R133, R135). -/
def Engine.intoRange (e : Engine) : Engine :=
  let cfg := within EngineConfig.inRange .reset e.cfg
  { e with
    cfg := cfg
    gen := { seq := within (Sequence.inRange cfg) .reset e.gen.seq, pendingInj := min e.gen.pendingInj 255 }
    checker := within (Checker.inRange cfg) .off e.checker
    run := within RunState.inRange .idle e.run
    live := within LiveCounters.inRange .zero e.live
    snap := { e.snap with live := within LiveCounters.inRange .zero e.snap.live } }

/-- What an engine supplies in the frame in progress (R11, log 7), with a configuration of its own that need not be the
engine's: a DESIGN CHOICE (log 19). -/
def Emission.intoRange (em : Emission) : Emission :=
  let cfg := within EngineConfig.inRange .reset em.cfg
  { cfg := cfg, tail := em.tail.map (within (Sequence.inRange cfg) .reset) }

/-- Every piece of a state at a value of its range. A piece with no line here has every value of its Lean type in its
range. Each journal entry is a piece of its own, so two may come to name one slot: a DESIGN CHOICE (log 19). A backlog
that lists an engine twice is out of range and keeps one of the two, because R139 calls it a list of engines: a DESIGN
CHOICE (log 1). -/
def State.intoRange (s : State) : State :=
  { s with
    rfm := { s.rfm with captured := Table.within (· ≤ 64) 0 s.rfm.captured }
    oa := { s.oa with next := Table.within (· ≤ 64) 0 s.oa.next
                      frameState := Table.within SvState.inRange .clear s.oa.frameState
                      emit := .tabulate 2 fun n => (s.oa.emit.get n).map Emission.intoRange }
    cm := { active := Table.within Entry.inRange .idle s.cm.active
            fanout := Table.within (· ≤ 64) 0 s.cm.fanout
            folim := within (fun x => 1 ≤ x.toNat && x.toNat ≤ 64) 64 s.cm.folim }
    cj := { s.cj with journal := (s.cj.journal.filter JournalEntry.inRange).take 64 }
    sau := { s.sau with recs := Table.within Reservation.inRange .free s.sau.recs }
    sv := { s.sv with sups := .tabulate 4 fun i =>
                        { s.sv.sups.get i with state := within SvState.inRange .clear (s.sv.sups.get i).state }
                      decl := within (· ≠ 0) 3 s.sv.decl
                      clrc := within (· ≠ 0) 8 s.sv.clrc }
    te := { s.te with engines := .tabulate 2 fun n => (s.engine n).intoRange }
    rq := { queue := (s.rq.queue.filter ResultRecord.inRange).take 8
            backlog := (s.rq.backlog.filter (· < 4)).dedup }
    iu := { s.iu with levels := Table.within (· ≠ 0) 1 s.iu.levels } }

end Sys2Proof.Machine
end

