-- ==== Sys2Proof/Machine/SoftReset.lean ====
section
/-! DEFINITION. SOFT RESET, unknown codes, and the reset pin (sections 8.5 and 8.7, R177). -/

namespace Sys2Proof.Machine

/-- An engine after SOFT RESET (R143, R116): the configuration and the sequence state stay. -/
def Engine.softReset (e : Engine) : Engine :=
  { e with gen := { e.gen with pendingInj := 0 }, checker := .off, run := .idle, live := .zero, lastRun := 0,
           snap := .zero }

/-- The number of records that are HELD or BOUND (R157). -/
def SlotAllocation.claimed (u : SlotAllocation) : Nat := (List.range 32).countP fun r => (u.recs.get r).claim?.isSome

/-- The number of engines in a run state (R157). -/
def State.enginesIn (s : State) (name : RunName) : Nat := (List.range 4).countP fun n => (s.engine n).run.name == name

/-- The working state that SOFT RESET clears (R156). -/
def clearWork (s : State) : State :=
  { s with
    cj := { s.cj with journal := [], commit := none }
    cm := { s.cm with fanout := recount s.cm.active }
    sau := { recs := .replicate 5 .free, expf := 0 }
    te := { s.te with engines := .tabulate 2 fun n => (s.engine n).softReset }
    rq := { queue := [], backlog := [] }
    iu := { s.iu with flags := 0 }
    ce := { s.ce with overrun := false } }

/-- SOFT RESET (R156): its result words count what it discards (R157), and its own COMMAND_DONE is raised after every
flag has been cleared (R169). The last command code stays: it is SOFT RESET's (Table 8-1) unless too short a reset has
left the part BUSY with another one, where keeping that one is a DESIGN CHOICE (log 19). -/
def softResetCommand (s : State) : State :=
  complete .ok s.jcnt (word s.sau.claimed) (word (s.enginesIn .running))
    (word (s.rq.queue.length + s.enginesIn .ended)) (clearWork s)

/-- A command whose code names none completes (R154). -/
def unknownCompletion (s : State) : State :=
  match s.ce.busy with
  | some c =>
    if commandCodes.contains c.code then s else complete .unknownCommand (word c.code.toNat) 0 0 0 s
  | none => s

/-- SOFT RESET completes (R156). -/
def execSoftReset (s : State) : Answer := completion codeSoftReset s fun _ => softResetCommand

/-- UNKNOWN_COMMAND (R154). -/
def execUnknownCommand (s : State) : Answer := taken s unknownCompletion

/-- Every block at its hardware reset values, held there (R177). The pins are inputs, and the waiting commands and the
draw counter are the model's own: they stay. -/
def hardwareReset (hold : ResetHold) (s : State) : State :=
  { State.reset with pins := s.pins, held := hold, freeDraws := s.freeDraws, pending := s.pending }

/-- The part is held in reset for a further cause. -/
def ResetHold.hold (h : ResetHold) : ResetCause → ResetHold
  | .resetN => { h with resetN := true }
  | .powerUp => { h with powerUp := true }

/-- A cause no longer holds the part in reset. -/
def ResetHold.release (h : ResetHold) : ResetCause → ResetHold
  | .resetN => { h with resetN := false }
  | .powerUp => { h with powerUp := false }

/-- A cause holds the part in reset. -/
def ResetHold.holds (h : ResetHold) : ResetCause → Bool
  | .resetN => h.resetN
  | .powerUp => h.powerUp

/-- A RESET_N assertion that was too short: every piece of state of the part at an arbitrary value of its range (R177,
log 1). -/
def arbitraryState (s : State) : State :=
  { (@Config.freeValue State ⟨State.reset⟩ s.freeDraws).intoRange with
    pins := s.pins, held := { resetN := false, powerUp := false }, freeDraws := s.freeDraws + 1, pending := s.pending }

/-- HARDWARE_RESET (R177). -/
def execHardwareReset (cause : ResetCause) (s : State) : Answer := .next (hardwareReset (s.held.hold cause) s)

/-- RESET_N_RELEASE (R177): the part, which stands at its hardware reset values, takes events again once nothing holds
it in reset. An assertion of RESET_N shorter than the minimum leaves an arbitrary state, unless the power-up hold still
stands. -/
def execResetNRelease (cause : ResetCause) (minimumMet : Bool) (s : State) : Answer :=
  if s.held.holds cause then
    if cause = .resetN ∧ !minimumMet ∧ !s.held.powerUp then .next (arbitraryState s)
    else .next { s with held := s.held.release cause }
  else .next s

end Sys2Proof.Machine
end

