-- ==== Sys2Proof/Machine/Inspection.lean ====
section
/-! DEFINITION. The inspection port and the record layouts (sections 10.5 and 10.6). -/

namespace Sys2Proof.Machine

/-- The absent marker of a field that has a whole data word (R176). -/
def absent : Word := 0xFFFF

/-- The low and the high word of a 32-bit quantity (R176). -/
def loWord (x : BitVec 32) : Word := x.setWidth 16
def hiWord (x : BitVec 32) : Word := (x >>> 16).setWidth 16

/-- All data words 0 (R175). -/
def DataWords.zero : DataWords := ⟨0, 0, 0, 0, 0, 0, 0, 0⟩

def Delay.value : Delay → Nat
  | .minimum => 0
  | .aligned => 1

def Conditioning.value : Conditioning → Nat
  | .pass => 0
  | .idleCode => 1
  | .allOnes => 2
  | .hold => 3

/-- The mode code (Table 10-5). -/
def Entry.mode : Entry → Nat
  | .idle => 0
  | .switched _ _ _ _ _ _ => 1
  | .constant _ _ _ => 2
  | .test _ _ _ => 3

/-- INSD0 of an entry: mode, delay, invert and conditioning, all ones where absent (Table 10-5). -/
def Entry.modeWord : Entry → Word
  | .switched _ d inv c _ _ => word (1 + 2 ^ 2 * d.value + 2 ^ 4 * (if inv then 1 else 0) + 2 ^ 6 * c.value)
  | e => word (e.mode + 2 ^ 2 * 3 + 2 ^ 4 * 3 + 2 ^ 6 * 7)

/-- INSD1 to INSD4 of an entry (Table 10-5). -/
def Entry.sourceWord (e : Entry) : Word :=
  match e.source? with
  | some u => word u
  | none => absent

def Entry.constantWord : Entry → Word
  | .constant b _ _ => b.setWidth 16
  | _ => absent

def Entry.engineWord (e : Entry) : Word :=
  match e.engine? with
  | some n => word n
  | none => absent

def Entry.placeWord (e : Entry) : Word :=
  match e.place? with
  | some (w, m) => word (w + 2 ^ 8 * m)
  | none => absent

/-- An entry record in the data words, with INSD5 and INSD6 (Table 10-5). -/
def entryWords (e : Entry) (d5 d6 : Word) : DataWords :=
  ⟨e.modeWord, e.sourceWord, e.constantWord, e.engineWord, e.placeWord, d5, d6, 0⟩

/-- The words of a claim (Table 10-6). -/
def claimWords (state : Word) (c : Claim) : DataWords :=
  ⟨state, word c.stream, word c.first, word c.width, c.tag, c.lease, c.remaining, 0⟩

/-- A reservation record (Table 10-6); a FREE one has its other fields absent (R87). -/
def reservationWords : Reservation → DataWords
  | .free => ⟨0, absent, absent, absent, absent, absent, absent, 0⟩
  | .held c => claimWords 1 c
  | .bound c => claimWords 2 c

def Pattern.value : Pattern → Nat
  | .prbs9 => 0
  | .prbs23 => 1
  | .prbs31 => 2
  | .word => 3

def DurationUnit.value : DurationUnit → Nat
  | .frames => 0
  | .seconds => 1

/-- An engine's configuration, laid out as PARAM0 to PARAM5 of CONFIGURE ENGINE, with its run state and
pending-injection count (Table 10-6, R117). -/
def configurationWords (n : Nat) (e : Engine) : DataWords :=
  let c := e.cfg
  ⟨word (n + 2 ^ 3 * c.pattern.value + 2 ^ 6 * (if c.invert then 1 else 0) + 2 ^ 8 * c.unit.value + 2 ^ 10 * c.len),
   loWord c.word, hiWord c.word, word (c.chkSlot + 2 ^ 8 * c.chkWidth), word (c.lossThreshold + 2 ^ 8 * c.chkStream),
   c.duration, runCode e, word e.gen.pendingInj⟩

/-- The first-lock offset, 0 when absent (R176). -/
def LiveCounters.firstLockWord (l : LiveCounters) : BitVec 32 := l.firstLock.getD 0

/-- Row 2n of the live counter and snapshot tables (Table 10-6). -/
def counterWords (l : LiveCounters) : DataWords :=
  ⟨loWord l.framesRun, hiWord l.framesRun, loWord l.framesLocked, hiWord l.framesLocked, loWord l.bitErrors,
   hiWord l.bitErrors, loWord l.faultFrames, hiWord l.faultFrames⟩

/-- Row 2n + 1 of the live counter and snapshot tables (Table 10-6). -/
def stateWords (l : LiveCounters) (runSeq : Word) (run : RunName) (checker : CheckerName) (fcnt : Word) : DataWords :=
  ⟨l.syncLosses, l.errorsInjected, loWord l.firstLockWord, hiWord l.firstLockWord, runSeq,
   word (run.value + 2 ^ 4 * checker.value), fcnt, 0⟩

/-- The outcome code (Table 10-6). -/
def RunOutcome.value : RunOutcome → Nat
  | .completed => 1
  | .stopped => 2
  | .pathRemoved => 3

/-- Row 2p of the result queue table (R142, Table 10-6). -/
def resultWords0 (r : ResultRecord) : DataWords :=
  ⟨word (r.engine + 2 ^ 4 * r.outcome.value), r.runSeq, r.startCseq, loWord r.live.framesRun, hiWord r.live.framesRun,
   loWord r.live.framesLocked, hiWord r.live.framesLocked, 0⟩

/-- Row 2p + 1 of the result queue table (R142, Table 10-6). -/
def resultWords1 (r : ResultRecord) : DataWords :=
  ⟨loWord r.live.bitErrors, hiWord r.live.bitErrors, r.live.syncLosses, loWord r.live.faultFrames,
   hiWord r.live.faultFrames, r.live.errorsInjected, loWord r.live.firstLockWord, hiWord r.live.firstLockWord⟩

/-- The supervisor state code and count (Table 10-6). -/
def SvState.value : SvState → Nat
  | .clear => 0
  | .suspect _ => 1
  | .fault => 2
  | .recovering _ => 3

def SvState.count : SvState → Nat
  | .clear => 0
  | .suspect k => k.toNat
  | .fault => 0
  | .recovering k => k.toNat

def bitValue (b : Bool) : Nat := if b then 1 else 0

/-- The last sample code (Table 10-6). -/
def sampleValue : Option Bool → Nat
  | some b => bitValue b
  | none => 3

/-- A supervisor (R102, Table 10-6). -/
def supervisorWords (v : Supervisors) (sf : Word) (i : Nat) : DataWords :=
  let p := v.sups.get i
  ⟨word (p.state.value + 2 ^ 8 * p.state.count),
   word (bitValue (v.sven.getLsbD i) + 2 * bitValue (v.svfrc.getLsbD i) + 2 ^ 4 * sampleValue p.lastSample +
     2 ^ 8 * bitValue (sf.getLsbD i)),
   v.decl.setWidth 16, v.clrc.setWidth 16, 0, 0, 0, 0⟩

/-! ## The tables of Table 10-4: the copy, or none where the index is out of range -/

def inRange (b : Bool) (w : DataWords) : Option DataWords := if b then some w else none

/-- Selector 0 (R35). -/
def activeCopy (s : State) (i : Nat) : Option DataWords := inRange (i < 1024) (entryWords (s.activeEntry i) 0 0)

/-- Selector 1, with the origin (R36). -/
def effectiveCopy (s : State) (i : Nat) : Option DataWords :=
  inRange (i < 1024) (entryWords (s.effective i) (if (journalGet s.cj.journal i).isSome then 1 else 0) 0)

/-- Selector 2, with the slot and the mode of its active entry (R42). -/
def journalCopy (s : State) (i : Nat) : Option DataWords :=
  (s.cj.journal[i]?).map fun e => entryWords e.entry (word e.slot) (word (s.activeEntry e.slot).mode)

/-- Selector 3 (R37). -/
def fanOutCopy (s : State) (i : Nat) : Option DataWords :=
  inRange (i < 1024) ⟨word (s.cm.fanout.get i), s.cm.folim.setWidth 16, 0, 0, 0, 0, 0, 0⟩

/-- Selector 4 (R87). -/
def reservationCopy (s : State) (i : Nat) : Option DataWords := inRange (i < 32) (reservationWords (s.sau.recs.get i))

/-- Selector 5 (R117). -/
def configurationCopy (s : State) (i : Nat) : Option DataWords := inRange (i < 4) (configurationWords i (s.engine i))

/-- Selector 6 (R136): two rows for each engine. -/
def liveCopy (s : State) (i : Nat) : Option DataWords :=
  let e := s.engine (i / 2)
  inRange (i < 8)
    (if i % 2 = 0 then counterWords e.live else stateWords e.live e.lastRun e.run.name e.checker.name 0)

/-- Selector 7 (R136): two rows for each engine. -/
def snapshotCopy (s : State) (i : Nat) : Option DataWords :=
  let r := (s.engine (i / 2)).snap
  inRange (i < 8) (if i % 2 = 0 then counterWords r.live else stateWords r.live r.runSeq r.run r.checker r.fcnt)

/-- Selector 8 (R142): two rows for each queue position. -/
def resultCopy (s : State) (i : Nat) : Option DataWords :=
  (s.rq.queue[i / 2]?).map fun r => if i % 2 = 0 then resultWords0 r else resultWords1 r

/-- Selector 9 (R103). -/
def holdCopy (s : State) (i : Nat) : Option DataWords :=
  inRange (i < 1024) ⟨(s.hold.get i).setWidth 16, 0, 0, 0, 0, 0, 0, 0⟩

/-- Selector 10 (R102). -/
def supervisorCopy (s : State) (i : Nat) : Option DataWords := inRange (i < 16) (supervisorWords s.sv s.pins.sf i)

/-- The record that a selector and an index name, if they name one (R175, Table 10-4). -/
def tableCopy (s : State) (selector index : Nat) : Option DataWords :=
  match selector with
  | 0 => activeCopy s index
  | 1 => effectiveCopy s index
  | 2 => journalCopy s index
  | 3 => fanOutCopy s index
  | 4 => reservationCopy s index
  | 5 => configurationCopy s index
  | 6 => liveCopy s index
  | 7 => snapshotCopy s index
  | 8 => resultCopy s index
  | 9 => holdCopy s index
  | 10 => supervisorCopy s index
  | _ => none

/-- A write of INSA: selector in bits 15:11, index in bits 10:0; the copy is latched and INSS becomes VALID, or the
data words become 0 and INSS becomes INVALID (R175). -/
def writeInsa (value : Word) (s : State) : State :=
  let copy := tableCopy s (field value 11 5) (field value 0 11)
  { s with biu := { insa := value, valid := copy.isSome, insd := copy.getD .zero } }

/-- An INSA word. -/
def insaWord (selector : BitVec 5) (index : BitVec 11) : Word := selector ++ index

/-- INSPECT_ACTIVE_ENTRY (R35). -/
def execInspectActiveEntry (index : BitVec 11) (s : State) : Answer := taken s (writeInsa (insaWord 0 index))

/-- INSPECT_EFFECTIVE_ENTRY (R36). -/
def execInspectEffectiveEntry (index : BitVec 11) (s : State) : Answer := taken s (writeInsa (insaWord 1 index))

/-- INSPECT_JOURNAL (R42). -/
def execInspectJournal (index : BitVec 11) (s : State) : Answer := taken s (writeInsa (insaWord 2 index))

/-- INSPECT_FAN_OUT (R37). -/
def execInspectFanOut (index : BitVec 11) (s : State) : Answer := taken s (writeInsa (insaWord 3 index))

/-- INSPECT_RESERVATION (R87). -/
def execInspectReservation (index : BitVec 11) (s : State) : Answer := taken s (writeInsa (insaWord 4 index))

/-- INSPECT_ENGINE_CONFIGURATION (R117). -/
def execInspectEngineConfiguration (index : BitVec 11) (s : State) : Answer := taken s (writeInsa (insaWord 5 index))

/-- INSPECT_LIVE_COUNTERS (R136). -/
def execInspectLiveCounters (index : BitVec 11) (s : State) : Answer := taken s (writeInsa (insaWord 6 index))

/-- INSPECT_SNAPSHOT (R136). -/
def execInspectSnapshot (index : BitVec 11) (s : State) : Answer := taken s (writeInsa (insaWord 7 index))

/-- INSPECT_RESULT_QUEUE (R142). -/
def execInspectResultQueue (index : BitVec 11) (s : State) : Answer := taken s (writeInsa (insaWord 8 index))

/-- INSPECT_HOLD_BYTE (R103). -/
def execInspectHoldByte (index : BitVec 11) (s : State) : Answer := taken s (writeInsa (insaWord 9 index))

/-- A write of INSA at a moment at which the SF lines have the levels `sf`: selector 10, the supervisor table, shows them
(R102; log 8). -/
def inspectAt (value sf : Word) (s : State) : State :=
  writeInsa value (if field value 11 5 = 10 then { s with pins := { s.pins with sf := sf } } else s)

/-- INSPECT_SUPERVISOR (R102), with the levels that the SF lines have at the moment of the inspection (log 8). -/
def execInspectSupervisor (index : BitVec 11) (sf : Word) (s : State) : Answer :=
  taken s (inspectAt (insaWord 10 index) sf)

/-- INSPECT_INVALID (R175): an INSA write; a value that names a record is copied all the same (log 4). -/
def execInspectInvalid (value : BusWord) (s : State) : Answer := taken s (inspectAt value.value value.sf)

end Sys2Proof.Machine
end

