-- ==== Sys2Proof/Machine/Window.lean ====
section
/-! DEFINITION. The register window: writes and reads (sections 8.2, 8.5, 9.2 and 10.1 to 10.3). -/

namespace Sys2Proof.Machine

/-! ## Writes -/

/-- A write of CMD, judged on the engine state (R146): while IDLE it takes a command, whatever its code, and latches the
parameters (R147); while BUSY it is an overrun (R152). The code is bits 7:0 (R172). -/
def writeCmd (value : Word) (s : State) : State :=
  match s.ce.busy with
  | none =>
    let code : Byte := value.setWidth 8
    { s with ce := { s.ce with busy := some { code := code, params := s.ce.params }, lastCode := some code } }
  | some _ => raise srcCommandOverrun { s with ce := { s.ce with overrun := true } }

/-- A write of CMDSTAT: bit 14 clears the overrun flag, the other bits are ignored (R153, R173). -/
def writeCmdstat (value : Word) (s : State) : State :=
  if value.getLsbD 14 then { s with ce := { s.ce with overrun := false } } else s

/-- A write of IDLEC (R17): bits 7:0. -/
def writeIdlec (value : Word) (s : State) : State := { s with oa := { s.oa with idlec := value.setWidth 8 } }

/-- A write of FOLIM (R32): the whole value is judged. -/
def writeFolim (value : Word) (s : State) : State :=
  if 1 ≤ value.toNat ∧ value.toNat ≤ 64 then { s with cm := { s.cm with folim := value.setWidth 7 } } else s

/-- A write of EXPF0 or EXPF1 (R83). -/
def writeExpf (k : Nat) (value : Word) (s : State) : State :=
  { s with sau := { s.sau with expf := clearOnes s.sau.expf k value } }

/-- A write of IFLAG0 or IFLAG1 (R161). -/
def writeIflag (k : Nat) (value : Word) (s : State) : State :=
  { s with iu := { s.iu with flags := clearOnes s.iu.flags k value } }

/-- A write of IMASK0 or IMASK1 (R163). -/
def writeImask (k : Nat) (value : Word) (s : State) : State :=
  { s with iu := { s.iu with masks := replaceHalf s.iu.masks k value } }

/-- A write of ILVL0 to ILVL6 (R164). -/
def writeIlvl (k : Nat) (value : Word) (s : State) : State :=
  { s with iu := { s.iu with levels := writeLevels s.iu.levels k value } }

/-- A write of ITHR (R165): a value above 7 is ignored. -/
def writeIthr (value : Word) (s : State) : State :=
  if value.toNat ≤ 7 then { s with iu := { s.iu with ithr := value.setWidth 3 } } else s

/-- A write of PARAM`k` (R147): it does not reach the latched copy of a command in progress. -/
def writeParam (k : Nat) (value : Word) (s : State) : State :=
  let p := s.ce.params
  let p : Params :=
    match k with
    | 0 => { p with p0 := value }
    | 1 => { p with p1 := value }
    | 2 => { p with p2 := value }
    | 3 => { p with p3 := value }
    | 4 => { p with p4 := value }
    | 5 => { p with p5 := value }
    | _ => p
  { s with ce := { s.ce with params := p } }

/-- A write of any word of the window, by its access type (Table 10-1, R172): read-only words and unassigned addresses
ignore it. `sf`: the levels of the SF lines at the write, which an inspection shows. -/
def writeWord (address : Nat) (value sf : Word) (s : State) : State :=
  match address with
  | 0x00 => writeCmd value s
  | 0x01 => writeParam 0 value s
  | 0x02 => writeParam 1 value s
  | 0x03 => writeParam 2 value s
  | 0x04 => writeParam 3 value s
  | 0x05 => writeParam 4 value s
  | 0x06 => writeParam 5 value s
  | 0x08 => writeCmdstat value s
  | 0x10 => writeIdlec value s
  | 0x11 => writeFolim value s
  | 0x12 => writeSven value s
  | 0x13 => writeSvfrc value s
  | 0x14 => writeSvthr value s
  | 0x20 => writeExpf 0 value s
  | 0x21 => writeExpf 1 value s
  | 0x28 => writeIflag 0 value s
  | 0x29 => writeIflag 1 value s
  | 0x2A => writeImask 0 value s
  | 0x2B => writeImask 1 value s
  | 0x2C => writeIlvl 0 value s
  | 0x2D => writeIlvl 1 value s
  | 0x2E => writeIlvl 2 value s
  | 0x2F => writeIlvl 3 value s
  | 0x30 => writeIlvl 4 value s
  | 0x31 => writeIlvl 5 value s
  | 0x32 => writeIlvl 6 value s
  | 0x33 => writeIthr value s
  | 0x38 => inspectAt value sf s
  | _ => s

/-- A bus cycle with WR_N (R171): the write is taken only if the cycle is whole. -/
def busWrite (cycle : BusCycle) (address : Nat) (w : BusWord) (s : State) : State :=
  match cycle with
  | .whole => writeWord address w.value w.sf s
  | .endedEarly => s
  | .bothStrobes => s

/-- COMMAND_TAKEN (R146): a CMD write, judged as R146 says. -/
def execCommandTaken (value : Word) (s : State) : Answer := taken s (writeCmd value)

/-- COMMAND_OVERRUN (R152): a CMD write, judged as R146 says. -/
def execCommandOverrun (value : Word) (s : State) : Answer := taken s (writeCmd value)

/-- OVERRUN_FLAG_CLEAR (R153). -/
def execOverrunFlagClear (value : Word) (s : State) : Answer := taken s (writeCmdstat value)

/-- IDLEC_WRITE (R17). -/
def execIdlecWrite (value : Word) (s : State) : Answer := taken s (writeIdlec value)

/-- FOLIM_WRITE (R32). -/
def execFolimWrite (value : Word) (s : State) : Answer := taken s (writeFolim value)

/-- EXPF_CLEAR (R83). -/
def execExpfClear (k : Nat) (value : Word) (s : State) : Answer :=
  if k < 2 then taken s (writeExpf k value) else .fault .noSuchPlace

/-- IFLAG_CLEAR (R161). -/
def execIflagClear (k : Nat) (value : Word) (s : State) : Answer :=
  if k < 2 then taken s (writeIflag k value) else .fault .noSuchPlace

/-- IMASK_WRITE (R163). -/
def execImaskWrite (k : Nat) (value : Word) (s : State) : Answer :=
  if k < 2 then taken s (writeImask k value) else .fault .noSuchPlace

/-- ILVL_WRITE (R164). -/
def execIlvlWrite (k : Nat) (value : Word) (s : State) : Answer :=
  if k < 7 then taken s (writeIlvl k value) else .fault .noSuchPlace

/-- ITHR_WRITE (R165). -/
def execIthrWrite (value : Word) (s : State) : Answer := taken s (writeIthr value)

/-- REGISTER_WRITE (R171, R172). -/
def execRegisterWrite (cycle : BusCycle) (address : BitVec 7) (value : BusWord) (s : State) : Answer :=
  taken s (busWrite cycle address.toNat value)

/-! ## Reads: no read changes any state (R171) -/

/-- CMDSTAT (R155, R173). -/
def cmdstat (c : CommandEngine) : Word :=
  word ((c.lastCode.getD 0).toNat + 2 ^ 8 * c.code.value + 2 ^ 13 * bitValue c.lastCode.isSome +
    2 ^ 14 * bitValue c.overrun + 2 ^ 15 * bitValue c.busy.isSome)

/-- The trigger kind code: 3 while the trigger is absent (R173). -/
def triggerValue : Option Trigger → Nat
  | some .next => 0
  | some (.atFrame _) => 1
  | some .onStrobe => 2
  | none => 3

/-- CSTAT, with the level of CSTROBE (R173). -/
def cstat (commit : Option Trigger) (cstrobe : Bool) : Word :=
  word (bitValue commit.isSome + 2 * triggerValue commit + 2 ^ 8 * bitValue cstrobe)

/-- CTGT (R173). -/
def ctgt : Option Trigger → Word
  | some (.atFrame t) => t
  | _ => 0

/-- SVSTAT (R96). -/
def svstat (v : Supervisors) : Word :=
  word ((List.range 16).map fun i => 2 ^ i * bitValue (v.sups.get i).state.faulted).sum

/-- ENGST (R173). -/
def engst (s : State) : Word :=
  word ((List.range 4).map fun n => 4 ^ n * (s.engine n).run.name.value).sum

/-- The word that an address reads while the part is not held in reset and CSTROBE has the level `cstrobe` (Table 10-1,
R172, R173): CMD and unassigned addresses read 0. -/
def readWord (s : State) (address : Nat) (cstrobe : Bool) : Word :=
  match address with
  | 0x01 => s.ce.params.p0
  | 0x02 => s.ce.params.p1
  | 0x03 => s.ce.params.p2
  | 0x04 => s.ce.params.p3
  | 0x05 => s.ce.params.p4
  | 0x06 => s.ce.params.p5
  | 0x08 => cmdstat s.ce
  | 0x09 => s.ce.res.r0
  | 0x0A => s.ce.res.r1
  | 0x0B => s.ce.res.r2
  | 0x0C => s.ce.res.r3
  | 0x10 => s.oa.idlec.setWidth 16
  | 0x11 => s.cm.folim.setWidth 16
  | 0x12 => s.sv.sven
  | 0x13 => s.sv.svfrc
  | 0x14 => word (s.sv.decl.toNat + 2 ^ 8 * s.sv.clrc.toNat)
  | 0x18 => s.fcnt
  | 0x19 => s.cj.cseq
  | 0x1A => s.cj.lcf
  | 0x1B => cstat s.cj.commit cstrobe
  | 0x1C => ctgt s.cj.commit
  | 0x1D => s.jcnt
  | 0x1E => svstat s.sv
  | 0x20 => half s.sau.expf 0
  | 0x21 => half s.sau.expf 1
  | 0x22 => engst s
  | 0x23 => word s.rq.queue.length
  | 0x28 => half s.iu.flags 0
  | 0x29 => half s.iu.flags 1
  | 0x2A => half s.iu.masks 0
  | 0x2B => half s.iu.masks 1
  | 0x2C => levelWord s.iu 0
  | 0x2D => levelWord s.iu 1
  | 0x2E => levelWord s.iu 2
  | 0x2F => levelWord s.iu 3
  | 0x30 => levelWord s.iu 4
  | 0x31 => levelWord s.iu 5
  | 0x32 => levelWord s.iu 6
  | 0x33 => s.iu.ithr.setWidth 16
  | 0x34 => s.iu.ivec
  | 0x38 => s.biu.insa
  | 0x39 => word (bitValue s.biu.valid)
  | 0x3A => s.biu.insd.d0
  | 0x3B => s.biu.insd.d1
  | 0x3C => s.biu.insd.d2
  | 0x3D => s.biu.insd.d3
  | 0x3E => s.biu.insd.d4
  | 0x3F => s.biu.insd.d5
  | 0x40 => s.biu.insd.d6
  | 0x41 => s.biu.insd.d7
  | _ => 0

/-- The word that a read access returns, with the level that CSTROBE has at the read (R173): 0000h while the part is held
in reset (R177). -/
def busRead (s : State) (address : BitVec 7) (cstrobe : Bool) : Word :=
  if s.inReset then 0 else readWord s address.toNat cstrobe

end Sys2Proof.Machine
end

