-- ==== Sys2Proof/Machine/Dispatch.lean ====
section
/-! DEFINITION. One arm per command. -/

namespace Sys2Proof.Machine

/-- The effect of a command on everything but the queue. -/
def exec (i : Instr) (s : State) : Host.Outcome State Fault Refusal :=
  match i with
  | .frameStart e => Sys2Proof.Machine.execFrameStart e s
  | .leaseExpiry e => Sys2Proof.Machine.execLeaseExpiry e s
  | .commitApplication e => Sys2Proof.Machine.execCommitApplication e s
  | .durationExpiry e => Sys2Proof.Machine.execDurationExpiry e s
  | .inputByteCapture stream slot byte => Sys2Proof.Machine.execInputByteCapture stream slot byte s
  | .outputSlotFormation stream slot => Sys2Proof.Machine.execOutputSlotFormation stream slot s
  | .connect => Sys2Proof.Machine.execConnect s
  | .setConstant => Sys2Proof.Machine.execSetConstant s
  | .setTest => Sys2Proof.Machine.execSetTest s
  | .disconnect => Sys2Proof.Machine.execDisconnect s
  | .commit => Sys2Proof.Machine.execCommit s
  | .cancel => Sys2Proof.Machine.execCancel s
  | .discard => Sys2Proof.Machine.execDiscard s
  | .reserve => Sys2Proof.Machine.execReserve s
  | .hunt => Sys2Proof.Machine.execHunt s
  | .release => Sys2Proof.Machine.execRelease s
  | .renew => Sys2Proof.Machine.execRenew s
  | .configureEngine => Sys2Proof.Machine.execConfigureEngine s
  | .start => Sys2Proof.Machine.execStart s
  | .stop => Sys2Proof.Machine.execStop s
  | .inject => Sys2Proof.Machine.execInject s
  | .snapshot => Sys2Proof.Machine.execSnapshot s
  | .pop => Sys2Proof.Machine.execPop s
  | .softReset => Sys2Proof.Machine.execSoftReset s
  | .unknownCommand => Sys2Proof.Machine.execUnknownCommand s
  | .commandOverrun value => Sys2Proof.Machine.execCommandOverrun value s
  | .overrunFlagClear value => Sys2Proof.Machine.execOverrunFlagClear value s
  | .idlecWrite value => Sys2Proof.Machine.execIdlecWrite value s
  | .folimWrite value => Sys2Proof.Machine.execFolimWrite value s
  | .svenWrite value => Sys2Proof.Machine.execSvenWrite value s
  | .svfrcWrite value => Sys2Proof.Machine.execSvfrcWrite value s
  | .svthrWrite value => Sys2Proof.Machine.execSvthrWrite value s
  | .expfClear word value => Sys2Proof.Machine.execExpfClear word value s
  | .iflagClear word value => Sys2Proof.Machine.execIflagClear word value s
  | .imaskWrite word value => Sys2Proof.Machine.execImaskWrite word value s
  | .ilvlWrite word value => Sys2Proof.Machine.execIlvlWrite word value s
  | .ithrWrite value => Sys2Proof.Machine.execIthrWrite value s
  | .inspectActiveEntry index => Sys2Proof.Machine.execInspectActiveEntry index s
  | .inspectEffectiveEntry index => Sys2Proof.Machine.execInspectEffectiveEntry index s
  | .inspectJournal index => Sys2Proof.Machine.execInspectJournal index s
  | .inspectFanOut index => Sys2Proof.Machine.execInspectFanOut index s
  | .inspectReservation index => Sys2Proof.Machine.execInspectReservation index s
  | .inspectEngineConfiguration index => Sys2Proof.Machine.execInspectEngineConfiguration index s
  | .inspectLiveCounters index => Sys2Proof.Machine.execInspectLiveCounters index s
  | .inspectSnapshot index => Sys2Proof.Machine.execInspectSnapshot index s
  | .inspectResultQueue index => Sys2Proof.Machine.execInspectResultQueue index s
  | .inspectHoldByte index => Sys2Proof.Machine.execInspectHoldByte index s
  | .inspectSupervisor index sf => Sys2Proof.Machine.execInspectSupervisor index sf s
  | .inspectInvalid value => Sys2Proof.Machine.execInspectInvalid value s
  | .registerWrite cycle address value => Sys2Proof.Machine.execRegisterWrite cycle address value s
  | .hardwareReset cause => Sys2Proof.Machine.execHardwareReset cause s
  | .commandTaken value => Sys2Proof.Machine.execCommandTaken value s
  | .resetNRelease cause minimumMet => Sys2Proof.Machine.execResetNRelease cause minimumMet s

end Sys2Proof.Machine
end

