-- ==== Sys2Proof/Safety.lean ====
section
/-! DEFINITION. The laws of the part, and the words that statements about commands use. -/

namespace Sys2Proof

/-- A release of RESET_N after an assertion shorter than the minimum: after it "the laws of this specification need not
hold" (R177). -/
def Instr.isShortRelease : Instr → Bool
  | .resetNRelease _ minimumMet => !minimumMet
  | _ => false

end Sys2Proof

namespace Sys2Proof.Machine

/-! ## Words for statements -/

/-- The command with code `code` and latched parameters `p` is in progress, and the part is not held in reset. -/
def State.Commanded (s : State) (code : Byte) (p : Params) : Prop :=
  s.inReset = false ∧ s.ce.busy = some { code := code, params := p }

/-- The completion step of R149: the code and the four result words are loaded, the command in progress is dropped and
COMMAND_DONE, source 0, is raised. -/
def State.answered (s : State) (code : Completion) (r0 r1 r2 r3 : Word) : State :=
  { s with ce := { s.ce with busy := none, code := code, res := ⟨r0, r1, r2, r3⟩ }
           iu := { s.iu with flags := s.iu.flags ||| 1 } }

/-- The flag of source `k` in a state. -/
def State.flag (s : State) (k : Nat) : Bool := s.iu.flags.getLsbD k

/-- Output slot `slot` of stream `stream` has been formed with byte `b`. -/
def State.withByte (s : State) (stream slot : Nat) (b : Byte) : State :=
  { s with oa := { s.oa with frame := s.oa.frame.set (64 * stream + slot) (some b)
                             next := s.oa.next.set stream (slot + 1) } }

/-- Output slots 0 to `k` − 1 of every output stream have been formed. -/
def State.formedTo (s : State) (k : Nat) : Prop := ∀ o < 16, k ≤ s.oa.next.get o

/-- The line is past the end of input slot `slot` of a stream in this pass of the frame: the byte of that slot or of a
later one has come on the stream itself, that of a later slot on another one, or an output slot after slot + 1 has been
formed (R5; log 5). -/
def State.linePassed (s : State) (stream slot : Nat) : Prop :=
  slot < s.rfm.captured.get stream ∨ ∃ o < 16, slot + 2 < s.oa.next.get o ∨ slot + 1 < s.rfm.captured.get o

/-- Output slot `k` of stream `o` is the first one, in the order of the line, that has not been formed (R5). -/
def State.firstUnformed (s : State) (o k : Nat) : Prop :=
  o < 16 ∧ k < 64 ∧ s.oa.next.get o ≤ k ∧ s.formedTo k ∧ ∀ o' < o, k < s.oa.next.get o'

/-- The frame start cuts off output slot `i` partway through its byte: no stream has formed a later slot (log 5). -/
def State.cutsOff (s : State) (e : FrameEvent) (i : Nat) : Prop :=
  e.cut = true ∧ ∀ o < 16, s.oa.next.get o ≤ i % 64 + 1

/-- The trigger of the pending commit is met at the next frame start, with CSTROBE as the event gives it (R54 to R56). -/
def State.triggerMetAt (s : State) (e : FrameEvent) : Prop :=
  s.cj.commit = some .next ∨ s.cj.commit = some (.atFrame (s.fcnt + 1)) ∨
    (s.cj.commit = some .onStrobe ∧ e.cstrobe = true)

/-- Record `r` is HELD and expires at the next frame start (R82). -/
def State.expiring (s : State) (r : Nat) : Prop := ∃ c, s.sau.recs.get r = .held c ∧ c.remaining = 1

/-- Record `r` is HELD or BOUND, with tag `tag`, and covers the slot. -/
def SlotAllocation.claims (u : SlotAllocation) (r : Nat) (tag : Word) (slot : Nat) : Prop :=
  ∃ c, (u.recs.get r).claim? = some c ∧ c.tag = tag ∧ c.covers slot = true

/-- A result record of engine `n` stands in the queue, or is held by the engine in ENDED. -/
def State.holdsRecord (s : State) (n : Nat) (r : ResultRecord) : Prop :=
  r ∈ s.rq.queue ∨ (s.engine n).run = .ended r

/-- The four frame-start rows. -/
def frameRows (e : FrameEvent) : List Instr := [.frameStart e, .leaseExpiry e, .commitApplication e, .durationExpiry e]

/-- The command `c` is a frame start at which a pending commit's trigger is met. -/
def appliesCommit (c : Instr) (s : State) : Prop := ∃ e, c ∈ frameRows e ∧ s.triggerMetAt e

/-- The staging commands, with their codes. -/
def stagings : List (Instr × Byte) := [(.connect, 0x10), (.setConstant, 0x11), (.setTest, 0x12), (.disconnect, 0x13)]

/-- The sequence state after `k` further bits. -/
def seqAfter (c : EngineConfig) (k : Nat) (q : Sequence) : Sequence := (fun q => (nextBit c q).2)^[k] q

/-- The first `k` bits that the sequence produces from a sequence state. -/
def firstBits (c : EngineConfig) (k : Nat) (q : Sequence) : List Bool :=
  (List.range k).map fun j => (nextBit c (seqAfter c j q)).1

/-- The completions of Table 8-4, with their codes. -/
def completions : List (Instr × Byte) :=
  [(.connect, 0x10), (.setConstant, 0x11), (.setTest, 0x12), (.disconnect, 0x13), (.commit, 0x18), (.cancel, 0x19),
   (.discard, 0x1A), (.reserve, 0x20), (.hunt, 0x21), (.release, 0x22), (.renew, 0x23), (.configureEngine, 0x30),
   (.start, 0x31), (.stop, 0x32), (.inject, 0x33), (.snapshot, 0x34), (.pop, 0x38), (.softReset, 0x5A)]

/-- No command waiting is such a release. -/
def State.NoShortReset (s : State) : Prop := ∀ c ∈ s.pending, c.isShortRelease = false

/-! ### Codes, as the tables of chapters 8 and 10 give them -/

/-- Delay and conditioning (Tables 10-3 and 10-5). -/
def delayCodes : List (Delay × Nat) := [(.minimum, 0), (.aligned, 1)]
def conditioningCodes : List (Conditioning × Nat) := [(.pass, 0), (.idleCode, 1), (.allOnes, 2), (.hold, 3)]

/-- Patterns and duration units (Tables 10-3 and 10-6). -/
def patternCodes : List (Pattern × Nat) := [(.prbs9, 0), (.prbs23, 1), (.prbs31, 2), (.word, 3)]
def unitCodes : List (DurationUnit × Nat) := [(.frames, 0), (.seconds, 1)]

/-- Completion codes (Table 8-3). -/
def completionCodes : List (Completion × Nat) :=
  [(.ok, 0x00), (.unknownCommand, 0x01), (.badParameter, 0x02), (.commitPending, 0x03), (.noCommitPending, 0x04),
   (.journalFull, 0x05), (.slotsBusy, 0x06), (.slotIdle, 0x07), (.partOfWide, 0x08), (.slotReserved, 0x09),
   (.notReserved, 0x0A), (.tagMismatch, 0x0B), (.bound, 0x0C), (.reservationsFull, 0x0D), (.noneFree, 0x0E),
   (.fanoutExceeded, 0x0F), (.engineInUse, 0x10), (.engineBusy, 0x11), (.engineNotRunning, 0x12),
   (.notConfigured, 0x13), (.queueEmpty, 0x14)]

/-- The data words show an entry (Table 10-5, R176). -/
def DataWords.showEntry (d : DataWords) : Entry → Prop
  | .idle => d.d0 = 0x01FC ∧ d.d1 = 0xFFFF ∧ d.d2 = 0xFFFF ∧ d.d3 = 0xFFFF ∧ d.d4 = 0xFFFF
  | .switched src delay inv c w m =>
    (∃ x y, (delay, x) ∈ delayCodes ∧ (c, y) ∈ conditioningCodes ∧
        d.d0 = word (1 + 4 * x + 16 * (if inv then 1 else 0) + 64 * y)) ∧
      d.d1 = word src ∧ d.d2 = 0xFFFF ∧ d.d3 = 0xFFFF ∧ d.d4 = word (w + 256 * m)
  | .constant b w m =>
    d.d0 = 0x01FE ∧ d.d1 = 0xFFFF ∧ d.d2 = word b.toNat ∧ d.d3 = 0xFFFF ∧ d.d4 = word (w + 256 * m)
  | .test n w m => d.d0 = 0x01FF ∧ d.d1 = 0xFFFF ∧ d.d2 = 0xFFFF ∧ d.d3 = word n ∧ d.d4 = word (w + 256 * m)

/-- The answer of an INSA write: the port holds the word written, and the copy with status VALID where the record exists,
INVALID with data words of 0 where it does not (R175). Nothing else changes. -/
def State.inspected (s : State) (selector : BitVec 5) (index : BitVec 11) (copy : Option DataWords) : State :=
  { s with biu := { insa := selector ++ index
                    valid := copy.isSome
                    insd := copy.getD ⟨0, 0, 0, 0, 0, 0, 0, 0⟩ } }

/-! ## Entries and connections (R21, R23, R25) -/

/-- Width and member index of an entry at output slot `i` (R21): the connection lies within one stream. -/
def runAt (i width member : Nat) : Prop :=
  width ≤ 16 ∧ member < width ∧ member ≤ slotOf i ∧ slotOf i + width ≤ 64 + member

/-- The values that an entry may hold at output slot `i` (R21). -/
def Entry.OkAt (i : Nat) : Entry → Prop
  | .idle => True
  | .switched src d _ _ w m =>
    runAt i w m ∧ src < 1024 ∧ m ≤ slotOf src ∧ slotOf src + w ≤ 64 + m ∧ (d = .aligned ∨ w = 1)
  | .constant _ w m => runAt i w m
  | .test n w m => runAt i w m ∧ n < 4

/-- Member `k` of the connection that an entry belongs to (R23). -/
def Entry.memberAt (k : Nat) : Entry → Entry
  | .idle => .idle
  | .switched src d inv c w m => .switched (src - m + k) d inv c w k
  | .constant b w _ => .constant b w k
  | .test n w _ => .test n w k

/-- In a view, every slot that is not IDLE belongs to one connection, whose members are the slots from its head on
(R23). -/
def ConnectionsWhole (view : Nat → Entry) : Prop :=
  ∀ i < 1024, ∀ w m, (view i).place? = some (w, m) → ∀ k < w, view (i - m + k) = (view i).memberAt k

/-- In a view, each engine has at most one TEST connection (R25). -/
def OneTestEach (view : Nat → Entry) : Prop :=
  ∀ i < 1024, ∀ j < 1024, ∀ n w m w' m', view i = .test n w m → view j = .test n w' m' → i - m = j - m'

/-- Both views are made of whole connections, each engine in at most one (R23, R25). -/
def State.ConnectionLaw (s : State) : Prop :=
  ConnectionsWhole s.activeEntry ∧ ConnectionsWhole s.effective ∧ OneTestEach s.activeEntry ∧ OneTestEach s.effective

/-- The journal holds at most 64 entries, no two for one slot, none equal to its slot's active entry (law 1, R39); the
entries of the map and of the journal hold values that R21 allows. -/
def State.JournalLaw (s : State) : Prop :=
  (∀ i < 1024, (s.activeEntry i).OkAt i) ∧
  (∀ e ∈ s.cj.journal, e.slot < 1024 ∧ e.entry.OkAt e.slot ∧ e.entry ≠ s.activeEntry e.slot) ∧
  (s.cj.journal.map (·.slot)).Nodup ∧ s.cj.journal.length ≤ 64

/-- How many output slots of a view are SWITCHED from input slot `u` (R29). -/
def fedFrom (view : Nat → Entry) (u : Nat) : Nat := countSlots fun i => (view i).source? == some u

/-- FOLIM is 1 to 64 (R32); every fan-out counter equals the number of output slots that the effective view feeds from
its input slot, and is at most 64 (R29); so are the counts of the active map (R31). -/
def State.FanOutLaw (s : State) : Prop :=
  1 ≤ s.cm.folim.toNat ∧ s.cm.folim.toNat ≤ 64 ∧
  ∀ u < 1024, s.cm.fanout.get u = fedFrom s.effective u ∧ s.cm.fanout.get u ≤ 64 ∧ fedFrom s.activeEntry u ≤ 64

/-! ## Reservations (laws 4, 5 and 6) -/

/-- The fields of a claim are in the ranges of Table 4-2. -/
def Claim.Ok (c : Claim) : Prop :=
  c.stream ≤ 15 ∧ 1 ≤ c.width ∧ c.width ≤ 16 ∧ c.first + c.width ≤ 64 ∧ c.tag ≠ 0 ∧ c.tag.toNat ≤ 255 ∧
    c.lease ≠ 0 ∧ c.remaining ≠ 0

/-- Laws 4, 5 and 6 (R67, R79): no slot is covered by two records; every slot that a record covers is IDLE in the
active map; a HELD record's slots have no journal entry; a BOUND record covers a slot that has one. -/
def State.ReservationLaw (s : State) : Prop :=
  (∀ r < 32, ∀ c, (s.sau.recs.get r).claim? = some c →
    c.Ok ∧ ∀ slot, c.covers slot = true → s.activeEntry slot = .idle) ∧
  (∀ r < 32, ∀ c, s.sau.recs.get r = .held c → c.inJournal s.cj.journal = false) ∧
  (∀ r < 32, ∀ c, s.sau.recs.get r = .bound c → c.inJournal s.cj.journal = true) ∧
  (∀ r < 32, ∀ r' < 32, ∀ c c', r ≠ r' → (s.sau.recs.get r).claim? = some c → (s.sau.recs.get r').claim? = some c' →
    ∀ slot, ¬(c.covers slot = true ∧ c'.covers slot = true))

/-! ## Engines and the result queue (R104, R119, law 10) -/

/-- The fields of a configuration record pass the checks of R105, which include the ranges of Table 6-1. -/
def EngineConfig.Ok (c : EngineConfig) : Prop :=
  8 ≤ c.len ∧ c.len ≤ 32 ∧ c.chkStream ≤ 15 ∧ c.chkSlot ≤ 63 ∧ c.chkWidth ≤ 16 ∧
    (c.chkWidth = 0 ∨ c.chkSlot + c.chkWidth ≤ 64) ∧ 1 ≤ c.lossThreshold ∧ c.lossThreshold ≤ 64

/-- What a checker holds is in the ranges of R119. -/
def Checker.Ok (c : EngineConfig) : Checker → Prop
  | .off => True
  | .hunting coll => coll.length < c.seedLength
  | .confirming _ count => count < 64
  | .locked _ bits errs => bits < 256 ∧ errs ≤ bits

/-- R104, R107, R114, R116, R119: a configuration in range; at most 255 pending injections, none unless RUNNING; the
checker OFF exactly when the engine is not RUNNING; a run only on a configured checker (R127). -/
def Engine.Ok (e : Engine) : Prop :=
  e.cfg.Ok ∧ e.gen.pendingInj ≤ 255 ∧ e.checker.Ok e.cfg ∧
  (e.run.isRunning = true → e.checker ≠ .off ∧ e.cfg.chkWidth ≠ 0) ∧
  (e.run.isRunning = false → e.checker = .off ∧ e.gen.pendingInj = 0)

/-- Every engine is so. -/
def State.EngineLaw (s : State) : Prop := ∀ n < 4, (s.engine n).Ok

/-- Law 10 (R138, R139): at most 8 records in the queue; the backlog lists the ENDED engines, each once; there is one
only while the queue holds 8 records. -/
def State.QueueLaw (s : State) : Prop :=
  s.rq.queue.length ≤ 8 ∧ s.rq.backlog.Nodup ∧ (∀ n ∈ s.rq.backlog, n < 4) ∧
  (∀ n < 4, n ∈ s.rq.backlog ↔ (s.engine n).run.name = .ended) ∧
  (s.rq.backlog ≠ [] → s.rq.queue.length = 8)

/-! ## Supervisors, settings, the Command Engine and the reset hold -/

/-- The count of a supervisor is in the range of Table 5-1. -/
def SvState.Ok : SvState → Prop
  | .clear => True
  | .suspect k => 1 ≤ k.toNat ∧ k.toNat ≤ 14
  | .fault => True
  | .recovering k => 1 ≤ k.toNat ∧ k.toNat ≤ 254

/-- R88, R89, R91: counts in range; a disabled supervisor is CLEAR with no last sample; the thresholds are never 0. -/
def State.SupervisorLaw (s : State) : Prop :=
  s.sv.decl ≠ 0 ∧ s.sv.clrc ≠ 0 ∧
  ∀ i < 16, (s.sv.sups.get i).state.Ok ∧
    (s.sv.sven.getLsbD i = false → s.sv.sups.get i = { state := .clear, lastSample := none })

/-- R164: no source has level 0. -/
def State.LevelLaw (s : State) : Prop := ∀ k < 26, s.iu.level k ≠ 0

/-- R146: while BUSY, the last command code is the code of the command in progress. -/
def State.CommandLaw (s : State) : Prop := ∀ c, s.ce.busy = some c → s.ce.lastCode = some c.code

/-! ## The range of every piece of state (R177) -/

/-- Table 2-1. -/
def Entry.InRange : Entry → Prop
  | .idle => True
  | .switched src _ _ _ w m => src < 1024 ∧ m < w ∧ w ≤ 16
  | .constant _ w m => m < w ∧ w ≤ 16
  | .test n w m => n < 4 ∧ m < w ∧ w ≤ 16

/-- The least first-lock offset is 2 (R134). -/
def LiveCounters.InRange (l : LiveCounters) : Prop := ∀ x, l.firstLock = some x → 2 ≤ x.toNat

/-- Table 7-5. -/
def ResultRecord.InRange (r : ResultRecord) : Prop := r.engine < 4 ∧ r.live.InRange

/-- Table 6-1. -/
def EngineConfig.InRange (c : EngineConfig) : Prop :=
  8 ≤ c.len ∧ c.len ≤ 32 ∧ c.chkStream ≤ 15 ∧ c.chkSlot ≤ 63 ∧ c.chkWidth ≤ 16 ∧
    1 ≤ c.lossThreshold ∧ c.lossThreshold ≤ 64

/-- R119. -/
def Checker.InRange (c : EngineConfig) : Checker → Prop
  | .off => True
  | .hunting coll => coll.length ≤ c.seedLength
  | .confirming _ count => count ≤ 64
  | .locked _ bits errs => bits ≤ 255 ∧ errs ≤ 256

/-- R104, R107, R119, R134, R137. -/
def Engine.InRange (e : Engine) : Prop :=
  e.cfg.InRange ∧ e.gen.pendingInj ≤ 255 ∧ e.gen.seq.wordPos < e.cfg.len ∧ e.checker.InRange e.cfg ∧
    e.live.InRange ∧ e.snap.live.InRange ∧ ∀ r, e.run = .ended r → r.InRange

/-- Every piece of state that can leave its range has a value of it: the map, the counters and FOLIM (R20, R29, R32), the
journal (R39), the records (Table 4-2), the supervisors and their thresholds (R88, R91), the engines, the queue and the
backlog (R138, R139), the levels (R164), and what the model holds of the frame in progress. -/
def State.InRange (s : State) : Prop :=
  (∀ i < 1024, (s.activeEntry i).InRange ∧ s.cm.fanout.get i ≤ 64) ∧ 1 ≤ s.cm.folim.toNat ∧ s.cm.folim.toNat ≤ 64 ∧
  s.cj.journal.length ≤ 64 ∧ (∀ e ∈ s.cj.journal, e.slot < 1024 ∧ e.entry.InRange) ∧
  (∀ r < 32, ∀ c, (s.sau.recs.get r).claim? = some c → c.Ok) ∧
  s.sv.decl ≠ 0 ∧ s.sv.clrc ≠ 0 ∧ (∀ i < 16, (s.sv.sups.get i).state.Ok ∧ (s.oa.frameState.get i).Ok) ∧
  (∀ n < 4, (s.engine n).InRange) ∧
  s.rq.queue.length ≤ 8 ∧ (∀ r ∈ s.rq.queue, r.InRange) ∧ s.rq.backlog.Nodup ∧ (∀ n ∈ s.rq.backlog, n < 4) ∧
  (∀ k < 26, s.iu.level k ≠ 0) ∧
  (∀ i < 16, s.rfm.captured.get i ≤ 64 ∧ s.oa.next.get i ≤ 64) ∧
  (∀ n < 4, ∀ em, s.oa.emit.get n = some em → em.cfg.InRange ∧ ∀ q, em.tail = some q → q.wordPos < em.cfg.len)

/-- R177: while the part is held in reset, every block stands at its hardware reset values. Those of idleInForce,
frameState, frame, next, emit and captured, which no rule gives, are the model's choice (log 10). -/
def State.ResetLaw (s : State) : Prop :=
  s.inReset = true →
    s = { State.reset with pins := s.pins, held := s.held, freeDraws := s.freeDraws, pending := s.pending }

/-! ## The frame starts of an engine -/

/-- Frames run reaches the duration of the engine's run at the next frame start that it counts (R129). -/
def Engine.reachesDuration (e : Engine) : Prop :=
  e.cfg.duration ≠ 0 ∧
    (satInc e.live.framesRun).toNat = e.cfg.duration.toNat * (if e.cfg.unit = .seconds then 8000 else 1)

/-- No commit is applied at the frame start, or the one applied leaves engine `n` a TEST connection (R131). -/
def State.keepsTest (s : State) (e : FrameEvent) (n : Nat) : Prop :=
  ¬s.triggerMetAt e ∨ (s.JournalLaw ∧ ∃ i < 1024, (s.effective i).engine? = some n)

/-- The bits that a frame start from `s` presents to the checker of a configuration: those of its slots in the input frame
that the frame start completes (R7, R120). -/
def State.arrivedBits (s : State) (c : EngineConfig) : List Bool :=
  (List.range (8 * c.chkWidth)).map fun k =>
    (s.rfm.receiving.get (64 * c.chkStream + c.chkSlot + k / 8)).getLsbD (7 - k % 8) ^^ c.invert

/-- A frame start that leads from `s` to `t` is counted for engine `n` by steps 1 to 3 of R126, and its SYNC_CHANGE is
raised (R120, R121, R125, R134). `after` is the checker after step 2. -/
def State.countsFrame (s t : State) (n : Nat) (after : Checker) : Prop :=
  ∀ cfg old new, cfg = (s.engine n).cfg → old = (s.engine n).live → new = (t.engine n).live →
    new.framesRun = satInc old.framesRun ∧ new.errorsInjected = old.errorsInjected ∧
    new.framesLocked = (if after.name = .locked then satInc old.framesLocked else old.framesLocked) ∧
    (old.framesRun = 0 →
      after = (s.engine n).checker ∧ new.bitErrors = old.bitErrors ∧
      new.syncLosses = old.syncLosses ∧ new.faultFrames = old.faultFrames ∧ new.firstLock = old.firstLock ∧
      t.flag (6 + n) = s.flag (6 + n)) ∧
    (old.framesRun ≠ 0 → (t.sv.sups.get cfg.chkStream).state.faulted = true → (s.engine n).checker ≠ .off →
      after = .hunting [] ∧ new.bitErrors = old.bitErrors ∧
      new.faultFrames = satInc old.faultFrames ∧ new.firstLock = old.firstLock ∧
      new.syncLosses =
        (if (s.engine n).checker.name = .locked then satInc old.syncLosses else old.syncLosses) ∧
      (t.flag (6 + n) = true ↔ s.flag (6 + n) = true ∨ (s.engine n).checker.name = .locked)) ∧
    (old.framesRun ≠ 0 → (t.sv.sups.get cfg.chkStream).state.faulted = false →
      ∀ w, w = (s.arrivedBits cfg).foldl (checkBit cfg)
            { checker := (s.engine n).checker, bitErrors := old.bitErrors, syncLosses := old.syncLosses,
              changed := false, entered := false } →
        after = w.checker ∧ new.bitErrors = w.bitErrors ∧ new.syncLosses = w.syncLosses ∧
        new.faultFrames = old.faultFrames ∧
        new.firstLock =
          (if w.entered = true ∧ old.firstLock = none then some (satInc old.framesRun) else old.firstLock) ∧
        (t.flag (6 + n) = true ↔ s.flag (6 + n) = true ∨ w.changed = true))

end Sys2Proof.Machine
end

