-- ==== Sys2Proof/Certificates/Slice0/Obligations.lean ====
section
/-! DEFINITION. The statements for the provers. The comment before each says what it rests on. -/

section

open Sys2Proof Sys2Proof.Machine

/-! ## The queue, operands and resets -/

/-- A step takes the command at the front of the queue and runs it on the state with the queue's rest; on an empty queue
the block idles (the model's choice, log 17). -/
def Obligations.StepRunsTheFrontCommand : Prop :=
  (∀ (c : Instr) (rest : List Instr) (s : State),
    step { s with pending := c :: rest } = exec c { s with pending := rest }) ∧
  (∀ s : State, s.pending = [] → step s = .next s)

/-- A command answers a next state in every state, unless an operand names a stream, a slot or a register word that the
part does not have (the model's fault, log 18); and no command touches the queue. -/
def Obligations.OperandsDecideTheAnswerAndTheQueueStays : Prop :=
  (∀ (c : Instr) (s : State),
      (c.wellFormed = true → ∃ t, exec c s = .next t) ∧
      (c.wellFormed = false → exec c s = .fault .noSuchPlace)) ∧
  (∀ (c : Instr) (s t : State), exec c s = .next t → t.pending = s.pending)

/-- Hardware reset gives every block its reset values and holds the part there (R177 and the owning rules). The pins
keep their levels (the model's choice, log 8); two causes can hold the part (log 22). -/
def Obligations.HardwareResetValues : Prop :=
  ∀ (cause : ResetCause) (s : State), ∃ t, exec (.hardwareReset cause) s = .next t ∧
    t.held = s.held.hold cause ∧ t.inReset = true ∧ t.pins = s.pins ∧
    t.fcnt = 0 ∧
    (∀ i, t.rfm.receiving.get i = 0 ∧ t.rfm.completed.get i = 0) ∧
    t.oa.idlec = 0x54 ∧ t.oa.inProgress = false ∧
    (∀ i, t.activeEntry i = .idle ∧ t.effective i = .idle ∧ t.cm.fanout.get i = 0 ∧ t.hold.get i = 0x54) ∧
    t.cm.folim = 64 ∧
    t.cj = { journal := [], commit := none, cseq := 0, lcf := 0 } ∧
    (∀ r, t.sau.recs.get r = .free) ∧ t.sau.expf = 0 ∧
    (∀ i, t.sv.sups.get i = { state := .clear, lastSample := none }) ∧
    t.sv.sven = 0 ∧ t.sv.svfrc = 0 ∧ t.sv.decl = 3 ∧ t.sv.clrc = 8 ∧
    (∀ n, (t.engine n).cfg =
        { pattern := .prbs23, invert := false, word := 0, len := 16, chkStream := 0, chkSlot := 0, chkWidth := 0,
          lossThreshold := 16, duration := 0, unit := .frames } ∧
      (t.engine n).gen.seq.reg = BitVec.allOnes 31 ∧ (t.engine n).gen.seq.wordPos = 0 ∧
      (t.engine n).gen.pendingInj = 0 ∧ (t.engine n).checker = .off ∧ (t.engine n).run = .idle ∧
      (t.engine n).live = LiveCounters.zero ∧ (t.engine n).lastRun = 0 ∧ (t.engine n).snap = Snapshot.zero) ∧
    t.te.runCounter = 0 ∧ t.rq.queue = [] ∧ t.rq.backlog = [] ∧
    t.ce = { busy := none, lastCode := none, code := .ok, res := ⟨0, 0, 0, 0⟩, overrun := false,
             params := ⟨0, 0, 0, 0, 0, 0⟩ } ∧
    t.iu.flags = 0 ∧ t.iu.masks = BitVec.allOnes 26 ∧ (∀ k < 26, t.iu.level k = 1) ∧ t.iu.ithr = 0 ∧
    t.iu.ivec = 0x003F ∧
    t.biu.insa = 0 ∧ t.biu.valid = false ∧ t.biu.insd = ⟨0, 0, 0, 0, 0, 0, 0, 0⟩

/-- While the part is held in reset, every command but a reset and a release changes nothing, and every read returns
0000h. A release ends the hold of its cause and changes nothing else; so does the release after an assertion of RESET_N
that was too short while the power-up hold still stands (the model's deduction, log 22); the release of a cause that
does not hold the part changes nothing. After an assertion of RESET_N that was too short, with no other hold, the part
is out of reset with every piece of its state at a value of its range, and the statement fixes beside that only the
queue and the pins (R177; logs 1 and 3). -/
def Obligations.HeldInResetAndReleased : Prop :=
  (∀ s : State, s.inReset = true →
      (∀ c : Instr, c.wellFormed = true → (∀ cause, c ≠ .hardwareReset cause) →
        (∀ cause m, c ≠ .resetNRelease cause m) → exec c s = .next s) ∧
      (∀ a level, busRead s a level = 0)) ∧
  (∀ (m : Bool) (s : State),
      (s.held.resetN = true → m = true ∨ s.held.powerUp = true →
        exec (.resetNRelease .resetN m) s = .next { s with held := { s.held with resetN := false } }) ∧
      (s.held.resetN = true → m = false → s.held.powerUp = false →
        ∃ t, exec (.resetNRelease .resetN m) s = .next t ∧ t.inReset = false ∧ t.InRange ∧
          t.pending = s.pending ∧ t.pins = s.pins) ∧
      (s.held.powerUp = true →
        exec (.resetNRelease .powerUp m) s = .next { s with held := { s.held with powerUp := false } }) ∧
      (s.held.resetN = false → exec (.resetNRelease .resetN m) s = .next s) ∧
      (s.held.powerUp = false → exec (.resetNRelease .powerUp m) s = .next s))

/-- SOFT RESET clears what R156 lists, keeps everything else, and counts what it discards (R157). In states that break the
laws, that the last command code stays where it is not SOFT RESET's, and that a recount may exceed 64, are the model's
choices (log 19). -/
def Obligations.SoftResetClearsAndKeeps : Prop :=
  ∀ (s : State) (p : Params), s.Commanded 0x5A p → ∃ t, exec .softReset s = .next t ∧
    t = { s with cm := { s.cm with fanout := t.cm.fanout }
                 cj := { s.cj with journal := [], commit := none }
                 sau := { recs := t.sau.recs, expf := 0 }
                 te := { s.te with engines := t.te.engines }
                 rq := { queue := [], backlog := [] }
                 ce := { s.ce with busy := none, code := .ok, res := t.ce.res, overrun := false }
                 iu := { s.iu with flags := 1 } } ∧
    (∀ u < 1024, t.cm.fanout.get u = fedFrom s.activeEntry u) ∧
    (∀ r, t.sau.recs.get r = .free) ∧
    (∀ n < 4, t.engine n =
      { cfg := (s.engine n).cfg, gen := { seq := (s.engine n).gen.seq, pendingInj := 0 }, checker := .off, run := .idle,
        live := LiveCounters.zero, lastRun := 0, snap := Snapshot.zero }) ∧
    t.ce.res.r0 = word s.cj.journal.length ∧
    t.ce.res.r1 = word ((List.range 32).countP fun r => s.sau.recs.get r != .free) ∧
    t.ce.res.r2 = word ((List.range 4).countP fun n => (s.engine n).run.name == .running) ∧
    t.ce.res.r3 = word (s.rq.queue.length + (List.range 4).countP fun n => (s.engine n).run.name == .ended)

/-! ## The byte path -/

/-- The byte of an input slot replaces the byte held in the receiving frame once the first frame has begun, and nothing
else changes but how far the line has come, where the output slots sent by then have been formed (R5, R6, R18). A slot
already formed in the frame is not formed again, and nothing is formed before the first frame (R4, R18). The first slot
that has not been formed is formed before any later slot, and before the byte of an input slot is complete that the line
passes after it: those events come out the same when that slot's own event comes first. The formation of a slot and the
completion of the input byte one slot before it come out the same in either order (R5, R13). How far the line has come,
and that an event which skips others stands for them too, are the model's reading of R5 (logs 5 and 6). -/
def Obligations.CaptureAndRepeatedFrames : Prop :=
  (∀ (s : State) (stream slot : Nat) (b : Byte), stream < 16 → slot < 64 → s.inReset = false →
      (s.oa.inProgress = true → s.formedTo (slot + 1) → (s.linePassed stream slot → s.formedTo 64) →
        exec (.inputByteCapture stream slot b) s =
          .next { s with rfm := { s.rfm with receiving := s.rfm.receiving.set (64 * stream + slot) b
                                             captured := s.rfm.captured.set stream (slot + 1) } }) ∧
      (s.oa.inProgress = false → exec (.inputByteCapture stream slot b) s = .next s)) ∧
  (∀ (s : State) (stream slot : Nat), stream < 16 → slot < 64 →
      s.oa.inProgress = false ∨ slot < s.oa.next.get stream →
      exec (.outputSlotFormation stream slot) s = .next s) ∧
  (∀ (s s' : State) (o k stream slot : Nat), s.firstUnformed o k → exec (.outputSlotFormation o k) s = .next s' →
      stream < 16 → slot < 64 →
      (k < slot → s.oa.next.get stream ≤ slot →
        exec (.outputSlotFormation stream slot) s = exec (.outputSlotFormation stream slot) s') ∧
      (k ≤ slot ∨ s.linePassed stream slot → ∀ b,
        exec (.inputByteCapture stream slot b) s = exec (.inputByteCapture stream slot b) s')) ∧
  (∀ (s s' t' : State) (o stream slot : Nat) (b : Byte), o < 16 → stream < 16 → slot + 1 < 64 →
      s.formedTo (slot + 1) → ¬s.linePassed stream slot →
      exec (.outputSlotFormation o (slot + 1)) s = .next s' → exec (.inputByteCapture stream slot b) s = .next t' →
      exec (.inputByteCapture stream slot b) s' = exec (.outputSlotFormation o (slot + 1)) t')

/-- The byte formed for an IDLE, a CONSTANT and a SWITCHED slot, which is the one change the formation makes where the
earlier slots have been formed; that byte is what the line carries (R9, R10, R12 to R16). While no frame is in progress
every output stream carries logic 1 in every bit (R18). That each slot is formed by its own entry, also where members make
no whole connection, and by the frame state held for the frame, is the model's choice (logs 14 and 19). -/
def Obligations.FormedByteOfIdleConstantAndSwitched : Prop :=
  (∀ (s : State) (stream slot : Nat), s.oa.inProgress = false → s.lineByte stream slot = some 0xFF) ∧
  ∀ (s : State) (stream slot : Nat), stream < 16 → slot < 64 → s.inReset = false → s.oa.inProgress = true →
    s.formedTo slot → s.oa.next.get stream ≤ slot →
    (s.activeEntry (64 * stream + slot) = .idle →
      exec (.outputSlotFormation stream slot) s = .next (s.withByte stream slot s.oa.idleInForce)) ∧
    (∀ b w m, s.activeEntry (64 * stream + slot) = .constant b w m →
      exec (.outputSlotFormation stream slot) s = .next (s.withByte stream slot b)) ∧
    (∀ src d inv c w m source path b, s.activeEntry (64 * stream + slot) = .switched src d inv c w m →
      source = (if d = .minimum ∧ src % 64 + 2 ≤ slot then s.rfm.receiving.get src else s.rfm.completed.get src) →
      path = (if inv = true then source ^^^ 0xFF else source) →
      b = (match s.oa.frameState.get (src / 64), c with
        | .clear, _ => path
        | .suspect _, _ => path
        | _, .pass => path
        | _, .idleCode => s.oa.idleInForce
        | _, .allOnes => 0xFF
        | _, .hold => s.hold.get (64 * stream + slot)) →
      exec (.outputSlotFormation stream slot) s = .next (s.withByte stream slot b)) ∧
    (∀ b, (s.withByte stream slot b).lineByte stream slot = some b)

/-- The byte formed for a TEST slot, where the earlier slots have been formed: the idle code in force when its engine
supplies nothing in the frame; otherwise the next byte of the engine's sequence, its least significant bit complemented
when an injection is pending, which is then counted; an ended run whose generator a START has reseeded goes on from the
sequence it had reached (R11, R111, R115; the last case is the model's reading of R11, log 7). In states that break the
laws, that every TEST slot of the engine takes the next byte, by the configuration held for the frame and whatever the run
state, is the model's choice (log 19). -/
def Obligations.FormedByteOfTest : Prop :=
  ∀ (s : State) (stream slot n w m : Nat), stream < 16 → slot < 64 → s.inReset = false → s.oa.inProgress = true →
    s.formedTo slot → s.oa.next.get stream ≤ slot → s.activeEntry (64 * stream + slot) = .test n w m →
    (s.oa.emit.get n = none →
      exec (.outputSlotFormation stream slot) s = .next (s.withByte stream slot s.oa.idleInForce)) ∧
    (∀ cfg b q, s.oa.emit.get n = some { cfg := cfg, tail := none } → nextByte cfg (s.engine n).gen.seq = (b, q) →
      ((s.engine n).gen.pendingInj = 0 →
        exec (.outputSlotFormation stream slot) s =
          .next ((s.setEngine n { s.engine n with gen := { seq := q, pendingInj := 0 } }).withByte stream slot b)) ∧
      (∀ k, (s.engine n).gen.pendingInj = k + 1 →
        exec (.outputSlotFormation stream slot) s =
          .next ((s.setEngine n { s.engine n with
              gen := { seq := q, pendingInj := k }
              live := { (s.engine n).live with errorsInjected := satInc (s.engine n).live.errorsInjected } }).withByte
            stream slot (b ^^^ 1)))) ∧
    (∀ cfg b q q', s.oa.emit.get n = some { cfg := cfg, tail := some q } → nextByte cfg q = (b, q') →
      exec (.outputSlotFormation stream slot) s =
        .next ({ s with oa := { s.oa with
            emit := s.oa.emit.set n (some { cfg := cfg, tail := some q' }) } }.withByte stream slot b))

/-- The bits of the sequences and the bytes made of them: the recurrences of Table 6-2 (R108), the word bits of
R109, what the register holds (R107), and the order and inversion of R110. -/
def Obligations.SequenceBitsAndBytes : Prop :=
  ∀ (c : EngineConfig) (q : Sequence),
    (∀ order tap, (c.pattern, order, tap) ∈ [(Pattern.prbs9, 9, 5), (.prbs23, 23, 18), (.prbs31, 31, 28)] →
      (nextBit c q).1 = (q.reg.getLsbD (order - 1) ^^ q.reg.getLsbD (tap - 1)) ∧
      (nextBit c q).2.wordPos = q.wordPos) ∧
    (c.pattern = .word →
      (nextBit c q).1 = c.word.getLsbD (c.len - 1 - q.wordPos) ∧
      (nextBit c q).2.wordPos = (if q.wordPos + 1 < c.len then q.wordPos + 1 else 0)) ∧
    (nextBit c q).2.reg.getLsbD 0 = (nextBit c q).1 ∧
    (∀ j < 30, (nextBit c q).2.reg.getLsbD (j + 1) = q.reg.getLsbD j) ∧
    (∀ k < 8, (nextByte c q).1.getLsbD (7 - k) = ((nextBit c (seqAfter c k q)).1 ^^ c.invert)) ∧
    (nextByte c q).2 = seqAfter c 8 q

/-! ## Frame starts -/

/-- What every frame start does: FCNT advances, the completed frames become copies of the receiving frames, IDLEC comes
into force, a new output frame begins with the frame states and run states as they stand after the frame start, and the
line stands before slot 0; and what no frame start changes (R2, R5, R7, R8, R11, R17, R95). The row carries the levels
of the pins (log 8), and the free-value counter is the model's own (log 16). -/
def Obligations.FrameStartBeginsAFrame : Prop :=
  ∀ (e : FrameEvent) (s : State), s.inReset = false → ∃ t, exec (.frameStart e) s = .next t ∧
    t.fcnt = s.fcnt + 1 ∧
    t.rfm.completed = s.rfm.receiving ∧ t.rfm.receiving = s.rfm.receiving ∧ (∀ i, t.rfm.captured.get i = 0) ∧
    t.oa.idleInForce = s.oa.idlec ∧ t.oa.idlec = s.oa.idlec ∧ t.oa.inProgress = true ∧
    (∀ i, t.oa.frame.get i = none) ∧ (∀ i, t.oa.next.get i = 0) ∧
    (∀ i < 16, t.oa.frameState.get i = (t.sv.sups.get i).state) ∧
    (∀ n < 4, t.oa.emit.get n =
      if (t.engine n).run.isRunning = true then some { cfg := (t.engine n).cfg, tail := none } else none) ∧
    t.pins = { sf := e.sf, cstrobe := e.cstrobe } ∧
    t.cm.fanout = s.cm.fanout ∧ t.cm.folim = s.cm.folim ∧
    t.sv.sven = s.sv.sven ∧ t.sv.svfrc = s.sv.svfrc ∧ t.sv.decl = s.sv.decl ∧ t.sv.clrc = s.sv.clrc ∧
    t.te.runCounter = s.te.runCounter ∧
    (∀ n < 4, (t.engine n).cfg = (s.engine n).cfg ∧ (t.engine n).gen.seq = (s.engine n).gen.seq ∧
      (t.engine n).lastRun = (s.engine n).lastRun ∧ (t.engine n).snap = (s.engine n).snap) ∧
    t.ce = s.ce ∧ t.iu.masks = s.iu.masks ∧ t.iu.levels = s.iu.levels ∧ t.iu.ithr = s.iu.ithr ∧
    t.biu = s.biu ∧ t.held = s.held ∧ t.freeDraws = s.freeDraws

/-- The samples of a frame start (R89, R90, R92): Table 5-2 for an enabled supervisor, no change for a disabled one, and
the STREAM_CHANGE of a move into FAULT or back into CLEAR. That a disabled supervisor outside CLEAR, which only too short a
reset leaves, stays as it is, is the model's choice (log 19). -/
def Obligations.SupervisorsSampleAtFrameStart : Prop :=
  ∀ (e : FrameEvent) (s : State), s.inReset = false → ∃ t, exec (.frameStart e) s = .next t ∧
    ∀ i < 16,
      (s.sv.sven.getLsbD i = false → t.sv.sups.get i = s.sv.sups.get i ∧ t.flag (10 + i) = s.flag (10 + i)) ∧
      (s.sv.sven.getLsbD i = true → ∀ input, input = (e.sf.getLsbD i || s.sv.svfrc.getLsbD i) →
        (t.sv.sups.get i).lastSample = some input ∧
        (t.sv.sups.get i).state = (match (s.sv.sups.get i).state, input with
          | .clear, true => if s.sv.decl = 1 then .fault else .suspect 1
          | .clear, false => .clear
          | .suspect k, true => if s.sv.decl.toNat ≤ k.toNat + 1 then .fault else .suspect (k + 1)
          | .suspect _, false => .clear
          | .fault, true => .fault
          | .fault, false => if s.sv.clrc = 1 then .clear else .recovering 1
          | .recovering _, true => .fault
          | .recovering k, false => if s.sv.clrc.toNat ≤ k.toNat + 1 then .clear else .recovering (k + 1)) ∧
        (t.flag (10 + i) = true ↔ s.flag (10 + i) = true ∨
          ((t.sv.sups.get i).state = .fault ∧ (s.sv.sups.get i).state ≠ .fault) ∨
          ((t.sv.sups.get i).state = .clear ∧
            ((s.sv.sups.get i).state = .fault ∨ ∃ k, (s.sv.sups.get i).state = .recovering k))))

/-- A stream that is CLEAR is declared faulted after DECL consecutive asserted samples, and one in FAULT is cleared
after CLRC consecutive deasserted ones (R90). -/
def Obligations.ConsecutiveSamplesDeclareAndClear : Prop :=
  ∀ (f : Nat → State) (e : Nat → FrameEvent) (i n : Nat), i < 16 →
    (∀ k < n, (f k).inReset = false ∧ exec (.frameStart (e k)) (f k) = .next (f (k + 1))) →
    (f 0).sv.sven.getLsbD i = true →
    ((∀ k < n, (e k).sf.getLsbD i = true ∨ (f 0).sv.svfrc.getLsbD i = true) →
      ((f 0).sv.sups.get i).state = .clear → (f 0).sv.decl ≠ 0 →
      ∀ k, 0 < k → k ≤ n →
        ((f k).sv.sups.get i).state =
          if k < (f 0).sv.decl.toNat then .suspect (BitVec.ofNat 4 k) else .fault) ∧
    ((∀ k < n, (e k).sf.getLsbD i = false ∧ (f 0).sv.svfrc.getLsbD i = false) →
      ((f 0).sv.sups.get i).state = .fault → (f 0).sv.clrc ≠ 0 →
      ∀ k, 0 < k → k ≤ n →
        ((f k).sv.sups.get i).state =
          if k < (f 0).sv.clrc.toNat then .recovering (BitVec.ofNat 8 k) else .clear)

/-- The countdown of leases (R82): at a frame start. That LEASE_EXPIRY is that whole frame start, where some record
expires at it, is the model's choice (log 2); so is a remaining count of 0, which no run from reset has, going on to
FFFFh, and a BOUND record being freed by the application of an empty commit (log 19). -/
def Obligations.LeasesCountDownAtFrameStart : Prop :=
  (∀ (e : FrameEvent) (s : State), (∃ r < 32, s.expiring r) → exec (.leaseExpiry e) s = exec (.frameStart e) s) ∧
  ∀ (e : FrameEvent) (s : State) (c : Instr), s.inReset = false →
    c = .frameStart e ∨ (c = .leaseExpiry e ∧ ∃ r < 32, s.expiring r) → ∃ t, exec c s = .next t ∧
      (∀ r < 32,
        (s.sau.recs.get r = .free → t.sau.recs.get r = .free) ∧
        (∀ b, s.sau.recs.get r = .bound b →
          (s.triggerMetAt e → t.sau.recs.get r = .free) ∧
          (¬s.triggerMetAt e → t.sau.recs.get r = .bound b)) ∧
        (∀ h, s.sau.recs.get r = .held h →
          (h.remaining = 1 → t.sau.recs.get r = .free) ∧
          (h.remaining ≠ 1 → t.sau.recs.get r = .held { h with remaining := h.remaining - 1 })) ∧
        (t.sau.expf.getLsbD r = true ↔ s.sau.expf.getLsbD r = true ∨ s.expiring r)) ∧
      (t.flag 2 = true ↔ s.flag 2 = true ∨ ∃ r < 32, s.expiring r)

/-- The application of a pending commit (R57, R31, laws 2 and 12) at a frame start. That COMMIT_APPLICATION is that
whole frame start, and advances FCNT with it, is the model's choice (log 2); so is that a BOUND record is freed where the
journal is empty, which the laws exclude (R57 and R81 disagree there, log 19). -/
def Obligations.CommitApplication : Prop :=
  (∀ (e : FrameEvent) (s : State), s.triggerMetAt e → exec (.commitApplication e) s = exec (.frameStart e) s) ∧
  ∀ (e : FrameEvent) (s : State) (c : Instr), s.inReset = false → s.JournalLaw → s.triggerMetAt e →
    c = .frameStart e ∨ c = .commitApplication e → ∃ t, exec c s = .next t ∧
      (∀ i < 1024, t.activeEntry i = s.effective i ∧ t.effective i = s.effective i) ∧
      t.cj = { journal := [], commit := none, cseq := s.cj.cseq + 1, lcf := s.fcnt + 1 } ∧
      t.fcnt = s.fcnt + 1 ∧ t.cm.fanout = s.cm.fanout ∧
      (∀ r < 32, ∀ b, s.sau.recs.get r = .bound b → t.sau.recs.get r = .free) ∧
      t.flag 1 = true

/-- A pending commit whose trigger is not met waits, and with none pending nothing is applied (R52, R54 to R56).
LEASE_EXPIRY, COMMIT_APPLICATION and DURATION_EXPIRY name a frame start at which such a thing falls due; with none due
they change nothing (the model's choice, log 2). -/
def Obligations.WithoutTheirOccasion : Prop :=
  (∀ (e : FrameEvent) (s : State), s.inReset = false → ¬s.triggerMetAt e →
      ∃ t, exec (.frameStart e) s = .next t ∧ t.cj = s.cj ∧ t.cm = s.cm ∧ t.flag 1 = s.flag 1) ∧
  (∀ (e : FrameEvent) (s : State),
      ((∀ r < 32, ¬s.expiring r) → exec (.leaseExpiry e) s = .next s) ∧
      (¬s.triggerMetAt e → exec (.commitApplication e) s = .next s) ∧
      ((∀ n < 4, (s.engine n).run.isRunning = false ∨ ¬(s.engine n).reachesDuration) →
        exec (.durationExpiry e) s = .next s))

/-- The hold bytes after a frame start (R98, R99). That the slot which a frame start cuts off is the last one formed is
the model's reading (log 5); that a slot was sent where the frame holds a byte for it is the model's choice in states that
break the laws (log 19). -/
def Obligations.HoldBytesAtFrameStart : Prop :=
  ∀ (e : FrameEvent) (s : State), s.inReset = false → s.JournalLaw → ∃ t, exec (.frameStart e) s = .next t ∧
    ∀ i < 1024,
      (s.triggerMetAt e ∧ s.effective i ≠ s.activeEntry i → t.hold.get i = s.oa.idlec) ∧
      (¬(s.triggerMetAt e ∧ s.effective i ≠ s.activeEntry i) →
        (∀ src d inv c w m b, s.activeEntry i = .switched src d inv c w m →
          s.oa.frameState.get (src / 64) = .clear → s.oa.frame.get i = some b →
          ¬s.cutsOff e i → t.hold.get i = b) ∧
        ((∀ src d inv c w m, s.activeEntry i = .switched src d inv c w m →
            s.oa.frameState.get (src / 64) ≠ .clear ∨ s.oa.frame.get i = none ∨ s.cutsOff e i) →
          t.hold.get i = s.hold.get i))

/-- The frame-start work of an engine that stays RUNNING, with its SYNC_CHANGE (R120, R121, R125, R126, R131, R134): the
duration is not reached, and either no commit is applied at the frame start or the commit leaves the engine a TEST
connection. An engine that is IDLE or ENDED does no work, and nothing of it moves. In states that break the laws, that any
TEST entry of the engine counts as its connection, that a disabled supervisor outside CLEAR makes fault frames, that
checked slots past slot 63 run on into the next stream, and that the offset is set where it is absent, are the model's
choices (log 19). -/
def Obligations.FrameStartWorkOfARunningEngine : Prop :=
  (∀ (e : FrameEvent) (s : State) (n : Nat) (c : Word), s.inReset = false → n < 4 → (s.engine n).run = .running c →
    s.keepsTest e n → ¬(s.engine n).reachesDuration →
    ∃ t, exec (.frameStart e) s = .next t ∧ (t.engine n).run = .running c ∧ (t.engine n).gen = (s.engine n).gen ∧
      s.countsFrame t n (t.engine n).checker) ∧
  (∀ (e : FrameEvent) (s : State) (n : Nat), s.inReset = false → n < 4 → (s.engine n).run.isRunning = false →
    ∃ t, exec (.frameStart e) s = .next t ∧ t.engine n = s.engine n ∧ t.flag (6 + n) = s.flag (6 + n))

/-- What a checker does with one bit (R122 to R124). -/
def Obligations.CheckerTakesABit : Prop :=
  ∀ (c : EngineConfig) (w : CheckWork) (b : Bool),
    (∀ coll, w.checker = .hunting coll →
      (coll.length + 1 < c.seedLength → checkBit c w b = { w with checker := .hunting (coll ++ [b]) }) ∧
      (coll.length + 1 = c.seedLength → c.pattern ≠ .word →
        (true ∈ coll ++ [b] → ∃ reg : BitVec 31, checkBit c w b = { w with checker := .confirming (.prbs reg) 0 } ∧
          ∀ k < c.seedLength, reg.getLsbD k = (coll ++ [b]).getD (c.seedLength - 1 - k) false) ∧
        (true ∉ coll ++ [b] → checkBit c w b = { w with checker := .hunting ((coll ++ [b]).drop 1) })) ∧
      (coll.length + 1 = c.seedLength → c.pattern = .word → ∀ rotation,
        rotation = (fun k => (List.range c.len).map fun i => c.word.getLsbD (c.len - 1 - (k + i) % c.len)) →
        (∀ k < c.len, rotation k = coll ++ [b] → (∀ j < k, rotation j ≠ coll ++ [b]) →
          checkBit c w b = { w with checker := .confirming (.word k) 0 }) ∧
        ((∀ k < c.len, rotation k ≠ coll ++ [b]) →
          checkBit c w b = { w with checker := .hunting ((coll ++ [b]).drop 1) }))) ∧
    (∀ ref count, w.checker = .confirming ref count →
      (b = (ref.predict c).1 → count + 1 < 64 →
        checkBit c w b = { w with checker := .confirming (ref.predict c).2 (count + 1) }) ∧
      (b = (ref.predict c).1 → count + 1 = 64 →
        checkBit c w b = { w with checker := .locked (ref.predict c).2 0 0, changed := true, entered := true }) ∧
      (b ≠ (ref.predict c).1 → checkBit c w b = { w with checker := .hunting [] })) ∧
    (∀ ref bits errs, w.checker = .locked ref bits errs → ∀ errs' errors',
      errs' = (if b = (ref.predict c).1 then errs else errs + 1) →
      errors' = (if b = (ref.predict c).1 then w.bitErrors else satInc w.bitErrors) →
      (bits + 1 < 256 → checkBit c w b =
        { w with checker := .locked (ref.predict c).2 (bits + 1) errs', bitErrors := errors' }) ∧
      (bits + 1 = 256 → errs' < c.lossThreshold → checkBit c w b =
        { w with checker := .locked (ref.predict c).2 0 0, bitErrors := errors' }) ∧
      (bits + 1 = 256 → c.lossThreshold ≤ errs' → checkBit c w b =
        { w with checker := .hunting [], bitErrors := errors', syncLosses := satInc w.syncLosses, changed := true }))

/-- A clean hunt on the sequence that the generator itself produces locks after exactly S + 64 bits, without a bit error
(R122, R123): for a PRBS whose first S bits are not all 0, and for a WORD. -/
def Obligations.CleanSequenceLocks : Prop :=
  ∀ (c : EngineConfig) (q : Sequence) (w : CheckWork), 8 ≤ c.len → q.wordPos < c.len → 1 ≤ c.lossThreshold →
    w.checker = .hunting [] → c.pattern = .word ∨ true ∈ firstBits c c.seedLength q →
    (∃ ref, (firstBits c (c.seedLength + 64) q).foldl (checkBit c) w =
      { w with checker := .locked ref 0 0, changed := true, entered := true }) ∧
    (∀ k < c.seedLength + 64, ((firstBits c k q).foldl (checkBit c) w).checker.name ≠ .locked) ∧
    (∀ k, ((firstBits c k q).foldl (checkBit c) w).bitErrors = w.bitErrors)

/-- A run of duration D ends COMPLETED at the frame start at which frames run reaches its limit, with that frame start
counted by steps 1 to 3 of R126 (R129, R132; R120, R121, R125, R134), also where a commit is applied at it that leaves
the engine a TEST connection (R131). That DURATION_EXPIRY is that whole frame start is the model's choice (log 2). In
states that break the laws, the counting rests on the model's choices as in the statement FrameStartWorkOfARunningEngine,
and the record is handed over whatever the backlog lists (log 19). -/
def Obligations.DurationEndsTheRun : Prop :=
  (∀ (e : FrameEvent) (s : State), (∃ n < 4, (s.engine n).run.isRunning = true ∧ (s.engine n).reachesDuration ∧
      (s.keepsTest e n ∨ e.workFirst.getLsbD n = true)) →
    exec (.durationExpiry e) s = exec (.frameStart e) s) ∧
  ∀ (e : FrameEvent) (s : State) (n : Nat) (start : Word) (c : Instr), s.inReset = false → n < 4 →
    (s.engine n).run = .running start → s.keepsTest e n → (s.engine n).reachesDuration →
    c = .frameStart e ∨ c = .durationExpiry e →
    ∃ t r after, exec c s = .next t ∧ t.holdsRecord n r ∧
      r.engine = n ∧ r.outcome = .completed ∧ r.runSeq = (s.engine n).lastRun ∧ r.startCseq = start ∧
      r.live = (t.engine n).live ∧ r.live.framesRun = (s.engine n).live.framesRun + 1 ∧ s.countsFrame t n after ∧
      (t.engine n).run.isRunning = false ∧ (t.engine n).checker = .off ∧ (t.engine n).gen.pendingInj = 0 ∧
      t.oa.emit.get n = none

/-- A commit that leaves no TEST connection for a RUNNING engine ends its run, in either order of R131: with the
application first, nothing of the frame start is counted or read; with the engine's work first, steps 1 to 3 of R126
count it (R120, R121, R125, R126, R134). In states that break the laws both rest on the model's choices (log 19), as in the
statements before. -/
def Obligations.PathRemovalEndsTheRun : Prop :=
  ∀ (e : FrameEvent) (s : State) (n : Nat) (start : Word), s.inReset = false → s.JournalLaw → n < 4 →
    (s.engine n).run = .running start → s.triggerMetAt e → (∀ i < 1024, (s.effective i).engine? ≠ some n) →
    ∃ t r after, exec (.frameStart e) s = .next t ∧ t.holdsRecord n r ∧
      r.engine = n ∧ r.runSeq = (s.engine n).lastRun ∧ r.startCseq = start ∧ r.live = (t.engine n).live ∧
      (t.engine n).run.isRunning = false ∧ (t.engine n).checker = .off ∧ (t.engine n).gen.pendingInj = 0 ∧
      t.oa.emit.get n = none ∧
      (e.workFirst.getLsbD n = false →
        r.outcome = .pathRemoved ∧ r.live = (s.engine n).live ∧ t.flag (6 + n) = s.flag (6 + n)) ∧
      (e.workFirst.getLsbD n = true → s.countsFrame t n after ∧
        ((s.engine n).reachesDuration → r.outcome = .completed) ∧
        (¬(s.engine n).reachesDuration → r.outcome = .pathRemoved))

/-- The runs that end at one frame start hand over their records in ascending engine number: the queue takes them while
it has room, and the engines whose records do not fit join the backlog (R138, R139). -/
def Obligations.RecordsHandedOverInEngineOrder : Prop :=
  ∀ (e : FrameEvent) (s : State), s.inReset = false → s.QueueLaw → ∃ t, exec (.frameStart e) s = .next t ∧
    ∀ ending, ending = (List.range 4).filter (fun n =>
        (s.engine n).run.isRunning && !(t.engine n).run.isRunning) →
      ∃ new more, t.rq.queue = s.rq.queue ++ new ∧ t.rq.backlog = s.rq.backlog ++ more ∧
        new.map (·.engine) ++ more = ending ∧
        new.length = min ending.length (8 - s.rq.queue.length) ∧
        (∀ n ∈ more, ∃ r, (t.engine n).run = .ended r ∧ r.engine = n) ∧
        (t.flag 3 = true ↔ s.flag 3 = true ∨ new ≠ []) ∧ (t.flag 4 = true ↔ s.flag 4 = true ∨ more ≠ [])

/-! ## The Command Engine -/

/-- A write of CMD while IDLE takes a command, whatever its code, from bits 7:0, and latches the parameter words (R146,
R147, R172); while BUSY it sets the overrun flag and raises COMMAND_OVERRUN (R152): both rows that name a CMD write are
judged so (log 4). A write of CMDSTAT clears the overrun flag if bit 14 is 1 (R153, R173). Nothing else changes. -/
def Obligations.CmdAndCmdstatWrites : Prop :=
  (∀ (s : State) (v : Word), s.inReset = false → s.ce.busy = none → ∀ c ∈ [Instr.commandTaken v, .commandOverrun v],
      exec c s = .next { s with ce := { s.ce with
        busy := some { code := v.setWidth 8, params := s.ce.params }, lastCode := some (v.setWidth 8) } }) ∧
  (∀ (s : State) (v : Word), s.inReset = false → s.ce.busy ≠ none → ∀ c ∈ [Instr.commandOverrun v, .commandTaken v],
      exec c s = .next { s with ce := { s.ce with overrun := true }, iu := { s.iu with flags := s.iu.flags ||| 32 } }) ∧
  (∀ (s : State) (v : Word), s.inReset = false →
      (v.getLsbD 14 = true → exec (.overrunFlagClear v) s = .next { s with ce := { s.ce with overrun := false } }) ∧
      (v.getLsbD 14 = false → exec (.overrunFlagClear v) s = .next s))

/-- Every completion loads a code, returns the engine to IDLE and raises COMMAND_DONE; it keeps the last command code
and the parameter words; and with a code other than OK it changes nothing else (R149). It happens only while its own
command is in progress: otherwise it changes nothing (the model's choice, log 3). That the last command code stays also
where it is not the code in progress, which the laws exclude, is the model's choice (log 19). -/
def Obligations.EveryCompletion : Prop :=
  (∀ (s : State) (i : Instr) (code : Byte) (p : Params),
      (i, code) ∈ completions ∨ (i = .unknownCommand ∧ commandCodes.contains code = false) → s.Commanded code p →
      ∃ t, exec i s = .next t ∧ t.ce.busy = none ∧ t.flag 0 = true ∧ t.ce.lastCode = s.ce.lastCode ∧
        t.ce.params = s.ce.params ∧ (i ≠ .softReset → t.ce.overrun = s.ce.overrun) ∧
        (t.ce.code ≠ .ok →
          t = s.answered t.ce.code t.ce.res.r0 t.ce.res.r1 t.ce.res.r2 t.ce.res.r3)) ∧
  ((∀ i code, (i, code) ∈ completions → ∀ s : State, (∀ p, ¬s.Commanded code p) → exec i s = .next s) ∧
    (∀ s : State, (∀ code p, s.Commanded code p → commandCodes.contains code = true) →
      exec .unknownCommand s = .next s))

/-- R154: a code that names no command completes with UNKNOWN_COMMAND and RES0 the code, changing nothing outside the
Command Engine but COMMAND_DONE; the overrun flag and the last command code stay, and the latter is the code taken; a
code that names a command is never so answered. -/
def Obligations.UnknownCodesAnswerUnknownCommand : Prop :=
  (∀ (s : State) (code : Byte) (p : Params), s.Commanded code p →
    code ∉ [0x10, 0x11, 0x12, 0x13, 0x18, 0x19, 0x1A, 0x20, 0x21, 0x22, 0x23, 0x30, 0x31, 0x32, 0x33, 0x34, 0x38,
      0x5A] →
    exec .unknownCommand s = .next (s.answered .unknownCommand (word code.toNat) 0 0 0) ∧
    (s.answered .unknownCommand (word code.toNat) 0 0 0).ce.overrun = s.ce.overrun ∧
    (s.answered .unknownCommand (word code.toNat) 0 0 0).ce.lastCode = s.ce.lastCode ∧
    (s.CommandLaw → s.ce.lastCode = some code)) ∧
  (∀ i code, (i, code) ∈ completions → ∀ (s t : State) (p : Params), s.Commanded code p → exec i s = .next t →
    t.ce.code ≠ .unknownCommand)

/-! ## Staging -/

/-- R44: check 1 of the staging commands, on the parameters alone. -/
def Obligations.StagingParameterCheck : Prop :=
  ∀ (s : State) (p : Params) (i : Instr) (code : Byte) (bad : Prop), s.Commanded code p →
    (i, code, bad) ∈
      [ (Instr.connect, (0x10 : Byte),
          15 < streamField p.p0 ∨ 63 < slotField p.p0 ∨ 15 < streamField p.p1 ∨ 63 < slotField p.p1 ∨
          p.p2.toNat = 0 ∨ 16 < p.p2.toNat ∨ 64 < slotField p.p0 + p.p2.toNat ∨ 64 < slotField p.p1 + p.p2.toNat ∨
          1 < (p.p3 &&& 3).toNat ∨ 1 < ((p.p3 >>> 2) &&& 3).toNat ∨ 3 < ((p.p3 >>> 4) &&& 7).toNat ∨
          (2 ≤ p.p2.toNat ∧ (p.p3 &&& 3).toNat = 0) ∨ 255 < p.p5.toNat),
        (.setConstant, 0x11,
          15 < streamField p.p0 ∨ 63 < slotField p.p0 ∨ p.p2.toNat = 0 ∨ 16 < p.p2.toNat ∨
          64 < slotField p.p0 + p.p2.toNat ∨ 255 < p.p4.toNat ∨ 255 < p.p5.toNat),
        (.setTest, 0x12,
          15 < streamField p.p0 ∨ 63 < slotField p.p0 ∨ p.p2.toNat = 0 ∨ 16 < p.p2.toNat ∨
          64 < slotField p.p0 + p.p2.toNat ∨ 3 < p.p4.toNat ∨ 255 < p.p5.toNat),
        (.disconnect, 0x13, 15 < streamField p.p0 ∨ 63 < slotField p.p0 ∨ 255 < p.p5.toNat) ] →
    (bad → exec i s = .next (s.answered .badParameter s.jcnt 0 0 0)) ∧
    (¬bad → ∃ t, exec i s = .next t ∧ t.ce.code ≠ .badParameter ∧
      (s.cj.commit ≠ none → t = s.answered .commitPending s.jcnt 0 0 0))

/-- The reservation check (R77). The last clauses take, of several records of the command's tag over the head, the
lowest-numbered, and answer NOT_RESERVED also where a higher-numbered one covers every target: law 4 (R67) excludes
several, and that choice is the model's (log 19). -/
def Obligations.ReservationCheck : Prop :=
  ∀ (u : SlotAllocation) (tag : Word) (slots : List Nat),
    (∀ t pre post, slots = pre ++ t :: post →
      (∀ x ∈ pre, ∀ r < 32, ∀ other, u.claims r other x → other = tag) →
      (∃ r < 32, ∃ other, u.claims r other t ∧ other ≠ tag) →
      ∃ r < 32, ∃ other, claimCheck u tag slots = .slotReserved t r ∧ u.claims r other t ∧ other ≠ tag) ∧
    ((∀ x ∈ slots, ∀ r < 32, ∀ other, u.claims r other x → other = tag) →
      (tag = 0 → claimCheck u tag slots = .passed none) ∧
      (tag ≠ 0 → ∀ head rest, slots = head :: rest →
        ((∀ r < 32, ¬u.claims r tag head) → claimCheck u tag slots = .notReserved head 32) ∧
        (∀ r < 32, u.claims r tag head → (∀ q < r, ¬u.claims q tag head) →
          ((∀ x ∈ slots, u.claims r tag x) → claimCheck u tag slots = .passed (some r)) ∧
          (∀ t pre post, slots = pre ++ t :: post → (∀ x ∈ pre, u.claims r tag x) → ¬u.claims r tag t →
            claimCheck u tag slots = .notReserved t r))))

/-- Checks 4 to 8 of Table 3-1 in their order (R43), for CONNECT, SET CONSTANT and SET TEST past checks 1 and 2: the
claim (R77), the target slots, FOLIM (R33), the engine (R48) and the size (R41), with the result words of Table 3-2
(R51). `plan` lists the target slots and their staged entries. In states that break the laws, the head named by
ENGINE_IN_USE and the final size of a journal with two entries for one slot are the model's choices (log 19). -/
def Obligations.StagingChecksInOrder : Prop :=
  ∀ (s : State) (p : Params) (i : Instr) (plan : List (Nat × Entry)) (engine : Option Nat),
    (i = .connect ∧ s.Commanded 0x10 p ∧ connectPlan p = some plan ∧ engine = none) ∨
      (i = .setConstant ∧ s.Commanded 0x11 p ∧ constantPlan p = some plan ∧ engine = none) ∨
      (i = .setTest ∧ s.Commanded 0x12 p ∧ testPlan p = some plan ∧ engine = some p.p4.toNat) →
    s.cj.commit = none →
    (∀ t r, claimCheck s.sau p.p5 (plan.map (·.1)) = .slotReserved t r →
      exec i s = .next (s.answered .slotReserved s.jcnt (word t) (word r) 0)) ∧
    (∀ t r, claimCheck s.sau p.p5 (plan.map (·.1)) = .notReserved t r →
      exec i s = .next (s.answered .notReserved s.jcnt (word t) (word r) 0)) ∧
    (∀ record, claimCheck s.sau p.p5 (plan.map (·.1)) = .passed record →
      (∀ t pre post, plan.map (·.1) = pre ++ t :: post → (∀ x ∈ pre, s.effective x = .idle) → s.effective t ≠ .idle →
        exec i s = .next (s.answered .slotsBusy s.jcnt (word t) 0 0)) ∧
      ((∀ x ∈ plan.map (·.1), s.effective x = .idle) →
        (∀ u pre post, plan.filterMap (·.2.source?) = pre ++ u :: post →
          (∀ x ∈ pre, s.cm.fanout.get x < s.cm.folim.toNat) → s.cm.folim.toNat ≤ s.cm.fanout.get u →
          exec i s = .next (s.answered .fanoutExceeded s.jcnt (word u) 0 0)) ∧
        ((∀ x ∈ plan.filterMap (·.2.source?), s.cm.fanout.get x < s.cm.folim.toNat) →
          (∀ h w n, engine = some n → h < 1024 → s.effective h = .test n w 0 →
            (∀ j w' m, j < 1024 → s.effective j = .test n w' m → j - m = h) →
            exec i s = .next (s.answered .engineInUse s.jcnt (word h) 0 0)) ∧
          ((∀ n, engine = some n → ∀ j < 1024, (s.effective j).engine? ≠ some n) →
            (64 < finalSize s.cm.active s.cj.journal plan →
              exec i s = .next (s.answered .journalFull s.jcnt
                (word (finalSize s.cm.active s.cj.journal plan)) 0 0)) ∧
            (finalSize s.cm.active s.cj.journal plan ≤ 64 → ∃ t, exec i s = .next t ∧ t.ce.code = .ok)))))

/-- CONNECT, SET CONSTANT and SET TEST with parameters that R44 allows, on effective-IDLE slots, past the claim, fan-
out, engine and size checks: every member gets its staged entry, no other effective entry changes, the counters of the
sources rise by 1, the active map stays, the journal is the one that treating the members in their order leaves, and
the result words count the cases (R30, R40, R46 to R48, R51, R174). That counters which are not the counts of the view
rise from the values they hold is the model's choice (log 19). -/
def Obligations.ConnectionsAreStaged : Prop :=
  ∀ (s : State) (p : Params) (i : Instr) (code : Byte) (entry : Nat → Entry) (record : Option Nat) (head w : Nat),
    s.JournalLaw → s.Commanded code p → s.cj.commit = none →
    head = 64 * streamField p.p0 + slotField p.p0 → w = p.p2.toNat →
    streamField p.p0 ≤ 15 → 1 ≤ w → w ≤ 16 → slotField p.p0 + w ≤ 64 → p.p5.toNat ≤ 255 →
    (i = .connect ∧ code = 0x10 ∧ streamField p.p1 ≤ 15 ∧ slotField p.p1 + w ≤ 64 ∧
        (∃ d inv c, (d, field p.p3 0 2) ∈ delayCodes ∧ field p.p3 2 2 = (if inv = true then 1 else 0) ∧
          (c, field p.p3 4 3) ∈ conditioningCodes ∧ (w = 1 ∨ d = .aligned) ∧
          entry = fun k => .switched (64 * streamField p.p1 + slotField p.p1 + k) d inv c w k) ∧
        (∀ k < w, s.cm.fanout.get (64 * streamField p.p1 + slotField p.p1 + k) < s.cm.folim.toNat)) ∨
      (i = .setConstant ∧ code = 0x11 ∧ p.p4.toNat ≤ 255 ∧ entry = fun k => .constant (p.p4.setWidth 8) w k) ∨
      (i = .setTest ∧ code = 0x12 ∧ p.p4.toNat ≤ 3 ∧ entry = (fun k => .test p.p4.toNat w k) ∧
        ∀ j < 1024, (s.effective j).engine? ≠ some p.p4.toNat) →
    claimCheck s.sau p.p5 ((List.range w).map (head + ·)) = .passed record →
    (∀ k < w, s.effective (head + k) = .idle) →
    finalSize s.cm.active s.cj.journal ((List.range w).map fun k => (head + k, entry k)) ≤ 64 →
    ∃ t, exec i s = .next t ∧
      t = { s with cm := { s.cm with fanout := t.cm.fanout }
                   cj := { s.cj with journal := t.cj.journal }
                   sau := { s.sau with recs := t.sau.recs } }.answered .ok (word t.cj.journal.length)
        (word ((List.range w).countP fun k =>
          journalGet s.cj.journal (head + k) == none && entry k != s.activeEntry (head + k)))
        (word ((List.range w).countP fun k =>
          journalGet s.cj.journal (head + k) != none && entry k != s.activeEntry (head + k)))
        (word ((List.range w).countP fun k =>
          journalGet s.cj.journal (head + k) != none && entry k == s.activeEntry (head + k))) ∧
      t.cj.journal = treatAll s.cm.active s.cj.journal ((List.range w).map fun k => (head + k, entry k)) ∧
      (∀ k < w, t.effective (head + k) = entry k) ∧
      (∀ j < 1024, (j < head ∨ head + w ≤ j) → t.effective j = s.effective j) ∧
      (∀ u < 1024, t.cm.fanout.get u =
        s.cm.fanout.get u + (List.range w).countP fun k => (entry k).source? == some u)

/-- DISCONNECT (R30, R40, R43, R49, R51): the checks on the named slot, and the staged removal of the whole
connection. Without the laws of R23 and R29, that a counter of 0 lowered stays 0, and that the width of the named slot's
entry alone decides the slots, are the model's choices (log 19). -/
def Obligations.DisconnectStagesTheRemoval : Prop :=
  ∀ (s : State) (p : Params) (head : Nat), s.JournalLaw → s.Commanded 0x13 p → s.cj.commit = none →
    head = 64 * streamField p.p0 + slotField p.p0 → streamField p.p0 ≤ 15 → slotField p.p0 ≤ 63 →
    p.p5.toNat ≤ 255 →
    (s.effective head = .idle → exec .disconnect s = .next (s.answered .slotIdle s.jcnt 0 0 0)) ∧
    (∀ w m, (s.effective head).place? = some (w, m) → m ≠ 0 →
      exec .disconnect s = .next (s.answered .partOfWide s.jcnt 0 0 0)) ∧
    (∀ w, (s.effective head).place? = some (w, 0) →
      (∀ t r, claimCheck s.sau p.p5 ((List.range w).map (head + ·)) = .slotReserved t r →
        exec .disconnect s = .next (s.answered .slotReserved s.jcnt (word t) (word r) 0)) ∧
      (∀ t r, claimCheck s.sau p.p5 ((List.range w).map (head + ·)) = .notReserved t r →
        exec .disconnect s = .next (s.answered .notReserved s.jcnt (word t) (word r) 0)) ∧
      (∀ record size, claimCheck s.sau p.p5 ((List.range w).map (head + ·)) = .passed record →
        size = finalSize s.cm.active s.cj.journal ((List.range w).map fun k => (head + k, Entry.idle)) →
        (64 < size → exec .disconnect s = .next (s.answered .journalFull s.jcnt (word size) 0 0)) ∧
        (size ≤ 64 → ∃ t, exec .disconnect s = .next t ∧
          t = { s with cm := { s.cm with fanout := t.cm.fanout }
                       cj := { s.cj with journal := t.cj.journal }
                       sau := { s.sau with recs := t.sau.recs } }.answered .ok (word t.cj.journal.length)
            (word ((List.range w).countP fun k =>
              journalGet s.cj.journal (head + k) == none && s.activeEntry (head + k) != Entry.idle))
            (word ((List.range w).countP fun k =>
              journalGet s.cj.journal (head + k) != none && s.activeEntry (head + k) != Entry.idle))
            (word ((List.range w).countP fun k =>
              journalGet s.cj.journal (head + k) != none && s.activeEntry (head + k) == Entry.idle)) ∧
          t.cj.journal = treatAll s.cm.active s.cj.journal ((List.range w).map fun k => (head + k, Entry.idle)) ∧
          (∀ k < w, t.effective (head + k) = .idle) ∧
          (∀ j < 1024, (j < head ∨ head + w ≤ j) → t.effective j = s.effective j) ∧
          (∀ u < 1024, t.cm.fanout.get u = s.cm.fanout.get u -
            (List.range w).countP fun k => (s.effective (head + k)).source? == some u))))

/-- The order of the journal after a staging command (R40): entries that stay keep their order, superseded ones their
place; new entries follow in member order; its length is the final size of R41. -/
def Obligations.JournalKeepsItsOrder : Prop :=
  ∀ (active : Table Entry 10) (j : List JournalEntry) (plan : List (Nat × Entry)),
    (j.map (·.slot)).Nodup → (plan.map (·.1)).Nodup →
    treatAll active j plan =
      (j.filterMap fun e =>
        match plan.find? fun p => p.1 == e.slot with
        | none => some e
        | some p => if p.2 = active.get p.1 then none else some ⟨p.1, p.2⟩) ++
      (plan.filter fun p => journalGet j p.1 == none && p.2 != active.get p.1).map (fun p => ⟨p.1, p.2⟩) ∧
    (treatAll active j plan).length = finalSize active j plan

/-- The binding of reservations by a staging command that completes with OK (R79): the record is the one that the claim
check of R77 passed on the target slots, `w` from `head` on (for DISCONNECT the members of the connection). Which record
that is where several of the tag cover the head, which law 4 excludes, is the model's choice (log 19). -/
def Obligations.StagingBindsItsRecord : Prop :=
  ∀ (s t : State) (i : Instr) (code : Byte) (p : Params) (head w : Nat), s.JournalLaw → (i, code) ∈ stagings →
    s.Commanded code p → exec i s = .next t → t.ce.code = .ok → head = 64 * streamField p.p0 + slotField p.p0 →
    (i ≠ .disconnect → w = p.p2.toNat) → (i = .disconnect → (s.effective head).place? = some (w, 0)) →
    (p.p5 = 0 → t.sau = s.sau) ∧
    (p.p5 ≠ 0 → ∃ r < 32, ∃ c, claimCheck s.sau p.p5 ((List.range w).map (head + ·)) = .passed (some r) ∧
      (s.sau.recs.get r).claim? = some c ∧ c.tag = p.p5 ∧ (∀ k < w, c.covers (head + k) = true) ∧
      (∀ q < 32, q ≠ r → t.sau.recs.get q = s.sau.recs.get q) ∧ t.sau.expf = s.sau.expf ∧
      ((∃ e ∈ t.cj.journal, c.covers e.slot = true) → t.sau.recs.get r = .bound c) ∧
      ((∀ e ∈ t.cj.journal, c.covers e.slot = false) →
        (s.sau.recs.get r = .held c → t.sau.recs.get r = .held c) ∧
        (s.sau.recs.get r = .bound c → t.sau.recs.get r = .held { c with remaining := c.lease })))

/-! ## Commits -/

/-- COMMIT (R53); and CANCEL (R60), after which the journal, the records, CSEQ and LCF stand as they were. -/
def Obligations.CommitAndCancelCommands : Prop :=
  (∀ (s : State) (p : Params), s.Commanded 0x18 p →
      (2 < p.p0.toNat → exec .commit s = .next (s.answered .badParameter s.jcnt 0 0 0)) ∧
      (∀ trigger, (p.p0 = 0 ∧ trigger = .next) ∨ (p.p0 = 1 ∧ trigger = .atFrame p.p1) ∨
          (p.p0 = 2 ∧ trigger = .onStrobe) →
        (s.cj.commit ≠ none → exec .commit s = .next (s.answered .commitPending s.jcnt 0 0 0)) ∧
        (s.cj.commit = none → exec .commit s =
          .next ({ s with cj := { s.cj with commit := some trigger } }.answered .ok s.jcnt (s.cj.cseq + 1) 0 0)))) ∧
  (∀ (s : State) (p : Params), s.Commanded 0x19 p →
      (s.cj.commit ≠ none → exec .cancel s =
        .next ({ s with cj := { s.cj with commit := none } }.answered .ok s.jcnt 0 0 0)) ∧
      (s.cj.commit = none → exec .cancel s = .next (s.answered .noCommitPending s.jcnt 0 0 0)))

/-- DISCARD (R61, R31, R80). Its refusal loads 0 in every result word (log 11). Of an empty journal it recomputes the
counters and unbinds all the same, which differs from R61's last words only in states that break the laws, where a recount
may also exceed 64: the model's choices (log 19). -/
def Obligations.DiscardCommand : Prop :=
  ∀ (s : State) (p : Params), s.Commanded 0x1A p →
    (s.cj.commit ≠ none → exec .discard s = .next (s.answered .commitPending 0 0 0 0)) ∧
    (s.cj.commit = none → ∃ t, exec .discard s = .next t ∧
      t = { s with cm := { s.cm with fanout := t.cm.fanout }
                   cj := { s.cj with journal := [] }
                   sau := { s.sau with recs := t.sau.recs } }.answered .ok s.jcnt 0 0 0 ∧
      (∀ j, t.effective j = s.activeEntry j) ∧
      (∀ u < 1024, t.cm.fanout.get u = fedFrom s.activeEntry u) ∧
      (∀ r < 32, (∀ c, s.sau.recs.get r = .bound c → t.sau.recs.get r = .held { c with remaining := c.lease }) ∧
        ((∀ c, s.sau.recs.get r ≠ .bound c) → t.sau.recs.get r = s.sau.recs.get r)))

/-! ## Reservations -/

/-- RESERVE (R69). -/
def Obligations.ReserveCommand : Prop :=
  ∀ (s : State) (p : Params) (stream first w : Nat), s.Commanded 0x20 p → stream = streamField p.p0 →
    first = slotField p.p0 → w = p.p2.toNat →
    (15 < stream ∨ 63 < first ∨ w = 0 ∨ 16 < w ∨ 64 < first + w ∨ p.p5 = 0 ∨ 255 < p.p5.toNat ∨ p.p3 = 0 →
      exec .reserve s = .next (s.answered .badParameter 0 0 0 0)) ∧
    (stream ≤ 15 → 1 ≤ w → w ≤ 16 → first + w ≤ 64 → p.p5 ≠ 0 → p.p5.toNat ≤ 255 → p.p3 ≠ 0 →
      (∀ k < w, (∀ j < k, s.isFree (64 * stream + first + j) = true) → s.isFree (64 * stream + first + k) = false →
        ∃ reason record, exec .reserve s =
            .next (s.answered .slotsBusy 0 (word (64 * stream + first + k)) reason record) ∧
          (s.activeEntry (64 * stream + first + k) ≠ .idle → reason = 1 ∧ record = 0) ∧
          (s.activeEntry (64 * stream + first + k) = .idle →
            (journalGet s.cj.journal (64 * stream + first + k) ≠ none → reason = 2 ∧ record = 0) ∧
            (journalGet s.cj.journal (64 * stream + first + k) = none → reason = 3 ∧
              ∃ r < 32, ∃ tag, record = word r ∧ s.sau.claims r tag (64 * stream + first + k)))) ∧
      ((∀ k < w, s.isFree (64 * stream + first + k) = true) →
        ((∀ r < 32, s.sau.recs.get r ≠ .free) →
          exec .reserve s = .next (s.answered .reservationsFull 0 0 0 0)) ∧
        (∀ r < 32, s.sau.recs.get r = .free → (∀ q < r, s.sau.recs.get q ≠ .free) →
          exec .reserve s =
            .next ({ s with sau := { s.sau with recs := s.sau.recs.set r (.held
                { stream := stream, first := first, width := w, tag := p.p5, lease := p.p3, remaining := p.p3 }) } }
              |>.answered .ok (word r) (word (64 * stream + first)) 0 0))))

/-- HUNT (R70 to R72): the first candidate, in ascending stream and slot, all of whose slots are free. -/
def Obligations.HuntCommand : Prop :=
  ∀ (s : State) (p : Params) (w a : Nat) (fits : Nat → Nat → Prop), s.Commanded 0x21 p →
    w = p.p2.toNat → a = alignmentField p.p4 →
    (∀ st q, fits st q ↔ st < 16 ∧ p.p0.getLsbD st = true ∧ p.p1.toNat ≤ q ∧ a ∣ q ∧ q + w ≤ 64 ∧
      ∀ k < w, s.isFree (64 * st + q + k) = true) →
    (p.p0 = 0 ∨ w = 0 ∨ 16 < w ∨ 63 < p.p1.toNat ∨ a ∉ [1, 2, 4, 8, 16] ∨
        (p.p4.getLsbD 15 = true ∧ (p.p5 = 0 ∨ 255 < p.p5.toNat ∨ p.p3 = 0)) →
      exec .hunt s = .next (s.answered .badParameter 0 0 0 0)) ∧
    (p.p0 ≠ 0 → 1 ≤ w → w ≤ 16 → p.p1.toNat ≤ 63 → a ∈ [1, 2, 4, 8, 16] →
        (p.p4.getLsbD 15 = true → p.p5 ≠ 0 ∧ p.p5.toNat ≤ 255 ∧ p.p3 ≠ 0) →
      ((∀ st q, ¬fits st q) → exec .hunt s = .next (s.answered .noneFree 0 0 0 0)) ∧
      (∀ st q, fits st q → (∀ st' q', fits st' q' → st < st' ∨ (st = st' ∧ q ≤ q')) →
        (p.p4.getLsbD 15 = false →
          exec .hunt s = .next (s.answered .ok (word st) (word q) (word (64 * st + q)) 0xFFFF)) ∧
        (p.p4.getLsbD 15 = true →
          ((∀ r < 32, s.sau.recs.get r ≠ .free) →
            exec .hunt s = .next (s.answered .reservationsFull 0 0 0 0)) ∧
          (∀ r < 32, s.sau.recs.get r = .free → (∀ x < r, s.sau.recs.get x ≠ .free) →
            exec .hunt s =
              .next ({ s with sau := { s.sau with recs := s.sau.recs.set r (.held
                  { stream := st, first := q, width := w, tag := p.p5, lease := p.p3, remaining := p.p3 }) } }
                |>.answered .ok (word st) (word q) (word (64 * st + q)) (word r))))))

/-- RELEASE and RENEW (R74, R75): `lease` is the operand that RENEW alone examines. -/
def Obligations.ReleaseAndRenewCommands : Prop :=
  ∀ (s : State) (p : Params) (i : Instr) (code : Byte), (i, code) ∈ [(Instr.release, (0x22 : Byte)), (.renew, 0x23)] →
    s.Commanded code p →
    (31 < p.p0.toNat ∨ p.p5 = 0 ∨ 255 < p.p5.toNat ∨ (i = .renew ∧ p.p3 = 0) →
      exec i s = .next (s.answered .badParameter p.p0 0 0 0)) ∧
    (p.p0.toNat ≤ 31 → p.p5 ≠ 0 → p.p5.toNat ≤ 255 → (i = .renew → p.p3 ≠ 0) →
      (s.sau.recs.get p.p0.toNat = .free → exec i s = .next (s.answered .notReserved p.p0 0 0 0)) ∧
      (∀ c, (s.sau.recs.get p.p0.toNat).claim? = some c → c.tag ≠ p.p5 →
        exec i s = .next (s.answered .tagMismatch p.p0 0 0 0)) ∧
      (∀ c, s.sau.recs.get p.p0.toNat = .bound c → c.tag = p.p5 →
        exec i s = .next (s.answered .bound p.p0 0 0 0)) ∧
      (∀ c, s.sau.recs.get p.p0.toNat = .held c → c.tag = p.p5 →
        (i = .release → exec i s =
          .next ({ s with sau := { s.sau with recs := s.sau.recs.set p.p0.toNat .free } }.answered .ok p.p0 0 0 0)) ∧
        (i = .renew → exec i s =
          .next ({ s with sau := { s.sau with
              recs := s.sau.recs.set p.p0.toNat (.held { c with lease := p.p3, remaining := p.p3 }) } }.answered .ok
            p.p0 p.p3 0 0))))

/-! ## Test engines -/

/-- CONFIGURE ENGINE (R105, R174): the check of every field, ENGINE_BUSY, and the whole record replaced. -/
def Obligations.ConfigureEngineCommand : Prop :=
  ∀ (s : State) (p : Params) (n pattern invert unit len first width threshold stream : Nat), s.Commanded 0x30 p →
    n = field p.p0 0 3 → pattern = field p.p0 3 3 → invert = field p.p0 6 2 → unit = field p.p0 8 2 →
    len = field p.p0 10 6 → first = field p.p3 0 8 → width = field p.p3 8 5 → threshold = field p.p4 0 8 →
    stream = field p.p4 8 5 →
    (3 < n → exec .configureEngine s = .next (s.answered .badParameter 0 0 0 0)) ∧
    (n ≤ 3 →
      (3 < pattern ∨ 1 < unit ∨ 1 < invert ∨ len < 8 ∨ 32 < len ∨ 15 < stream ∨ 63 < first ∨ 16 < width ∨
          (1 ≤ width ∧ 64 < first + width) ∨ threshold = 0 ∨ 64 < threshold →
        exec .configureEngine s = .next (s.answered .badParameter (word n) 0 0 0)) ∧
      (pattern ≤ 3 → unit ≤ 1 → invert ≤ 1 → 8 ≤ len → len ≤ 32 → stream ≤ 15 → first ≤ 63 → width ≤ 16 →
          (1 ≤ width → first + width ≤ 64) → 1 ≤ threshold → threshold ≤ 64 →
        ((s.engine n).run.name = .running →
          exec .configureEngine s = .next (s.answered .engineBusy (word n) 1 0 0)) ∧
        ((s.engine n).run.name = .ended →
          exec .configureEngine s = .next (s.answered .engineBusy (word n) 2 0 0)) ∧
        ((s.engine n).run = .idle → ∃ cfg,
          exec .configureEngine s =
            .next ((s.setEngine n { s.engine n with cfg := cfg }).answered .ok (word n) 0 0 0) ∧
          (cfg.pattern, pattern) ∈ patternCodes ∧ (cfg.invert = true ↔ invert = 1) ∧ cfg.word = p.p2 ++ p.p1 ∧ cfg.len = len ∧
          cfg.chkStream = stream ∧ cfg.chkSlot = first ∧ cfg.chkWidth = width ∧ cfg.lossThreshold = threshold ∧
          cfg.duration = p.p5 ∧ (cfg.unit, unit) ∈ unitCodes)))

/-- START (R127, R108): the refusals in order; and the run, with the generator seeded and the checker HUNTING. That an
ended run of the same engine goes on supplying the frame in progress is the model's reading of R11 (log 7). -/
def Obligations.StartCommand : Prop :=
  ∀ (s : State) (p : Params) (n : Nat), s.Commanded 0x31 p → n = p.p0.toNat →
    (3 < n → exec .start s = .next (s.answered .badParameter 0 0 0 0)) ∧
    (n ≤ 3 →
      ((s.engine n).run.name = .running → exec .start s = .next (s.answered .engineBusy (word n) 1 0 0)) ∧
      ((s.engine n).run.name = .ended → exec .start s = .next (s.answered .engineBusy (word n) 2 0 0)) ∧
      ((s.engine n).run = .idle → (s.engine n).cfg.chkWidth = 0 →
        exec .start s = .next (s.answered .notConfigured (word n) 0 0 0)) ∧
      ((s.engine n).run = .idle → (s.engine n).cfg.chkWidth ≠ 0 → ∃ t, exec .start s = .next t ∧
        t = { s with te := t.te, oa := { s.oa with emit := t.oa.emit } }.answered .ok (word n)
          (s.te.runCounter + 1) s.cj.cseq 0 ∧
        t.te.runCounter = s.te.runCounter + 1 ∧
        t.engine n = { s.engine n with
          gen := { seq := (t.engine n).gen.seq, pendingInj := 0 }
          checker := .hunting []
          run := .running s.cj.cseq
          live := { framesRun := 0, framesLocked := 0, bitErrors := 0, syncLosses := 0, faultFrames := 0,
                    errorsInjected := 0, firstLock := none }
          lastRun := s.te.runCounter + 1 } ∧
        (t.engine n).gen.seq.wordPos = 0 ∧
        (∀ order tap, (s.engine n).cfg.pattern.taps = some (order, tap) →
          ∀ k < order, (t.engine n).gen.seq.reg.getLsbD k = true) ∧
        (∀ m < 4, m ≠ n → t.engine m = s.engine m) ∧
        (∀ m < 4, m ≠ n ∨ s.oa.emit.get n = none → t.oa.emit.get m = s.oa.emit.get m) ∧
        (∀ em, s.oa.emit.get n = some em →
          t.oa.emit.get n = some { em with tail := some (em.tail.getD (s.engine n).gen.seq) })))

/-- STOP (R130, R132, R138, R139): the refusals, whose RES0 the rule leaves unnamed (log 11), and the run's end with a
record of outcome STOPPED, appended to a queue with room and held in ENDED otherwise, whatever the backlog lists (the
model's choice where law 10 does not hold, log 19). -/
def Obligations.StopCommand : Prop :=
  ∀ (s : State) (p : Params) (n : Nat), s.Commanded 0x32 p → n = p.p0.toNat →
    (3 < n → exec .stop s = .next (s.answered .badParameter 0 0 0 0)) ∧
    (n ≤ 3 →
      ((s.engine n).run.name = .idle → exec .stop s = .next (s.answered .engineNotRunning 0 0 0 0)) ∧
      ((s.engine n).run.name = .ended → exec .stop s = .next (s.answered .engineNotRunning 0 2 0 0)) ∧
      (∀ start record done, (s.engine n).run = .running start →
        record = { engine := n, outcome := .stopped, runSeq := (s.engine n).lastRun, startCseq := start,
                   live := (s.engine n).live } →
        done = { s.engine n with gen := { (s.engine n).gen with pendingInj := 0 }, checker := .off } →
        (s.rq.queue.length < 8 → exec .stop s =
          .next (({ s.setEngine n { done with run := .idle } with
              rq := { s.rq with queue := s.rq.queue ++ [record] }
              iu := { s.iu with flags := s.iu.flags ||| 8 } }).answered .ok (word n) (s.engine n).lastRun
            (word (s.rq.queue.length + 1)) 0)) ∧
        (8 ≤ s.rq.queue.length → exec .stop s =
          .next (({ s.setEngine n { done with run := .ended record } with
              rq := { s.rq with backlog := s.rq.backlog ++ [n] }
              iu := { s.iu with flags := s.iu.flags ||| 16 } }).answered .ok (word n) (s.engine n).lastRun
            (word s.rq.queue.length) 1))))

/-- INJECT (R114) and SNAPSHOT (R135). R135 names no result word for BAD_PARAMETER: that RES0 is 0 is the model's
deduction (log 11). -/
def Obligations.InjectAndSnapshotCommands : Prop :=
  (∀ (s : State) (p : Params) (n c : Nat), s.Commanded 0x33 p → n = p.p0.toNat → c = p.p1.toNat →
      (3 < n → exec .inject s = .next (s.answered .badParameter 0 0 0 0)) ∧
      (n ≤ 3 →
        (c = 0 ∨ 255 < c → exec .inject s = .next (s.answered .badParameter (word n) 0 0 0)) ∧
        (1 ≤ c → c ≤ 255 →
          ((s.engine n).run.name = .idle → exec .inject s = .next (s.answered .engineNotRunning (word n) 0 0 0)) ∧
          ((s.engine n).run.name = .ended → exec .inject s = .next (s.answered .engineNotRunning (word n) 2 0 0)) ∧
          (∀ count, (s.engine n).run.name = .running → count = min ((s.engine n).gen.pendingInj + c) 255 →
            exec .inject s =
              .next ((s.setEngine n { s.engine n with
                  gen := { (s.engine n).gen with pendingInj := count } }).answered .ok (word n) (word count)
                (word ((s.engine n).gen.pendingInj + c - 255)) 0))))) ∧
  (∀ (s : State) (p : Params) (n : Nat), s.Commanded 0x34 p → n = p.p0.toNat →
      (3 < n → exec .snapshot s = .next (s.answered .badParameter 0 0 0 0)) ∧
      (n ≤ 3 → ∃ run : Word, exec .snapshot s =
          .next ((s.setEngine n { s.engine n with
              snap := { live := (s.engine n).live, runSeq := (s.engine n).lastRun, run := (s.engine n).run.name,
                        checker := (s.engine n).checker.name, fcnt := s.fcnt } }).answered .ok (word n)
            (s.engine n).lastRun run 0) ∧
        ((s.engine n).run.name = .idle → run = 0) ∧ ((s.engine n).run.name = .running → run = 1) ∧
        ((s.engine n).run.name = .ended → run = 2)))

/-- POP (R140, R141): the oldest record leaves, and the first engine of the backlog is served. That none is served
where that engine is not ENDED, and that a record served goes to the end of a queue that was not full, are the model's
choices (log 19); RES3 is FFFFh where none is served (R140). -/
def Obligations.PopCommand : Prop :=
  ∀ (s : State) (p : Params), s.Commanded 0x38 p →
    (s.rq.queue = [] → exec .pop s = .next (s.answered .queueEmpty 0 0 0 0)) ∧
    (∀ r rest, s.rq.queue = r :: rest →
      (s.rq.backlog = [] → exec .pop s =
        .next ({ s with rq := { s.rq with queue := rest } }.answered .ok (word rest.length) (word r.engine) r.runSeq
          0xFFFF)) ∧
      (∀ n more served, s.rq.backlog = n :: more → (s.engine n).run = .ended served → exec .pop s =
        .next (({ s.setEngine n { s.engine n with run := .idle } with
            rq := { queue := rest ++ [served], backlog := more }
            iu := { s.iu with flags := s.iu.flags ||| 8 } }).answered .ok (word (rest.length + 1)) (word r.engine)
          r.runSeq (word n))) ∧
      (∀ n more, s.rq.backlog = n :: more → (s.engine n).run.name ≠ .ended → exec .pop s =
        .next ({ s with rq := { s.rq with queue := rest } }.answered .ok (word rest.length) (word r.engine) r.runSeq
          0xFFFF)))

/-! ## Registers and interrupts -/

/-- IDLEC, FOLIM, SVFRC and SVTHR (R17, R32, R91, R94, R172): a write is taken at once, FOLIM judges the whole value,
each field of SVTHR is judged on its own, and nothing else changes. SVEN (R92, R93): a supervisor that the write
disables goes to CLEAR with its last sample absent, raising STREAM_CHANGE from FAULT or RECOVERING; every other
supervisor stays, also one outside CLEAR that the write enables, which only too short a reset leaves (the model's choice,
log 19). -/
def Obligations.SettingWrites : Prop :=
  (∀ (s : State) (v : Word), s.inReset = false →
      exec (.idlecWrite v) s = .next { s with oa := { s.oa with idlec := v.setWidth 8 } } ∧
      (1 ≤ v.toNat → v.toNat ≤ 64 →
        exec (.folimWrite v) s = .next { s with cm := { s.cm with folim := BitVec.ofNat 7 v.toNat } }) ∧
      (v = 0 ∨ 64 < v.toNat → exec (.folimWrite v) s = .next s) ∧
      exec (.svfrcWrite v) s = .next { s with sv := { s.sv with svfrc := v } } ∧
      exec (.svthrWrite v) s = .next { s with sv := { s.sv with
        decl := if field v 0 4 = 0 then s.sv.decl else BitVec.ofNat 4 (field v 0 4)
        clrc := if field v 8 8 = 0 then s.sv.clrc else BitVec.ofNat 8 (field v 8 8) } }) ∧
  (∀ (s : State) (v : Word), s.inReset = false → ∃ t, exec (.svenWrite v) s = .next t ∧
      t = { s with sv := { s.sv with sven := v, sups := t.sv.sups }, iu := { s.iu with flags := t.iu.flags } } ∧
      (∀ i < 16,
        (s.sv.sven.getLsbD i = true ∧ v.getLsbD i = false →
          t.sv.sups.get i = { state := .clear, lastSample := none } ∧
          (t.flag (10 + i) = true ↔ s.flag (10 + i) = true ∨ (s.sv.sups.get i).state = .fault ∨
            ∃ k, (s.sv.sups.get i).state = .recovering k)) ∧
        (s.sv.sven.getLsbD i = false ∨ v.getLsbD i = true →
          t.sv.sups.get i = s.sv.sups.get i ∧ t.flag (10 + i) = s.flag (10 + i))) ∧
      (∀ k < 10, t.flag k = s.flag k))

/-- EXPF, IFLAG and IMASK, bit by bit (R83, R161, R163, R173): bit j of word k stands for record or source 16·k + j. In
a level word a field from 1 to 7 replaces the level of its source, and a field of 0 leaves it (R164, R173). -/
def Obligations.FlagMaskAndLevelWrites : Prop :=
  (∀ (s : State) (k : Nat) (v : Word), s.inReset = false → k < 2 →
      (∃ t, exec (.expfClear k v) s = .next t ∧ t = { s with sau := { s.sau with expf := t.sau.expf } } ∧
        ∀ r < 32, t.sau.expf.getLsbD r = (s.sau.expf.getLsbD r && !(decide (r / 16 = k) && v.getLsbD (r % 16)))) ∧
      (∃ t, exec (.iflagClear k v) s = .next t ∧ t = { s with iu := { s.iu with flags := t.iu.flags } } ∧
        ∀ j < 26, t.flag j = (s.flag j && !(decide (j / 16 = k) && v.getLsbD (j % 16)))) ∧
      (∃ t, exec (.imaskWrite k v) s = .next t ∧ t = { s with iu := { s.iu with masks := t.iu.masks } } ∧
        ∀ j < 26, t.iu.masks.getLsbD j = if j / 16 = k then v.getLsbD (j % 16) else s.iu.masks.getLsbD j)) ∧
  (∀ (s : State) (k : Nat) (v : Word), s.inReset = false → k < 7 →
      ∃ t, exec (.ilvlWrite k v) s = .next t ∧ t = { s with iu := { s.iu with levels := t.iu.levels } } ∧
        ∀ j < 26, t.iu.level j =
          if j / 4 = k ∧ field v (4 * (j % 4)) 3 ≠ 0 then BitVec.ofNat 3 (field v (4 * (j % 4)) 3) else s.iu.level j)

/-- R165: ITHR takes values 0 to 7, ignores others, reads back, acts on INT_N alone, is 0 after hardware reset and stays
through a soft reset. -/
def Obligations.InterruptThreshold : Prop :=
  (∀ (s : State) (v : Word), s.inReset = false →
    (7 < v.toNat → exec (.ithrWrite v) s = .next s) ∧
    (v.toNat ≤ 7 → ∃ t, exec (.ithrWrite v) s = .next t ∧
      t = { s with iu := { s.iu with ithr := BitVec.ofNat 3 v.toNat } } ∧ (∀ level, busRead t 0x33 level = v) ∧
      t.iu.vector = s.iu.vector ∧
      (t.iu.intAsserted = true ↔ ∃ k < 26, s.iu.pendingSource k = true ∧ v.toNat < (s.iu.level k).toNat))) ∧
  (∀ u : InterruptUnit, u.ithr = 7 → u.intAsserted = false) ∧
  (∀ u : InterruptUnit, u.ithr = 0 → (∀ k < 26, u.level k ≠ 0) →
    (u.intAsserted = true ↔ ∃ k < 26, u.pendingSource k = true)) ∧
  (∀ (cause : ResetCause) (s t : State), exec (.hardwareReset cause) s = .next t → t.iu.ithr = 0) ∧
  (∀ s t : State, exec .softReset s = .next t → t.iu.ithr = s.iu.ithr)

/-- The vector, IVEC and INT_N (R166, R167, law 11). -/
def Obligations.VectorAndInterruptLine : Prop :=
  ∀ u : InterruptUnit,
    (u.vector = none ↔ ∀ k < 26, u.flags.getLsbD k = false ∨ u.masks.getLsbD k = true) ∧
    (∀ k, u.vector = some k → k < 26 ∧ u.flags.getLsbD k = true ∧ u.masks.getLsbD k = false ∧
      ∀ j < 26, u.flags.getLsbD j = true → u.masks.getLsbD j = false →
        (u.level j).toNat < (u.level k).toNat ∨ (u.level j = u.level k ∧ k ≤ j)) ∧
    (u.intAsserted = true ↔ ∃ k < 26, u.flags.getLsbD k = true ∧ u.masks.getLsbD k = false ∧
      u.ithr.toNat < (u.level k).toNat) ∧
    (u.vector = none → u.ivec = 0x003F) ∧
    (∀ k, u.vector = some k → u.ivec.toNat =
      k + 256 * (u.level k).toNat + (if u.intAsserted = true then 32768 else 0))

/-- A write access (R171, R172): one that does not last, or with both strobes, changes nothing; a whole one does what
the row of its word does, also for CMD, IDLE or BUSY; a parameter word takes the value (R147); R words and unassigned
addresses ignore it. A write of INSA, and the row INSPECT_INVALID, do what the inspection row of their selector does,
and latch INVALID for a selector that names no table (R175). That the rows of CMD and INSA are judged by the word
written is the model's deduction (log 4); the access carries the SF levels that an inspection shows (log 8). -/
def Obligations.RegisterWriteAccess : Prop :=
  ∀ (s : State) (a : BitVec 7) (v sf : Word), s.inReset = false →
    exec (.registerWrite .endedEarly a ⟨v, sf⟩) s = .next s ∧
    exec (.registerWrite .bothStrobes a ⟨v, sf⟩) s = .next s ∧
    (∀ i, (a, i) ∈
        [ ((0x00 : BitVec 7), Instr.commandTaken v), (0x08, .overrunFlagClear v), (0x10, .idlecWrite v),
          (0x11, .folimWrite v), (0x12, .svenWrite v), (0x13, .svfrcWrite v), (0x14, .svthrWrite v),
          (0x20, .expfClear 0 v), (0x21, .expfClear 1 v), (0x28, .iflagClear 0 v), (0x29, .iflagClear 1 v),
          (0x2A, .imaskWrite 0 v), (0x2B, .imaskWrite 1 v), (0x2C, .ilvlWrite 0 v), (0x2D, .ilvlWrite 1 v),
          (0x2E, .ilvlWrite 2 v), (0x2F, .ilvlWrite 3 v), (0x30, .ilvlWrite 4 v), (0x31, .ilvlWrite 5 v),
          (0x32, .ilvlWrite 6 v), (0x33, .ithrWrite v), (0x38, .inspectInvalid ⟨v, sf⟩) ] →
      exec (.registerWrite .whole a ⟨v, sf⟩) s = exec i s) ∧
    (∀ (sel : BitVec 5) (x : BitVec 11), v = sel ++ x →
      (∀ i, (sel.toNat, i) ∈
          [ (0, Instr.inspectActiveEntry x), (1, .inspectEffectiveEntry x), (2, .inspectJournal x),
            (3, .inspectFanOut x), (4, .inspectReservation x), (5, .inspectEngineConfiguration x),
            (6, .inspectLiveCounters x), (7, .inspectSnapshot x), (8, .inspectResultQueue x),
            (9, .inspectHoldByte x), (10, .inspectSupervisor x sf) ] →
        exec (.registerWrite .whole 0x38 ⟨v, sf⟩) s = exec i s ∧ exec (.inspectInvalid ⟨v, sf⟩) s = exec i s) ∧
      (10 < sel.toNat →
        exec (.registerWrite .whole 0x38 ⟨v, sf⟩) s = .next (s.inspected sel x none) ∧
        exec (.inspectInvalid ⟨v, sf⟩) s = .next (s.inspected sel x none))) ∧
    (∀ q, (a, q) ∈
        [ ((0x01 : BitVec 7), { s.ce.params with p0 := v }), (0x02, { s.ce.params with p1 := v }),
          (0x03, { s.ce.params with p2 := v }), (0x04, { s.ce.params with p3 := v }),
          (0x05, { s.ce.params with p4 := v }), (0x06, { s.ce.params with p5 := v }) ] →
      exec (.registerWrite .whole a ⟨v, sf⟩) s = .next { s with ce := { s.ce with params := q } }) ∧
    (a.toNat = 0x07 ∨ (0x08 < a.toNat ∧ a.toNat < 0x10) ∨ (0x14 < a.toNat ∧ a.toNat < 0x20) ∨
        (0x21 < a.toNat ∧ a.toNat < 0x28) ∨ (0x33 < a.toNat ∧ a.toNat ≠ 0x38) →
      exec (.registerWrite .whole a ⟨v, sf⟩) s = .next s)

/-- What a read of every address returns (Table 10-1, R83, R91, R96, R147, R155, R162, R163, R164, R172, R173, R175).
The read is the function busRead of the state and of the level that CSTROBE has at the read (logs 8 and 9). -/
def Obligations.StatusWords : Prop :=
  ∀ (s : State) (level : Bool) (read : BitVec 7 → Word), s.inReset = false → (∀ a, read a = busRead s a level) →
    (∀ a : BitVec 7, a.toNat ∈ [0x00, 0x07, 0x0D, 0x0E, 0x0F, 0x15, 0x16, 0x17, 0x1F, 0x24, 0x25, 0x26, 0x27, 0x35,
      0x36, 0x37] ∨ 0x41 < a.toNat → read a = 0) ∧
    (read 0x01 = s.ce.params.p0 ∧ read 0x02 = s.ce.params.p1 ∧ read 0x03 = s.ce.params.p2 ∧
      read 0x04 = s.ce.params.p3 ∧ read 0x05 = s.ce.params.p4 ∧ read 0x06 = s.ce.params.p5) ∧
    (∀ code, (s.ce.code, code) ∈ completionCodes →
      read 0x08 = word ((s.ce.lastCode.getD 0).toNat + 256 * code + (if s.ce.lastCode.isSome = true then 8192 else 0) +
        (if s.ce.overrun = true then 16384 else 0) + (if s.ce.busy.isSome = true then 32768 else 0))) ∧
    (read 0x09 = s.ce.res.r0 ∧ read 0x0A = s.ce.res.r1 ∧ read 0x0B = s.ce.res.r2 ∧ read 0x0C = s.ce.res.r3) ∧
    (read 0x10 = word s.oa.idlec.toNat ∧ read 0x11 = word s.cm.folim.toNat ∧ read 0x12 = s.sv.sven ∧
      read 0x13 = s.sv.svfrc ∧ read 0x14 = word (s.sv.decl.toNat + 256 * s.sv.clrc.toNat)) ∧
    (read 0x18 = s.fcnt ∧ read 0x19 = s.cj.cseq ∧ read 0x1A = s.cj.lcf) ∧
    read 0x1B = word ((if s.cj.commit = none then 0 else 1) + 2 * (match s.cj.commit with
      | some .next => 0
      | some (.atFrame _) => 1
      | some .onStrobe => 2
      | none => 3) + (if level = true then 256 else 0)) ∧
    (∀ target, s.cj.commit = some (.atFrame target) → read 0x1C = target) ∧
    ((∀ target, s.cj.commit ≠ some (.atFrame target)) → read 0x1C = 0) ∧
    read 0x1D = word s.cj.journal.length ∧
    (∀ i < 16, (read 0x1E).getLsbD i = true ↔
      (s.sv.sups.get i).state = .fault ∨ ∃ k, (s.sv.sups.get i).state = .recovering k) ∧
    (∀ j < 16, (read 0x20).getLsbD j = s.sau.expf.getLsbD j ∧ (read 0x21).getLsbD j = s.sau.expf.getLsbD (16 + j)) ∧
    ((read 0x22).toNat < 256 ∧ ∀ n < 4, (read 0x22).toNat / 4 ^ n % 4 = (match (s.engine n).run with
      | .idle => 0
      | .running _ => 1
      | .ended _ => 2)) ∧
    read 0x23 = word s.rq.queue.length ∧
    (∀ j < 16, (read 0x28).getLsbD j = s.flag j ∧ (read 0x2A).getLsbD j = s.iu.masks.getLsbD j ∧
      (j < 10 → (read 0x29).getLsbD j = s.flag (16 + j) ∧ (read 0x2B).getLsbD j = s.iu.masks.getLsbD (16 + j)) ∧
      (10 ≤ j → (read 0x29).getLsbD j = false ∧ (read 0x2B).getLsbD j = false)) ∧
    (∀ k < 7, ∀ j < 4, (read (BitVec.ofNat 7 (0x2C + k))).toNat / 16 ^ j % 16 =
      if 4 * k + j < 26 then (s.iu.level (4 * k + j)).toNat else 0) ∧
    read 0x33 = word s.iu.ithr.toNat ∧ read 0x34 = s.iu.ivec ∧
    (read 0x38 = s.biu.insa ∧ read 0x39 = (if s.biu.valid = true then 1 else 0) ∧
      read 0x3A = s.biu.insd.d0 ∧ read 0x3B = s.biu.insd.d1 ∧ read 0x3C = s.biu.insd.d2 ∧ read 0x3D = s.biu.insd.d3 ∧
      read 0x3E = s.biu.insd.d4 ∧ read 0x3F = s.biu.insd.d5 ∧ read 0x40 = s.biu.insd.d6 ∧ read 0x41 = s.biu.insd.d7)

/-! ## Inspections -/

/-- The tables of entries: active, effective with the origin, and journal with the slot and the mode of its active entry
(R35, R36, R42, R175, R176); fan-out counters, hold bytes and reservation records (R37, R87, R103). -/
def Obligations.InspectEntriesCountersAndRecords : Prop :=
  (∀ (s : State) (x : BitVec 11), s.inReset = false →
      (x.toNat < 1024 → ∃ d : DataWords, d.showEntry (s.activeEntry x.toNat) ∧ d.d5 = 0 ∧ d.d6 = 0 ∧ d.d7 = 0 ∧
        exec (.inspectActiveEntry x) s = .next (s.inspected 0 x (some d))) ∧
      (1024 ≤ x.toNat → exec (.inspectActiveEntry x) s = .next (s.inspected 0 x none)) ∧
      (x.toNat < 1024 → ∃ d : DataWords, d.showEntry (s.effective x.toNat) ∧
        d.d5 = (if journalGet s.cj.journal x.toNat = none then 0 else 1) ∧ d.d6 = 0 ∧ d.d7 = 0 ∧
        exec (.inspectEffectiveEntry x) s = .next (s.inspected 1 x (some d))) ∧
      (1024 ≤ x.toNat → exec (.inspectEffectiveEntry x) s = .next (s.inspected 1 x none)) ∧
      (∀ e, s.cj.journal[x.toNat]? = some e → ∃ d : DataWords, d.showEntry e.entry ∧ d.d5 = word e.slot ∧
        d.d6 = (match s.activeEntry e.slot with
          | .idle => 0
          | .switched _ _ _ _ _ _ => 1
          | .constant _ _ _ => 2
          | .test _ _ _ => 3) ∧ d.d7 = 0 ∧
        exec (.inspectJournal x) s = .next (s.inspected 2 x (some d))) ∧
      (s.cj.journal.length ≤ x.toNat → exec (.inspectJournal x) s = .next (s.inspected 2 x none))) ∧
  (∀ (s : State) (x : BitVec 11), s.inReset = false →
      (x.toNat < 1024 →
        exec (.inspectFanOut x) s = .next (s.inspected 3 x
          (some ⟨word (s.cm.fanout.get x.toNat), word s.cm.folim.toNat, 0, 0, 0, 0, 0, 0⟩)) ∧
        exec (.inspectHoldByte x) s = .next (s.inspected 9 x
          (some ⟨word (s.hold.get x.toNat).toNat, 0, 0, 0, 0, 0, 0, 0⟩))) ∧
      (1024 ≤ x.toNat →
        exec (.inspectFanOut x) s = .next (s.inspected 3 x none) ∧
        exec (.inspectHoldByte x) s = .next (s.inspected 9 x none)) ∧
      (x.toNat < 32 →
        (s.sau.recs.get x.toNat = .free → exec (.inspectReservation x) s =
          .next (s.inspected 4 x (some ⟨0, 0xFFFF, 0xFFFF, 0xFFFF, 0xFFFF, 0xFFFF, 0xFFFF, 0⟩))) ∧
        (∀ c, s.sau.recs.get x.toNat = .held c → exec (.inspectReservation x) s =
          .next (s.inspected 4 x
            (some ⟨1, word c.stream, word c.first, word c.width, c.tag, c.lease, c.remaining, 0⟩))) ∧
        (∀ c, s.sau.recs.get x.toNat = .bound c → exec (.inspectReservation x) s =
          .next (s.inspected 4 x
            (some ⟨2, word c.stream, word c.first, word c.width, c.tag, c.lease, c.remaining, 0⟩)))) ∧
      (32 ≤ x.toNat → exec (.inspectReservation x) s = .next (s.inspected 4 x none)))

/-- Engine configurations, live counters, snapshots and result records (R117, R136, R142, R175, R176): a 32-bit quantity
stands as its low word, then its high word, and an absent first-lock offset reads 0. Supervisors, with the SF level at
the inspection (R102; the row carries the levels, log 8), and an INSA write that names no table or no record (R175). -/
def Obligations.InspectEnginesResultsAndSupervisors : Prop :=
  (∀ (s : State) (x : BitVec 11) (lo hi : BitVec 32 → Word) (run : RunName → Nat) (chk : CheckerName → Nat),
      s.inReset = false → (∀ v, lo v = v.setWidth 16 ∧ hi v = (v >>> 16).setWidth 16) →
      run .idle = 0 ∧ run .running = 1 ∧ run .ended = 2 →
      chk .off = 0 ∧ chk .hunting = 1 ∧ chk .confirming = 2 ∧ chk .locked = 3 →
      (∀ e pattern unit, x.toNat < 4 → e = s.engine x.toNat → (e.cfg.pattern, pattern) ∈ patternCodes →
        (e.cfg.unit, unit) ∈ unitCodes → exec (.inspectEngineConfiguration x) s =
        .next (s.inspected 5 x (some
          ⟨word (x.toNat + 8 * pattern + 64 * (if e.cfg.invert = true then 1 else 0) + 256 * unit + 1024 * e.cfg.len),
            lo e.cfg.word, hi e.cfg.word, word (e.cfg.chkSlot + 256 * e.cfg.chkWidth),
            word (e.cfg.lossThreshold + 256 * e.cfg.chkStream), e.cfg.duration, word (run e.run.name),
            word e.gen.pendingInj⟩))) ∧
      (4 ≤ x.toNat → exec (.inspectEngineConfiguration x) s = .next (s.inspected 5 x none)) ∧
      (∀ e l, x.toNat < 8 → e = s.engine (x.toNat / 2) → l = e.live → exec (.inspectLiveCounters x) s =
        .next (s.inspected 6 x (some (if x.toNat % 2 = 0
          then ⟨lo l.framesRun, hi l.framesRun, lo l.framesLocked, hi l.framesLocked, lo l.bitErrors, hi l.bitErrors,
            lo l.faultFrames, hi l.faultFrames⟩
          else ⟨l.syncLosses, l.errorsInjected, lo (l.firstLock.getD 0), hi (l.firstLock.getD 0), e.lastRun,
            word (run e.run.name + 16 * chk e.checker.name), 0, 0⟩)))) ∧
      (8 ≤ x.toNat → exec (.inspectLiveCounters x) s = .next (s.inspected 6 x none)) ∧
      (∀ r l, x.toNat < 8 → r = (s.engine (x.toNat / 2)).snap → l = r.live → exec (.inspectSnapshot x) s =
        .next (s.inspected 7 x (some (if x.toNat % 2 = 0
          then ⟨lo l.framesRun, hi l.framesRun, lo l.framesLocked, hi l.framesLocked, lo l.bitErrors, hi l.bitErrors,
            lo l.faultFrames, hi l.faultFrames⟩
          else ⟨l.syncLosses, l.errorsInjected, lo (l.firstLock.getD 0), hi (l.firstLock.getD 0), r.runSeq,
            word (run r.run + 16 * chk r.checker), r.fcnt, 0⟩)))) ∧
      (8 ≤ x.toNat → exec (.inspectSnapshot x) s = .next (s.inspected 7 x none)) ∧
      (∀ r l, s.rq.queue[x.toNat / 2]? = some r → l = r.live → exec (.inspectResultQueue x) s =
        .next (s.inspected 8 x (some (if x.toNat % 2 = 0
          then ⟨word (r.engine + 16 * (match r.outcome with
              | .completed => 1
              | .stopped => 2
              | .pathRemoved => 3)), r.runSeq, r.startCseq, lo l.framesRun, hi l.framesRun, lo l.framesLocked,
            hi l.framesLocked, 0⟩
          else ⟨lo l.bitErrors, hi l.bitErrors, l.syncLosses, lo l.faultFrames, hi l.faultFrames, l.errorsInjected,
            lo (l.firstLock.getD 0), hi (l.firstLock.getD 0)⟩)))) ∧
      (2 * s.rq.queue.length ≤ x.toNat → exec (.inspectResultQueue x) s = .next (s.inspected 8 x none))) ∧
  (∀ (s : State), s.inReset = false →
      (∀ (x : BitVec 11) (sf : Word) (t : State), t = { s with pins := { s.pins with sf := sf } } →
        (∀ i code count, x.toNat = i → i < 16 →
          (code, count) = (match (s.sv.sups.get i).state with
            | .clear => (0, 0)
            | .suspect k => (1, k.toNat)
            | .fault => (2, 0)
            | .recovering k => (3, k.toNat)) →
          exec (.inspectSupervisor x sf) s = .next (t.inspected 10 x (some
            ⟨word (code + 256 * count),
              word ((if s.sv.sven.getLsbD i = true then 1 else 0) + (if s.sv.svfrc.getLsbD i = true then 2 else 0) +
                16 * (match (s.sv.sups.get i).lastSample with
                  | some true => 1
                  | some false => 0
                  | none => 3) + (if sf.getLsbD i = true then 256 else 0)),
              word s.sv.decl.toNat, word s.sv.clrc.toNat, 0, 0, 0, 0⟩))) ∧
        (16 ≤ x.toNat → exec (.inspectSupervisor x sf) s = .next (t.inspected 10 x none))) ∧
      (∀ (sel : BitVec 5) (x : BitVec 11) (sf : Word),
        10 < sel.toNat ∨ (sel.toNat ∈ [0, 1, 3, 9] ∧ 1024 ≤ x.toNat) ∨
          (sel = 2 ∧ s.cj.journal.length ≤ x.toNat) ∨ (sel = 4 ∧ 32 ≤ x.toNat) ∨ (sel = 5 ∧ 4 ≤ x.toNat) ∨
          (sel.toNat ∈ [6, 7] ∧ 8 ≤ x.toNat) ∨ (sel = 8 ∧ 2 * s.rq.queue.length ≤ x.toNat) ∨
          (sel = 10 ∧ 16 ≤ x.toNat) →
        exec (.inspectInvalid ⟨sel ++ x, sf⟩) s = .next
          ((if sel = 10 then { s with pins := { s.pins with sf := sf } } else s).inspected sel x none)))

/-! ## What changes what -/

/-- Law 9 (R45): while a commit is PENDING the journal does not change, except that its application, a soft reset and a
hardware reset empty it and end the pending state. -/
def Obligations.PendingJournalIsFixed : Prop :=
  ∀ (c : Instr) (s t : State), exec c s = .next t → c.isShortRelease = false → s.cj.commit ≠ none →
    t.cj.journal = s.cj.journal ∨
    (t.cj.journal = [] ∧ t.cj.commit = none ∧
      (c = .softReset ∨ (∃ cause, c = .hardwareReset cause) ∨ appliesCommit c s))

/-- What a frame is built from, and what has been formed of it, stays as it is until the next frame start or a hardware
reset (R4, R8, R11, R17, R95). -/
def Obligations.FrameInputsStayForTheFrame : Prop :=
  ∀ (c : Instr) (s t : State), exec c s = .next t → c.isShortRelease = false → (∀ e, c ∉ frameRows e) →
    (∀ cause, c ≠ .hardwareReset cause) →
    t.fcnt = s.fcnt ∧ t.cm.active = s.cm.active ∧ t.hold = s.hold ∧ t.rfm.completed = s.rfm.completed ∧
    t.oa.idleInForce = s.oa.idleInForce ∧ t.oa.inProgress = s.oa.inProgress ∧ t.oa.frameState = s.oa.frameState ∧
    (∀ n < 4, (t.oa.emit.get n).isSome = (s.oa.emit.get n).isSome) ∧
    (∀ i < 1024, i % 64 < s.oa.next.get (i / 64) → t.oa.frame.get i = s.oa.frame.get i)

/-! ## Laws that every step keeps

Each is stated together with what it rests on, and without releases after too short an assertion of RESET_N, after
which "the laws of this specification need not hold" (R177). -/

/-- The state right after reset satisfies every law. -/
def Obligations.ResetSatisfiesTheLaws : Prop :=
  State.reset.NoShortReset ∧ State.reset.JournalLaw ∧ State.reset.ConnectionLaw ∧ State.reset.FanOutLaw ∧
    State.reset.ReservationLaw ∧ State.reset.EngineLaw ∧ State.reset.QueueLaw ∧ State.reset.SupervisorLaw ∧
    State.reset.LevelLaw ∧ State.reset.CommandLaw ∧ State.reset.ResetLaw

/-- Law 1 and R21, R39. -/
def Obligations.StepKeepsTheJournalLaw : Prop :=
  ∀ s t : State, s.NoShortReset → s.JournalLaw → step s = .next t → t.NoShortReset ∧ t.JournalLaw

/-- R23 and R25: both views are made of whole connections, each engine in at most one. -/
def Obligations.StepKeepsWholeConnections : Prop :=
  ∀ s t : State, s.NoShortReset → s.JournalLaw → s.ConnectionLaw → step s = .next t →
    t.NoShortReset ∧ t.JournalLaw ∧ t.ConnectionLaw

/-- R29 and R31: the fan-out counters count the effective view, and none exceeds 64. -/
def Obligations.StepKeepsTheFanOutCounts : Prop :=
  ∀ s t : State, s.NoShortReset → s.JournalLaw → s.FanOutLaw → step s = .next t →
    t.NoShortReset ∧ t.JournalLaw ∧ t.FanOutLaw

/-- Laws 4, 5 and 6 (R67, R79). -/
def Obligations.StepKeepsTheReservationLaws : Prop :=
  ∀ s t : State, s.NoShortReset → s.JournalLaw → s.ReservationLaw → step s = .next t →
    t.NoShortReset ∧ t.JournalLaw ∧ t.ReservationLaw

/-- R104, R107, R114, R116, R119 and R132. -/
def Obligations.StepKeepsTheEngineLaw : Prop :=
  ∀ s t : State, s.NoShortReset → s.EngineLaw → step s = .next t → t.NoShortReset ∧ t.EngineLaw

/-- Law 10 (R138, R139). -/
def Obligations.StepKeepsTheQueueLaw : Prop :=
  ∀ s t : State, s.NoShortReset → s.QueueLaw → step s = .next t → t.NoShortReset ∧ t.QueueLaw

/-- R88, R89, R91, R146, R164, R177: supervisors and thresholds, levels, the last command code, and the values held in
reset; those of idleInForce, frameState, frame, next, emit and captured are the model's choice (log 10). -/
def Obligations.StepKeepsTheSettingsLaws : Prop :=
  ∀ s t : State, s.NoShortReset → s.SupervisorLaw → s.LevelLaw → s.CommandLaw → s.ResetLaw → step s = .next t →
    t.NoShortReset ∧ t.SupervisorLaw ∧ t.LevelLaw ∧ t.CommandLaw ∧ t.ResetLaw

end
end

