-- ==== Sys2Proof/Laws/Table.lean ====
section
/-! SUPPORT. What looking a table up answers after each way of building one. -/

namespace Sys2Proof

theorem mod_two_pow_succ (d i : Nat) : i % 2 ^ (d + 1) = i % 2 + 2 * (i / 2 % 2 ^ d) := by
  rw [Nat.pow_succ, Nat.mul_comm]
  exact Nat.mod_mul

theorem Table.get_tabulate {α : Type} (d : Nat) :
    ∀ (f : Nat → α) (i : Nat), (Table.tabulate d f).get i = f (i % 2 ^ d) := by
  induction d with
  | zero =>
    intro f i
    simp [Table.tabulate, Table.get, Nat.mod_one]
  | succ d ih =>
    intro f i
    simp only [Table.tabulate, Table.get, ih]
    split <;> (rw [mod_two_pow_succ]; congr 1; omega)

theorem Table.get_set {α : Type} {d : Nat} (t : Table α d) (a : α) :
    ∀ i j : Nat, (t.set i a).get j = if i % 2 ^ d = j % 2 ^ d then a else t.get j := by
  induction t with
  | leaf b =>
    intro i j
    simp [Table.set, Table.get, Nat.mod_one]
  | @node d e o ihe iho =>
    intro i j
    have h2 : (i % 2 ^ (d + 1) = j % 2 ^ (d + 1)) ↔ (i % 2 = j % 2 ∧ i / 2 % 2 ^ d = j / 2 % 2 ^ d) := by
      rw [mod_two_pow_succ d i, mod_two_pow_succ d j]
      omega
    simp only [h2]
    rcases Nat.mod_two_eq_zero_or_one i with hi | hi <;> rcases Nat.mod_two_eq_zero_or_one j with hj | hj <;>
      simp [Table.set, Table.get, hi, hj, ihe, iho]

theorem Table.get_set_self {α : Type} {d : Nat} (t : Table α d) (a : α) (i : Nat) : (t.set i a).get i = a := by
  simp [Table.get_set]

theorem Table.get_set_ne {α : Type} {d : Nat} (t : Table α d) (a : α) {i j : Nat} (h : i % 2 ^ d ≠ j % 2 ^ d) :
    (t.set i a).get j = t.get j := by
  simp [Table.get_set, h]

@[simp] theorem Table.get_replicate {α : Type} (d : Nat) (a : α) : ∀ i : Nat, (Table.replicate d a).get i = a := by
  induction d with
  | zero =>
    intro i
    rfl
  | succ d ih =>
    intro i
    simp [Table.replicate, Table.get, ih]

/-- A table is known by its entries. -/
theorem Table.ext_get {α : Type} {d : Nat} (t u : Table α d) (h : ∀ i < 2 ^ d, t.get i = u.get i) : t = u := by
  induction d with
  | zero =>
    cases t with
    | leaf a =>
      cases u with
      | leaf b => exact congrArg _ (h 0 (by decide))
  | succ d ih =>
    cases t with
    | node e o =>
      cases u with
      | node e' o' =>
        have he : e = e' := ih e e' (fun i hi => by
          have := h (2 * i) (by rw [Nat.pow_succ]; omega)
          simpa [Table.get] using this)
        have ho : o = o' := ih o o' (fun i hi => by
          have h1 : (2 * i + 1) % 2 = 1 := by omega
          have h2 : (2 * i + 1) / 2 = i := by omega
          have := h (2 * i + 1) (by rw [Nat.pow_succ]; omega)
          simpa [Table.get, h1, h2] using this)
        rw [he, ho]

end Sys2Proof
end

