-- ==== Sys2Proof/Laws/State.lean ====
section
/-! SUPPORT. Each named update of the state, field by field. -/

namespace Sys2Proof.Machine

/-! ### raise -/

@[simp] theorem raise_fcnt (k : Nat) (s : State) : (raise k s).fcnt = s.fcnt := rfl
@[simp] theorem raise_rfm (k : Nat) (s : State) : (raise k s).rfm = s.rfm := rfl
@[simp] theorem raise_oa (k : Nat) (s : State) : (raise k s).oa = s.oa := rfl
@[simp] theorem raise_cm (k : Nat) (s : State) : (raise k s).cm = s.cm := rfl
@[simp] theorem raise_cj (k : Nat) (s : State) : (raise k s).cj = s.cj := rfl
@[simp] theorem raise_sau (k : Nat) (s : State) : (raise k s).sau = s.sau := rfl
@[simp] theorem raise_sv (k : Nat) (s : State) : (raise k s).sv = s.sv := rfl
@[simp] theorem raise_hold (k : Nat) (s : State) : (raise k s).hold = s.hold := rfl
@[simp] theorem raise_te (k : Nat) (s : State) : (raise k s).te = s.te := rfl
@[simp] theorem raise_rq (k : Nat) (s : State) : (raise k s).rq = s.rq := rfl
@[simp] theorem raise_ce (k : Nat) (s : State) : (raise k s).ce = s.ce := rfl
@[simp] theorem raise_biu (k : Nat) (s : State) : (raise k s).biu = s.biu := rfl
@[simp] theorem raise_pins (k : Nat) (s : State) : (raise k s).pins = s.pins := rfl
@[simp] theorem raise_held (k : Nat) (s : State) : (raise k s).held = s.held := rfl
@[simp] theorem raise_freeDraws (k : Nat) (s : State) : (raise k s).freeDraws = s.freeDraws := rfl
@[simp] theorem raise_pending (k : Nat) (s : State) : (raise k s).pending = s.pending := rfl
@[simp] theorem raise_inReset (k : Nat) (s : State) : (raise k s).inReset = s.inReset := rfl
@[simp] theorem raise_activeEntry (k : Nat) (s : State) (i : Nat) : (raise k s).activeEntry i = s.activeEntry i := rfl
@[simp] theorem raise_effective (k : Nat) (s : State) (i : Nat) : (raise k s).effective i = s.effective i := rfl
@[simp] theorem raise_engine (k : Nat) (s : State) (i : Nat) : (raise k s).engine i = s.engine i := rfl
@[simp] theorem raise_jcnt (k : Nat) (s : State) : (raise k s).jcnt = s.jcnt := rfl
@[simp] theorem raise_iu_masks (k : Nat) (s : State) : (raise k s).iu.masks = s.iu.masks := rfl
@[simp] theorem raise_iu_levels (k : Nat) (s : State) : (raise k s).iu.levels = s.iu.levels := rfl
@[simp] theorem raise_iu_ithr (k : Nat) (s : State) : (raise k s).iu.ithr = s.iu.ithr := rfl
@[simp] theorem raise_iu_flags (k : Nat) (s : State) : (raise k s).iu.flags = s.iu.flags ||| (1#26 <<< k) := rfl

/-! ### complete -/

@[simp] theorem complete_fcnt (c : Completion) (r0 r1 r2 r3 : Word) (s : State) :
    (complete c r0 r1 r2 r3 s).fcnt = s.fcnt := rfl
@[simp] theorem complete_rfm (c : Completion) (r0 r1 r2 r3 : Word) (s : State) :
    (complete c r0 r1 r2 r3 s).rfm = s.rfm := rfl
@[simp] theorem complete_oa (c : Completion) (r0 r1 r2 r3 : Word) (s : State) :
    (complete c r0 r1 r2 r3 s).oa = s.oa := rfl
@[simp] theorem complete_cm (c : Completion) (r0 r1 r2 r3 : Word) (s : State) :
    (complete c r0 r1 r2 r3 s).cm = s.cm := rfl
@[simp] theorem complete_cj (c : Completion) (r0 r1 r2 r3 : Word) (s : State) :
    (complete c r0 r1 r2 r3 s).cj = s.cj := rfl
@[simp] theorem complete_sau (c : Completion) (r0 r1 r2 r3 : Word) (s : State) :
    (complete c r0 r1 r2 r3 s).sau = s.sau := rfl
@[simp] theorem complete_sv (c : Completion) (r0 r1 r2 r3 : Word) (s : State) :
    (complete c r0 r1 r2 r3 s).sv = s.sv := rfl
@[simp] theorem complete_hold (c : Completion) (r0 r1 r2 r3 : Word) (s : State) :
    (complete c r0 r1 r2 r3 s).hold = s.hold := rfl
@[simp] theorem complete_te (c : Completion) (r0 r1 r2 r3 : Word) (s : State) :
    (complete c r0 r1 r2 r3 s).te = s.te := rfl
@[simp] theorem complete_rq (c : Completion) (r0 r1 r2 r3 : Word) (s : State) :
    (complete c r0 r1 r2 r3 s).rq = s.rq := rfl
@[simp] theorem complete_biu (c : Completion) (r0 r1 r2 r3 : Word) (s : State) :
    (complete c r0 r1 r2 r3 s).biu = s.biu := rfl
@[simp] theorem complete_pins (c : Completion) (r0 r1 r2 r3 : Word) (s : State) :
    (complete c r0 r1 r2 r3 s).pins = s.pins := rfl
@[simp] theorem complete_held (c : Completion) (r0 r1 r2 r3 : Word) (s : State) :
    (complete c r0 r1 r2 r3 s).held = s.held := rfl
@[simp] theorem complete_freeDraws (c : Completion) (r0 r1 r2 r3 : Word) (s : State) :
    (complete c r0 r1 r2 r3 s).freeDraws = s.freeDraws := rfl
@[simp] theorem complete_pending (c : Completion) (r0 r1 r2 r3 : Word) (s : State) :
    (complete c r0 r1 r2 r3 s).pending = s.pending := rfl
@[simp] theorem complete_inReset (c : Completion) (r0 r1 r2 r3 : Word) (s : State) :
    (complete c r0 r1 r2 r3 s).inReset = s.inReset := rfl
@[simp] theorem complete_activeEntry (c : Completion) (r0 r1 r2 r3 : Word) (s : State) (i : Nat) :
    (complete c r0 r1 r2 r3 s).activeEntry i = s.activeEntry i := rfl
@[simp] theorem complete_effective (c : Completion) (r0 r1 r2 r3 : Word) (s : State) (i : Nat) :
    (complete c r0 r1 r2 r3 s).effective i = s.effective i := rfl
@[simp] theorem complete_engine (c : Completion) (r0 r1 r2 r3 : Word) (s : State) (i : Nat) :
    (complete c r0 r1 r2 r3 s).engine i = s.engine i := rfl
@[simp] theorem complete_jcnt (c : Completion) (r0 r1 r2 r3 : Word) (s : State) :
    (complete c r0 r1 r2 r3 s).jcnt = s.jcnt := rfl
@[simp] theorem complete_ce_busy (c : Completion) (r0 r1 r2 r3 : Word) (s : State) :
    (complete c r0 r1 r2 r3 s).ce.busy = none := rfl
@[simp] theorem complete_ce_code (c : Completion) (r0 r1 r2 r3 : Word) (s : State) :
    (complete c r0 r1 r2 r3 s).ce.code = c := rfl
@[simp] theorem complete_ce_res (c : Completion) (r0 r1 r2 r3 : Word) (s : State) :
    (complete c r0 r1 r2 r3 s).ce.res = ⟨r0, r1, r2, r3⟩ := rfl
@[simp] theorem complete_ce_lastCode (c : Completion) (r0 r1 r2 r3 : Word) (s : State) :
    (complete c r0 r1 r2 r3 s).ce.lastCode = s.ce.lastCode := rfl
@[simp] theorem complete_ce_overrun (c : Completion) (r0 r1 r2 r3 : Word) (s : State) :
    (complete c r0 r1 r2 r3 s).ce.overrun = s.ce.overrun := rfl
@[simp] theorem complete_ce_params (c : Completion) (r0 r1 r2 r3 : Word) (s : State) :
    (complete c r0 r1 r2 r3 s).ce.params = s.ce.params := rfl
@[simp] theorem complete_iu_masks (c : Completion) (r0 r1 r2 r3 : Word) (s : State) :
    (complete c r0 r1 r2 r3 s).iu.masks = s.iu.masks := rfl
@[simp] theorem complete_iu_levels (c : Completion) (r0 r1 r2 r3 : Word) (s : State) :
    (complete c r0 r1 r2 r3 s).iu.levels = s.iu.levels := rfl
@[simp] theorem complete_iu_ithr (c : Completion) (r0 r1 r2 r3 : Word) (s : State) :
    (complete c r0 r1 r2 r3 s).iu.ithr = s.iu.ithr := rfl

/-! ### setEngine -/

@[simp] theorem setEngine_fcnt (s : State) (n : Nat) (e : Engine) : (s.setEngine n e).fcnt = s.fcnt := rfl
@[simp] theorem setEngine_rfm (s : State) (n : Nat) (e : Engine) : (s.setEngine n e).rfm = s.rfm := rfl
@[simp] theorem setEngine_oa (s : State) (n : Nat) (e : Engine) : (s.setEngine n e).oa = s.oa := rfl
@[simp] theorem setEngine_cm (s : State) (n : Nat) (e : Engine) : (s.setEngine n e).cm = s.cm := rfl
@[simp] theorem setEngine_cj (s : State) (n : Nat) (e : Engine) : (s.setEngine n e).cj = s.cj := rfl
@[simp] theorem setEngine_sau (s : State) (n : Nat) (e : Engine) : (s.setEngine n e).sau = s.sau := rfl
@[simp] theorem setEngine_sv (s : State) (n : Nat) (e : Engine) : (s.setEngine n e).sv = s.sv := rfl
@[simp] theorem setEngine_hold (s : State) (n : Nat) (e : Engine) : (s.setEngine n e).hold = s.hold := rfl
@[simp] theorem setEngine_rq (s : State) (n : Nat) (e : Engine) : (s.setEngine n e).rq = s.rq := rfl
@[simp] theorem setEngine_ce (s : State) (n : Nat) (e : Engine) : (s.setEngine n e).ce = s.ce := rfl
@[simp] theorem setEngine_iu (s : State) (n : Nat) (e : Engine) : (s.setEngine n e).iu = s.iu := rfl
@[simp] theorem setEngine_biu (s : State) (n : Nat) (e : Engine) : (s.setEngine n e).biu = s.biu := rfl
@[simp] theorem setEngine_pins (s : State) (n : Nat) (e : Engine) : (s.setEngine n e).pins = s.pins := rfl
@[simp] theorem setEngine_held (s : State) (n : Nat) (e : Engine) : (s.setEngine n e).held = s.held := rfl
@[simp] theorem setEngine_freeDraws (s : State) (n : Nat) (e : Engine) :
    (s.setEngine n e).freeDraws = s.freeDraws := rfl
@[simp] theorem setEngine_pending (s : State) (n : Nat) (e : Engine) : (s.setEngine n e).pending = s.pending := rfl
@[simp] theorem setEngine_inReset (s : State) (n : Nat) (e : Engine) : (s.setEngine n e).inReset = s.inReset := rfl
@[simp] theorem setEngine_activeEntry (s : State) (n : Nat) (e : Engine) (i : Nat) :
    (s.setEngine n e).activeEntry i = s.activeEntry i := rfl
@[simp] theorem setEngine_effective (s : State) (n : Nat) (e : Engine) (i : Nat) :
    (s.setEngine n e).effective i = s.effective i := rfl
@[simp] theorem setEngine_jcnt (s : State) (n : Nat) (e : Engine) : (s.setEngine n e).jcnt = s.jcnt := rfl
@[simp] theorem setEngine_te_runCounter (s : State) (n : Nat) (e : Engine) :
    (s.setEngine n e).te.runCounter = s.te.runCounter := rfl
@[simp] theorem setEngine_te_engines (s : State) (n : Nat) (e : Engine) :
    (s.setEngine n e).te.engines = s.te.engines.set n e := rfl

/-! ### setRec -/

@[simp] theorem setRec_fcnt (s : State) (r : Nat) (x : Reservation) : (s.setRec r x).fcnt = s.fcnt := rfl
@[simp] theorem setRec_rfm (s : State) (r : Nat) (x : Reservation) : (s.setRec r x).rfm = s.rfm := rfl
@[simp] theorem setRec_oa (s : State) (r : Nat) (x : Reservation) : (s.setRec r x).oa = s.oa := rfl
@[simp] theorem setRec_cm (s : State) (r : Nat) (x : Reservation) : (s.setRec r x).cm = s.cm := rfl
@[simp] theorem setRec_cj (s : State) (r : Nat) (x : Reservation) : (s.setRec r x).cj = s.cj := rfl
@[simp] theorem setRec_sv (s : State) (r : Nat) (x : Reservation) : (s.setRec r x).sv = s.sv := rfl
@[simp] theorem setRec_hold (s : State) (r : Nat) (x : Reservation) : (s.setRec r x).hold = s.hold := rfl
@[simp] theorem setRec_te (s : State) (r : Nat) (x : Reservation) : (s.setRec r x).te = s.te := rfl
@[simp] theorem setRec_rq (s : State) (r : Nat) (x : Reservation) : (s.setRec r x).rq = s.rq := rfl
@[simp] theorem setRec_ce (s : State) (r : Nat) (x : Reservation) : (s.setRec r x).ce = s.ce := rfl
@[simp] theorem setRec_iu (s : State) (r : Nat) (x : Reservation) : (s.setRec r x).iu = s.iu := rfl
@[simp] theorem setRec_biu (s : State) (r : Nat) (x : Reservation) : (s.setRec r x).biu = s.biu := rfl
@[simp] theorem setRec_pins (s : State) (r : Nat) (x : Reservation) : (s.setRec r x).pins = s.pins := rfl
@[simp] theorem setRec_held (s : State) (r : Nat) (x : Reservation) : (s.setRec r x).held = s.held := rfl
@[simp] theorem setRec_freeDraws (s : State) (r : Nat) (x : Reservation) :
    (s.setRec r x).freeDraws = s.freeDraws := rfl
@[simp] theorem setRec_pending (s : State) (r : Nat) (x : Reservation) : (s.setRec r x).pending = s.pending := rfl
@[simp] theorem setRec_inReset (s : State) (r : Nat) (x : Reservation) : (s.setRec r x).inReset = s.inReset := rfl
@[simp] theorem setRec_activeEntry (s : State) (r : Nat) (x : Reservation) (i : Nat) :
    (s.setRec r x).activeEntry i = s.activeEntry i := rfl
@[simp] theorem setRec_effective (s : State) (r : Nat) (x : Reservation) (i : Nat) :
    (s.setRec r x).effective i = s.effective i := rfl
@[simp] theorem setRec_engine (s : State) (r : Nat) (x : Reservation) (i : Nat) :
    (s.setRec r x).engine i = s.engine i := rfl
@[simp] theorem setRec_jcnt (s : State) (r : Nat) (x : Reservation) : (s.setRec r x).jcnt = s.jcnt := rfl
@[simp] theorem setRec_sau_expf (s : State) (r : Nat) (x : Reservation) : (s.setRec r x).sau.expf = s.sau.expf := rfl
@[simp] theorem setRec_sau_recs (s : State) (r : Nat) (x : Reservation) :
    (s.setRec r x).sau.recs = s.sau.recs.set r x := rfl

/-! ### withByte -/

@[simp] theorem withByte_fcnt (s : State) (st t : Nat) (b : Byte) : (s.withByte st t b).fcnt = s.fcnt := rfl
@[simp] theorem withByte_rfm (s : State) (st t : Nat) (b : Byte) : (s.withByte st t b).rfm = s.rfm := rfl
@[simp] theorem withByte_cm (s : State) (st t : Nat) (b : Byte) : (s.withByte st t b).cm = s.cm := rfl
@[simp] theorem withByte_cj (s : State) (st t : Nat) (b : Byte) : (s.withByte st t b).cj = s.cj := rfl
@[simp] theorem withByte_sau (s : State) (st t : Nat) (b : Byte) : (s.withByte st t b).sau = s.sau := rfl
@[simp] theorem withByte_sv (s : State) (st t : Nat) (b : Byte) : (s.withByte st t b).sv = s.sv := rfl
@[simp] theorem withByte_hold (s : State) (st t : Nat) (b : Byte) : (s.withByte st t b).hold = s.hold := rfl
@[simp] theorem withByte_te (s : State) (st t : Nat) (b : Byte) : (s.withByte st t b).te = s.te := rfl
@[simp] theorem withByte_rq (s : State) (st t : Nat) (b : Byte) : (s.withByte st t b).rq = s.rq := rfl
@[simp] theorem withByte_ce (s : State) (st t : Nat) (b : Byte) : (s.withByte st t b).ce = s.ce := rfl
@[simp] theorem withByte_iu (s : State) (st t : Nat) (b : Byte) : (s.withByte st t b).iu = s.iu := rfl
@[simp] theorem withByte_biu (s : State) (st t : Nat) (b : Byte) : (s.withByte st t b).biu = s.biu := rfl
@[simp] theorem withByte_pins (s : State) (st t : Nat) (b : Byte) : (s.withByte st t b).pins = s.pins := rfl
@[simp] theorem withByte_held (s : State) (st t : Nat) (b : Byte) : (s.withByte st t b).held = s.held := rfl
@[simp] theorem withByte_freeDraws (s : State) (st t : Nat) (b : Byte) :
    (s.withByte st t b).freeDraws = s.freeDraws := rfl
@[simp] theorem withByte_pending (s : State) (st t : Nat) (b : Byte) : (s.withByte st t b).pending = s.pending := rfl
@[simp] theorem withByte_inReset (s : State) (st t : Nat) (b : Byte) : (s.withByte st t b).inReset = s.inReset := rfl
@[simp] theorem withByte_activeEntry (s : State) (st t : Nat) (b : Byte) (i : Nat) :
    (s.withByte st t b).activeEntry i = s.activeEntry i := rfl
@[simp] theorem withByte_effective (s : State) (st t : Nat) (b : Byte) (i : Nat) :
    (s.withByte st t b).effective i = s.effective i := rfl
@[simp] theorem withByte_engine (s : State) (st t : Nat) (b : Byte) (i : Nat) :
    (s.withByte st t b).engine i = s.engine i := rfl
@[simp] theorem withByte_jcnt (s : State) (st t : Nat) (b : Byte) : (s.withByte st t b).jcnt = s.jcnt := rfl
@[simp] theorem withByte_oa_idlec (s : State) (st t : Nat) (b : Byte) :
    (s.withByte st t b).oa.idlec = s.oa.idlec := rfl
@[simp] theorem withByte_oa_idleInForce (s : State) (st t : Nat) (b : Byte) :
    (s.withByte st t b).oa.idleInForce = s.oa.idleInForce := rfl
@[simp] theorem withByte_oa_inProgress (s : State) (st t : Nat) (b : Byte) :
    (s.withByte st t b).oa.inProgress = s.oa.inProgress := rfl
@[simp] theorem withByte_oa_frameState (s : State) (st t : Nat) (b : Byte) :
    (s.withByte st t b).oa.frameState = s.oa.frameState := rfl
@[simp] theorem withByte_oa_emit (s : State) (st t : Nat) (b : Byte) : (s.withByte st t b).oa.emit = s.oa.emit := rfl

/-! ### writeInsa -/

@[simp] theorem writeInsa_fcnt (v : Word) (s : State) : (writeInsa v s).fcnt = s.fcnt := rfl
@[simp] theorem writeInsa_rfm (v : Word) (s : State) : (writeInsa v s).rfm = s.rfm := rfl
@[simp] theorem writeInsa_oa (v : Word) (s : State) : (writeInsa v s).oa = s.oa := rfl
@[simp] theorem writeInsa_cm (v : Word) (s : State) : (writeInsa v s).cm = s.cm := rfl
@[simp] theorem writeInsa_cj (v : Word) (s : State) : (writeInsa v s).cj = s.cj := rfl
@[simp] theorem writeInsa_sau (v : Word) (s : State) : (writeInsa v s).sau = s.sau := rfl
@[simp] theorem writeInsa_sv (v : Word) (s : State) : (writeInsa v s).sv = s.sv := rfl
@[simp] theorem writeInsa_hold (v : Word) (s : State) : (writeInsa v s).hold = s.hold := rfl
@[simp] theorem writeInsa_te (v : Word) (s : State) : (writeInsa v s).te = s.te := rfl
@[simp] theorem writeInsa_rq (v : Word) (s : State) : (writeInsa v s).rq = s.rq := rfl
@[simp] theorem writeInsa_ce (v : Word) (s : State) : (writeInsa v s).ce = s.ce := rfl
@[simp] theorem writeInsa_iu (v : Word) (s : State) : (writeInsa v s).iu = s.iu := rfl
@[simp] theorem writeInsa_pins (v : Word) (s : State) : (writeInsa v s).pins = s.pins := rfl
@[simp] theorem writeInsa_held (v : Word) (s : State) : (writeInsa v s).held = s.held := rfl
@[simp] theorem writeInsa_freeDraws (v : Word) (s : State) : (writeInsa v s).freeDraws = s.freeDraws := rfl
@[simp] theorem writeInsa_pending (v : Word) (s : State) : (writeInsa v s).pending = s.pending := rfl
@[simp] theorem writeInsa_inReset (v : Word) (s : State) : (writeInsa v s).inReset = s.inReset := rfl
@[simp] theorem writeInsa_activeEntry (v : Word) (s : State) (i : Nat) :
    (writeInsa v s).activeEntry i = s.activeEntry i := rfl
@[simp] theorem writeInsa_effective (v : Word) (s : State) (i : Nat) :
    (writeInsa v s).effective i = s.effective i := rfl
@[simp] theorem writeInsa_engine (v : Word) (s : State) (i : Nat) : (writeInsa v s).engine i = s.engine i := rfl
@[simp] theorem writeInsa_jcnt (v : Word) (s : State) : (writeInsa v s).jcnt = s.jcnt := rfl
@[simp] theorem writeInsa_biu_insa (v : Word) (s : State) : (writeInsa v s).biu.insa = v := rfl

/-! ### inspectAt -/

@[simp] theorem inspectAt_fcnt (v sf : Word) (s : State) :
    (inspectAt v sf s).fcnt = s.fcnt := by unfold inspectAt; split <;> rfl
@[simp] theorem inspectAt_rfm (v sf : Word) (s : State) :
    (inspectAt v sf s).rfm = s.rfm := by unfold inspectAt; split <;> rfl
@[simp] theorem inspectAt_oa (v sf : Word) (s : State) :
    (inspectAt v sf s).oa = s.oa := by unfold inspectAt; split <;> rfl
@[simp] theorem inspectAt_cm (v sf : Word) (s : State) :
    (inspectAt v sf s).cm = s.cm := by unfold inspectAt; split <;> rfl
@[simp] theorem inspectAt_cj (v sf : Word) (s : State) :
    (inspectAt v sf s).cj = s.cj := by unfold inspectAt; split <;> rfl
@[simp] theorem inspectAt_sau (v sf : Word) (s : State) :
    (inspectAt v sf s).sau = s.sau := by unfold inspectAt; split <;> rfl
@[simp] theorem inspectAt_sv (v sf : Word) (s : State) :
    (inspectAt v sf s).sv = s.sv := by unfold inspectAt; split <;> rfl
@[simp] theorem inspectAt_hold (v sf : Word) (s : State) :
    (inspectAt v sf s).hold = s.hold := by unfold inspectAt; split <;> rfl
@[simp] theorem inspectAt_te (v sf : Word) (s : State) :
    (inspectAt v sf s).te = s.te := by unfold inspectAt; split <;> rfl
@[simp] theorem inspectAt_rq (v sf : Word) (s : State) :
    (inspectAt v sf s).rq = s.rq := by unfold inspectAt; split <;> rfl
@[simp] theorem inspectAt_ce (v sf : Word) (s : State) :
    (inspectAt v sf s).ce = s.ce := by unfold inspectAt; split <;> rfl
@[simp] theorem inspectAt_iu (v sf : Word) (s : State) :
    (inspectAt v sf s).iu = s.iu := by unfold inspectAt; split <;> rfl
@[simp] theorem inspectAt_held (v sf : Word) (s : State) :
    (inspectAt v sf s).held = s.held := by unfold inspectAt; split <;> rfl
@[simp] theorem inspectAt_freeDraws (v sf : Word) (s : State) :
    (inspectAt v sf s).freeDraws = s.freeDraws := by unfold inspectAt; split <;> rfl
@[simp] theorem inspectAt_pending (v sf : Word) (s : State) :
    (inspectAt v sf s).pending = s.pending := by unfold inspectAt; split <;> rfl
@[simp] theorem inspectAt_inReset (v sf : Word) (s : State) :
    (inspectAt v sf s).inReset = s.inReset := by unfold inspectAt; split <;> rfl
@[simp] theorem inspectAt_activeEntry (v sf : Word) (s : State) (i : Nat) :
    (inspectAt v sf s).activeEntry i = s.activeEntry i := by unfold inspectAt; split <;> rfl
@[simp] theorem inspectAt_effective (v sf : Word) (s : State) (i : Nat) :
    (inspectAt v sf s).effective i = s.effective i := by unfold inspectAt; split <;> rfl
@[simp] theorem inspectAt_engine (v sf : Word) (s : State) (i : Nat) :
    (inspectAt v sf s).engine i = s.engine i := by unfold inspectAt; split <;> rfl
@[simp] theorem inspectAt_jcnt (v sf : Word) (s : State) :
    (inspectAt v sf s).jcnt = s.jcnt := by unfold inspectAt; split <;> rfl

/-! ### completeFrames -/

@[simp] theorem completeFrames_fcnt (s : State) : (completeFrames s).fcnt = s.fcnt := rfl
@[simp] theorem completeFrames_oa (s : State) : (completeFrames s).oa = s.oa := rfl
@[simp] theorem completeFrames_cm (s : State) : (completeFrames s).cm = s.cm := rfl
@[simp] theorem completeFrames_cj (s : State) : (completeFrames s).cj = s.cj := rfl
@[simp] theorem completeFrames_sau (s : State) : (completeFrames s).sau = s.sau := rfl
@[simp] theorem completeFrames_sv (s : State) : (completeFrames s).sv = s.sv := rfl
@[simp] theorem completeFrames_hold (s : State) : (completeFrames s).hold = s.hold := rfl
@[simp] theorem completeFrames_te (s : State) : (completeFrames s).te = s.te := rfl
@[simp] theorem completeFrames_rq (s : State) : (completeFrames s).rq = s.rq := rfl
@[simp] theorem completeFrames_ce (s : State) : (completeFrames s).ce = s.ce := rfl
@[simp] theorem completeFrames_iu (s : State) : (completeFrames s).iu = s.iu := rfl
@[simp] theorem completeFrames_biu (s : State) : (completeFrames s).biu = s.biu := rfl
@[simp] theorem completeFrames_pins (s : State) : (completeFrames s).pins = s.pins := rfl
@[simp] theorem completeFrames_held (s : State) : (completeFrames s).held = s.held := rfl
@[simp] theorem completeFrames_freeDraws (s : State) : (completeFrames s).freeDraws = s.freeDraws := rfl
@[simp] theorem completeFrames_pending (s : State) : (completeFrames s).pending = s.pending := rfl
@[simp] theorem completeFrames_inReset (s : State) : (completeFrames s).inReset = s.inReset := rfl
@[simp] theorem completeFrames_activeEntry (s : State) (i : Nat) :
    (completeFrames s).activeEntry i = s.activeEntry i := rfl
@[simp] theorem completeFrames_effective (s : State) (i : Nat) : (completeFrames s).effective i = s.effective i := rfl
@[simp] theorem completeFrames_engine (s : State) (i : Nat) : (completeFrames s).engine i = s.engine i := rfl
@[simp] theorem completeFrames_jcnt (s : State) : (completeFrames s).jcnt = s.jcnt := rfl
@[simp] theorem completeFrames_rfm_receiving (s : State) : (completeFrames s).rfm.receiving = s.rfm.receiving := rfl
@[simp] theorem completeFrames_rfm_completed (s : State) : (completeFrames s).rfm.completed = s.rfm.receiving := rfl
@[simp] theorem completeFrames_rfm_captured (s : State) : (completeFrames s).rfm.captured = .replicate 4 0 := rfl

/-! ### takeIdleCode -/

@[simp] theorem takeIdleCode_fcnt (s : State) : (takeIdleCode s).fcnt = s.fcnt := rfl
@[simp] theorem takeIdleCode_rfm (s : State) : (takeIdleCode s).rfm = s.rfm := rfl
@[simp] theorem takeIdleCode_cm (s : State) : (takeIdleCode s).cm = s.cm := rfl
@[simp] theorem takeIdleCode_cj (s : State) : (takeIdleCode s).cj = s.cj := rfl
@[simp] theorem takeIdleCode_sau (s : State) : (takeIdleCode s).sau = s.sau := rfl
@[simp] theorem takeIdleCode_sv (s : State) : (takeIdleCode s).sv = s.sv := rfl
@[simp] theorem takeIdleCode_hold (s : State) : (takeIdleCode s).hold = s.hold := rfl
@[simp] theorem takeIdleCode_te (s : State) : (takeIdleCode s).te = s.te := rfl
@[simp] theorem takeIdleCode_rq (s : State) : (takeIdleCode s).rq = s.rq := rfl
@[simp] theorem takeIdleCode_ce (s : State) : (takeIdleCode s).ce = s.ce := rfl
@[simp] theorem takeIdleCode_iu (s : State) : (takeIdleCode s).iu = s.iu := rfl
@[simp] theorem takeIdleCode_biu (s : State) : (takeIdleCode s).biu = s.biu := rfl
@[simp] theorem takeIdleCode_pins (s : State) : (takeIdleCode s).pins = s.pins := rfl
@[simp] theorem takeIdleCode_held (s : State) : (takeIdleCode s).held = s.held := rfl
@[simp] theorem takeIdleCode_freeDraws (s : State) : (takeIdleCode s).freeDraws = s.freeDraws := rfl
@[simp] theorem takeIdleCode_pending (s : State) : (takeIdleCode s).pending = s.pending := rfl
@[simp] theorem takeIdleCode_inReset (s : State) : (takeIdleCode s).inReset = s.inReset := rfl
@[simp] theorem takeIdleCode_activeEntry (s : State) (i : Nat) :
    (takeIdleCode s).activeEntry i = s.activeEntry i := rfl
@[simp] theorem takeIdleCode_effective (s : State) (i : Nat) : (takeIdleCode s).effective i = s.effective i := rfl
@[simp] theorem takeIdleCode_engine (s : State) (i : Nat) : (takeIdleCode s).engine i = s.engine i := rfl
@[simp] theorem takeIdleCode_jcnt (s : State) : (takeIdleCode s).jcnt = s.jcnt := rfl
@[simp] theorem takeIdleCode_oa_idlec (s : State) : (takeIdleCode s).oa.idlec = s.oa.idlec := rfl
@[simp] theorem takeIdleCode_oa_idleInForce (s : State) : (takeIdleCode s).oa.idleInForce = s.oa.idlec := rfl

/-! ### updateHold -/

@[simp] theorem updateHold_fcnt (cut : Bool) (s : State) : (updateHold cut s).fcnt = s.fcnt := rfl
@[simp] theorem updateHold_rfm (cut : Bool) (s : State) : (updateHold cut s).rfm = s.rfm := rfl
@[simp] theorem updateHold_oa (cut : Bool) (s : State) : (updateHold cut s).oa = s.oa := rfl
@[simp] theorem updateHold_cm (cut : Bool) (s : State) : (updateHold cut s).cm = s.cm := rfl
@[simp] theorem updateHold_cj (cut : Bool) (s : State) : (updateHold cut s).cj = s.cj := rfl
@[simp] theorem updateHold_sau (cut : Bool) (s : State) : (updateHold cut s).sau = s.sau := rfl
@[simp] theorem updateHold_sv (cut : Bool) (s : State) : (updateHold cut s).sv = s.sv := rfl
@[simp] theorem updateHold_te (cut : Bool) (s : State) : (updateHold cut s).te = s.te := rfl
@[simp] theorem updateHold_rq (cut : Bool) (s : State) : (updateHold cut s).rq = s.rq := rfl
@[simp] theorem updateHold_ce (cut : Bool) (s : State) : (updateHold cut s).ce = s.ce := rfl
@[simp] theorem updateHold_iu (cut : Bool) (s : State) : (updateHold cut s).iu = s.iu := rfl
@[simp] theorem updateHold_biu (cut : Bool) (s : State) : (updateHold cut s).biu = s.biu := rfl
@[simp] theorem updateHold_pins (cut : Bool) (s : State) : (updateHold cut s).pins = s.pins := rfl
@[simp] theorem updateHold_held (cut : Bool) (s : State) : (updateHold cut s).held = s.held := rfl
@[simp] theorem updateHold_freeDraws (cut : Bool) (s : State) : (updateHold cut s).freeDraws = s.freeDraws := rfl
@[simp] theorem updateHold_pending (cut : Bool) (s : State) : (updateHold cut s).pending = s.pending := rfl
@[simp] theorem updateHold_inReset (cut : Bool) (s : State) : (updateHold cut s).inReset = s.inReset := rfl
@[simp] theorem updateHold_activeEntry (cut : Bool) (s : State) (i : Nat) :
    (updateHold cut s).activeEntry i = s.activeEntry i := rfl
@[simp] theorem updateHold_effective (cut : Bool) (s : State) (i : Nat) :
    (updateHold cut s).effective i = s.effective i := rfl
@[simp] theorem updateHold_engine (cut : Bool) (s : State) (i : Nat) : (updateHold cut s).engine i = s.engine i := rfl
@[simp] theorem updateHold_jcnt (cut : Bool) (s : State) : (updateHold cut s).jcnt = s.jcnt := rfl
@[simp] theorem updateHold_hold (cut : Bool) (s : State) :
    (updateHold cut s).hold = .tabulate 10 (heldByte s cut) := rfl

/-! ### beginFrame -/

@[simp] theorem beginFrame_rfm (e : FrameEvent) (s : State) : (beginFrame e s).rfm = s.rfm := rfl
@[simp] theorem beginFrame_oa (e : FrameEvent) (s : State) : (beginFrame e s).oa = s.oa := rfl
@[simp] theorem beginFrame_cm (e : FrameEvent) (s : State) : (beginFrame e s).cm = s.cm := rfl
@[simp] theorem beginFrame_cj (e : FrameEvent) (s : State) : (beginFrame e s).cj = s.cj := rfl
@[simp] theorem beginFrame_sau (e : FrameEvent) (s : State) : (beginFrame e s).sau = s.sau := rfl
@[simp] theorem beginFrame_sv (e : FrameEvent) (s : State) : (beginFrame e s).sv = s.sv := rfl
@[simp] theorem beginFrame_hold (e : FrameEvent) (s : State) : (beginFrame e s).hold = s.hold := rfl
@[simp] theorem beginFrame_te (e : FrameEvent) (s : State) : (beginFrame e s).te = s.te := rfl
@[simp] theorem beginFrame_rq (e : FrameEvent) (s : State) : (beginFrame e s).rq = s.rq := rfl
@[simp] theorem beginFrame_ce (e : FrameEvent) (s : State) : (beginFrame e s).ce = s.ce := rfl
@[simp] theorem beginFrame_iu (e : FrameEvent) (s : State) : (beginFrame e s).iu = s.iu := rfl
@[simp] theorem beginFrame_biu (e : FrameEvent) (s : State) : (beginFrame e s).biu = s.biu := rfl
@[simp] theorem beginFrame_held (e : FrameEvent) (s : State) : (beginFrame e s).held = s.held := rfl
@[simp] theorem beginFrame_freeDraws (e : FrameEvent) (s : State) : (beginFrame e s).freeDraws = s.freeDraws := rfl
@[simp] theorem beginFrame_pending (e : FrameEvent) (s : State) : (beginFrame e s).pending = s.pending := rfl
@[simp] theorem beginFrame_inReset (e : FrameEvent) (s : State) : (beginFrame e s).inReset = s.inReset := rfl
@[simp] theorem beginFrame_activeEntry (e : FrameEvent) (s : State) (i : Nat) :
    (beginFrame e s).activeEntry i = s.activeEntry i := rfl
@[simp] theorem beginFrame_effective (e : FrameEvent) (s : State) (i : Nat) :
    (beginFrame e s).effective i = s.effective i := rfl
@[simp] theorem beginFrame_engine (e : FrameEvent) (s : State) (i : Nat) :
    (beginFrame e s).engine i = s.engine i := rfl
@[simp] theorem beginFrame_jcnt (e : FrameEvent) (s : State) : (beginFrame e s).jcnt = s.jcnt := rfl
@[simp] theorem beginFrame_fcnt (e : FrameEvent) (s : State) : (beginFrame e s).fcnt = s.fcnt + 1 := rfl
@[simp] theorem beginFrame_pins (e : FrameEvent) (s : State) :
    (beginFrame e s).pins = { sf := e.sf, cstrobe := e.cstrobe } := rfl

/-! ### beginOutput -/

@[simp] theorem beginOutput_fcnt (s : State) : (beginOutput s).fcnt = s.fcnt := rfl
@[simp] theorem beginOutput_rfm (s : State) : (beginOutput s).rfm = s.rfm := rfl
@[simp] theorem beginOutput_cm (s : State) : (beginOutput s).cm = s.cm := rfl
@[simp] theorem beginOutput_cj (s : State) : (beginOutput s).cj = s.cj := rfl
@[simp] theorem beginOutput_sau (s : State) : (beginOutput s).sau = s.sau := rfl
@[simp] theorem beginOutput_sv (s : State) : (beginOutput s).sv = s.sv := rfl
@[simp] theorem beginOutput_hold (s : State) : (beginOutput s).hold = s.hold := rfl
@[simp] theorem beginOutput_te (s : State) : (beginOutput s).te = s.te := rfl
@[simp] theorem beginOutput_rq (s : State) : (beginOutput s).rq = s.rq := rfl
@[simp] theorem beginOutput_ce (s : State) : (beginOutput s).ce = s.ce := rfl
@[simp] theorem beginOutput_iu (s : State) : (beginOutput s).iu = s.iu := rfl
@[simp] theorem beginOutput_biu (s : State) : (beginOutput s).biu = s.biu := rfl
@[simp] theorem beginOutput_pins (s : State) : (beginOutput s).pins = s.pins := rfl
@[simp] theorem beginOutput_held (s : State) : (beginOutput s).held = s.held := rfl
@[simp] theorem beginOutput_freeDraws (s : State) : (beginOutput s).freeDraws = s.freeDraws := rfl
@[simp] theorem beginOutput_pending (s : State) : (beginOutput s).pending = s.pending := rfl
@[simp] theorem beginOutput_inReset (s : State) : (beginOutput s).inReset = s.inReset := rfl
@[simp] theorem beginOutput_activeEntry (s : State) (i : Nat) : (beginOutput s).activeEntry i = s.activeEntry i := rfl
@[simp] theorem beginOutput_effective (s : State) (i : Nat) : (beginOutput s).effective i = s.effective i := rfl
@[simp] theorem beginOutput_engine (s : State) (i : Nat) : (beginOutput s).engine i = s.engine i := rfl
@[simp] theorem beginOutput_jcnt (s : State) : (beginOutput s).jcnt = s.jcnt := rfl
@[simp] theorem beginOutput_oa_idlec (s : State) : (beginOutput s).oa.idlec = s.oa.idlec := rfl
@[simp] theorem beginOutput_oa_idleInForce (s : State) : (beginOutput s).oa.idleInForce = s.oa.idleInForce := rfl
@[simp] theorem beginOutput_oa_inProgress (s : State) : (beginOutput s).oa.inProgress = true := rfl

/-! ### applyCommit -/

@[simp] theorem applyCommit_fcnt (s : State) : (applyCommit s).fcnt = s.fcnt := rfl
@[simp] theorem applyCommit_rfm (s : State) : (applyCommit s).rfm = s.rfm := rfl
@[simp] theorem applyCommit_oa (s : State) : (applyCommit s).oa = s.oa := rfl
@[simp] theorem applyCommit_sv (s : State) : (applyCommit s).sv = s.sv := rfl
@[simp] theorem applyCommit_te (s : State) : (applyCommit s).te = s.te := rfl
@[simp] theorem applyCommit_rq (s : State) : (applyCommit s).rq = s.rq := rfl
@[simp] theorem applyCommit_ce (s : State) : (applyCommit s).ce = s.ce := rfl
@[simp] theorem applyCommit_biu (s : State) : (applyCommit s).biu = s.biu := rfl
@[simp] theorem applyCommit_pins (s : State) : (applyCommit s).pins = s.pins := rfl
@[simp] theorem applyCommit_held (s : State) : (applyCommit s).held = s.held := rfl
@[simp] theorem applyCommit_freeDraws (s : State) : (applyCommit s).freeDraws = s.freeDraws := rfl
@[simp] theorem applyCommit_pending (s : State) : (applyCommit s).pending = s.pending := rfl
@[simp] theorem applyCommit_inReset (s : State) : (applyCommit s).inReset = s.inReset := rfl
@[simp] theorem applyCommit_engine (s : State) (i : Nat) : (applyCommit s).engine i = s.engine i := rfl
@[simp] theorem applyCommit_cm_fanout (s : State) : (applyCommit s).cm.fanout = s.cm.fanout := rfl
@[simp] theorem applyCommit_cm_folim (s : State) : (applyCommit s).cm.folim = s.cm.folim := rfl
@[simp] theorem applyCommit_cj (s : State) :
    (applyCommit s).cj = { journal := [], commit := none, cseq := s.cj.cseq + 1, lcf := s.fcnt } := rfl

/-- An engine after one engine is replaced. -/
theorem engine_setEngine (s : State) (n m : Nat) (e : Engine) :
    (s.setEngine n e).engine m = if n % 4 = m % 4 then e else s.engine m :=
  Table.get_set s.te.engines e n m

/-- A record after one record is replaced. -/
theorem recs_setRec (s : State) (r q : Nat) (x : Reservation) :
    (s.setRec r x).sau.recs.get q = if r % 32 = q % 32 then x else s.sau.recs.get q :=
  Table.get_set s.sau.recs x r q

/-- A flag after an event. -/
theorem flag_raise (s : State) (k j : Nat) :
    (raise k s).flag j = (s.flag j || (decide (k = j) && decide (k < 26))) := by
  unfold State.flag
  rw [raise_iu_flags]
  simp only [BitVec.getLsbD_or, BitVec.getLsbD_shiftLeft, BitVec.getLsbD_one]
  rcases Nat.lt_trichotomy k j with h | h | h
  · have h1 : ¬j < k := by omega
    have h2 : j - k ≠ 0 := by omega
    have h3 : k ≠ j := by omega
    simp [h1, h2, h3]
  · subst h
    simp
  · have h3 : k ≠ j := by omega
    simp [h, h3]

/-- `raiseIf` is `raise` or nothing. -/
theorem raiseIf_cases (b : Bool) (k : Nat) (s : State) :
    (b = true ∧ raiseIf b k s = raise k s) ∨ (b = false ∧ raiseIf b k s = s) := by
  cases b
  · exact Or.inr ⟨rfl, rfl⟩
  · exact Or.inl ⟨rfl, rfl⟩

@[simp] theorem raiseIf_fcnt (b : Bool) (k : Nat) (s : State) : (raiseIf b k s).fcnt = s.fcnt := by cases b <;> rfl
@[simp] theorem raiseIf_rfm (b : Bool) (k : Nat) (s : State) : (raiseIf b k s).rfm = s.rfm := by cases b <;> rfl
@[simp] theorem raiseIf_oa (b : Bool) (k : Nat) (s : State) : (raiseIf b k s).oa = s.oa := by cases b <;> rfl
@[simp] theorem raiseIf_cm (b : Bool) (k : Nat) (s : State) : (raiseIf b k s).cm = s.cm := by cases b <;> rfl
@[simp] theorem raiseIf_cj (b : Bool) (k : Nat) (s : State) : (raiseIf b k s).cj = s.cj := by cases b <;> rfl
@[simp] theorem raiseIf_sau (b : Bool) (k : Nat) (s : State) : (raiseIf b k s).sau = s.sau := by cases b <;> rfl
@[simp] theorem raiseIf_sv (b : Bool) (k : Nat) (s : State) : (raiseIf b k s).sv = s.sv := by cases b <;> rfl
@[simp] theorem raiseIf_hold (b : Bool) (k : Nat) (s : State) : (raiseIf b k s).hold = s.hold := by cases b <;> rfl
@[simp] theorem raiseIf_te (b : Bool) (k : Nat) (s : State) : (raiseIf b k s).te = s.te := by cases b <;> rfl
@[simp] theorem raiseIf_rq (b : Bool) (k : Nat) (s : State) : (raiseIf b k s).rq = s.rq := by cases b <;> rfl
@[simp] theorem raiseIf_ce (b : Bool) (k : Nat) (s : State) : (raiseIf b k s).ce = s.ce := by cases b <;> rfl
@[simp] theorem raiseIf_biu (b : Bool) (k : Nat) (s : State) : (raiseIf b k s).biu = s.biu := by cases b <;> rfl
@[simp] theorem raiseIf_pins (b : Bool) (k : Nat) (s : State) : (raiseIf b k s).pins = s.pins := by cases b <;> rfl
@[simp] theorem raiseIf_held (b : Bool) (k : Nat) (s : State) : (raiseIf b k s).held = s.held := by cases b <;> rfl
@[simp] theorem raiseIf_freeDraws (b : Bool) (k : Nat) (s : State) :
    (raiseIf b k s).freeDraws = s.freeDraws := by cases b <;> rfl
@[simp] theorem raiseIf_pending (b : Bool) (k : Nat) (s : State) :
    (raiseIf b k s).pending = s.pending := by cases b <;> rfl
@[simp] theorem raiseIf_iu_masks (b : Bool) (k : Nat) (s : State) :
    (raiseIf b k s).iu.masks = s.iu.masks := by cases b <;> rfl
@[simp] theorem raiseIf_iu_levels (b : Bool) (k : Nat) (s : State) :
    (raiseIf b k s).iu.levels = s.iu.levels := by cases b <;> rfl
@[simp] theorem raiseIf_iu_ithr (b : Bool) (k : Nat) (s : State) :
    (raiseIf b k s).iu.ithr = s.iu.ithr := by cases b <;> rfl

theorem flag_raiseIf (b : Bool) (s : State) (k j : Nat) :
    (raiseIf b k s).flag j = (s.flag j || (b && decide (k = j) && decide (k < 26))) := by
  cases b
  · simp [raiseIf]
  · simpa [raiseIf] using flag_raise s k j

/-- A completion is the completion step of R149. -/
theorem complete_eq_answered (c : Completion) (r0 r1 r2 r3 : Word) (s : State) :
    complete c r0 r1 r2 r3 s = s.answered c r0 r1 r2 r3 := rfl

end Sys2Proof.Machine
end

