-- ==== Sys2Proof/Laws/Ops.lean ====
section
/-! SUPPORT. What the shared operations can do: events, completions, slots. -/

namespace Sys2Proof.Machine

/-! ### Events -/

theorem taken_of_running {s : State} (h : s.inReset = false) (f : State → State) : taken s f = .next (f s) := by
  simp [taken, h]

theorem taken_of_held {s : State} (h : s.inReset = true) (f : State → State) : taken s f = .next s := by
  simp [taken, h]

/-- An event answers a next state in every state, with its effect or with none. -/
theorem taken_cases (s : State) (f : State → State) :
    (s.inReset = false ∧ taken s f = .next (f s)) ∨ (s.inReset = true ∧ taken s f = .next s) := by
  cases h : s.inReset
  · exact Or.inl ⟨rfl, taken_of_running h f⟩
  · exact Or.inr ⟨rfl, taken_of_held h f⟩

theorem taken_eq_next {s t : State} {f : State → State} (h : taken s f = .next t) :
    (s.inReset = false ∧ t = f s) ∨ (s.inReset = true ∧ t = s) := by
  rcases taken_cases s f with ⟨h1, h2⟩ | ⟨h1, h2⟩ <;> rw [h2] at h <;> cases h
  · exact Or.inl ⟨h1, rfl⟩
  · exact Or.inr ⟨h1, rfl⟩

/-! ### Completions -/

theorem completion_of_commanded {s : State} {code : Byte} {p : Params} (h : s.Commanded code p)
    (f : Params → State → State) : completion code s f = .next (f p s) := by
  obtain ⟨h1, h2⟩ := h
  simp [completion, taken, h1, h2]

theorem completion_of_not_commanded {s : State} {code : Byte} (h : ∀ p, ¬s.Commanded code p)
    (f : Params → State → State) : completion code s f = .next s := by
  cases hr : s.inReset with
  | true => exact taken_of_held hr _
  | false =>
    cases hb : s.ce.busy with
    | none => simp [completion, taken, hb]
    | some c =>
      have hc : c.code ≠ code := fun hc => h c.params ⟨hr, by rw [hb, ← hc]⟩
      simp [completion, taken, hb, hc]

/-- Everything that a completion can do. -/
theorem completion_cases {s t : State} {code : Byte} {f : Params → State → State} (h : completion code s f = .next t) :
    (∃ p, s.Commanded code p ∧ t = f p s) ∨ ((∀ p, ¬s.Commanded code p) ∧ t = s) := by
  by_cases hc : ∃ p, s.Commanded code p
  · obtain ⟨p, hp⟩ := hc
    rw [completion_of_commanded hp] at h
    cases h
    exact Or.inl ⟨p, hp, rfl⟩
  · have hc' : ∀ p, ¬s.Commanded code p := fun p hp => hc ⟨p, hp⟩
    rw [completion_of_not_commanded hc'] at h
    cases h
    exact Or.inr ⟨hc', rfl⟩

/-- A commanded code determines its parameters. -/
theorem Commanded_unique {s : State} {c c' : Byte} {p p' : Params} (h : s.Commanded c p) (h' : s.Commanded c' p') :
    c = c' ∧ p = p' := by
  have := h.2.symm.trans h'.2
  simpa using this

/-! ### Slots -/

theorem flat_lt {stream slot : Nat} (h : stream < 16) (h' : slot < 64) : flat stream slot < 1024 := by
  unfold flat
  omega

theorem streamOf_flat {stream slot : Nat} (h : slot < 64) : streamOf (flat stream slot) = stream := by
  unfold streamOf flat
  omega

theorem slotOf_flat {stream slot : Nat} (h : slot < 64) : slotOf (flat stream slot) = slot := by
  unfold slotOf flat
  omega

theorem flat_streamOf_slotOf (i : Nat) : flat (streamOf i) (slotOf i) = i := by
  unfold flat streamOf slotOf
  omega

/-- The search for the lowest slot fails when no slot satisfies the test. -/
theorem lowestSlot_eq_none (p : Nat → Bool) : lowestSlot p = none ↔ ∀ i < 1024, p i = false := by
  unfold lowestSlot
  simp only [List.findSome?_eq_none_iff, List.mem_range, Option.map_eq_none_iff, List.find?_eq_none, Bool.not_eq_true]
  constructor
  · intro h i hi
    have := h (streamOf i) (by unfold streamOf; omega) (slotOf i) (by unfold slotOf; omega)
    rwa [flat_streamOf_slotOf] at this
  · intro h st hst t ht
    exact h _ (flat_lt hst ht)

/-- A slot that the search finds satisfies the test. -/
theorem lowestSlot_some {p : Nat → Bool} {i : Nat} (h : lowestSlot p = some i) : i < 1024 ∧ p i = true := by
  unfold lowestSlot at h
  obtain ⟨st, hst, h2⟩ := List.exists_of_findSome?_eq_some h
  rw [Option.map_eq_some_iff] at h2
  obtain ⟨t, ht, rfl⟩ := h2
  have hp := List.find?_some (p := fun t => p (flat st t)) ht
  exact ⟨flat_lt (List.mem_range.1 hst) (List.mem_range.1 (List.mem_of_find?_eq_some ht)), hp⟩

end Sys2Proof.Machine
end

