-- ==== Sys2Proof/Laws/Frames.lean ====
section
/-! SUPPORT. What each part of a frame start leaves alone. -/

namespace Sys2Proof.Machine

/-- What every step of a fold keeps, the fold keeps. -/
theorem foldl_keeps {β : Type} (g : State → β) (f : State → Nat → State) (h : ∀ s n, g (f s n) = g s) :
    ∀ (l : List Nat) (s : State), g (l.foldl f s) = g s := by
  intro l
  induction l with
  | nil => exact fun _ => rfl
  | cons n l ih => exact fun s => (ih (f s n)).trans (h s n)

@[simp] theorem raiseStreams_fcnt (p : Nat → Bool) (s : State) : (raiseStreams p s).fcnt = s.fcnt :=
  foldl_keeps (·.fcnt) _ (fun s i => raiseIf_fcnt (p i) (srcStreamChange i) s) _ s

@[simp] theorem raiseStreams_rfm (p : Nat → Bool) (s : State) : (raiseStreams p s).rfm = s.rfm :=
  foldl_keeps (·.rfm) _ (fun s i => raiseIf_rfm (p i) (srcStreamChange i) s) _ s

@[simp] theorem raiseStreams_oa (p : Nat → Bool) (s : State) : (raiseStreams p s).oa = s.oa :=
  foldl_keeps (·.oa) _ (fun s i => raiseIf_oa (p i) (srcStreamChange i) s) _ s

@[simp] theorem raiseStreams_cm (p : Nat → Bool) (s : State) : (raiseStreams p s).cm = s.cm :=
  foldl_keeps (·.cm) _ (fun s i => raiseIf_cm (p i) (srcStreamChange i) s) _ s

@[simp] theorem raiseStreams_cj (p : Nat → Bool) (s : State) : (raiseStreams p s).cj = s.cj :=
  foldl_keeps (·.cj) _ (fun s i => raiseIf_cj (p i) (srcStreamChange i) s) _ s

@[simp] theorem raiseStreams_sau (p : Nat → Bool) (s : State) : (raiseStreams p s).sau = s.sau :=
  foldl_keeps (·.sau) _ (fun s i => raiseIf_sau (p i) (srcStreamChange i) s) _ s

@[simp] theorem raiseStreams_sv (p : Nat → Bool) (s : State) : (raiseStreams p s).sv = s.sv :=
  foldl_keeps (·.sv) _ (fun s i => raiseIf_sv (p i) (srcStreamChange i) s) _ s

@[simp] theorem raiseStreams_hold (p : Nat → Bool) (s : State) : (raiseStreams p s).hold = s.hold :=
  foldl_keeps (·.hold) _ (fun s i => raiseIf_hold (p i) (srcStreamChange i) s) _ s

@[simp] theorem raiseStreams_te (p : Nat → Bool) (s : State) : (raiseStreams p s).te = s.te :=
  foldl_keeps (·.te) _ (fun s i => raiseIf_te (p i) (srcStreamChange i) s) _ s

@[simp] theorem raiseStreams_rq (p : Nat → Bool) (s : State) : (raiseStreams p s).rq = s.rq :=
  foldl_keeps (·.rq) _ (fun s i => raiseIf_rq (p i) (srcStreamChange i) s) _ s

@[simp] theorem raiseStreams_ce (p : Nat → Bool) (s : State) : (raiseStreams p s).ce = s.ce :=
  foldl_keeps (·.ce) _ (fun s i => raiseIf_ce (p i) (srcStreamChange i) s) _ s

@[simp] theorem raiseStreams_biu (p : Nat → Bool) (s : State) : (raiseStreams p s).biu = s.biu :=
  foldl_keeps (·.biu) _ (fun s i => raiseIf_biu (p i) (srcStreamChange i) s) _ s

@[simp] theorem raiseStreams_pins (p : Nat → Bool) (s : State) : (raiseStreams p s).pins = s.pins :=
  foldl_keeps (·.pins) _ (fun s i => raiseIf_pins (p i) (srcStreamChange i) s) _ s

@[simp] theorem raiseStreams_held (p : Nat → Bool) (s : State) : (raiseStreams p s).held = s.held :=
  foldl_keeps (·.held) _ (fun s i => raiseIf_held (p i) (srcStreamChange i) s) _ s

@[simp] theorem raiseStreams_freeDraws (p : Nat → Bool) (s : State) :
    (raiseStreams p s).freeDraws = s.freeDraws :=
  foldl_keeps (·.freeDraws) _ (fun s i => raiseIf_freeDraws (p i) (srcStreamChange i) s) _ s

@[simp] theorem raiseStreams_pending (p : Nat → Bool) (s : State) : (raiseStreams p s).pending = s.pending :=
  foldl_keeps (·.pending) _ (fun s i => raiseIf_pending (p i) (srcStreamChange i) s) _ s

@[simp] theorem raiseStreams_iu_masks (p : Nat → Bool) (s : State) :
    (raiseStreams p s).iu.masks = s.iu.masks :=
  foldl_keeps (·.iu.masks) _ (fun s i => raiseIf_iu_masks (p i) (srcStreamChange i) s) _ s

@[simp] theorem raiseStreams_iu_levels (p : Nat → Bool) (s : State) :
    (raiseStreams p s).iu.levels = s.iu.levels :=
  foldl_keeps (·.iu.levels) _ (fun s i => raiseIf_iu_levels (p i) (srcStreamChange i) s) _ s

@[simp] theorem raiseStreams_iu_ithr (p : Nat → Bool) (s : State) : (raiseStreams p s).iu.ithr = s.iu.ithr :=
  foldl_keeps (·.iu.ithr) _ (fun s i => raiseIf_iu_ithr (p i) (srcStreamChange i) s) _ s

@[simp] theorem raiseSyncs_fcnt (p : Nat → Bool) (s : State) : (raiseSyncs p s).fcnt = s.fcnt :=
  foldl_keeps (·.fcnt) _ (fun s n => raiseIf_fcnt (p n) (srcSyncChange n) s) _ s

@[simp] theorem raiseSyncs_rfm (p : Nat → Bool) (s : State) : (raiseSyncs p s).rfm = s.rfm :=
  foldl_keeps (·.rfm) _ (fun s n => raiseIf_rfm (p n) (srcSyncChange n) s) _ s

@[simp] theorem raiseSyncs_oa (p : Nat → Bool) (s : State) : (raiseSyncs p s).oa = s.oa :=
  foldl_keeps (·.oa) _ (fun s n => raiseIf_oa (p n) (srcSyncChange n) s) _ s

@[simp] theorem raiseSyncs_cm (p : Nat → Bool) (s : State) : (raiseSyncs p s).cm = s.cm :=
  foldl_keeps (·.cm) _ (fun s n => raiseIf_cm (p n) (srcSyncChange n) s) _ s

@[simp] theorem raiseSyncs_cj (p : Nat → Bool) (s : State) : (raiseSyncs p s).cj = s.cj :=
  foldl_keeps (·.cj) _ (fun s n => raiseIf_cj (p n) (srcSyncChange n) s) _ s

@[simp] theorem raiseSyncs_sau (p : Nat → Bool) (s : State) : (raiseSyncs p s).sau = s.sau :=
  foldl_keeps (·.sau) _ (fun s n => raiseIf_sau (p n) (srcSyncChange n) s) _ s

@[simp] theorem raiseSyncs_sv (p : Nat → Bool) (s : State) : (raiseSyncs p s).sv = s.sv :=
  foldl_keeps (·.sv) _ (fun s n => raiseIf_sv (p n) (srcSyncChange n) s) _ s

@[simp] theorem raiseSyncs_hold (p : Nat → Bool) (s : State) : (raiseSyncs p s).hold = s.hold :=
  foldl_keeps (·.hold) _ (fun s n => raiseIf_hold (p n) (srcSyncChange n) s) _ s

@[simp] theorem raiseSyncs_te (p : Nat → Bool) (s : State) : (raiseSyncs p s).te = s.te :=
  foldl_keeps (·.te) _ (fun s n => raiseIf_te (p n) (srcSyncChange n) s) _ s

@[simp] theorem raiseSyncs_rq (p : Nat → Bool) (s : State) : (raiseSyncs p s).rq = s.rq :=
  foldl_keeps (·.rq) _ (fun s n => raiseIf_rq (p n) (srcSyncChange n) s) _ s

@[simp] theorem raiseSyncs_ce (p : Nat → Bool) (s : State) : (raiseSyncs p s).ce = s.ce :=
  foldl_keeps (·.ce) _ (fun s n => raiseIf_ce (p n) (srcSyncChange n) s) _ s

@[simp] theorem raiseSyncs_biu (p : Nat → Bool) (s : State) : (raiseSyncs p s).biu = s.biu :=
  foldl_keeps (·.biu) _ (fun s n => raiseIf_biu (p n) (srcSyncChange n) s) _ s

@[simp] theorem raiseSyncs_pins (p : Nat → Bool) (s : State) : (raiseSyncs p s).pins = s.pins :=
  foldl_keeps (·.pins) _ (fun s n => raiseIf_pins (p n) (srcSyncChange n) s) _ s

@[simp] theorem raiseSyncs_held (p : Nat → Bool) (s : State) : (raiseSyncs p s).held = s.held :=
  foldl_keeps (·.held) _ (fun s n => raiseIf_held (p n) (srcSyncChange n) s) _ s

@[simp] theorem raiseSyncs_freeDraws (p : Nat → Bool) (s : State) :
    (raiseSyncs p s).freeDraws = s.freeDraws :=
  foldl_keeps (·.freeDraws) _ (fun s n => raiseIf_freeDraws (p n) (srcSyncChange n) s) _ s

@[simp] theorem raiseSyncs_pending (p : Nat → Bool) (s : State) : (raiseSyncs p s).pending = s.pending :=
  foldl_keeps (·.pending) _ (fun s n => raiseIf_pending (p n) (srcSyncChange n) s) _ s

@[simp] theorem raiseSyncs_iu_masks (p : Nat → Bool) (s : State) : (raiseSyncs p s).iu.masks = s.iu.masks :=
  foldl_keeps (·.iu.masks) _ (fun s n => raiseIf_iu_masks (p n) (srcSyncChange n) s) _ s

@[simp] theorem raiseSyncs_iu_levels (p : Nat → Bool) (s : State) :
    (raiseSyncs p s).iu.levels = s.iu.levels :=
  foldl_keeps (·.iu.levels) _ (fun s n => raiseIf_iu_levels (p n) (srcSyncChange n) s) _ s

@[simp] theorem raiseSyncs_iu_ithr (p : Nat → Bool) (s : State) : (raiseSyncs p s).iu.ithr = s.iu.ithr :=
  foldl_keeps (·.iu.ithr) _ (fun s n => raiseIf_iu_ithr (p n) (srcSyncChange n) s) _ s

@[simp] theorem endRun_fcnt (n : Nat) (o : RunOutcome) (s : State) : (endRun n o s).fcnt = s.fcnt :=
  by
  unfold endRun
  split
  · split <;> rfl
  · rfl

@[simp] theorem endRun_rfm (n : Nat) (o : RunOutcome) (s : State) : (endRun n o s).rfm = s.rfm :=
  by
  unfold endRun
  split
  · split <;> rfl
  · rfl

@[simp] theorem endRun_oa (n : Nat) (o : RunOutcome) (s : State) : (endRun n o s).oa = s.oa :=
  by
  unfold endRun
  split
  · split <;> rfl
  · rfl

@[simp] theorem endRun_cm (n : Nat) (o : RunOutcome) (s : State) : (endRun n o s).cm = s.cm :=
  by
  unfold endRun
  split
  · split <;> rfl
  · rfl

@[simp] theorem endRun_cj (n : Nat) (o : RunOutcome) (s : State) : (endRun n o s).cj = s.cj :=
  by
  unfold endRun
  split
  · split <;> rfl
  · rfl

@[simp] theorem endRun_sau (n : Nat) (o : RunOutcome) (s : State) : (endRun n o s).sau = s.sau :=
  by
  unfold endRun
  split
  · split <;> rfl
  · rfl

@[simp] theorem endRun_sv (n : Nat) (o : RunOutcome) (s : State) : (endRun n o s).sv = s.sv :=
  by
  unfold endRun
  split
  · split <;> rfl
  · rfl

@[simp] theorem endRun_hold (n : Nat) (o : RunOutcome) (s : State) : (endRun n o s).hold = s.hold :=
  by
  unfold endRun
  split
  · split <;> rfl
  · rfl

@[simp] theorem endRun_ce (n : Nat) (o : RunOutcome) (s : State) : (endRun n o s).ce = s.ce :=
  by
  unfold endRun
  split
  · split <;> rfl
  · rfl

@[simp] theorem endRun_biu (n : Nat) (o : RunOutcome) (s : State) : (endRun n o s).biu = s.biu :=
  by
  unfold endRun
  split
  · split <;> rfl
  · rfl

@[simp] theorem endRun_pins (n : Nat) (o : RunOutcome) (s : State) : (endRun n o s).pins = s.pins :=
  by
  unfold endRun
  split
  · split <;> rfl
  · rfl

@[simp] theorem endRun_held (n : Nat) (o : RunOutcome) (s : State) : (endRun n o s).held = s.held :=
  by
  unfold endRun
  split
  · split <;> rfl
  · rfl

@[simp] theorem endRun_freeDraws (n : Nat) (o : RunOutcome) (s : State) :
    (endRun n o s).freeDraws = s.freeDraws :=
  by
  unfold endRun
  split
  · split <;> rfl
  · rfl

@[simp] theorem endRun_pending (n : Nat) (o : RunOutcome) (s : State) : (endRun n o s).pending = s.pending :=
  by
  unfold endRun
  split
  · split <;> rfl
  · rfl

@[simp] theorem endRun_iu_masks (n : Nat) (o : RunOutcome) (s : State) :
    (endRun n o s).iu.masks = s.iu.masks :=
  by
  unfold endRun
  split
  · split <;> rfl
  · rfl

@[simp] theorem endRun_iu_levels (n : Nat) (o : RunOutcome) (s : State) :
    (endRun n o s).iu.levels = s.iu.levels :=
  by
  unfold endRun
  split
  · split <;> rfl
  · rfl

@[simp] theorem endRun_iu_ithr (n : Nat) (o : RunOutcome) (s : State) : (endRun n o s).iu.ithr = s.iu.ithr :=
  by
  unfold endRun
  split
  · split <;> rfl
  · rfl

@[simp] theorem endRun_te_runCounter (n : Nat) (o : RunOutcome) (s : State) :
    (endRun n o s).te.runCounter = s.te.runCounter :=
  by
  unfold endRun
  split
  · split <;> rfl
  · rfl

@[simp] theorem endRunIf_fcnt (o : Option RunOutcome) (n : Nat) (s : State) :
    (endRunIf o n s).fcnt = s.fcnt :=
  by
  cases o
  · rfl
  · exact endRun_fcnt n _ s

@[simp] theorem endRunIf_rfm (o : Option RunOutcome) (n : Nat) (s : State) : (endRunIf o n s).rfm = s.rfm :=
  by
  cases o
  · rfl
  · exact endRun_rfm n _ s

@[simp] theorem endRunIf_oa (o : Option RunOutcome) (n : Nat) (s : State) : (endRunIf o n s).oa = s.oa :=
  by
  cases o
  · rfl
  · exact endRun_oa n _ s

@[simp] theorem endRunIf_cm (o : Option RunOutcome) (n : Nat) (s : State) : (endRunIf o n s).cm = s.cm :=
  by
  cases o
  · rfl
  · exact endRun_cm n _ s

@[simp] theorem endRunIf_cj (o : Option RunOutcome) (n : Nat) (s : State) : (endRunIf o n s).cj = s.cj :=
  by
  cases o
  · rfl
  · exact endRun_cj n _ s

@[simp] theorem endRunIf_sau (o : Option RunOutcome) (n : Nat) (s : State) : (endRunIf o n s).sau = s.sau :=
  by
  cases o
  · rfl
  · exact endRun_sau n _ s

@[simp] theorem endRunIf_sv (o : Option RunOutcome) (n : Nat) (s : State) : (endRunIf o n s).sv = s.sv :=
  by
  cases o
  · rfl
  · exact endRun_sv n _ s

@[simp] theorem endRunIf_hold (o : Option RunOutcome) (n : Nat) (s : State) :
    (endRunIf o n s).hold = s.hold :=
  by
  cases o
  · rfl
  · exact endRun_hold n _ s

@[simp] theorem endRunIf_ce (o : Option RunOutcome) (n : Nat) (s : State) : (endRunIf o n s).ce = s.ce :=
  by
  cases o
  · rfl
  · exact endRun_ce n _ s

@[simp] theorem endRunIf_biu (o : Option RunOutcome) (n : Nat) (s : State) : (endRunIf o n s).biu = s.biu :=
  by
  cases o
  · rfl
  · exact endRun_biu n _ s

@[simp] theorem endRunIf_pins (o : Option RunOutcome) (n : Nat) (s : State) :
    (endRunIf o n s).pins = s.pins :=
  by
  cases o
  · rfl
  · exact endRun_pins n _ s

@[simp] theorem endRunIf_held (o : Option RunOutcome) (n : Nat) (s : State) :
    (endRunIf o n s).held = s.held :=
  by
  cases o
  · rfl
  · exact endRun_held n _ s

@[simp] theorem endRunIf_freeDraws (o : Option RunOutcome) (n : Nat) (s : State) :
    (endRunIf o n s).freeDraws = s.freeDraws :=
  by
  cases o
  · rfl
  · exact endRun_freeDraws n _ s

@[simp] theorem endRunIf_pending (o : Option RunOutcome) (n : Nat) (s : State) :
    (endRunIf o n s).pending = s.pending :=
  by
  cases o
  · rfl
  · exact endRun_pending n _ s

@[simp] theorem endRunIf_iu_masks (o : Option RunOutcome) (n : Nat) (s : State) :
    (endRunIf o n s).iu.masks = s.iu.masks :=
  by
  cases o
  · rfl
  · exact endRun_iu_masks n _ s

@[simp] theorem endRunIf_iu_levels (o : Option RunOutcome) (n : Nat) (s : State) :
    (endRunIf o n s).iu.levels = s.iu.levels :=
  by
  cases o
  · rfl
  · exact endRun_iu_levels n _ s

@[simp] theorem endRunIf_iu_ithr (o : Option RunOutcome) (n : Nat) (s : State) :
    (endRunIf o n s).iu.ithr = s.iu.ithr :=
  by
  cases o
  · rfl
  · exact endRun_iu_ithr n _ s

@[simp] theorem endRunIf_te_runCounter (o : Option RunOutcome) (n : Nat) (s : State) :
    (endRunIf o n s).te.runCounter = s.te.runCounter :=
  by
  cases o
  · rfl
  · exact endRun_te_runCounter n _ s

@[simp] theorem endRuns_fcnt (o : Nat → Option RunOutcome) (s : State) : (endRuns o s).fcnt = s.fcnt :=
  foldl_keeps (·.fcnt) _ (fun s n => endRunIf_fcnt (o n) n s) _ s

@[simp] theorem endRuns_rfm (o : Nat → Option RunOutcome) (s : State) : (endRuns o s).rfm = s.rfm :=
  foldl_keeps (·.rfm) _ (fun s n => endRunIf_rfm (o n) n s) _ s

@[simp] theorem endRuns_oa (o : Nat → Option RunOutcome) (s : State) : (endRuns o s).oa = s.oa :=
  foldl_keeps (·.oa) _ (fun s n => endRunIf_oa (o n) n s) _ s

@[simp] theorem endRuns_cm (o : Nat → Option RunOutcome) (s : State) : (endRuns o s).cm = s.cm :=
  foldl_keeps (·.cm) _ (fun s n => endRunIf_cm (o n) n s) _ s

@[simp] theorem endRuns_cj (o : Nat → Option RunOutcome) (s : State) : (endRuns o s).cj = s.cj :=
  foldl_keeps (·.cj) _ (fun s n => endRunIf_cj (o n) n s) _ s

@[simp] theorem endRuns_sau (o : Nat → Option RunOutcome) (s : State) : (endRuns o s).sau = s.sau :=
  foldl_keeps (·.sau) _ (fun s n => endRunIf_sau (o n) n s) _ s

@[simp] theorem endRuns_sv (o : Nat → Option RunOutcome) (s : State) : (endRuns o s).sv = s.sv :=
  foldl_keeps (·.sv) _ (fun s n => endRunIf_sv (o n) n s) _ s

@[simp] theorem endRuns_hold (o : Nat → Option RunOutcome) (s : State) : (endRuns o s).hold = s.hold :=
  foldl_keeps (·.hold) _ (fun s n => endRunIf_hold (o n) n s) _ s

@[simp] theorem endRuns_ce (o : Nat → Option RunOutcome) (s : State) : (endRuns o s).ce = s.ce :=
  foldl_keeps (·.ce) _ (fun s n => endRunIf_ce (o n) n s) _ s

@[simp] theorem endRuns_biu (o : Nat → Option RunOutcome) (s : State) : (endRuns o s).biu = s.biu :=
  foldl_keeps (·.biu) _ (fun s n => endRunIf_biu (o n) n s) _ s

@[simp] theorem endRuns_pins (o : Nat → Option RunOutcome) (s : State) : (endRuns o s).pins = s.pins :=
  foldl_keeps (·.pins) _ (fun s n => endRunIf_pins (o n) n s) _ s

@[simp] theorem endRuns_held (o : Nat → Option RunOutcome) (s : State) : (endRuns o s).held = s.held :=
  foldl_keeps (·.held) _ (fun s n => endRunIf_held (o n) n s) _ s

@[simp] theorem endRuns_freeDraws (o : Nat → Option RunOutcome) (s : State) :
    (endRuns o s).freeDraws = s.freeDraws :=
  foldl_keeps (·.freeDraws) _ (fun s n => endRunIf_freeDraws (o n) n s) _ s

@[simp] theorem endRuns_pending (o : Nat → Option RunOutcome) (s : State) :
    (endRuns o s).pending = s.pending :=
  foldl_keeps (·.pending) _ (fun s n => endRunIf_pending (o n) n s) _ s

@[simp] theorem endRuns_iu_masks (o : Nat → Option RunOutcome) (s : State) :
    (endRuns o s).iu.masks = s.iu.masks :=
  foldl_keeps (·.iu.masks) _ (fun s n => endRunIf_iu_masks (o n) n s) _ s

@[simp] theorem endRuns_iu_levels (o : Nat → Option RunOutcome) (s : State) :
    (endRuns o s).iu.levels = s.iu.levels :=
  foldl_keeps (·.iu.levels) _ (fun s n => endRunIf_iu_levels (o n) n s) _ s

@[simp] theorem endRuns_iu_ithr (o : Nat → Option RunOutcome) (s : State) :
    (endRuns o s).iu.ithr = s.iu.ithr :=
  foldl_keeps (·.iu.ithr) _ (fun s n => endRunIf_iu_ithr (o n) n s) _ s

@[simp] theorem endRuns_te_runCounter (o : Nat → Option RunOutcome) (s : State) :
    (endRuns o s).te.runCounter = s.te.runCounter :=
  foldl_keeps (·.te.runCounter) _ (fun s n => endRunIf_te_runCounter (o n) n s) _ s

@[simp] theorem leaseCountdown_fcnt (s : State) : (leaseCountdown s).fcnt = s.fcnt :=
  raiseIf_fcnt _ _ _

@[simp] theorem leaseCountdown_rfm (s : State) : (leaseCountdown s).rfm = s.rfm :=
  raiseIf_rfm _ _ _

@[simp] theorem leaseCountdown_oa (s : State) : (leaseCountdown s).oa = s.oa :=
  raiseIf_oa _ _ _

@[simp] theorem leaseCountdown_cm (s : State) : (leaseCountdown s).cm = s.cm :=
  raiseIf_cm _ _ _

@[simp] theorem leaseCountdown_cj (s : State) : (leaseCountdown s).cj = s.cj :=
  raiseIf_cj _ _ _

@[simp] theorem leaseCountdown_sv (s : State) : (leaseCountdown s).sv = s.sv :=
  raiseIf_sv _ _ _

@[simp] theorem leaseCountdown_hold (s : State) : (leaseCountdown s).hold = s.hold :=
  raiseIf_hold _ _ _

@[simp] theorem leaseCountdown_te (s : State) : (leaseCountdown s).te = s.te :=
  raiseIf_te _ _ _

@[simp] theorem leaseCountdown_rq (s : State) : (leaseCountdown s).rq = s.rq :=
  raiseIf_rq _ _ _

@[simp] theorem leaseCountdown_ce (s : State) : (leaseCountdown s).ce = s.ce :=
  raiseIf_ce _ _ _

@[simp] theorem leaseCountdown_biu (s : State) : (leaseCountdown s).biu = s.biu :=
  raiseIf_biu _ _ _

@[simp] theorem leaseCountdown_pins (s : State) : (leaseCountdown s).pins = s.pins :=
  raiseIf_pins _ _ _

@[simp] theorem leaseCountdown_held (s : State) : (leaseCountdown s).held = s.held :=
  raiseIf_held _ _ _

@[simp] theorem leaseCountdown_freeDraws (s : State) : (leaseCountdown s).freeDraws = s.freeDraws :=
  raiseIf_freeDraws _ _ _

@[simp] theorem leaseCountdown_pending (s : State) : (leaseCountdown s).pending = s.pending :=
  raiseIf_pending _ _ _

@[simp] theorem leaseCountdown_iu_masks (s : State) : (leaseCountdown s).iu.masks = s.iu.masks :=
  raiseIf_iu_masks _ _ _

@[simp] theorem leaseCountdown_iu_levels (s : State) : (leaseCountdown s).iu.levels = s.iu.levels :=
  raiseIf_iu_levels _ _ _

@[simp] theorem leaseCountdown_iu_ithr (s : State) : (leaseCountdown s).iu.ithr = s.iu.ithr :=
  raiseIf_iu_ithr _ _ _

@[simp] theorem sampleSupervisors_fcnt (sf : Word) (s : State) : (sampleSupervisors sf s).fcnt = s.fcnt :=
  raiseStreams_fcnt _ _

@[simp] theorem sampleSupervisors_rfm (sf : Word) (s : State) : (sampleSupervisors sf s).rfm = s.rfm :=
  raiseStreams_rfm _ _

@[simp] theorem sampleSupervisors_oa (sf : Word) (s : State) : (sampleSupervisors sf s).oa = s.oa :=
  raiseStreams_oa _ _

@[simp] theorem sampleSupervisors_cm (sf : Word) (s : State) : (sampleSupervisors sf s).cm = s.cm :=
  raiseStreams_cm _ _

@[simp] theorem sampleSupervisors_cj (sf : Word) (s : State) : (sampleSupervisors sf s).cj = s.cj :=
  raiseStreams_cj _ _

@[simp] theorem sampleSupervisors_sau (sf : Word) (s : State) : (sampleSupervisors sf s).sau = s.sau :=
  raiseStreams_sau _ _

@[simp] theorem sampleSupervisors_hold (sf : Word) (s : State) : (sampleSupervisors sf s).hold = s.hold :=
  raiseStreams_hold _ _

@[simp] theorem sampleSupervisors_te (sf : Word) (s : State) : (sampleSupervisors sf s).te = s.te :=
  raiseStreams_te _ _

@[simp] theorem sampleSupervisors_rq (sf : Word) (s : State) : (sampleSupervisors sf s).rq = s.rq :=
  raiseStreams_rq _ _

@[simp] theorem sampleSupervisors_ce (sf : Word) (s : State) : (sampleSupervisors sf s).ce = s.ce :=
  raiseStreams_ce _ _

@[simp] theorem sampleSupervisors_biu (sf : Word) (s : State) : (sampleSupervisors sf s).biu = s.biu :=
  raiseStreams_biu _ _

@[simp] theorem sampleSupervisors_pins (sf : Word) (s : State) : (sampleSupervisors sf s).pins = s.pins :=
  raiseStreams_pins _ _

@[simp] theorem sampleSupervisors_held (sf : Word) (s : State) : (sampleSupervisors sf s).held = s.held :=
  raiseStreams_held _ _

@[simp] theorem sampleSupervisors_freeDraws (sf : Word) (s : State) :
    (sampleSupervisors sf s).freeDraws = s.freeDraws :=
  raiseStreams_freeDraws _ _

@[simp] theorem sampleSupervisors_pending (sf : Word) (s : State) :
    (sampleSupervisors sf s).pending = s.pending :=
  raiseStreams_pending _ _

@[simp] theorem sampleSupervisors_iu_masks (sf : Word) (s : State) :
    (sampleSupervisors sf s).iu.masks = s.iu.masks :=
  raiseStreams_iu_masks _ _

@[simp] theorem sampleSupervisors_iu_levels (sf : Word) (s : State) :
    (sampleSupervisors sf s).iu.levels = s.iu.levels :=
  raiseStreams_iu_levels _ _

@[simp] theorem sampleSupervisors_iu_ithr (sf : Word) (s : State) :
    (sampleSupervisors sf s).iu.ithr = s.iu.ithr :=
  raiseStreams_iu_ithr _ _

@[simp] theorem sampleSupervisors_sv_sven (sf : Word) (s : State) :
    (sampleSupervisors sf s).sv.sven = s.sv.sven :=
  congrArg (·.sven) (raiseStreams_sv _ _)

@[simp] theorem sampleSupervisors_sv_svfrc (sf : Word) (s : State) :
    (sampleSupervisors sf s).sv.svfrc = s.sv.svfrc :=
  congrArg (·.svfrc) (raiseStreams_sv _ _)

@[simp] theorem sampleSupervisors_sv_decl (sf : Word) (s : State) :
    (sampleSupervisors sf s).sv.decl = s.sv.decl :=
  congrArg (·.decl) (raiseStreams_sv _ _)

@[simp] theorem sampleSupervisors_sv_clrc (sf : Word) (s : State) :
    (sampleSupervisors sf s).sv.clrc = s.sv.clrc :=
  congrArg (·.clrc) (raiseStreams_sv _ _)

@[simp] theorem applyIf_fcnt (b : Bool) (s : State) : (applyIf b s).fcnt = s.fcnt :=
  by
  cases b <;> rfl

@[simp] theorem applyIf_rfm (b : Bool) (s : State) : (applyIf b s).rfm = s.rfm :=
  by
  cases b <;> rfl

@[simp] theorem applyIf_oa (b : Bool) (s : State) : (applyIf b s).oa = s.oa :=
  by
  cases b <;> rfl

@[simp] theorem applyIf_sv (b : Bool) (s : State) : (applyIf b s).sv = s.sv :=
  by
  cases b <;> rfl

@[simp] theorem applyIf_te (b : Bool) (s : State) : (applyIf b s).te = s.te :=
  by
  cases b <;> rfl

@[simp] theorem applyIf_rq (b : Bool) (s : State) : (applyIf b s).rq = s.rq :=
  by
  cases b <;> rfl

@[simp] theorem applyIf_ce (b : Bool) (s : State) : (applyIf b s).ce = s.ce :=
  by
  cases b <;> rfl

@[simp] theorem applyIf_biu (b : Bool) (s : State) : (applyIf b s).biu = s.biu :=
  by
  cases b <;> rfl

@[simp] theorem applyIf_pins (b : Bool) (s : State) : (applyIf b s).pins = s.pins :=
  by
  cases b <;> rfl

@[simp] theorem applyIf_held (b : Bool) (s : State) : (applyIf b s).held = s.held :=
  by
  cases b <;> rfl

@[simp] theorem applyIf_freeDraws (b : Bool) (s : State) : (applyIf b s).freeDraws = s.freeDraws :=
  by
  cases b <;> rfl

@[simp] theorem applyIf_pending (b : Bool) (s : State) : (applyIf b s).pending = s.pending :=
  by
  cases b <;> rfl

@[simp] theorem applyIf_iu_masks (b : Bool) (s : State) : (applyIf b s).iu.masks = s.iu.masks :=
  by
  cases b <;> rfl

@[simp] theorem applyIf_iu_levels (b : Bool) (s : State) : (applyIf b s).iu.levels = s.iu.levels :=
  by
  cases b <;> rfl

@[simp] theorem applyIf_iu_ithr (b : Bool) (s : State) : (applyIf b s).iu.ithr = s.iu.ithr :=
  by
  cases b <;> rfl

@[simp] theorem applyIf_cm_fanout (b : Bool) (s : State) : (applyIf b s).cm.fanout = s.cm.fanout :=
  by
  cases b <;> rfl

@[simp] theorem applyIf_cm_folim (b : Bool) (s : State) : (applyIf b s).cm.folim = s.cm.folim :=
  by
  cases b <;> rfl

@[simp] theorem startEngines_fcnt (e : FrameEvent) (b : Bool) (s : State) :
    (startEngines e b s).fcnt = s.fcnt :=
  (endRuns_fcnt _ _).trans (raiseSyncs_fcnt _ _)

@[simp] theorem startEngines_rfm (e : FrameEvent) (b : Bool) (s : State) : (startEngines e b s).rfm = s.rfm :=
  (endRuns_rfm _ _).trans (raiseSyncs_rfm _ _)

@[simp] theorem startEngines_oa (e : FrameEvent) (b : Bool) (s : State) : (startEngines e b s).oa = s.oa :=
  (endRuns_oa _ _).trans (raiseSyncs_oa _ _)

@[simp] theorem startEngines_cm (e : FrameEvent) (b : Bool) (s : State) : (startEngines e b s).cm = s.cm :=
  (endRuns_cm _ _).trans (raiseSyncs_cm _ _)

@[simp] theorem startEngines_cj (e : FrameEvent) (b : Bool) (s : State) : (startEngines e b s).cj = s.cj :=
  (endRuns_cj _ _).trans (raiseSyncs_cj _ _)

@[simp] theorem startEngines_sau (e : FrameEvent) (b : Bool) (s : State) : (startEngines e b s).sau = s.sau :=
  (endRuns_sau _ _).trans (raiseSyncs_sau _ _)

@[simp] theorem startEngines_sv (e : FrameEvent) (b : Bool) (s : State) : (startEngines e b s).sv = s.sv :=
  (endRuns_sv _ _).trans (raiseSyncs_sv _ _)

@[simp] theorem startEngines_hold (e : FrameEvent) (b : Bool) (s : State) :
    (startEngines e b s).hold = s.hold :=
  (endRuns_hold _ _).trans (raiseSyncs_hold _ _)

@[simp] theorem startEngines_ce (e : FrameEvent) (b : Bool) (s : State) : (startEngines e b s).ce = s.ce :=
  (endRuns_ce _ _).trans (raiseSyncs_ce _ _)

@[simp] theorem startEngines_biu (e : FrameEvent) (b : Bool) (s : State) : (startEngines e b s).biu = s.biu :=
  (endRuns_biu _ _).trans (raiseSyncs_biu _ _)

@[simp] theorem startEngines_pins (e : FrameEvent) (b : Bool) (s : State) :
    (startEngines e b s).pins = s.pins :=
  (endRuns_pins _ _).trans (raiseSyncs_pins _ _)

@[simp] theorem startEngines_held (e : FrameEvent) (b : Bool) (s : State) :
    (startEngines e b s).held = s.held :=
  (endRuns_held _ _).trans (raiseSyncs_held _ _)

@[simp] theorem startEngines_freeDraws (e : FrameEvent) (b : Bool) (s : State) :
    (startEngines e b s).freeDraws = s.freeDraws :=
  (endRuns_freeDraws _ _).trans (raiseSyncs_freeDraws _ _)

@[simp] theorem startEngines_pending (e : FrameEvent) (b : Bool) (s : State) :
    (startEngines e b s).pending = s.pending :=
  (endRuns_pending _ _).trans (raiseSyncs_pending _ _)

@[simp] theorem startEngines_iu_masks (e : FrameEvent) (b : Bool) (s : State) :
    (startEngines e b s).iu.masks = s.iu.masks :=
  (endRuns_iu_masks _ _).trans (raiseSyncs_iu_masks _ _)

@[simp] theorem startEngines_iu_levels (e : FrameEvent) (b : Bool) (s : State) :
    (startEngines e b s).iu.levels = s.iu.levels :=
  (endRuns_iu_levels _ _).trans (raiseSyncs_iu_levels _ _)

@[simp] theorem startEngines_iu_ithr (e : FrameEvent) (b : Bool) (s : State) :
    (startEngines e b s).iu.ithr = s.iu.ithr :=
  (endRuns_iu_ithr _ _).trans (raiseSyncs_iu_ithr _ _)

@[simp] theorem startEngines_te_runCounter (e : FrameEvent) (b : Bool) (s : State) :
    (startEngines e b s).te.runCounter = s.te.runCounter :=
  (endRuns_te_runCounter _ _).trans (congrArg (·.runCounter) (raiseSyncs_te _ _))

/-! ### The whole frame start -/

@[simp] theorem frameStartMap_fcnt (e : FrameEvent) (s : State) : (frameStartMap e s).fcnt = s.fcnt + 1 := by
  simp [frameStartMap]

@[simp] theorem frameStartMap_pins (e : FrameEvent) (s : State) :
    (frameStartMap e s).pins = { sf := e.sf, cstrobe := e.cstrobe } := by
  simp [frameStartMap]

@[simp] theorem frameStartMap_ce (e : FrameEvent) (s : State) : (frameStartMap e s).ce = s.ce := by
  simp [frameStartMap]

@[simp] theorem frameStartMap_biu (e : FrameEvent) (s : State) : (frameStartMap e s).biu = s.biu := by
  simp [frameStartMap]

@[simp] theorem frameStartMap_held (e : FrameEvent) (s : State) : (frameStartMap e s).held = s.held := by
  simp [frameStartMap]

@[simp] theorem frameStartMap_freeDraws (e : FrameEvent) (s : State) :
    (frameStartMap e s).freeDraws = s.freeDraws := by
  simp [frameStartMap]

@[simp] theorem frameStartMap_pending (e : FrameEvent) (s : State) : (frameStartMap e s).pending = s.pending := by
  simp [frameStartMap]

@[simp] theorem frameStartMap_te (e : FrameEvent) (s : State) : (frameStartMap e s).te = s.te := by
  simp [frameStartMap]

@[simp] theorem frameStartMap_rq (e : FrameEvent) (s : State) : (frameStartMap e s).rq = s.rq := by
  simp [frameStartMap]

@[simp] theorem frameStartMap_iu_masks (e : FrameEvent) (s : State) : (frameStartMap e s).iu.masks = s.iu.masks := by
  simp [frameStartMap]

@[simp] theorem frameStartMap_iu_levels (e : FrameEvent) (s : State) :
    (frameStartMap e s).iu.levels = s.iu.levels := by
  simp [frameStartMap]

@[simp] theorem frameStartMap_iu_ithr (e : FrameEvent) (s : State) : (frameStartMap e s).iu.ithr = s.iu.ithr := by
  simp [frameStartMap]

@[simp] theorem frameStartMap_cm_fanout (e : FrameEvent) (s : State) :
    (frameStartMap e s).cm.fanout = s.cm.fanout := by
  simp [frameStartMap]

@[simp] theorem frameStartMap_cm_folim (e : FrameEvent) (s : State) : (frameStartMap e s).cm.folim = s.cm.folim := by
  simp [frameStartMap]

@[simp] theorem frameStart_fcnt (e : FrameEvent) (s : State) : (frameStart e s).fcnt = s.fcnt + 1 := by
  simp [frameStart]

@[simp] theorem frameStart_pins (e : FrameEvent) (s : State) :
    (frameStart e s).pins = { sf := e.sf, cstrobe := e.cstrobe } := by
  simp [frameStart]

@[simp] theorem frameStart_ce (e : FrameEvent) (s : State) : (frameStart e s).ce = s.ce := by
  simp [frameStart]

@[simp] theorem frameStart_biu (e : FrameEvent) (s : State) : (frameStart e s).biu = s.biu := by
  simp [frameStart]

@[simp] theorem frameStart_held (e : FrameEvent) (s : State) : (frameStart e s).held = s.held := by
  simp [frameStart]

@[simp] theorem frameStart_freeDraws (e : FrameEvent) (s : State) : (frameStart e s).freeDraws = s.freeDraws := by
  simp [frameStart]

@[simp] theorem frameStart_pending (e : FrameEvent) (s : State) : (frameStart e s).pending = s.pending := by
  simp [frameStart]

@[simp] theorem frameStart_te_runCounter (e : FrameEvent) (s : State) :
    (frameStart e s).te.runCounter = s.te.runCounter := by
  simp [frameStart]

@[simp] theorem frameStart_iu_masks (e : FrameEvent) (s : State) : (frameStart e s).iu.masks = s.iu.masks := by
  simp [frameStart]

@[simp] theorem frameStart_iu_levels (e : FrameEvent) (s : State) : (frameStart e s).iu.levels = s.iu.levels := by
  simp [frameStart]

@[simp] theorem frameStart_iu_ithr (e : FrameEvent) (s : State) : (frameStart e s).iu.ithr = s.iu.ithr := by
  simp [frameStart]

@[simp] theorem frameStart_cm_fanout (e : FrameEvent) (s : State) : (frameStart e s).cm.fanout = s.cm.fanout := by
  simp [frameStart]

@[simp] theorem frameStart_cm_folim (e : FrameEvent) (s : State) : (frameStart e s).cm.folim = s.cm.folim := by
  simp [frameStart]

/-- Everything that the end of a run can do (R132, R138, R139). -/
theorem endRun_cases (n : Nat) (o : RunOutcome) (s : State) :
    (∃ c r, (s.engine n).run = .running c ∧ r = recordOf n (s.engine n) c o ∧
      ((s.rq.queue.length < 8 ∧ endRun n o s = raise srcResultReady
          { s.setEngine n ((s.engine n).ended .idle) with rq := { s.rq with queue := s.rq.queue ++ [r] } }) ∨
        (8 ≤ s.rq.queue.length ∧ endRun n o s = raise srcResultBacklog
          { s.setEngine n ((s.engine n).ended (.ended r)) with rq := { s.rq with backlog := s.rq.backlog ++ [n] } }))) ∨
    ((s.engine n).run.isRunning = false ∧ endRun n o s = s) := by
  cases h : (s.engine n).run with
  | idle => exact Or.inr ⟨rfl, by simp only [endRun, h]⟩
  | ended r => exact Or.inr ⟨rfl, by simp only [endRun, h]⟩
  | running c =>
    refine Or.inl ⟨c, _, rfl, rfl, ?_⟩
    by_cases hq : s.rq.queue.length < 8
    · exact Or.inl ⟨hq, by simp only [endRun, h, if_pos hq]⟩
    · exact Or.inr ⟨Nat.le_of_not_lt hq, by simp only [endRun, h, if_neg hq]⟩

end Sys2Proof.Machine
end

