-- ==== Sys2Proof/Laws/BytePath.lean ====
section
/-! SUPPORT. The byte path: what forming slots in the order of the line leaves alone, and when it does nothing. -/

namespace Sys2Proof.Machine

/-! ### What the formation of a slot can change: the engines, and `frame`, `next` and `emit` of the assembler -/

/-- What replacing an engine and moving on in an emission keep, supplying a TEST byte keeps. -/
theorem testByte_keeps {β : Type} (g : State → β) (hEngine : ∀ s n e, g (s.setEngine n e) = g s)
    (hEmit : ∀ (s : State) x, g { s with oa := { s.oa with emit := x } } = g s) (n : Nat) (s : State) :
    g (testByte n s).2 = g s := by
  unfold testByte
  split
  · rfl
  · split
    · unfold supplyByte
      dsimp only
      split
      · exact hEngine _ _ _
      · exact hEngine _ _ _
    · exact hEmit _ _

theorem slotByte_keeps {β : Type} (g : State → β) (hEngine : ∀ s n e, g (s.setEngine n e) = g s)
    (hEmit : ∀ (s : State) x, g { s with oa := { s.oa with emit := x } } = g s) (i : Nat) (s : State) :
    g (slotByte i s).2 = g s := by
  unfold slotByte
  split
  · rfl
  · rfl
  · rfl
  · exact testByte_keeps g hEngine hEmit _ s

theorem formSlot_keeps {β : Type} (g : State → β) (hEngine : ∀ s n e, g (s.setEngine n e) = g s)
    (hEmit : ∀ (s : State) x, g { s with oa := { s.oa with emit := x } } = g s)
    (hPut : ∀ stream slot b s, g (putSlot stream slot b s) = g s) (stream slot : Nat) (s : State) :
    g (formSlot stream slot s) = g s := by
  unfold formSlot
  split
  · exact (hPut _ _ _ _).trans (slotByte_keeps g hEngine hEmit _ s)
  · rfl

theorem formColumn_keeps {β : Type} (g : State → β) (hEngine : ∀ s n e, g (s.setEngine n e) = g s)
    (hEmit : ∀ (s : State) x, g { s with oa := { s.oa with emit := x } } = g s)
    (hPut : ∀ stream slot b s, g (putSlot stream slot b s) = g s) (t : Nat) (s : State) :
    g (formColumn t s) = g s :=
  foldl_keeps g _ (fun s st => formSlot_keeps g hEngine hEmit hPut st t s) _ s

theorem formSlots_keeps {β : Type} (g : State → β) (hEngine : ∀ s n e, g (s.setEngine n e) = g s)
    (hEmit : ∀ (s : State) x, g { s with oa := { s.oa with emit := x } } = g s)
    (hPut : ∀ stream slot b s, g (putSlot stream slot b s) = g s) (k : Nat) (s : State) :
    g (formSlots k s) = g s :=
  foldl_keeps g _ (fun s t => formColumn_keeps g hEngine hEmit hPut t s) _ s

theorem formInOrder_keeps {β : Type} (g : State → β) (hEngine : ∀ s n e, g (s.setEngine n e) = g s)
    (hEmit : ∀ (s : State) x, g { s with oa := { s.oa with emit := x } } = g s)
    (hPut : ∀ stream slot b s, g (putSlot stream slot b s) = g s) (stream slot : Nat) (s : State) :
    g (formInOrder stream slot s) = g s := by
  unfold formInOrder
  split
  · exact (formSlot_keeps g hEngine hEmit hPut _ _ _).trans (formSlots_keeps g hEngine hEmit hPut _ s)
  · rfl

theorem captureByte_keeps {β : Type} (g : State → β) (hEngine : ∀ s n e, g (s.setEngine n e) = g s)
    (hEmit : ∀ (s : State) x, g { s with oa := { s.oa with emit := x } } = g s)
    (hPut : ∀ stream slot b s, g (putSlot stream slot b s) = g s) (hRfm : ∀ (s : State) x, g { s with rfm := x } = g s)
    (stream slot : Nat) (b : Byte) (s : State) : g (captureByte stream slot b s) = g s := by
  unfold captureByte
  split
  · exact (hRfm _ _).trans (formSlots_keeps g hEngine hEmit hPut _ s)
  · rfl

/-! ### formSlot -/

@[simp] theorem formSlot_fcnt (stream slot : Nat) (s : State) : (formSlot stream slot s).fcnt = s.fcnt :=
  formSlot_keeps (·.fcnt) (fun _ _ _ => rfl) (fun _ _ => rfl) (fun _ _ _ _ => rfl) _ _ _
@[simp] theorem formSlot_cm (stream slot : Nat) (s : State) : (formSlot stream slot s).cm = s.cm :=
  formSlot_keeps (·.cm) (fun _ _ _ => rfl) (fun _ _ => rfl) (fun _ _ _ _ => rfl) _ _ _
@[simp] theorem formSlot_cj (stream slot : Nat) (s : State) : (formSlot stream slot s).cj = s.cj :=
  formSlot_keeps (·.cj) (fun _ _ _ => rfl) (fun _ _ => rfl) (fun _ _ _ _ => rfl) _ _ _
@[simp] theorem formSlot_sau (stream slot : Nat) (s : State) : (formSlot stream slot s).sau = s.sau :=
  formSlot_keeps (·.sau) (fun _ _ _ => rfl) (fun _ _ => rfl) (fun _ _ _ _ => rfl) _ _ _
@[simp] theorem formSlot_sv (stream slot : Nat) (s : State) : (formSlot stream slot s).sv = s.sv :=
  formSlot_keeps (·.sv) (fun _ _ _ => rfl) (fun _ _ => rfl) (fun _ _ _ _ => rfl) _ _ _
@[simp] theorem formSlot_hold (stream slot : Nat) (s : State) : (formSlot stream slot s).hold = s.hold :=
  formSlot_keeps (·.hold) (fun _ _ _ => rfl) (fun _ _ => rfl) (fun _ _ _ _ => rfl) _ _ _
@[simp] theorem formSlot_rq (stream slot : Nat) (s : State) : (formSlot stream slot s).rq = s.rq :=
  formSlot_keeps (·.rq) (fun _ _ _ => rfl) (fun _ _ => rfl) (fun _ _ _ _ => rfl) _ _ _
@[simp] theorem formSlot_ce (stream slot : Nat) (s : State) : (formSlot stream slot s).ce = s.ce :=
  formSlot_keeps (·.ce) (fun _ _ _ => rfl) (fun _ _ => rfl) (fun _ _ _ _ => rfl) _ _ _
@[simp] theorem formSlot_iu (stream slot : Nat) (s : State) : (formSlot stream slot s).iu = s.iu :=
  formSlot_keeps (·.iu) (fun _ _ _ => rfl) (fun _ _ => rfl) (fun _ _ _ _ => rfl) _ _ _
@[simp] theorem formSlot_biu (stream slot : Nat) (s : State) : (formSlot stream slot s).biu = s.biu :=
  formSlot_keeps (·.biu) (fun _ _ _ => rfl) (fun _ _ => rfl) (fun _ _ _ _ => rfl) _ _ _
@[simp] theorem formSlot_pins (stream slot : Nat) (s : State) : (formSlot stream slot s).pins = s.pins :=
  formSlot_keeps (·.pins) (fun _ _ _ => rfl) (fun _ _ => rfl) (fun _ _ _ _ => rfl) _ _ _
@[simp] theorem formSlot_held (stream slot : Nat) (s : State) : (formSlot stream slot s).held = s.held :=
  formSlot_keeps (·.held) (fun _ _ _ => rfl) (fun _ _ => rfl) (fun _ _ _ _ => rfl) _ _ _
@[simp] theorem formSlot_freeDraws (stream slot : Nat) (s : State) :
    (formSlot stream slot s).freeDraws = s.freeDraws :=
  formSlot_keeps (·.freeDraws) (fun _ _ _ => rfl) (fun _ _ => rfl) (fun _ _ _ _ => rfl) _ _ _
@[simp] theorem formSlot_pending (stream slot : Nat) (s : State) : (formSlot stream slot s).pending = s.pending :=
  formSlot_keeps (·.pending) (fun _ _ _ => rfl) (fun _ _ => rfl) (fun _ _ _ _ => rfl) _ _ _
@[simp] theorem formSlot_oa_idlec (stream slot : Nat) (s : State) : (formSlot stream slot s).oa.idlec = s.oa.idlec :=
  formSlot_keeps (·.oa.idlec) (fun _ _ _ => rfl) (fun _ _ => rfl) (fun _ _ _ _ => rfl) _ _ _
@[simp] theorem formSlot_oa_idleInForce (stream slot : Nat) (s : State) :
    (formSlot stream slot s).oa.idleInForce = s.oa.idleInForce :=
  formSlot_keeps (·.oa.idleInForce) (fun _ _ _ => rfl) (fun _ _ => rfl) (fun _ _ _ _ => rfl) _ _ _
@[simp] theorem formSlot_oa_inProgress (stream slot : Nat) (s : State) :
    (formSlot stream slot s).oa.inProgress = s.oa.inProgress :=
  formSlot_keeps (·.oa.inProgress) (fun _ _ _ => rfl) (fun _ _ => rfl) (fun _ _ _ _ => rfl) _ _ _
@[simp] theorem formSlot_oa_frameState (stream slot : Nat) (s : State) :
    (formSlot stream slot s).oa.frameState = s.oa.frameState :=
  formSlot_keeps (·.oa.frameState) (fun _ _ _ => rfl) (fun _ _ => rfl) (fun _ _ _ _ => rfl) _ _ _
@[simp] theorem formSlot_te_runCounter (stream slot : Nat) (s : State) :
    (formSlot stream slot s).te.runCounter = s.te.runCounter :=
  formSlot_keeps (·.te.runCounter) (fun _ _ _ => rfl) (fun _ _ => rfl) (fun _ _ _ _ => rfl) _ _ _
@[simp] theorem formSlot_rfm (stream slot : Nat) (s : State) : (formSlot stream slot s).rfm = s.rfm :=
  formSlot_keeps (·.rfm) (fun _ _ _ => rfl) (fun _ _ => rfl) (fun _ _ _ _ => rfl) _ _ _

/-! ### formColumn -/

@[simp] theorem formColumn_fcnt (t : Nat) (s : State) : (formColumn t s).fcnt = s.fcnt :=
  formColumn_keeps (·.fcnt) (fun _ _ _ => rfl) (fun _ _ => rfl) (fun _ _ _ _ => rfl) _ _
@[simp] theorem formColumn_cm (t : Nat) (s : State) : (formColumn t s).cm = s.cm :=
  formColumn_keeps (·.cm) (fun _ _ _ => rfl) (fun _ _ => rfl) (fun _ _ _ _ => rfl) _ _
@[simp] theorem formColumn_cj (t : Nat) (s : State) : (formColumn t s).cj = s.cj :=
  formColumn_keeps (·.cj) (fun _ _ _ => rfl) (fun _ _ => rfl) (fun _ _ _ _ => rfl) _ _
@[simp] theorem formColumn_sau (t : Nat) (s : State) : (formColumn t s).sau = s.sau :=
  formColumn_keeps (·.sau) (fun _ _ _ => rfl) (fun _ _ => rfl) (fun _ _ _ _ => rfl) _ _
@[simp] theorem formColumn_sv (t : Nat) (s : State) : (formColumn t s).sv = s.sv :=
  formColumn_keeps (·.sv) (fun _ _ _ => rfl) (fun _ _ => rfl) (fun _ _ _ _ => rfl) _ _
@[simp] theorem formColumn_hold (t : Nat) (s : State) : (formColumn t s).hold = s.hold :=
  formColumn_keeps (·.hold) (fun _ _ _ => rfl) (fun _ _ => rfl) (fun _ _ _ _ => rfl) _ _
@[simp] theorem formColumn_rq (t : Nat) (s : State) : (formColumn t s).rq = s.rq :=
  formColumn_keeps (·.rq) (fun _ _ _ => rfl) (fun _ _ => rfl) (fun _ _ _ _ => rfl) _ _
@[simp] theorem formColumn_ce (t : Nat) (s : State) : (formColumn t s).ce = s.ce :=
  formColumn_keeps (·.ce) (fun _ _ _ => rfl) (fun _ _ => rfl) (fun _ _ _ _ => rfl) _ _
@[simp] theorem formColumn_iu (t : Nat) (s : State) : (formColumn t s).iu = s.iu :=
  formColumn_keeps (·.iu) (fun _ _ _ => rfl) (fun _ _ => rfl) (fun _ _ _ _ => rfl) _ _
@[simp] theorem formColumn_biu (t : Nat) (s : State) : (formColumn t s).biu = s.biu :=
  formColumn_keeps (·.biu) (fun _ _ _ => rfl) (fun _ _ => rfl) (fun _ _ _ _ => rfl) _ _
@[simp] theorem formColumn_pins (t : Nat) (s : State) : (formColumn t s).pins = s.pins :=
  formColumn_keeps (·.pins) (fun _ _ _ => rfl) (fun _ _ => rfl) (fun _ _ _ _ => rfl) _ _
@[simp] theorem formColumn_held (t : Nat) (s : State) : (formColumn t s).held = s.held :=
  formColumn_keeps (·.held) (fun _ _ _ => rfl) (fun _ _ => rfl) (fun _ _ _ _ => rfl) _ _
@[simp] theorem formColumn_freeDraws (t : Nat) (s : State) : (formColumn t s).freeDraws = s.freeDraws :=
  formColumn_keeps (·.freeDraws) (fun _ _ _ => rfl) (fun _ _ => rfl) (fun _ _ _ _ => rfl) _ _
@[simp] theorem formColumn_pending (t : Nat) (s : State) : (formColumn t s).pending = s.pending :=
  formColumn_keeps (·.pending) (fun _ _ _ => rfl) (fun _ _ => rfl) (fun _ _ _ _ => rfl) _ _
@[simp] theorem formColumn_oa_idlec (t : Nat) (s : State) : (formColumn t s).oa.idlec = s.oa.idlec :=
  formColumn_keeps (·.oa.idlec) (fun _ _ _ => rfl) (fun _ _ => rfl) (fun _ _ _ _ => rfl) _ _
@[simp] theorem formColumn_oa_idleInForce (t : Nat) (s : State) :
    (formColumn t s).oa.idleInForce = s.oa.idleInForce :=
  formColumn_keeps (·.oa.idleInForce) (fun _ _ _ => rfl) (fun _ _ => rfl) (fun _ _ _ _ => rfl) _ _
@[simp] theorem formColumn_oa_inProgress (t : Nat) (s : State) : (formColumn t s).oa.inProgress = s.oa.inProgress :=
  formColumn_keeps (·.oa.inProgress) (fun _ _ _ => rfl) (fun _ _ => rfl) (fun _ _ _ _ => rfl) _ _
@[simp] theorem formColumn_oa_frameState (t : Nat) (s : State) : (formColumn t s).oa.frameState = s.oa.frameState :=
  formColumn_keeps (·.oa.frameState) (fun _ _ _ => rfl) (fun _ _ => rfl) (fun _ _ _ _ => rfl) _ _
@[simp] theorem formColumn_te_runCounter (t : Nat) (s : State) : (formColumn t s).te.runCounter = s.te.runCounter :=
  formColumn_keeps (·.te.runCounter) (fun _ _ _ => rfl) (fun _ _ => rfl) (fun _ _ _ _ => rfl) _ _
@[simp] theorem formColumn_rfm (t : Nat) (s : State) : (formColumn t s).rfm = s.rfm :=
  formColumn_keeps (·.rfm) (fun _ _ _ => rfl) (fun _ _ => rfl) (fun _ _ _ _ => rfl) _ _

/-! ### formSlots -/

@[simp] theorem formSlots_fcnt (k : Nat) (s : State) : (formSlots k s).fcnt = s.fcnt :=
  formSlots_keeps (·.fcnt) (fun _ _ _ => rfl) (fun _ _ => rfl) (fun _ _ _ _ => rfl) _ _
@[simp] theorem formSlots_cm (k : Nat) (s : State) : (formSlots k s).cm = s.cm :=
  formSlots_keeps (·.cm) (fun _ _ _ => rfl) (fun _ _ => rfl) (fun _ _ _ _ => rfl) _ _
@[simp] theorem formSlots_cj (k : Nat) (s : State) : (formSlots k s).cj = s.cj :=
  formSlots_keeps (·.cj) (fun _ _ _ => rfl) (fun _ _ => rfl) (fun _ _ _ _ => rfl) _ _
@[simp] theorem formSlots_sau (k : Nat) (s : State) : (formSlots k s).sau = s.sau :=
  formSlots_keeps (·.sau) (fun _ _ _ => rfl) (fun _ _ => rfl) (fun _ _ _ _ => rfl) _ _
@[simp] theorem formSlots_sv (k : Nat) (s : State) : (formSlots k s).sv = s.sv :=
  formSlots_keeps (·.sv) (fun _ _ _ => rfl) (fun _ _ => rfl) (fun _ _ _ _ => rfl) _ _
@[simp] theorem formSlots_hold (k : Nat) (s : State) : (formSlots k s).hold = s.hold :=
  formSlots_keeps (·.hold) (fun _ _ _ => rfl) (fun _ _ => rfl) (fun _ _ _ _ => rfl) _ _
@[simp] theorem formSlots_rq (k : Nat) (s : State) : (formSlots k s).rq = s.rq :=
  formSlots_keeps (·.rq) (fun _ _ _ => rfl) (fun _ _ => rfl) (fun _ _ _ _ => rfl) _ _
@[simp] theorem formSlots_ce (k : Nat) (s : State) : (formSlots k s).ce = s.ce :=
  formSlots_keeps (·.ce) (fun _ _ _ => rfl) (fun _ _ => rfl) (fun _ _ _ _ => rfl) _ _
@[simp] theorem formSlots_iu (k : Nat) (s : State) : (formSlots k s).iu = s.iu :=
  formSlots_keeps (·.iu) (fun _ _ _ => rfl) (fun _ _ => rfl) (fun _ _ _ _ => rfl) _ _
@[simp] theorem formSlots_biu (k : Nat) (s : State) : (formSlots k s).biu = s.biu :=
  formSlots_keeps (·.biu) (fun _ _ _ => rfl) (fun _ _ => rfl) (fun _ _ _ _ => rfl) _ _
@[simp] theorem formSlots_pins (k : Nat) (s : State) : (formSlots k s).pins = s.pins :=
  formSlots_keeps (·.pins) (fun _ _ _ => rfl) (fun _ _ => rfl) (fun _ _ _ _ => rfl) _ _
@[simp] theorem formSlots_held (k : Nat) (s : State) : (formSlots k s).held = s.held :=
  formSlots_keeps (·.held) (fun _ _ _ => rfl) (fun _ _ => rfl) (fun _ _ _ _ => rfl) _ _
@[simp] theorem formSlots_freeDraws (k : Nat) (s : State) : (formSlots k s).freeDraws = s.freeDraws :=
  formSlots_keeps (·.freeDraws) (fun _ _ _ => rfl) (fun _ _ => rfl) (fun _ _ _ _ => rfl) _ _
@[simp] theorem formSlots_pending (k : Nat) (s : State) : (formSlots k s).pending = s.pending :=
  formSlots_keeps (·.pending) (fun _ _ _ => rfl) (fun _ _ => rfl) (fun _ _ _ _ => rfl) _ _
@[simp] theorem formSlots_oa_idlec (k : Nat) (s : State) : (formSlots k s).oa.idlec = s.oa.idlec :=
  formSlots_keeps (·.oa.idlec) (fun _ _ _ => rfl) (fun _ _ => rfl) (fun _ _ _ _ => rfl) _ _
@[simp] theorem formSlots_oa_idleInForce (k : Nat) (s : State) : (formSlots k s).oa.idleInForce = s.oa.idleInForce :=
  formSlots_keeps (·.oa.idleInForce) (fun _ _ _ => rfl) (fun _ _ => rfl) (fun _ _ _ _ => rfl) _ _
@[simp] theorem formSlots_oa_inProgress (k : Nat) (s : State) : (formSlots k s).oa.inProgress = s.oa.inProgress :=
  formSlots_keeps (·.oa.inProgress) (fun _ _ _ => rfl) (fun _ _ => rfl) (fun _ _ _ _ => rfl) _ _
@[simp] theorem formSlots_oa_frameState (k : Nat) (s : State) : (formSlots k s).oa.frameState = s.oa.frameState :=
  formSlots_keeps (·.oa.frameState) (fun _ _ _ => rfl) (fun _ _ => rfl) (fun _ _ _ _ => rfl) _ _
@[simp] theorem formSlots_te_runCounter (k : Nat) (s : State) : (formSlots k s).te.runCounter = s.te.runCounter :=
  formSlots_keeps (·.te.runCounter) (fun _ _ _ => rfl) (fun _ _ => rfl) (fun _ _ _ _ => rfl) _ _
@[simp] theorem formSlots_rfm (k : Nat) (s : State) : (formSlots k s).rfm = s.rfm :=
  formSlots_keeps (·.rfm) (fun _ _ _ => rfl) (fun _ _ => rfl) (fun _ _ _ _ => rfl) _ _

/-! ### formInOrder -/

@[simp] theorem formInOrder_fcnt (stream slot : Nat) (s : State) : (formInOrder stream slot s).fcnt = s.fcnt :=
  formInOrder_keeps (·.fcnt) (fun _ _ _ => rfl) (fun _ _ => rfl) (fun _ _ _ _ => rfl) _ _ _
@[simp] theorem formInOrder_cm (stream slot : Nat) (s : State) : (formInOrder stream slot s).cm = s.cm :=
  formInOrder_keeps (·.cm) (fun _ _ _ => rfl) (fun _ _ => rfl) (fun _ _ _ _ => rfl) _ _ _
@[simp] theorem formInOrder_cj (stream slot : Nat) (s : State) : (formInOrder stream slot s).cj = s.cj :=
  formInOrder_keeps (·.cj) (fun _ _ _ => rfl) (fun _ _ => rfl) (fun _ _ _ _ => rfl) _ _ _
@[simp] theorem formInOrder_sau (stream slot : Nat) (s : State) : (formInOrder stream slot s).sau = s.sau :=
  formInOrder_keeps (·.sau) (fun _ _ _ => rfl) (fun _ _ => rfl) (fun _ _ _ _ => rfl) _ _ _
@[simp] theorem formInOrder_sv (stream slot : Nat) (s : State) : (formInOrder stream slot s).sv = s.sv :=
  formInOrder_keeps (·.sv) (fun _ _ _ => rfl) (fun _ _ => rfl) (fun _ _ _ _ => rfl) _ _ _
@[simp] theorem formInOrder_hold (stream slot : Nat) (s : State) : (formInOrder stream slot s).hold = s.hold :=
  formInOrder_keeps (·.hold) (fun _ _ _ => rfl) (fun _ _ => rfl) (fun _ _ _ _ => rfl) _ _ _
@[simp] theorem formInOrder_rq (stream slot : Nat) (s : State) : (formInOrder stream slot s).rq = s.rq :=
  formInOrder_keeps (·.rq) (fun _ _ _ => rfl) (fun _ _ => rfl) (fun _ _ _ _ => rfl) _ _ _
@[simp] theorem formInOrder_ce (stream slot : Nat) (s : State) : (formInOrder stream slot s).ce = s.ce :=
  formInOrder_keeps (·.ce) (fun _ _ _ => rfl) (fun _ _ => rfl) (fun _ _ _ _ => rfl) _ _ _
@[simp] theorem formInOrder_iu (stream slot : Nat) (s : State) : (formInOrder stream slot s).iu = s.iu :=
  formInOrder_keeps (·.iu) (fun _ _ _ => rfl) (fun _ _ => rfl) (fun _ _ _ _ => rfl) _ _ _
@[simp] theorem formInOrder_biu (stream slot : Nat) (s : State) : (formInOrder stream slot s).biu = s.biu :=
  formInOrder_keeps (·.biu) (fun _ _ _ => rfl) (fun _ _ => rfl) (fun _ _ _ _ => rfl) _ _ _
@[simp] theorem formInOrder_pins (stream slot : Nat) (s : State) : (formInOrder stream slot s).pins = s.pins :=
  formInOrder_keeps (·.pins) (fun _ _ _ => rfl) (fun _ _ => rfl) (fun _ _ _ _ => rfl) _ _ _
@[simp] theorem formInOrder_held (stream slot : Nat) (s : State) : (formInOrder stream slot s).held = s.held :=
  formInOrder_keeps (·.held) (fun _ _ _ => rfl) (fun _ _ => rfl) (fun _ _ _ _ => rfl) _ _ _
@[simp] theorem formInOrder_freeDraws (stream slot : Nat) (s : State) :
    (formInOrder stream slot s).freeDraws = s.freeDraws :=
  formInOrder_keeps (·.freeDraws) (fun _ _ _ => rfl) (fun _ _ => rfl) (fun _ _ _ _ => rfl) _ _ _
@[simp] theorem formInOrder_pending (stream slot : Nat) (s : State) :
    (formInOrder stream slot s).pending = s.pending :=
  formInOrder_keeps (·.pending) (fun _ _ _ => rfl) (fun _ _ => rfl) (fun _ _ _ _ => rfl) _ _ _
@[simp] theorem formInOrder_oa_idlec (stream slot : Nat) (s : State) :
    (formInOrder stream slot s).oa.idlec = s.oa.idlec :=
  formInOrder_keeps (·.oa.idlec) (fun _ _ _ => rfl) (fun _ _ => rfl) (fun _ _ _ _ => rfl) _ _ _
@[simp] theorem formInOrder_oa_idleInForce (stream slot : Nat) (s : State) :
    (formInOrder stream slot s).oa.idleInForce = s.oa.idleInForce :=
  formInOrder_keeps (·.oa.idleInForce) (fun _ _ _ => rfl) (fun _ _ => rfl) (fun _ _ _ _ => rfl) _ _ _
@[simp] theorem formInOrder_oa_inProgress (stream slot : Nat) (s : State) :
    (formInOrder stream slot s).oa.inProgress = s.oa.inProgress :=
  formInOrder_keeps (·.oa.inProgress) (fun _ _ _ => rfl) (fun _ _ => rfl) (fun _ _ _ _ => rfl) _ _ _
@[simp] theorem formInOrder_oa_frameState (stream slot : Nat) (s : State) :
    (formInOrder stream slot s).oa.frameState = s.oa.frameState :=
  formInOrder_keeps (·.oa.frameState) (fun _ _ _ => rfl) (fun _ _ => rfl) (fun _ _ _ _ => rfl) _ _ _
@[simp] theorem formInOrder_te_runCounter (stream slot : Nat) (s : State) :
    (formInOrder stream slot s).te.runCounter = s.te.runCounter :=
  formInOrder_keeps (·.te.runCounter) (fun _ _ _ => rfl) (fun _ _ => rfl) (fun _ _ _ _ => rfl) _ _ _
@[simp] theorem formInOrder_rfm (stream slot : Nat) (s : State) : (formInOrder stream slot s).rfm = s.rfm :=
  formInOrder_keeps (·.rfm) (fun _ _ _ => rfl) (fun _ _ => rfl) (fun _ _ _ _ => rfl) _ _ _

/-! ### captureByte -/

@[simp] theorem captureByte_fcnt (stream slot : Nat) (b : Byte) (s : State) :
    (captureByte stream slot b s).fcnt = s.fcnt :=
  captureByte_keeps (·.fcnt) (fun _ _ _ => rfl) (fun _ _ => rfl) (fun _ _ _ _ => rfl) (fun _ _ => rfl) _ _ _ _
@[simp] theorem captureByte_cm (stream slot : Nat) (b : Byte) (s : State) : (captureByte stream slot b s).cm = s.cm :=
  captureByte_keeps (·.cm) (fun _ _ _ => rfl) (fun _ _ => rfl) (fun _ _ _ _ => rfl) (fun _ _ => rfl) _ _ _ _
@[simp] theorem captureByte_cj (stream slot : Nat) (b : Byte) (s : State) : (captureByte stream slot b s).cj = s.cj :=
  captureByte_keeps (·.cj) (fun _ _ _ => rfl) (fun _ _ => rfl) (fun _ _ _ _ => rfl) (fun _ _ => rfl) _ _ _ _
@[simp] theorem captureByte_sau (stream slot : Nat) (b : Byte) (s : State) :
    (captureByte stream slot b s).sau = s.sau :=
  captureByte_keeps (·.sau) (fun _ _ _ => rfl) (fun _ _ => rfl) (fun _ _ _ _ => rfl) (fun _ _ => rfl) _ _ _ _
@[simp] theorem captureByte_sv (stream slot : Nat) (b : Byte) (s : State) : (captureByte stream slot b s).sv = s.sv :=
  captureByte_keeps (·.sv) (fun _ _ _ => rfl) (fun _ _ => rfl) (fun _ _ _ _ => rfl) (fun _ _ => rfl) _ _ _ _
@[simp] theorem captureByte_hold (stream slot : Nat) (b : Byte) (s : State) :
    (captureByte stream slot b s).hold = s.hold :=
  captureByte_keeps (·.hold) (fun _ _ _ => rfl) (fun _ _ => rfl) (fun _ _ _ _ => rfl) (fun _ _ => rfl) _ _ _ _
@[simp] theorem captureByte_rq (stream slot : Nat) (b : Byte) (s : State) : (captureByte stream slot b s).rq = s.rq :=
  captureByte_keeps (·.rq) (fun _ _ _ => rfl) (fun _ _ => rfl) (fun _ _ _ _ => rfl) (fun _ _ => rfl) _ _ _ _
@[simp] theorem captureByte_ce (stream slot : Nat) (b : Byte) (s : State) : (captureByte stream slot b s).ce = s.ce :=
  captureByte_keeps (·.ce) (fun _ _ _ => rfl) (fun _ _ => rfl) (fun _ _ _ _ => rfl) (fun _ _ => rfl) _ _ _ _
@[simp] theorem captureByte_iu (stream slot : Nat) (b : Byte) (s : State) : (captureByte stream slot b s).iu = s.iu :=
  captureByte_keeps (·.iu) (fun _ _ _ => rfl) (fun _ _ => rfl) (fun _ _ _ _ => rfl) (fun _ _ => rfl) _ _ _ _
@[simp] theorem captureByte_biu (stream slot : Nat) (b : Byte) (s : State) :
    (captureByte stream slot b s).biu = s.biu :=
  captureByte_keeps (·.biu) (fun _ _ _ => rfl) (fun _ _ => rfl) (fun _ _ _ _ => rfl) (fun _ _ => rfl) _ _ _ _
@[simp] theorem captureByte_pins (stream slot : Nat) (b : Byte) (s : State) :
    (captureByte stream slot b s).pins = s.pins :=
  captureByte_keeps (·.pins) (fun _ _ _ => rfl) (fun _ _ => rfl) (fun _ _ _ _ => rfl) (fun _ _ => rfl) _ _ _ _
@[simp] theorem captureByte_held (stream slot : Nat) (b : Byte) (s : State) :
    (captureByte stream slot b s).held = s.held :=
  captureByte_keeps (·.held) (fun _ _ _ => rfl) (fun _ _ => rfl) (fun _ _ _ _ => rfl) (fun _ _ => rfl) _ _ _ _
@[simp] theorem captureByte_freeDraws (stream slot : Nat) (b : Byte) (s : State) :
    (captureByte stream slot b s).freeDraws = s.freeDraws :=
  captureByte_keeps (·.freeDraws) (fun _ _ _ => rfl) (fun _ _ => rfl) (fun _ _ _ _ => rfl) (fun _ _ => rfl) _ _ _ _
@[simp] theorem captureByte_pending (stream slot : Nat) (b : Byte) (s : State) :
    (captureByte stream slot b s).pending = s.pending :=
  captureByte_keeps (·.pending) (fun _ _ _ => rfl) (fun _ _ => rfl) (fun _ _ _ _ => rfl) (fun _ _ => rfl) _ _ _ _
@[simp] theorem captureByte_oa_idlec (stream slot : Nat) (b : Byte) (s : State) :
    (captureByte stream slot b s).oa.idlec = s.oa.idlec :=
  captureByte_keeps (·.oa.idlec) (fun _ _ _ => rfl) (fun _ _ => rfl) (fun _ _ _ _ => rfl) (fun _ _ => rfl) _ _ _ _
@[simp] theorem captureByte_oa_idleInForce (stream slot : Nat) (b : Byte) (s : State) :
    (captureByte stream slot b s).oa.idleInForce = s.oa.idleInForce :=
  captureByte_keeps (·.oa.idleInForce) (fun _ _ _ => rfl) (fun _ _ => rfl) (fun _ _ _ _ => rfl) (fun _ _ => rfl) _ _ _ _
@[simp] theorem captureByte_oa_inProgress (stream slot : Nat) (b : Byte) (s : State) :
    (captureByte stream slot b s).oa.inProgress = s.oa.inProgress :=
  captureByte_keeps (·.oa.inProgress) (fun _ _ _ => rfl) (fun _ _ => rfl) (fun _ _ _ _ => rfl) (fun _ _ => rfl) _ _ _ _
@[simp] theorem captureByte_oa_frameState (stream slot : Nat) (b : Byte) (s : State) :
    (captureByte stream slot b s).oa.frameState = s.oa.frameState :=
  captureByte_keeps (·.oa.frameState) (fun _ _ _ => rfl) (fun _ _ => rfl) (fun _ _ _ _ => rfl) (fun _ _ => rfl) _ _ _ _
@[simp] theorem captureByte_te_runCounter (stream slot : Nat) (b : Byte) (s : State) :
    (captureByte stream slot b s).te.runCounter = s.te.runCounter :=
  captureByte_keeps (·.te.runCounter) (fun _ _ _ => rfl) (fun _ _ => rfl) (fun _ _ _ _ => rfl) (fun _ _ => rfl) _ _ _ _

/-! ### Slots that have been formed -/

/-- Nothing is formed outside a frame, and nothing twice (R4, R18). -/
theorem formSlot_of_formed (stream slot : Nat) (s : State)
    (h : s.oa.inProgress = false ∨ slot < s.oa.next.get stream) : formSlot stream slot s = s := by
  unfold formSlot
  rw [if_neg]
  rcases h with h | h
  · simp [h]
  · omega

/-- What a fold's steps leave alone, the fold leaves alone. -/
theorem foldl_id {f : State → Nat → State} {s : State} :
    ∀ l : List Nat, (∀ n ∈ l, f s n = s) → l.foldl f s = s
  | [], _ => rfl
  | n :: l, h => by
    rw [List.foldl_cons, h n (by simp)]
    exact foldl_id l fun m hm => h m (by simp [hm])

/-- A column of which every slot has been formed. -/
theorem formColumn_of_formedTo (t k : Nat) (s : State) (h : s.formedTo k) (ht : t < k) : formColumn t s = s := by
  refine foldl_id _ fun o ho => formSlot_of_formed o t s (Or.inr ?_)
  have := h o (List.mem_range.mp ho)
  omega

theorem foldl_min_le (f : Nat → Nat) : ∀ (l : List Nat) (m : Nat),
    l.foldl (fun m o => min m (f o)) m ≤ m ∧ ∀ o ∈ l, l.foldl (fun m o => min m (f o)) m ≤ f o
  | [], m => ⟨Nat.le_refl m, by simp⟩
  | x :: l, m => by
    obtain ⟨h1, h2⟩ := foldl_min_le f l (min m (f x))
    rw [List.foldl_cons]
    refine ⟨by omega, fun o ho => ?_⟩
    rcases List.mem_cons.mp ho with rfl | ho
    · omega
    · exact h2 o ho

theorem formedTo_lineSlot (s : State) : s.formedTo s.lineSlot :=
  fun o ho => (foldl_min_le s.oa.next.get (List.range 16) 64).2 o (List.mem_range.mpr ho)

/-- Forming from where the line stands is forming from slot 0 on. -/
theorem formSlots_eq (k : Nat) (s : State) : formSlots k s = (List.range k).foldl (fun s t => formColumn t s) s := by
  have hId : ∀ j ≤ s.lineSlot, (List.range j).foldl (fun s t => formColumn t s) s = s := fun j hj =>
    foldl_id _ fun t ht => formColumn_of_formedTo t s.lineSlot s (formedTo_lineSlot s) (by
      have := List.mem_range.mp ht
      omega)
  unfold formSlots
  by_cases h : s.lineSlot ≤ k
  · obtain ⟨n, rfl⟩ := Nat.exists_eq_add_of_le h
    rw [Nat.add_sub_cancel_left, List.range_eq_range', ← List.range'_append_1, List.foldl_append, Nat.zero_add,
      ← List.range_eq_range', hId _ (Nat.le_refl _)]
  · rw [Nat.sub_eq_zero_of_le (by omega), hId k (by omega)]
    rfl

/-- Slots that have all been formed are not formed again. -/
theorem formSlots_of_formedTo (k : Nat) (s : State) (h : s.formedTo k) : formSlots k s = s := by
  rw [formSlots_eq]
  exact foldl_id _ fun t ht => formColumn_of_formedTo t k s h (List.mem_range.mp ht)

theorem formSlots_zero (s : State) : formSlots 0 s = s := by
  rw [formSlots_eq]
  rfl

/-- The slots of one column after those before it. -/
theorem formSlots_succ (k : Nat) (s : State) : formSlots (k + 1) s = formColumn k (formSlots k s) := by
  simp [formSlots_eq, List.range_succ]

/-- A formation whose earlier slots have been formed forms its own slot only. -/
theorem formInOrder_of_formedTo (stream slot : Nat) (s : State) (h : s.formedTo slot) :
    formInOrder stream slot s = formSlot stream slot s := by
  unfold formInOrder
  rw [formSlots_of_formedTo slot s h]
  split
  · rfl
  · next hn => exact (formSlot_of_formed stream slot s (Or.inr (by omega))).symm

/-- The lowest slot not formed of each stream, after a formation. -/
theorem next_formSlot (stream slot o : Nat) (s : State) :
    (formSlot stream slot s).oa.next.get o =
      if s.oa.inProgress = true ∧ s.oa.next.get stream ≤ slot ∧ stream % 16 = o % 16 then slot + 1
      else s.oa.next.get o := by
  have hNext : (slotByte (flat stream slot) s).2.oa.next = s.oa.next :=
    slotByte_keeps (·.oa.next) (fun _ _ _ => rfl) (fun _ _ => rfl) _ s
  unfold formSlot
  by_cases h : s.oa.inProgress = true ∧ s.oa.next.get stream ≤ slot
  · rw [if_pos h]
    simp only [putSlot, hNext, Table.get_set, h.1, h.2, true_and]
    rfl
  · rw [if_neg h, if_neg fun h' => h ⟨h'.1, h'.2.1⟩]

theorem next_formColumn_part (t o : Nat) (s : State) (ho : o < 16) : ∀ n ≤ 16,
    ((List.range n).foldl (fun s st => formSlot st t s) s).oa.next.get o =
      if s.oa.inProgress = true ∧ s.oa.next.get o ≤ t ∧ o < n then t + 1 else s.oa.next.get o := by
  intro n
  induction n with
  | zero => simp
  | succ n ih =>
    intro hn
    have hProgress : ∀ l : List Nat, (l.foldl (fun s st => formSlot st t s) s).oa.inProgress = s.oa.inProgress :=
      fun l => foldl_keeps (·.oa.inProgress) _ (fun s st => formSlot_oa_inProgress st t s) l s
    have ih := ih (by omega)
    rw [List.range_succ, List.foldl_append, List.foldl_cons, List.foldl_nil, next_formSlot, hProgress]
    by_cases hno : n = o
    · subst hno
      rw [ih]
      simp
    · have h1 : ¬n % 16 = o % 16 := by omega
      have h2 : o < n + 1 ↔ o < n := by omega
      simp only [h1, and_false, if_false, ih, h2]

/-- After a column has been formed. -/
theorem next_formColumn (t o : Nat) (s : State) (ho : o < 16) :
    (formColumn t s).oa.next.get o =
      if s.oa.inProgress = true ∧ s.oa.next.get o ≤ t then t + 1 else s.oa.next.get o := by
  rw [formColumn, next_formColumn_part t o s ho 16 (by omega)]
  simp [ho]

/-- After slots 0 to `k` − 1 have been formed. -/
theorem next_formSlots (k o : Nat) (s : State) (ho : o < 16) :
    (formSlots k s).oa.next.get o = if s.oa.inProgress = true then max (s.oa.next.get o) k else s.oa.next.get o := by
  induction k with
  | zero => simp [formSlots_zero]
  | succ k ih =>
    rw [formSlots_succ, next_formColumn k o _ ho, formSlots_oa_inProgress, ih]
    by_cases hp : s.oa.inProgress = true
    · simp only [hp, if_true, true_and]
      split <;> omega
    · simp [hp]

/-- In a frame, forming the slots before `k` leaves none of them unformed. -/
theorem formSlots_formedTo (k : Nat) (s : State) (h : s.oa.inProgress = true) : (formSlots k s).formedTo k := by
  intro o ho
  rw [next_formSlots k o s ho, if_pos h]
  omega

/-- Where the line stands, as the statements say it. -/
theorem passed_iff (s : State) (stream slot : Nat) : s.passed stream slot = true ↔ s.linePassed stream slot := by
  simp [State.passed, State.linePassed]

end Sys2Proof.Machine
end

