-- ==== Sys2Proof/Laws/Journal.lean ====
section
/-! SUPPORT. What staging does to the journal, slot by slot. -/

namespace Sys2Proof.Machine

theorem journalGet_nil (slot : Nat) : journalGet [] slot = none := rfl

theorem journalGet_cons (e : JournalEntry) (j : List JournalEntry) (slot : Nat) :
    journalGet (e :: j) slot = if e.slot = slot then some e.entry else journalGet j slot := by
  by_cases h : e.slot = slot <;> simp [journalGet, h]

/-- A slot has an entry exactly when the journal lists it. -/
theorem journalGet_eq_none (j : List JournalEntry) (slot : Nat) :
    journalGet j slot = none ↔ slot ∉ j.map (·.slot) := by
  induction j with
  | nil => simp [journalGet]
  | cons e j ih =>
    rw [journalGet_cons]
    by_cases h : e.slot = slot
    · simp [h]
    · have h' : slot ≠ e.slot := fun x => h x.symm
      simp [h, h', ih]

/-- In a journal without two entries for one slot, an entry that it lists is the entry of its slot. -/
theorem journalGet_of_mem {j : List JournalEntry} (h : (j.map (·.slot)).Nodup) {e : JournalEntry} (he : e ∈ j) :
    journalGet j e.slot = some e.entry := by
  induction j with
  | nil => cases he
  | cons a j ih =>
    rw [List.map_cons, List.nodup_cons] at h
    rw [journalGet_cons]
    rcases List.mem_cons.1 he with rfl | he
    · simp
    · have : a.slot ≠ e.slot := fun x => h.1 (x ▸ List.mem_map_of_mem he)
      rw [if_neg this]
      exact ih h.2 he

/-- An entry that is found is listed. -/
theorem mem_of_journalGet {j : List JournalEntry} {slot : Nat} {x : Entry} (h : journalGet j slot = some x) :
    ⟨slot, x⟩ ∈ j := by
  induction j with
  | nil => cases h
  | cons a j ih =>
    rw [journalGet_cons] at h
    split at h
    · rename_i hs
      cases h
      cases a
      cases hs
      exact List.mem_cons_self
    · exact List.mem_cons_of_mem _ (ih h)

theorem journalGet_append (j k : List JournalEntry) (slot : Nat) :
    journalGet (j ++ k) slot = (journalGet j slot).or (journalGet k slot) := by
  induction j with
  | nil => simp [journalGet]
  | cons a j ih =>
    rw [List.cons_append, journalGet_cons, journalGet_cons, ih]
    split <;> simp

theorem journalGet_filter_ne (j : List JournalEntry) (t slot : Nat) :
    journalGet (j.filter fun e => e.slot ≠ t) slot = if slot = t then none else journalGet j slot := by
  induction j with
  | nil => simp [journalGet]
  | cons a j ih =>
    rw [journalGet_cons]
    by_cases h : a.slot = t
    · rw [List.filter_cons_of_neg (by simp [h]), ih]
      by_cases hs : slot = t
      · simp [hs]
      · have : a.slot ≠ slot := fun x => hs (x ▸ h)
        simp [hs, this]
    · rw [List.filter_cons_of_pos (by simp [h]), journalGet_cons, ih]
      by_cases hs : a.slot = slot
      · have : slot ≠ t := fun x => h (hs.trans x)
        simp [hs, this]
      · simp [hs]

theorem journalGet_supersede (j : List JournalEntry) (t slot : Nat) (x : Entry) :
    journalGet (j.map fun e => if e.slot = t then ⟨t, x⟩ else e) slot =
      if slot = t then (journalGet j slot).map fun _ => x else journalGet j slot := by
  induction j with
  | nil => simp [journalGet]
  | cons a j ih =>
    rw [List.map_cons, journalGet_cons, journalGet_cons, ih]
    by_cases h : a.slot = t
    · by_cases hs : slot = t
      · simp [h, hs]
      · have h1 : a.slot ≠ slot := fun y => hs (y ▸ h)
        have h2 : t ≠ slot := fun y => hs y.symm
        simp [h, hs, h2]
    · by_cases hs : a.slot = slot
      · have : slot ≠ t := fun y => h (hs.trans y)
        simp [hs, this]
      · simp [h, hs]

/-- After one target slot is treated (R40), its entry is the staged one, or none where that equals the active entry; no
other slot's entry changes. -/
theorem journalGet_treat (active : Table Entry 10) (j : List JournalEntry) (p : Nat × Entry) (slot : Nat) :
    journalGet (treat active j p) slot =
      if slot = p.1 then (if p.2 = active.get p.1 then none else some p.2) else journalGet j slot := by
  unfold treat treatmentOf
  cases hj : journalGet j p.1 with
  | none =>
    by_cases ha : p.2 = active.get p.1
    · by_cases hs : slot = p.1
      · simp [ha, hs, hj]
      · simp [ha, hs]
    · have ha' : (p.2 == active.get p.1) = false := by simp [ha]
      simp only [Option.isSome_none, ha']
      rw [journalGet_append, journalGet_cons, journalGet_nil]
      by_cases hs : slot = p.1
      · simp [ha, hs, hj]
      · have : p.1 ≠ slot := fun y => hs y.symm
        simp [hs, this]
  | some x =>
    by_cases ha : p.2 = active.get p.1
    · have ha' : (p.2 == active.get p.1) = true := by simp [ha]
      simp only [Option.isSome_some, ha']
      rw [journalGet_filter_ne]
      by_cases hs : slot = p.1 <;> simp [ha, hs]
    · have ha' : (p.2 == active.get p.1) = false := by simp [ha]
      simp only [Option.isSome_some, ha']
      rw [journalGet_supersede]
      by_cases hs : slot = p.1
      · simp [ha, hs, hj]
      · simp [hs]

/-- Treating one target slot keeps the journal free of two entries for one slot. -/
theorem nodup_treat (active : Table Entry 10) {j : List JournalEntry} (p : Nat × Entry)
    (h : (j.map (·.slot)).Nodup) : ((treat active j p).map (·.slot)).Nodup := by
  unfold treat treatmentOf
  cases hj : journalGet j p.1 with
  | none =>
    by_cases ha : p.2 = active.get p.1
    · simpa [ha] using h
    · have ha' : (p.2 == active.get p.1) = false := by simp [ha]
      simp only [Option.isSome_none, ha', List.map_append, List.map_cons, List.map_nil]
      have hn : p.1 ∉ j.map (·.slot) := (journalGet_eq_none j p.1).1 hj
      exact List.nodup_append.2 ⟨h, List.nodup_singleton _, by
        intro a ha b hb
        rw [List.mem_singleton] at hb
        subst hb
        exact fun hab => hn (hab ▸ ha)⟩
  | some x =>
    by_cases ha : p.2 = active.get p.1
    · have ha' : (p.2 == active.get p.1) = true := by simp [ha]
      simp only [Option.isSome_some, ha']
      exact h.sublist (List.filter_sublist.map _)
    · have ha' : (p.2 == active.get p.1) = false := by simp [ha]
      simp only [Option.isSome_some, ha']
      have : (j.map fun e => if e.slot = p.1 then (⟨p.1, p.2⟩ : JournalEntry) else e).map (·.slot) = j.map (·.slot) := by
        rw [List.map_map]
        apply List.map_congr_left
        intro e _
        by_cases he : e.slot = p.1 <;> simp [he]
      rw [this]
      exact h

/-- After a staging command (R40), with distinct target slots: each target slot has its staged entry, or none where that
equals the active entry; every other slot keeps its entry. -/
theorem journalGet_treatAll (active : Table Entry 10) (plan : Plan) :
    ∀ (j : List JournalEntry), (plan.map (·.1)).Nodup → ∀ slot,
      journalGet (treatAll active j plan) slot =
        match plan.find? fun p => p.1 == slot with
        | some p => if p.2 = active.get slot then none else some p.2
        | none => journalGet j slot := by
  induction plan with
  | nil => intro j _ slot; rfl
  | cons p plan ih =>
    intro j h slot
    rw [List.map_cons, List.nodup_cons] at h
    have := ih (treat active j p) h.2 slot
    rw [treatAll, List.foldl_cons, ← treatAll, this, List.find?_cons, journalGet_treat]
    by_cases hp : p.1 = slot
    · subst hp
      have hnone : plan.find? (fun q => q.1 == p.1) = none := by
        rw [List.find?_eq_none]
        intro q hq hqs
        exact h.1 (List.mem_map.2 ⟨q, hq, by simpa using hqs⟩)
      simp [hnone]
    · have hp' : (p.1 == slot) = false := by simp [hp]
      have hp2 : ¬slot = p.1 := fun x => hp x.symm
      simp [hp', hp2]

/-- The target slots of a plan built slot after slot are distinct. -/
theorem nodup_planOf (head width : Nat) (entry : Nat → Entry) : ((planOf head width entry).map (·.1)).Nodup := by
  have : (planOf head width entry).map (·.1) = (List.range width).map (head + ·) := by
    simp [planOf, List.map_map, Function.comp_def]
  rw [this]
  exact List.Nodup.map (fun a b h => Nat.add_left_cancel h) List.nodup_range

end Sys2Proof.Machine
end

