-- ==== Sys2Proof/Laws/PerInstr.lean ====
section
/-! SUPPORT. Statements about every command as syntax, one lemma for each constructor. -/

namespace Sys2Proof

/-- The operands that name a stream, a slot or a register word name one that the part has. -/
def Instr.PlacesExist : Instr → Prop
  | .inputByteCapture stream slot _ => stream < 16 ∧ slot < 64
  | .outputSlotFormation stream slot => stream < 16 ∧ slot < 64
  | .expfClear word _ => word < 2
  | .iflagClear word _ => word < 2
  | .imaskWrite word _ => word < 2
  | .ilvlWrite word _ => word < 7
  | _ => True

/-- The check of a command's operands is that of the places they name. -/
def Laws.Places.Statement (i : Instr) : Prop := i.wellFormed = true ↔ i.PlacesExist

theorem Laws.Places.frameStart (e : FrameEvent) : Laws.Places.Statement (.frameStart e) :=
  ⟨fun _ => trivial, fun _ => rfl⟩

theorem Laws.Places.leaseExpiry (e : FrameEvent) : Laws.Places.Statement (.leaseExpiry e) :=
  ⟨fun _ => trivial, fun _ => rfl⟩

theorem Laws.Places.commitApplication (e : FrameEvent) : Laws.Places.Statement (.commitApplication e) :=
  ⟨fun _ => trivial, fun _ => rfl⟩

theorem Laws.Places.durationExpiry (e : FrameEvent) : Laws.Places.Statement (.durationExpiry e) :=
  ⟨fun _ => trivial, fun _ => rfl⟩

theorem Laws.Places.inputByteCapture (stream slot : Nat) (byte : Byte) :
    Laws.Places.Statement (.inputByteCapture stream slot byte) := by
  show placeOk stream slot = true ↔ stream < 16 ∧ slot < 64
  simp [placeOk]

theorem Laws.Places.outputSlotFormation (stream slot : Nat) :
    Laws.Places.Statement (.outputSlotFormation stream slot) := by
  show placeOk stream slot = true ↔ stream < 16 ∧ slot < 64
  simp [placeOk]

theorem Laws.Places.connect : Laws.Places.Statement .connect :=
  ⟨fun _ => trivial, fun _ => rfl⟩

theorem Laws.Places.setConstant : Laws.Places.Statement .setConstant :=
  ⟨fun _ => trivial, fun _ => rfl⟩

theorem Laws.Places.setTest : Laws.Places.Statement .setTest :=
  ⟨fun _ => trivial, fun _ => rfl⟩

theorem Laws.Places.disconnect : Laws.Places.Statement .disconnect :=
  ⟨fun _ => trivial, fun _ => rfl⟩

theorem Laws.Places.commit : Laws.Places.Statement .commit :=
  ⟨fun _ => trivial, fun _ => rfl⟩

theorem Laws.Places.cancel : Laws.Places.Statement .cancel :=
  ⟨fun _ => trivial, fun _ => rfl⟩

theorem Laws.Places.discard : Laws.Places.Statement .discard :=
  ⟨fun _ => trivial, fun _ => rfl⟩

theorem Laws.Places.reserve : Laws.Places.Statement .reserve :=
  ⟨fun _ => trivial, fun _ => rfl⟩

theorem Laws.Places.hunt : Laws.Places.Statement .hunt :=
  ⟨fun _ => trivial, fun _ => rfl⟩

theorem Laws.Places.release : Laws.Places.Statement .release :=
  ⟨fun _ => trivial, fun _ => rfl⟩

theorem Laws.Places.renew : Laws.Places.Statement .renew :=
  ⟨fun _ => trivial, fun _ => rfl⟩

theorem Laws.Places.configureEngine : Laws.Places.Statement .configureEngine :=
  ⟨fun _ => trivial, fun _ => rfl⟩

theorem Laws.Places.start : Laws.Places.Statement .start :=
  ⟨fun _ => trivial, fun _ => rfl⟩

theorem Laws.Places.stop : Laws.Places.Statement .stop :=
  ⟨fun _ => trivial, fun _ => rfl⟩

theorem Laws.Places.inject : Laws.Places.Statement .inject :=
  ⟨fun _ => trivial, fun _ => rfl⟩

theorem Laws.Places.snapshot : Laws.Places.Statement .snapshot :=
  ⟨fun _ => trivial, fun _ => rfl⟩

theorem Laws.Places.pop : Laws.Places.Statement .pop :=
  ⟨fun _ => trivial, fun _ => rfl⟩

theorem Laws.Places.softReset : Laws.Places.Statement .softReset :=
  ⟨fun _ => trivial, fun _ => rfl⟩

theorem Laws.Places.unknownCommand : Laws.Places.Statement .unknownCommand :=
  ⟨fun _ => trivial, fun _ => rfl⟩

theorem Laws.Places.commandOverrun (value : Word) : Laws.Places.Statement (.commandOverrun value) :=
  ⟨fun _ => trivial, fun _ => rfl⟩

theorem Laws.Places.overrunFlagClear (value : Word) : Laws.Places.Statement (.overrunFlagClear value) :=
  ⟨fun _ => trivial, fun _ => rfl⟩

theorem Laws.Places.idlecWrite (value : Word) : Laws.Places.Statement (.idlecWrite value) :=
  ⟨fun _ => trivial, fun _ => rfl⟩

theorem Laws.Places.folimWrite (value : Word) : Laws.Places.Statement (.folimWrite value) :=
  ⟨fun _ => trivial, fun _ => rfl⟩

theorem Laws.Places.svenWrite (value : Word) : Laws.Places.Statement (.svenWrite value) :=
  ⟨fun _ => trivial, fun _ => rfl⟩

theorem Laws.Places.svfrcWrite (value : Word) : Laws.Places.Statement (.svfrcWrite value) :=
  ⟨fun _ => trivial, fun _ => rfl⟩

theorem Laws.Places.svthrWrite (value : Word) : Laws.Places.Statement (.svthrWrite value) :=
  ⟨fun _ => trivial, fun _ => rfl⟩

theorem Laws.Places.expfClear (word : Nat) (value : Word) : Laws.Places.Statement (.expfClear word value) :=
  decide_eq_true_iff

theorem Laws.Places.iflagClear (word : Nat) (value : Word) : Laws.Places.Statement (.iflagClear word value) :=
  decide_eq_true_iff

theorem Laws.Places.imaskWrite (word : Nat) (value : Word) : Laws.Places.Statement (.imaskWrite word value) :=
  decide_eq_true_iff

theorem Laws.Places.ilvlWrite (word : Nat) (value : Word) : Laws.Places.Statement (.ilvlWrite word value) :=
  decide_eq_true_iff

theorem Laws.Places.ithrWrite (value : Word) : Laws.Places.Statement (.ithrWrite value) :=
  ⟨fun _ => trivial, fun _ => rfl⟩

theorem Laws.Places.inspectActiveEntry (index : BitVec 11) : Laws.Places.Statement (.inspectActiveEntry index) :=
  ⟨fun _ => trivial, fun _ => rfl⟩

theorem Laws.Places.inspectEffectiveEntry (index : BitVec 11) :
    Laws.Places.Statement (.inspectEffectiveEntry index) :=
  ⟨fun _ => trivial, fun _ => rfl⟩

theorem Laws.Places.inspectJournal (index : BitVec 11) : Laws.Places.Statement (.inspectJournal index) :=
  ⟨fun _ => trivial, fun _ => rfl⟩

theorem Laws.Places.inspectFanOut (index : BitVec 11) : Laws.Places.Statement (.inspectFanOut index) :=
  ⟨fun _ => trivial, fun _ => rfl⟩

theorem Laws.Places.inspectReservation (index : BitVec 11) : Laws.Places.Statement (.inspectReservation index) :=
  ⟨fun _ => trivial, fun _ => rfl⟩

theorem Laws.Places.inspectEngineConfiguration (index : BitVec 11) :
    Laws.Places.Statement (.inspectEngineConfiguration index) :=
  ⟨fun _ => trivial, fun _ => rfl⟩

theorem Laws.Places.inspectLiveCounters (index : BitVec 11) : Laws.Places.Statement (.inspectLiveCounters index) :=
  ⟨fun _ => trivial, fun _ => rfl⟩

theorem Laws.Places.inspectSnapshot (index : BitVec 11) : Laws.Places.Statement (.inspectSnapshot index) :=
  ⟨fun _ => trivial, fun _ => rfl⟩

theorem Laws.Places.inspectResultQueue (index : BitVec 11) : Laws.Places.Statement (.inspectResultQueue index) :=
  ⟨fun _ => trivial, fun _ => rfl⟩

theorem Laws.Places.inspectHoldByte (index : BitVec 11) : Laws.Places.Statement (.inspectHoldByte index) :=
  ⟨fun _ => trivial, fun _ => rfl⟩

theorem Laws.Places.inspectSupervisor (index : BitVec 11) (sf : Word) :
    Laws.Places.Statement (.inspectSupervisor index sf) :=
  ⟨fun _ => trivial, fun _ => rfl⟩

theorem Laws.Places.inspectInvalid (value : BusWord) : Laws.Places.Statement (.inspectInvalid value) :=
  ⟨fun _ => trivial, fun _ => rfl⟩

theorem Laws.Places.registerWrite (cycle : BusCycle) (address : BitVec 7) (value : BusWord) :
    Laws.Places.Statement (.registerWrite cycle address value) :=
  ⟨fun _ => trivial, fun _ => rfl⟩

theorem Laws.Places.hardwareReset (cause : ResetCause) : Laws.Places.Statement (.hardwareReset cause) :=
  ⟨fun _ => trivial, fun _ => rfl⟩

theorem Laws.Places.commandTaken (value : Word) : Laws.Places.Statement (.commandTaken value) :=
  ⟨fun _ => trivial, fun _ => rfl⟩

theorem Laws.Places.resetNRelease (cause : ResetCause) (minimumMet : Bool) :
    Laws.Places.Statement (.resetNRelease cause minimumMet) :=
  ⟨fun _ => trivial, fun _ => rfl⟩

end Sys2Proof
end

