-- ==== Sys2Proof/Laws/Ranges.lean ====
section
/-! SUPPORT. A state brought into range has every piece of it in its range (R177). -/

namespace Sys2Proof.Machine

/-- A value brought into range is in range, where the given value is. -/
theorem within_inRange {α : Type} (p : α → Bool) (d x : α) (hd : p d = true) : p (within p d x) = true := by
  unfold within
  split
  · assumption
  · exact hd

/-- Every entry of a table brought into range is. -/
theorem Table.get_within {α : Type} {d : Nat} (p : α → Bool) (x : α) (t : Table α d) (i : Nat) :
    (Table.within p x t).get i = Machine.within p x (t.get (i % 2 ^ d)) :=
  Table.get_tabulate d _ i

theorem Table.get_within_inRange {α : Type} {d : Nat} (p : α → Bool) (x : α) (hx : p x = true) (t : Table α d)
    (i : Nat) : p ((Table.within p x t).get i) = true := by
  rw [Table.get_within]
  exact within_inRange p x _ hx

/-! ### The checks and the ranges -/

theorem Entry.inRange_iff (e : Entry) : e.inRange = true ↔ e.InRange := by
  cases e <;> simp [Entry.inRange, Entry.InRange, placeInRange] <;> omega

theorem Claim.inRange_iff (c : Claim) : c.inRange = true ↔ c.Ok := by
  simp [Claim.inRange, Claim.Ok, and_assoc]

theorem SvState.inRange_iff (v : SvState) : v.inRange = true ↔ v.Ok := by
  cases v <;> simp [SvState.inRange, SvState.Ok]

theorem EngineConfig.inRange_iff (c : EngineConfig) : c.inRange = true ↔ c.InRange := by
  simp [EngineConfig.inRange, EngineConfig.InRange, and_assoc]

theorem LiveCounters.inRange_iff (l : LiveCounters) : l.inRange = true ↔ l.InRange := by
  unfold LiveCounters.inRange LiveCounters.InRange
  cases l.firstLock <;> simp

theorem ResultRecord.inRange_iff (r : ResultRecord) : r.inRange = true ↔ r.InRange := by
  simp [ResultRecord.inRange, ResultRecord.InRange, LiveCounters.inRange_iff]

theorem Checker.inRange_of (cfg : EngineConfig) (c : Checker) (h : c.inRange cfg = true) : c.InRange cfg := by
  cases c <;> simp_all [Checker.inRange, Checker.InRange]

/-- An engine brought into range. -/
theorem Engine.intoRange_inRange (e : Engine) : e.intoRange.InRange := by
  refine ⟨?_, ?_, ?_, ?_, ?_, ?_, ?_⟩
  · exact (EngineConfig.inRange_iff _).mp (within_inRange _ _ _ (by decide))
  · exact Nat.min_le_right _ _
  · have hcfg : e.intoRange.cfg.InRange := (EngineConfig.inRange_iff _).mp (within_inRange _ _ _ (by decide))
    have h0 : Sequence.inRange e.intoRange.cfg .reset = true := decide_eq_true (show 0 < e.intoRange.cfg.len by
      have := hcfg.1
      omega)
    exact of_decide_eq_true (within_inRange (Sequence.inRange e.intoRange.cfg) .reset e.gen.seq h0)
  · exact Checker.inRange_of _ _ (within_inRange _ _ _ rfl)
  · exact (LiveCounters.inRange_iff _).mp (within_inRange _ _ _ rfl)
  · exact (LiveCounters.inRange_iff _).mp (within_inRange _ _ _ rfl)
  · intro r hr
    have h : RunState.inRange e.intoRange.run = true := within_inRange RunState.inRange .idle e.run rfl
    rw [hr] at h
    exact (ResultRecord.inRange_iff r).mp h

theorem Emission.intoRange_inRange (em : Emission) :
    em.intoRange.cfg.InRange ∧ ∀ q, em.intoRange.tail = some q → q.wordPos < em.intoRange.cfg.len := by
  have hcfg : em.intoRange.cfg.InRange := (EngineConfig.inRange_iff _).mp (within_inRange _ _ _ (by decide))
  refine ⟨hcfg, fun q hq => ?_⟩
  have h0 : Sequence.inRange em.intoRange.cfg .reset = true := decide_eq_true (show 0 < em.intoRange.cfg.len by
    have := hcfg.1
    omega)
  obtain ⟨x, -, rfl⟩ := Option.map_eq_some_iff.mp hq
  exact of_decide_eq_true (within_inRange (Sequence.inRange em.intoRange.cfg) .reset x h0)

/-- A state brought into range: each piece of it is (R177). -/
theorem State.intoRange_inRange (s : State) : s.intoRange.InRange := by
  refine ⟨fun i _ => ⟨?_, ?_⟩, ?_, ?_, ?_, ?_, ?_, ?_, ?_, fun i _ => ⟨?_, ?_⟩, ?_, ?_, ?_, ?_, ?_, ?_, ?_, ?_⟩
  · exact (Entry.inRange_iff _).mp (Table.get_within_inRange _ _ rfl _ i)
  · exact of_decide_eq_true (Table.get_within_inRange (· ≤ 64) 0 rfl s.cm.fanout i)
  · have := within_inRange (fun x : BitVec 7 => 1 ≤ x.toNat && x.toNat ≤ 64) 64 s.cm.folim rfl
    exact of_decide_eq_true (Bool.and_eq_true_iff.mp this).1
  · have := within_inRange (fun x : BitVec 7 => 1 ≤ x.toNat && x.toNat ≤ 64) 64 s.cm.folim rfl
    exact of_decide_eq_true (Bool.and_eq_true_iff.mp this).2
  · simp only [State.intoRange, List.length_take]
    omega
  · intro e he
    have h := (List.mem_filter.mp (List.mem_of_mem_take he)).2
    simp only [JournalEntry.inRange, Bool.and_eq_true, decide_eq_true_eq, Entry.inRange_iff] at h
    exact h
  · intro r _ c hc
    have h : Reservation.inRange (s.intoRange.sau.recs.get r) = true := Table.get_within_inRange _ _ rfl _ r
    rw [Reservation.inRange, hc] at h
    exact (Claim.inRange_iff c).mp h
  · exact of_decide_eq_true (within_inRange (fun x : BitVec 4 => decide (x ≠ 0)) 3 s.sv.decl rfl)
  · exact of_decide_eq_true (within_inRange (fun x : Byte => decide (x ≠ 0)) 8 s.sv.clrc rfl)
  · simp only [State.intoRange, Table.get_tabulate]
    exact (SvState.inRange_iff _).mp (within_inRange _ _ _ rfl)
  · exact (SvState.inRange_iff _).mp (Table.get_within_inRange _ _ rfl _ i)
  · intro n _
    simp only [State.engine, State.intoRange, Table.get_tabulate]
    exact Engine.intoRange_inRange _
  · simp only [State.intoRange, List.length_take]
    omega
  · intro r hr
    exact (ResultRecord.inRange_iff r).mp (List.mem_filter.mp (List.mem_of_mem_take hr)).2
  · exact List.nodup_dedup _
  · intro n hn
    have h := List.mem_dedup.mp hn
    exact of_decide_eq_true (List.mem_filter.mp h).2
  · intro k _
    exact of_decide_eq_true
      (Table.get_within_inRange (fun x : BitVec 3 => decide (x ≠ 0)) 1 rfl s.iu.levels k)
  · intro i _
    exact ⟨of_decide_eq_true (Table.get_within_inRange (· ≤ 64) 0 rfl s.rfm.captured i),
      of_decide_eq_true (Table.get_within_inRange (· ≤ 64) 0 rfl s.oa.next i)⟩
  · intro n _ em hem
    simp only [State.intoRange, Table.get_tabulate] at hem
    obtain ⟨x, -, rfl⟩ := Option.map_eq_some_iff.mp hem
    exact Emission.intoRange_inRange x

end Sys2Proof.Machine
end

