-- ==== Sys2Proof/Tests/Slice0.lean ====
section
/-! SUPPORT. The model's own tests: operands that the check refuses, values the spec gives, one step at a time, and a
state that meets the hypotheses of each statement. -/

namespace Sys2Proof.Tests

open Sys2Proof.Machine

set_option Elab.async false

/-! ## Small states -/

/-- The next state of an answer, if it is one. -/
def after (o : Answer) : Option State :=
  match o with
  | .next t => some t
  | _ => none

/-- What is seen of the next state. -/
def seen {α : Type} (i : Instr) (s : State) (f : State → α) : Option α := (after (exec i s)).map f

/-- A command in progress, with its latched parameters. -/
def busy (code : Byte) (p : Params) (s : State) : State :=
  { s with ce := { s.ce with busy := some { code := code, params := p }, lastCode := some code } }

def zeros : Params := ⟨0, 0, 0, 0, 0, 0⟩

def pulse : FrameEvent := { sf := 0, cstrobe := false, cut := false, workFirst := 0 }

/-- A frame in progress. -/
def inFrame (s : State) : State := { s with oa := { s.oa with inProgress := true } }

/-- A frame in progress, of which every slot before `k` has been formed. -/
def lineAt (k : Nat) (s : State) : State :=
  { s with oa := { s.oa with inProgress := true, next := .replicate 4 k } }

/-- One active entry. -/
def withEntry (i : Nat) (e : Entry) (s : State) : State :=
  { s with cm := { s.cm with active := s.cm.active.set i e } }

/-- The engine with a checker of one slot, RUNNING. -/
def runner : Engine :=
  { Engine.reset with cfg := { EngineConfig.reset with pattern := .prbs9, chkWidth := 1 },
                      run := .running 7, checker := .hunting [], lastRun := 1 }

def running (n : Nat) (s : State) : State := s.setEngine n runner

/-- A full result queue. -/
def record : ResultRecord := { engine := 2, outcome := .stopped, runSeq := 5, startCseq := 0, live := .zero }

def withQueue (k : Nat) (s : State) : State := { s with rq := { s.rq with queue := List.replicate k record } }

def claim : Claim := { stream := 3, first := 8, width := 4, tag := 9, lease := 100, remaining := 1 }

def withRec (r : Nat) (x : Reservation) (s : State) : State := s.setRec r x

def withJournal (j : List JournalEntry) (s : State) : State := { s with cj := { s.cj with journal := j } }

def withCommit (t : Trigger) (s : State) : State := { s with cj := { s.cj with commit := some t } }

def answerOf (t : State) : Completion × ResultWords := (t.ce.code, t.ce.res)

/-! ## Operands that the check refuses -/

theorem test_capture_stream_16_refused : (Instr.inputByteCapture 16 0 0).wellFormed = false := by decide
theorem test_capture_slot_64_refused : (Instr.inputByteCapture 0 64 0).wellFormed = false := by decide
theorem test_formation_stream_16_refused : (Instr.outputSlotFormation 16 0).wellFormed = false := by decide
theorem test_formation_slot_64_refused : (Instr.outputSlotFormation 15 64).wellFormed = false := by decide
theorem test_expf_word_2_refused : (Instr.expfClear 2 0).wellFormed = false := by decide
theorem test_iflag_word_2_refused : (Instr.iflagClear 2 0).wellFormed = false := by decide
theorem test_imask_word_2_refused : (Instr.imaskWrite 2 0).wellFormed = false := by decide
theorem test_ilvl_word_7_refused : (Instr.ilvlWrite 7 0).wellFormed = false := by decide
theorem test_last_places_accepted :
    (Instr.inputByteCapture 15 63 0).wellFormed = true ∧ (Instr.ilvlWrite 6 0).wellFormed = true := by decide

/-! ## Values that the spec gives -/

/-- Table 10-1: what the words read after hardware reset. -/
theorem test_reset_words :
    [0x08, 0x10, 0x11, 0x14, 0x18, 0x1B].map (busRead State.reset · false) = [0, 0x54, 0x40, 0x0803, 0, 6] ∧
    [0x2A, 0x2B, 0x2C, 0x32, 0x33, 0x34].map (busRead State.reset · false) =
      [0xFFFF, 0x03FF, 0x1111, 0x0011, 0, 0x003F] ∧
    busRead State.reset 0x1B true = 0x0106 := by
  decide +kernel

/-- R108 and R110: the bytes of a PRBS9 run, plain and inverted. -/
theorem test_prbs9_bytes :
    (let c := { EngineConfig.reset with pattern := .prbs9 }
     let q : Sequence := { reg := BitVec.allOnes 31, wordPos := 0 }
     (List.range 6).map fun k => (nextByte c (seqAfter c (8 * k) q)).1) = [0x07, 0xBE, 0x2E, 0x64, 0x12, 0x9D] ∧
    (let c := { EngineConfig.reset with pattern := .prbs9, invert := true }
     let q : Sequence := { reg := BitVec.allOnes 31, wordPos := 0 }
     (List.range 3).map fun k => (nextByte c (seqAfter c (8 * k) q)).1) = [0xF8, 0x41, 0xD1] := by decide +kernel

/-- R109: a word of 12 bits. -/
theorem test_word_bytes :
    (let c := { EngineConfig.reset with pattern := .word, len := 12, word := 0xABC }
     let q : Sequence := { reg := 0, wordPos := 0 }
     (List.range 4).map fun k => (nextByte c (seqAfter c (8 * k) q)).1) = [0xAB, 0xCA, 0xBC, 0xAB] := by decide +kernel

/-- R172: a write of 0113h takes code 13h. -/
theorem test_command_code_is_the_low_byte :
    seen (.commandTaken 0x0113) State.reset (fun t => t.ce.busy) = some (some { code := 0x13, params := zeros }) := by
  decide +kernel

theorem test_command_overrun :
    seen (.commandOverrun 0x10) (busy 0x18 zeros State.reset) (fun t => (t.ce.overrun, t.flag 5, t.ce.lastCode)) =
      some (true, true, some 0x18) := by decide +kernel

theorem test_overrun_flag_clear :
    seen (.overrunFlagClear 0x4000) { State.reset with ce := { State.reset.ce with overrun := true } }
      (fun t => t.ce.overrun) = some false := by decide +kernel

/-- CONNECT of OS2:4 from IS1:5, ALIGNED, HOLD: two slots. -/
theorem test_connect :
    seen .connect (busy 0x10 ⟨0x0204, 0x0105, 2, 0x0031, 0, 0⟩ State.reset)
      (fun t => (answerOf t, t.effective 133, t.cm.fanout.get 70)) =
      some ((.ok, ⟨2, 2, 0, 0⟩), .switched 70 .aligned false .hold 2 1, 1) := by decide +kernel

theorem test_connect_wide_minimum_refused :
    seen .connect (busy 0x10 ⟨0x0204, 0x0105, 2, 0x0030, 0, 0⟩ State.reset) answerOf =
      some (.badParameter, ⟨0, 0, 0, 0⟩) := by decide +kernel

theorem test_set_constant :
    seen .setConstant (busy 0x11 ⟨0x0F3F, 0, 1, 0, 0x7F, 0⟩ State.reset) (fun t => (answerOf t, t.effective 1023)) =
      some ((.ok, ⟨1, 1, 0, 0⟩), .constant 0x7F 1 0) := by decide +kernel

theorem test_set_test_engine_in_use :
    seen .setTest (busy 0x12 ⟨0x0000, 0, 1, 0, 3, 0⟩ (withEntry 5 (.test 3 1 0) State.reset)) answerOf =
      some (.engineInUse, ⟨0, 5, 0, 0⟩) := by decide +kernel

theorem test_disconnect_part_of_wide :
    seen .disconnect (busy 0x13 ⟨0x0001, 0, 0, 0, 0, 0⟩ (withEntry 1 (.constant 0 2 1) State.reset)) answerOf =
      some (.partOfWide, ⟨0, 0, 0, 0⟩) := by decide +kernel

theorem test_disconnect_withdraws :
    seen .disconnect (busy 0x13 ⟨0, 0, 0, 0, 0, 0⟩ (withJournal [⟨0, .constant 1 1 0⟩] State.reset))
      (fun t => (answerOf t, t.cj.journal)) = some ((.ok, ⟨0, 0, 0, 1⟩), []) := by decide +kernel

theorem test_commit_at_frame :
    seen .commit (busy 0x18 ⟨1, 0x1234, 0, 0, 0, 0⟩ State.reset) (fun t => (answerOf t, t.cj.commit)) =
      some ((.ok, ⟨0, 1, 0, 0⟩), some (.atFrame 0x1234)) := by decide +kernel

theorem test_cancel :
    seen .cancel (busy 0x19 zeros (withCommit .next State.reset)) (fun t => (answerOf t, t.cj.commit)) =
      some ((.ok, ⟨0, 0, 0, 0⟩), none) := by decide +kernel

theorem test_discard_returns_lease :
    seen .discard (busy 0x1A zeros (withRec 3 (.bound claim) State.reset)) (fun t => (t.ce.code, t.sau.recs.get 3)) =
      some (.ok, .held { claim with remaining := 100 }) := by decide +kernel

theorem test_reserve :
    seen .reserve (busy 0x20 ⟨0x0308, 0, 4, 100, 0, 9⟩ State.reset) (fun t => (answerOf t, t.sau.recs.get 0)) =
      some ((.ok, ⟨0, 200, 0, 0⟩), .held { claim with remaining := 100 }) := by decide +kernel

theorem test_reserve_busy_by_record :
    seen .reserve (busy 0x20 ⟨0x030A, 0, 1, 100, 0, 9⟩ (withRec 5 (.held claim) State.reset)) answerOf =
      some (.slotsBusy, ⟨0, 202, 3, 5⟩) := by decide +kernel

/-- R71: with a = 4 and p = 6 the first candidate is slot 8. -/
theorem test_hunt :
    seen .hunt (busy 0x21 ⟨0x0008, 6, 4, 0, 4, 0⟩ State.reset) answerOf = some (.ok, ⟨3, 8, 200, 0xFFFF⟩) := by
  decide +kernel

theorem test_hunt_none_free :
    seen .hunt (busy 0x21 ⟨0xFFFF, 60, 8, 0, 1, 0⟩ State.reset) answerOf = some (.noneFree, ⟨0, 0, 0, 0⟩) := by
  decide +kernel

theorem test_release :
    seen .release (busy 0x22 ⟨31, 0, 0, 0, 0, 9⟩ (withRec 31 (.held claim) State.reset))
      (fun t => (answerOf t, t.sau.recs.get 31)) = some ((.ok, ⟨31, 0, 0, 0⟩), .free) := by decide +kernel

theorem test_renew_tag_mismatch :
    seen .renew (busy 0x23 ⟨0, 0, 0, 5, 0, 8⟩ (withRec 0 (.bound claim) State.reset)) answerOf =
      some (.tagMismatch, ⟨0, 0, 0, 0⟩) := by decide +kernel

theorem test_configure_engine :
    seen .configureEngine (busy 0x30 ⟨0x211B, 0xCDEF, 0x89AB, 0x103F, 0x0F40, 7⟩ State.reset) answerOf =
      some (.badParameter, ⟨3, 0, 0, 0⟩) ∧
    seen .configureEngine (busy 0x30 ⟨0x211B, 0xCDEF, 0x89AB, 0x013F, 0x0F40, 7⟩ State.reset)
      (fun t => (t.engine 3).cfg) =
      some { pattern := .word, invert := false, word := 0x89ABCDEF, len := 8, chkStream := 15, chkSlot := 63,
             chkWidth := 1, lossThreshold := 64, duration := 7, unit := .seconds } := by decide +kernel

theorem test_start :
    seen .start (busy 0x31 ⟨0, 0, 0, 0, 0, 0⟩ (State.reset.setEngine 0 { runner with run := .idle })) answerOf =
      some (.ok, ⟨0, 1, 0, 0⟩) := by decide +kernel

theorem test_start_not_configured :
    seen .start (busy 0x31 ⟨3, 0, 0, 0, 0, 0⟩ State.reset) answerOf = some (.notConfigured, ⟨3, 0, 0, 0⟩) := by
  decide +kernel

theorem test_stop_with_full_queue :
    seen .stop (busy 0x32 ⟨1, 0, 0, 0, 0, 0⟩ (withQueue 8 (running 1 State.reset)))
      (fun t => (answerOf t, t.rq.backlog, t.flag 4)) = some ((.ok, ⟨1, 1, 8, 1⟩), [1], true) := by decide +kernel

/-- R114: the count stops at 255. -/
theorem test_inject_caps :
    seen .inject (busy 0x33 ⟨1, 255, 0, 0, 0, 0⟩
        (State.reset.setEngine 1 { runner with gen := { runner.gen with pendingInj := 3 } })) answerOf =
      some (.ok, ⟨1, 255, 3, 0⟩) := by decide +kernel

theorem test_snapshot :
    seen .snapshot (busy 0x34 ⟨2, 0, 0, 0, 0, 0⟩ (running 2 State.reset))
      (fun t => (answerOf t, (t.engine 2).snap.checker)) = some ((.ok, ⟨2, 1, 1, 0⟩), .hunting) := by decide +kernel

theorem test_pop :
    seen .pop (busy 0x38 zeros (withQueue 2 State.reset)) answerOf = some (.ok, ⟨1, 2, 5, 0xFFFF⟩) := by decide +kernel

theorem test_soft_reset_counts :
    seen .softReset (busy 0x5A zeros (withQueue 8 (withRec 1 (.held claim) (running 3 State.reset))))
      (fun t => (answerOf t, t.iu.flags, (t.engine 3).run)) = some ((.ok, ⟨0, 1, 1, 8⟩), 1, .idle) := by decide +kernel

theorem test_unknown_command :
    seen .unknownCommand (busy 0x99 zeros State.reset) answerOf = some (.unknownCommand, ⟨0x99, 0, 0, 0⟩) := by
  decide +kernel

/-- A frame start from reset: frame 1, in which every slot will carry the idle code. -/
theorem test_first_frame :
    seen (.frameStart pulse) State.reset (fun t => (t.fcnt, t.oa.idleInForce, t.oa.inProgress)) =
      some (1, 0x54, true) := by decide +kernel

/-- A commit with target 1, pending before the first frame start, is applied at it (R2's note). -/
theorem test_commit_application :
    seen (.commitApplication pulse) (withCommit (.atFrame 1) (withJournal [⟨9, .constant 1 1 0⟩] State.reset))
      (fun t => (t.activeEntry 9, t.cj, t.flag 1)) =
      some (.constant 1 1 0, { journal := [], commit := none, cseq := 1, lcf := 1 }, true) := by decide +kernel

theorem test_lease_expiry :
    seen (.leaseExpiry pulse) (withRec 31 (.held claim) State.reset)
      (fun t => (t.sau.recs.get 31, t.sau.expf, t.flag 2)) = some (.free, 0x80000000, true) := by decide +kernel

theorem test_duration_expiry :
    seen (.durationExpiry pulse)
      (State.reset.setEngine 2 { runner with cfg := { runner.cfg with duration := 1 } })
      (fun t => (t.rq.queue.map fun r => (r.engine, r.outcome, r.startCseq, r.live.framesRun), (t.engine 2).run)) =
      some ([(2, .completed, 7, 1)], .idle) := by decide +kernel

theorem test_capture_before_first_frame :
    seen (.inputByteCapture 0 0 0xAA) State.reset (fun t => t.rfm.receiving.get 0) = some 0 ∧
    seen (.inputByteCapture 15 63 0xAA) (lineAt 64 State.reset) (fun t => t.rfm.receiving.get 1023) = some 0xAA := by
  decide +kernel

/-- R5: when the byte of input slot 1 is complete, slots 0 and 1 of every output stream have been formed. -/
theorem test_capture_order :
    seen (.inputByteCapture 4 1 0xAA) (inFrame State.reset)
      (fun t => (t.rfm.receiving.get 257, t.lineByte 15 1, t.lineByte 15 2, t.oa.next.get 0)) =
      some (0xAA, some 0x54, none, 2) := by decide +kernel

theorem test_formation_of_inverted_slot :
    seen (.outputSlotFormation 0 2) (inFrame (withEntry 2 (.switched 0 .minimum true .pass 1 0) State.reset))
      (fun t => (t.lineByte 0 2, t.lineByte 0 3)) = some (some 0xFF, none) := by decide +kernel

theorem test_setting_writes :
    seen (.idlecWrite 0x1299) State.reset (fun t => t.oa.idlec) = some 0x99 ∧
    seen (.folimWrite 65) State.reset (fun t => t.cm.folim) = some 64 ∧
    seen (.folimWrite 1) State.reset (fun t => t.cm.folim) = some 1 ∧
    seen (.svfrcWrite 0x8001) State.reset (fun t => t.sv.svfrc) = some 0x8001 ∧
    seen (.svthrWrite 0x0005) State.reset (fun t => (t.sv.decl, t.sv.clrc)) = some (5, 8) := by decide +kernel

theorem test_disable_in_fault :
    seen (.svenWrite 0) { State.reset with sv := { State.reset.sv with
        sven := 0x8000, sups := State.reset.sv.sups.set 15 { state := .fault, lastSample := some true } } }
      (fun t => (t.sv.sups.get 15, t.flag 25)) = some ({ state := .clear, lastSample := none }, true) := by decide +kernel

theorem test_flag_words :
    seen (.expfClear 1 0x8000) { State.reset with sau := { State.reset.sau with expf := 0x80000001 } }
      (fun t => t.sau.expf) = some 1 ∧
    seen (.iflagClear 1 0xFFFF) { State.reset with iu := { State.reset.iu with flags := 0x3FFFFFF } }
      (fun t => t.iu.flags) = some 0xFFFF ∧
    seen (.imaskWrite 1 0) State.reset (fun t => t.iu.masks) = some 0xFFFF := by decide +kernel

theorem test_levels_and_threshold :
    seen (.ilvlWrite 6 0xFF70) State.reset (fun t => (t.iu.level 24, t.iu.level 25)) = some (1, 7) ∧
    seen (.ithrWrite 7) State.reset (fun t => t.iu.ithr) = some 7 ∧
    seen (.ithrWrite 8) State.reset (fun t => t.iu.ithr) = some 0 := by decide +kernel

/-- R176: the absent markers of an IDLE entry and of a FREE record. -/
theorem test_absent_markers :
    seen (.inspectActiveEntry 1023) State.reset (fun t => (t.biu.valid, t.biu.insd)) =
      some (true, ⟨0x01FC, 0xFFFF, 0xFFFF, 0xFFFF, 0xFFFF, 0, 0, 0⟩) ∧
    seen (.inspectReservation 31) State.reset (fun t => (t.biu.insa, t.biu.insd)) =
      some (0x201F, ⟨0, 0xFFFF, 0xFFFF, 0xFFFF, 0xFFFF, 0xFFFF, 0xFFFF, 0⟩) := by decide +kernel

theorem test_other_inspections :
    seen (.inspectEffectiveEntry 9) (withJournal [⟨9, .test 2 1 0⟩] State.reset) (fun t => t.biu.insd) =
      some ⟨0x01FF, 0xFFFF, 0xFFFF, 2, 1, 1, 0, 0⟩ ∧
    seen (.inspectJournal 0) (withJournal [⟨9, .test 2 1 0⟩] State.reset) (fun t => t.biu.insd.d5) = some 9 ∧
    seen (.inspectJournal 0) State.reset (fun t => t.biu.valid) = some false ∧
    seen (.inspectFanOut 0) State.reset (fun t => t.biu.insd.d1) = some 64 ∧
    seen (.inspectEngineConfiguration 0) State.reset (fun t => t.biu.insd) = some ⟨0x4008, 0, 0, 0, 16, 0, 0, 0⟩ := by
  decide +kernel

theorem test_run_inspections :
    seen (.inspectLiveCounters 3) (running 1 State.reset) (fun t => t.biu.insd) = some ⟨0, 0, 0, 0, 1, 0x0011, 0, 0⟩ ∧
    seen (.inspectSnapshot 7) State.reset (fun t => (t.biu.valid, t.biu.insd)) = some (true, ⟨0, 0, 0, 0, 0, 0, 0, 0⟩) ∧
    seen (.inspectResultQueue 0) (withQueue 1 State.reset) (fun t => t.biu.insd.d0) = some 0x0022 ∧
    seen (.inspectHoldByte 0) State.reset (fun t => t.biu.insd.d0) = some 0x54 ∧
    seen (.inspectSupervisor 15 0x8000) State.reset (fun t => t.biu.insd) =
      some ⟨0, 0x0130, 3, 8, 0, 0, 0, 0⟩ ∧
    seen (.inspectInvalid ⟨0x5800, 0⟩) State.reset (fun t => (t.biu.insa, t.biu.valid)) = some (0x5800, false) := by
  decide +kernel

theorem test_register_write :
    seen (.registerWrite .whole 0x06 ⟨0xBEEF, 0⟩) State.reset (fun t => t.ce.params.p5) = some 0xBEEF ∧
    seen (.registerWrite .endedEarly 0x06 ⟨0xBEEF, 0⟩) State.reset (fun t => t.ce.params.p5) = some 0 ∧
    seen (.registerWrite .whole 0x38 ⟨0x5003, 8⟩) State.reset (fun t => t.biu.insd.d1) = some 0x0130 := by decide +kernel

theorem test_hardware_reset_and_release :
    seen (.hardwareReset .resetN) (busy 0x10 zeros State.reset) (fun t => (t.inReset, t.ce.busy)) = some (true, none) ∧
    seen (.resetNRelease .resetN true) { State.reset with held := { resetN := true, powerUp := false } }
      (fun t => t.inReset) = some false := by decide +kernel

/-! ## States that meet the hypotheses of the statements

Each theorem `witness_<statement>` shows a state and operands that meet the hypotheses of that statement together; where
it has several clauses, one for each, at a boundary of its range. -/

theorem busy_commanded (code : Byte) (p : Params) {s : State} (h : s.inReset = false) :
    (busy code p s).Commanded code p := ⟨h, rfl⟩

/-- A frame in progress in which engine `n` supplies bytes with the configuration of `runner`. -/
def supplying (n : Nat) (tail : Option Sequence) (s : State) : State :=
  { s with oa := { s.oa with inProgress := true, emit := s.oa.emit.set n (some { cfg := runner.cfg, tail := tail }) } }

def inHold (h : ResetHold) (s : State) : State := { s with held := h }

def waiting (q : List Instr) (s : State) : State := { s with pending := q }

/-- All supervisors enabled, and one in a given state. -/
def withSup (i : Nat) (x : SvState) (s : State) : State :=
  { s with sv := { s.sv with sven := 0xFFFF, sups := s.sv.sups.set i { state := x, lastSample := some true } } }

/-- An active entry on slot 5, and a journal. -/
def staged (x : Entry) (j : List JournalEntry) : State := withJournal j (withEntry 5 x State.reset)

theorem staged_activeEntry (x : Entry) (j : List JournalEntry) {i : Nat} (h : i < 1024) :
    (staged x j).activeEntry i = if i = 5 then x else .idle := by
  have h1 : (staged x j).activeEntry i = if 5 % 2 ^ 10 = i % 2 ^ 10 then x else State.reset.activeEntry i :=
    Table.get_set _ _ 5 i
  have h2 : State.reset.activeEntry i = .idle := Table.get_replicate 10 Entry.idle i
  have h3 : i % 2 ^ 10 = i := Nat.mod_eq_of_lt h
  rw [h1, h2, h3]
  by_cases hi : i = 5
  · rw [if_pos hi, if_pos (by omega)]
  · rw [if_neg hi, if_neg (by omega)]

theorem staged_journalLaw {x : Entry} {j : List JournalEntry} (hx : x.OkAt 5)
    (hj : ∀ e ∈ j, e.slot < 1024 ∧ e.entry.OkAt e.slot ∧ e.entry ≠ if e.slot = 5 then x else .idle)
    (hn : (j.map (·.slot)).Nodup) (hl : j.length ≤ 64) : (staged x j).JournalLaw := by
  refine ⟨fun i hi => ?_, fun e he => ?_, hn, hl⟩
  · rw [staged_activeEntry x j hi]
    split
    · subst i
      exact hx
    · trivial
  · obtain ⟨h1, h2, h3⟩ := hj e he
    exact ⟨h1, h2, by rw [staged_activeEntry x j h1]; exact h3⟩

/-- A TEST entry on slot 5 and a staged CONSTANT on slot 9. -/
def stagedConstant : State := staged (.test 3 1 0) [⟨9, .constant 1 1 0⟩]

theorem stagedConstant_journalLaw : stagedConstant.JournalLaw :=
  staged_journalLaw (by simp [Entry.OkAt, runAt, slotOf]) (by simp [Entry.OkAt, runAt, slotOf]) (by simp) (by simp)

/-- The staged removal of the TEST entry on slot 5. -/
def stagedRemoval : State := staged (.test 3 1 0) [⟨5, .idle⟩]

theorem stagedRemoval_journalLaw : stagedRemoval.JournalLaw :=
  staged_journalLaw (by simp [Entry.OkAt, runAt, slotOf]) (by simp [Entry.OkAt]) (by simp) (by simp)

/-- A SWITCHED entry on slot 5, from input slot 63. -/
def switchedSlot : State := staged (.switched 63 .minimum false .hold 1 0) []

theorem switchedSlot_journalLaw : switchedSlot.JournalLaw :=
  staged_journalLaw (by simp [Entry.OkAt, runAt, slotOf]) (by simp) (by simp) (by simp)

/-- A TEST entry on slot 5, and a full journal. -/
def fullJournal : State := staged (.test 3 1 0) ((List.range 64).map fun k => ⟨100 + k, .constant 1 1 0⟩)

theorem fullJournal_journalLaw : fullJournal.JournalLaw := by
  refine staged_journalLaw (by simp [Entry.OkAt, runAt, slotOf]) (fun e he => ?_) (by decide) (by simp)
  obtain ⟨k, hk, rfl⟩ := List.mem_map.1 he
  have := List.mem_range.1 hk
  refine ⟨by simp; omega, ?_, ?_⟩
  · simp only [Entry.OkAt, runAt, slotOf]
    omega
  · have : 100 + k ≠ 5 := by omega
    simp [this]

/-- Record 31 HELD with tag 9 over slots 200 to 203. -/
def oneClaim : State := withRec 31 (.held claim) State.reset

theorem oneClaim_claims {r : Nat} (h : r < 32) (tag : Word) (x : Nat) :
    oneClaim.sau.claims r tag x ↔ r = 31 ∧ tag = 9 ∧ claim.covers x = true := by
  have h1 : oneClaim.sau.recs.get r = if 31 % 2 ^ 5 = r % 2 ^ 5 then .held claim else State.reset.sau.recs.get r :=
    Table.get_set _ _ 31 r
  have h2 : State.reset.sau.recs.get r = .free := Table.get_replicate 5 Reservation.free r
  have h3 : r % 2 ^ 5 = r := Nat.mod_eq_of_lt h
  rw [h2, h3] at h1
  unfold SlotAllocation.claims
  rw [h1]
  by_cases hr : r = 31
  · rw [if_pos (by omega)]
    simp only [Reservation.claim?, Option.some.injEq, exists_eq_left', hr, true_and]
    exact and_congr_left' eq_comm
  · rw [if_neg (by omega)]
    simp [Reservation.claim?, hr]

/-! ### The queue, operands and resets -/

theorem witness_StepRunsTheFrontCommand : State.reset.pending = [] := rfl

theorem witness_OperandsDecideTheAnswerAndTheQueueStays :
    (Instr.ilvlWrite 6 0).wellFormed = true ∧ (Instr.ilvlWrite 7 0).wellFormed = false ∧
      ∃ t, exec (.ilvlWrite 6 0) State.reset = .next t := ⟨rfl, rfl, _, rfl⟩

theorem witness_HeldInResetAndReleased :
    ((inHold ⟨false, true⟩ State.reset).inReset = true ∧ Instr.connect.wellFormed = true ∧
      (∀ cause, Instr.connect ≠ .hardwareReset cause) ∧ (∀ cause m, Instr.connect ≠ .resetNRelease cause m)) ∧
    ((inHold ⟨true, true⟩ State.reset).held.resetN = true ∧ (inHold ⟨true, true⟩ State.reset).held.powerUp = true) ∧
    ((inHold ⟨true, false⟩ State.reset).held.resetN = true ∧ (inHold ⟨true, false⟩ State.reset).held.powerUp = false) ∧
    State.reset.held.resetN = false ∧ State.reset.held.powerUp = false :=
  ⟨⟨rfl, rfl, nofun, nofun⟩, ⟨rfl, rfl⟩, ⟨rfl, rfl⟩, rfl, rfl⟩

theorem witness_SoftResetClearsAndKeeps : (busy 0x5A zeros stagedConstant).Commanded 0x5A zeros := ⟨rfl, rfl⟩

/-! ### The byte path -/

theorem lineAt_formedTo (k : Nat) (s : State) : (lineAt k s).formedTo k := by
  intro o _
  simp [lineAt]

theorem lineAt_firstUnformed {k : Nat} (h : k < 64) (s : State) : (lineAt k s).firstUnformed 0 k :=
  ⟨by decide, h, by simp [lineAt], lineAt_formedTo k s, fun _ h => absurd h (Nat.not_lt_zero _)⟩

theorem witness_CaptureAndRepeatedFrames :
    ((lineAt 64 State.reset).inReset = false ∧ (lineAt 64 State.reset).oa.inProgress = true ∧
      (lineAt 64 State.reset).formedTo (63 + 1) ∧
      ((lineAt 64 State.reset).linePassed 15 63 → (lineAt 64 State.reset).formedTo 64)) ∧
    ((lineAt 2 State.reset).formedTo (0 + 1) ∧ ¬(lineAt 2 State.reset).linePassed 15 0 ∧ 62 + 1 < 64 ∧
      (∃ t, exec (.outputSlotFormation 3 (0 + 1)) (lineAt 2 State.reset) = .next t) ∧
      ∃ t, exec (.inputByteCapture 15 0 7) (lineAt 2 State.reset) = .next t) ∧
    (State.reset.oa.inProgress = false ∧ State.reset.inReset = false) ∧
    63 < (lineAt 64 State.reset).oa.next.get 15 ∧
    ((lineAt 5 State.reset).firstUnformed 0 5 ∧
      (∃ t, exec (.outputSlotFormation 0 5) (lineAt 5 State.reset) = .next t) ∧
      (5 < 6 ∧ (lineAt 5 State.reset).oa.next.get 15 ≤ 6) ∧ 5 ≤ 5 ∧ (lineAt 5 State.reset).linePassed 15 2) := by
  refine ⟨⟨rfl, rfl, lineAt_formedTo 64 _, fun _ => lineAt_formedTo 64 _⟩, ⟨fun o h => ?_, ?_, by decide, ⟨_, rfl⟩, _, rfl⟩, ⟨rfl, rfl⟩,
    ?_, lineAt_firstUnformed (by decide) _, ⟨_, rfl⟩, ⟨by decide, ?_⟩, by decide, Or.inr ⟨0, by decide, Or.inl ?_⟩⟩
  · simp [lineAt]
  · simp [State.linePassed, lineAt, State.reset, ReceiveMemory.reset]
  · simp [lineAt]
  · simp [lineAt]
  · simp [lineAt]

theorem witness_FormedByteOfIdleConstantAndSwitched :
    (∀ x ∈ [Entry.idle, .constant 9 1 0, .switched 61 .minimum true .hold 1 0, .switched 62 .minimum false .pass 1 0],
      (lineAt 63 (withEntry 1023 x State.reset)).activeEntry (64 * 15 + 63) = x ∧
      (lineAt 63 (withEntry 1023 x State.reset)).inReset = false ∧
      (lineAt 63 (withEntry 1023 x State.reset)).oa.inProgress = true ∧
      (lineAt 63 (withEntry 1023 x State.reset)).oa.next.get 15 ≤ 63) ∧
    (∀ s, (lineAt 63 s).formedTo 63) ∧ State.reset.oa.inProgress = false :=
  ⟨by decide +kernel, fun s => lineAt_formedTo 63 s, rfl⟩

theorem witness_FormedByteOfTest :
    (∀ tail, let s := supplying 3 tail (withEntry 0 (.test 3 1 0) (running 3 State.reset))
      s.inReset = false ∧ s.oa.inProgress = true ∧ s.oa.next.get 0 ≤ 0 ∧ s.activeEntry (64 * 0 + 0) = .test 3 1 0 ∧
      s.oa.emit.get 3 = some { cfg := runner.cfg, tail := tail } ∧ (s.engine 3).gen.pendingInj = 0) ∧
    (∀ tail, (supplying 3 tail (withEntry 0 (.test 3 1 0) (running 3 State.reset))).formedTo 0) ∧
    (inFrame State.reset).oa.emit.get 3 = none ∧
    ((State.reset.setEngine 3 { runner with gen := { runner.gen with pendingInj := 255 } }).engine 3).gen.pendingInj =
      254 + 1 := ⟨fun _ => ⟨rfl, rfl, Nat.le_refl 0, rfl, rfl, rfl⟩,
    fun _ _ _ => Nat.zero_le _, rfl, rfl⟩

theorem witness_SequenceBitsAndBytes :
    (∀ c ∈ [(Pattern.prbs9, 9, 5), (.prbs23, 23, 18), (.prbs31, 31, 28)],
      (({ EngineConfig.reset with pattern := c.1 } : EngineConfig).pattern, c.2.1, c.2.2) ∈
        [(Pattern.prbs9, 9, 5), (.prbs23, 23, 18), (.prbs31, 31, 28)]) ∧
    ({ EngineConfig.reset with pattern := .word } : EngineConfig).pattern = .word := by decide

/-! ### Frame starts -/

theorem witness_FrameStartBeginsAFrame : stagedConstant.inReset = false := rfl

theorem witness_SupervisorsSampleAtFrameStart :
    State.reset.sv.sven.getLsbD 15 = false ∧ (withSup 15 (.suspect 14) State.reset).sv.sven.getLsbD 15 = true ∧
      (withSup 15 (.suspect 14) State.reset).inReset = false := by decide +kernel

/-- Any number of frame starts from a state that is out of reset. -/
theorem frameStarts_run (e : FrameEvent) (s : State) (h : s.inReset = false) (k : Nat) :
    ((frameStart e)^[k] s).inReset = false ∧
      exec (.frameStart e) ((frameStart e)^[k] s) = .next ((frameStart e)^[k + 1] s) := by
  have h1 : ∀ k, ((frameStart e)^[k] s).inReset = false := by
    intro k
    induction k with
    | zero => exact h
    | succ k ih =>
      rw [Function.iterate_succ_apply']
      unfold State.inReset
      rw [frameStart_held]
      exact ih
  refine ⟨h1 k, ?_⟩
  rw [Function.iterate_succ_apply']
  exact taken_of_running (h1 k) (frameStart e)

theorem witness_ConsecutiveSamplesDeclareAndClear :
    (∀ x e, ∀ k < 300, ((frameStart e)^[k] (withSup 15 x State.reset)).inReset = false ∧
      exec (.frameStart e) ((frameStart e)^[k] (withSup 15 x State.reset)) =
        .next ((frameStart e)^[k + 1] (withSup 15 x State.reset))) ∧
    (∀ x, (withSup 15 x State.reset).sv.sven.getLsbD 15 = true ∧
      ((withSup 15 x State.reset).sv.sups.get 15).state = x ∧
      (withSup 15 x State.reset).sv.decl ≠ 0 ∧ (withSup 15 x State.reset).sv.clrc ≠ 0 ∧
      (withSup 15 x State.reset).sv.svfrc.getLsbD 15 = false) ∧
    ({ pulse with sf := 0x8000 } : FrameEvent).sf.getLsbD 15 = true ∧ pulse.sf.getLsbD 15 = false := by
  refine ⟨fun x e k _ => frameStarts_run e _ rfl k, fun x => ⟨?_, rfl, ?_, ?_, ?_⟩, by decide, by decide⟩ <;>
    (simp only [withSup]; decide)

theorem witness_LeasesCountDownAtFrameStart :
    oneClaim.expiring 31 ∧ oneClaim.inReset = false ∧
    (withRec 0 (.held { claim with remaining := 2 }) State.reset).sau.recs.get 0 =
      .held { claim with remaining := 2 } ∧
    (withRec 0 (.bound claim) stagedConstant).sau.recs.get 0 = .bound claim ∧
    (withCommit .next (withRec 0 (.bound claim) stagedConstant)).triggerMetAt pulse ∧
    ¬(withRec 0 (.bound claim) stagedConstant).triggerMetAt pulse ∧
    State.reset.sau.recs.get 31 = .free := by
  refine ⟨⟨claim, rfl, rfl⟩, rfl, rfl, rfl, Or.inl rfl, ?_, rfl⟩
  rintro (h | h | h)
  · cases h
  · cases h
  · cases h.1

theorem witness_CommitApplication :
    (withCommit .next stagedConstant).JournalLaw ∧ (withCommit .next stagedConstant).inReset = false ∧
    (withCommit .next stagedConstant).triggerMetAt pulse ∧
    (withCommit (.atFrame 1) stagedConstant).triggerMetAt pulse ∧
    (withCommit .onStrobe stagedConstant).triggerMetAt { pulse with cstrobe := true } ∧
    (withRec 0 (.bound claim) stagedConstant).sau.recs.get 0 = .bound claim :=
  ⟨stagedConstant_journalLaw, rfl, Or.inl rfl, Or.inr (Or.inl rfl), Or.inr (Or.inr ⟨rfl, rfl⟩), rfl⟩

theorem not_triggerMetAt {t : Trigger} (h : t = .onStrobe ∨ t = .atFrame 2) (s : State) (hf : s.fcnt = 0) :
    ¬(withCommit t s).triggerMetAt pulse := by
  rcases h with rfl | rfl <;> simp [State.triggerMetAt, withCommit, pulse, hf]

theorem witness_WithoutTheirOccasion :
    (¬(withCommit .onStrobe stagedConstant).triggerMetAt pulse ∧
      ¬(withCommit (.atFrame 2) stagedConstant).triggerMetAt pulse ∧ stagedConstant.inReset = false) ∧
    (∀ r < 32, ¬State.reset.expiring r) ∧ ¬State.reset.triggerMetAt pulse ∧
    (∀ n < 4, ((running 1 State.reset).engine n).run.isRunning = false ∨
      ¬((running 1 State.reset).engine n).reachesDuration) := by
  refine ⟨⟨not_triggerMetAt (Or.inl rfl) _ rfl, not_triggerMetAt (Or.inr rfl) _ rfl, rfl⟩, fun r _ => ?_, ?_, ?_⟩
  · rintro ⟨c, hc, _⟩
    have : State.reset.sau.recs.get r = .free := Table.get_replicate 5 Reservation.free r
    rw [this] at hc
    cases hc
  · simp [State.triggerMetAt, State.reset, CommitController.reset]
  · unfold Engine.reachesDuration
    decide +kernel

theorem witness_HoldBytesAtFrameStart :
    ((withCommit .next stagedConstant).JournalLaw ∧ (withCommit .next stagedConstant).triggerMetAt pulse ∧
      (withCommit .next stagedConstant).effective 9 ≠ (withCommit .next stagedConstant).activeEntry 9) ∧
    (let s := (inFrame switchedSlot).withByte 0 5 0xAA
     s.JournalLaw ∧ s.inReset = false ∧ s.cj.commit = none ∧
     s.activeEntry 5 = .switched 63 .minimum false .hold 1 0 ∧ s.oa.frameState.get (63 / 64) = .clear ∧
     s.oa.frame.get 5 = some 0xAA ∧ ¬s.cutsOff pulse 5 ∧ s.cutsOff { pulse with cut := true } 5) ∧
    (inFrame switchedSlot).oa.frame.get 5 = none := by
  refine ⟨⟨stagedConstant_journalLaw, Or.inl rfl, by decide +kernel⟩,
    ⟨switchedSlot_journalLaw, rfl, rfl, rfl, rfl, rfl, ?_, ?_⟩, rfl⟩
  · rintro ⟨h, -⟩
    cases h
  · exact ⟨rfl, by decide⟩

/-- Engine 3 RUNNING with `framesRun` frames counted. -/
def runningFor (framesRun : BitVec 32) (s : State) : State :=
  s.setEngine 3 { runner with live := { runner.live with framesRun := framesRun } }

theorem stagedConstant_keepsTest (f : BitVec 32) : (runningFor f (withCommit .next stagedConstant)).keepsTest pulse 3 :=
  Or.inr ⟨stagedConstant_journalLaw, 5, by decide, rfl⟩

theorem witness_FrameStartWorkOfARunningEngine :
    (∀ f, (runningFor f State.reset).inReset = false ∧ ((runningFor f State.reset).engine 3).run = .running 7 ∧
      (runningFor f State.reset).keepsTest pulse 3 ∧ ¬((runningFor f State.reset).engine 3).reachesDuration ∧
      ((runningFor f State.reset).engine 3).live.framesRun = f ∧
      ((runningFor f State.reset).engine 3).checker ≠ .off) ∧
    -- a commit that keeps the engine's TEST connection on slot 5
    (∀ f, (runningFor f (withCommit .next stagedConstant)).triggerMetAt pulse ∧
      (runningFor f (withCommit .next stagedConstant)).keepsTest pulse 3) ∧
    seen (.frameStart pulse) (runningFor 1 State.reset) (fun t => (t.sv.sups.get 0).state.faulted) = some false ∧
    seen (.frameStart { pulse with sf := 1 }) (runningFor 1 (withSup 0 .fault State.reset))
      (fun t => (t.sv.sups.get 0).state.faulted) = some true ∧
    -- an engine that is IDLE, and one that is ENDED
    (State.reset.engine 3).run.isRunning = false ∧
    (∀ r, (State.reset.setEngine 3 { Engine.reset with run := .ended r }).inReset = false ∧
      ((State.reset.setEngine 3 { Engine.reset with run := .ended r }).engine 3).run.isRunning = false) := by
  refine ⟨fun f => ⟨rfl, rfl, Or.inl ?_, fun h => h.1 rfl, rfl, nofun⟩,
    fun f => ⟨Or.inl rfl, stagedConstant_keepsTest f⟩, by decide +kernel, by decide +kernel, rfl,
    fun r => ⟨rfl, rfl⟩⟩
  rintro (h | h | h)
  · cases h
  · cases h
  · cases h.1

/-- What a checker holds before a bit. -/
def work (x : Checker) : CheckWork := { checker := x, bitErrors := 0, syncLosses := 0, changed := false, entered := false }

def word8 : EngineConfig := { EngineConfig.reset with pattern := .word, len := 8, word := 0xF0, lossThreshold := 1 }

theorem witness_CheckerTakesABit :
    (∀ x, (work x).checker = x) ∧ ([] : List Bool).length + 1 < runner.cfg.seedLength ∧
    (List.replicate 8 false).length + 1 = runner.cfg.seedLength ∧ runner.cfg.pattern ≠ .word ∧
    true ∈ List.replicate 8 false ++ [true] ∧ true ∉ List.replicate 8 false ++ [false] ∧
    (List.replicate 7 true).length + 1 = word8.seedLength ∧ word8.pattern = .word ∧
    (let rotation := fun k => (List.range word8.len).map fun i => word8.word.getLsbD (word8.len - 1 - (k + i) % word8.len)
     rotation 7 = [false, true, true, true, true, false, false] ++ [false] ∧
     (∀ j < 7, rotation j ≠ [false, true, true, true, true, false, false] ++ [false]) ∧
     (∀ k < word8.len, rotation k ≠ List.replicate 7 true ++ [true])) ∧
    (∀ b : Bool, b = ((Reference.word (if b then 0 else 4)).predict word8).1 ∧
      b ≠ ((Reference.word (if b then 4 else 0)).predict word8).1) ∧
    62 + 1 < 64 ∧ 63 + 1 = 64 ∧ 254 + 1 < 256 ∧ 255 + 1 = 256 ∧ 0 < word8.lossThreshold ∧ word8.lossThreshold ≤ 1 := by
  refine ⟨fun _ => rfl, ?_⟩
  decide +kernel

theorem witness_CleanSequenceLocks :
    (8 ≤ word8.len ∧ 7 < word8.len ∧ 1 ≤ word8.lossThreshold ∧ word8.pattern = .word) ∧
    (8 ≤ runner.cfg.len ∧ 0 < runner.cfg.len ∧ 1 ≤ runner.cfg.lossThreshold ∧
      true ∈ firstBits runner.cfg runner.cfg.seedLength { reg := 1, wordPos := 0 }) ∧
    (work (.hunting [])).checker = .hunting [] := by decide +kernel

/-- Engine 3 RUNNING, whose duration runs out at the next frame start. -/
def lastFrame (unit : DurationUnit) (f : BitVec 32) (s : State) : State :=
  s.setEngine 3 { runner with
    cfg := { runner.cfg with duration := 1, unit := unit }, live := { runner.live with framesRun := f } }

theorem witness_DurationEndsTheRun :
    (∀ x ∈ [(DurationUnit.frames, (0 : BitVec 32)), (.seconds, 7999)],
      ∀ s ∈ [lastFrame x.1 x.2 State.reset, lastFrame x.1 x.2 (withCommit .next stagedConstant)],
      s.inReset = false ∧ (s.engine 3).run = .running 7 ∧ (s.engine 3).reachesDuration) ∧
    (∀ unit f, (lastFrame unit f State.reset).keepsTest pulse 3 ∧
      (lastFrame unit f (withCommit .next stagedConstant)).triggerMetAt pulse ∧
      (lastFrame unit f (withCommit .next stagedConstant)).keepsTest pulse 3) ∧
    -- a last frame that is read, one that is a fault frame
    seen (.frameStart pulse) (lastFrame .seconds 7999 State.reset)
      (fun t => ((t.sv.sups.get 0).state.faulted, (t.engine 3).live.framesRun)) = some (false, 8000) ∧
    seen (.frameStart { pulse with sf := 1 }) (lastFrame .seconds 7999 (withSup 0 .fault State.reset))
      (fun t => ((t.sv.sups.get 0).state.faulted, (t.engine 3).live.faultFrames)) = some (true, 1) := by
  refine ⟨?_, fun unit f => ⟨Or.inl ?_, Or.inl rfl, Or.inr ⟨stagedConstant_journalLaw, 5, by decide, rfl⟩⟩,
    by decide +kernel, by decide +kernel⟩
  · unfold Engine.reachesDuration
    decide +kernel
  · rintro (h | h | h)
    · cases h
    · cases h
    · cases h.1

theorem witness_PathRemovalEndsTheRun :
    (let s := running 3 (withCommit .next stagedRemoval)
     s.JournalLaw ∧ s.inReset = false ∧ (s.engine 3).run = .running 7 ∧ s.triggerMetAt pulse) ∧
    (∀ i < 1024, ((running 3 (withCommit .next stagedRemoval)).effective i).engine? ≠ some 3) ∧
    pulse.workFirst.getLsbD 3 = false ∧ ({ pulse with workFirst := 8 } : FrameEvent).workFirst.getLsbD 3 = true ∧
    ((lastFrame .seconds 7999 (withCommit .next stagedRemoval)).engine 3).reachesDuration ∧
    ¬((running 3 (withCommit .next stagedRemoval)).engine 3).reachesDuration := by
  refine ⟨⟨stagedRemoval_journalLaw, rfl, rfl, Or.inl rfl⟩, ?_, by decide, by decide, ?_, fun h => h.1 rfl⟩
  · decide +kernel
  · unfold Engine.reachesDuration
    decide +kernel

theorem witness_RecordsHandedOverInEngineOrder :
    (withQueue 7 (lastFrame .frames 0 State.reset)).QueueLaw ∧ (withQueue 7 (lastFrame .frames 0 State.reset)).inReset = false ∧
    seen (.frameStart pulse) (withQueue 7 (lastFrame .frames 0 State.reset))
      (fun t => (List.range 4).filter fun n => ((withQueue 7 (lastFrame .frames 0 State.reset)).engine n).run.isRunning &&
        !(t.engine n).run.isRunning) = some [3] := by
  refine ⟨?_, rfl, by decide +kernel⟩
  unfold State.QueueLaw
  decide +kernel

/-! ### The Command Engine -/

theorem witness_CmdAndCmdstatWrites :
    State.reset.inReset = false ∧ State.reset.ce.busy = none ∧ (busy 0x10 zeros State.reset).ce.busy ≠ none ∧
    (0x4000 : Word).getLsbD 14 = true ∧ (0xBFFF : Word).getLsbD 14 = false := by decide +kernel

theorem reset_not_commanded (code : Byte) (p : Params) : ¬State.reset.Commanded code p := fun h => nomatch h.2

theorem witness_EveryCompletion :
    (∀ x ∈ completions, (busy x.2 zeros State.reset).Commanded x.2 zeros) ∧
    (commandCodes.contains 0xFF = false ∧ (busy 0xFF zeros State.reset).Commanded 0xFF zeros) ∧
    ((Instr.pop, (0x38 : Byte)) ∈ completions ∧
      seen .pop (busy 0x38 zeros State.reset) (fun t => t.ce.code) = some .queueEmpty) ∧
    (∀ p, ¬State.reset.Commanded 0x38 p) ∧
    (∀ code p, State.reset.Commanded code p → commandCodes.contains code = true) :=
  ⟨fun _ _ => busy_commanded _ _ rfl, ⟨by decide, rfl, rfl⟩, ⟨by decide, by decide +kernel⟩,
    fun p => reset_not_commanded _ p, fun c p h => absurd h (reset_not_commanded c p)⟩

theorem witness_UnknownCodesAnswerUnknownCommand :
    ((busy 0x00 zeros State.reset).Commanded 0x00 zeros ∧ (busy 0x00 zeros State.reset).CommandLaw) ∧
    (0x00 : Byte) ∉ ([0x10, 0x11, 0x12, 0x13, 0x18, 0x19, 0x1A, 0x20, 0x21, 0x22, 0x23, 0x30, 0x31, 0x32, 0x33, 0x34,
      0x38, 0x5A] : List Byte) ∧
    (Instr.softReset, (0x5A : Byte)) ∈ completions ∧
    ∃ t, exec .softReset (busy 0x5A zeros State.reset) = .next t :=
  ⟨⟨⟨rfl, rfl⟩, fun _ h => Option.some.inj h ▸ rfl⟩, by decide, by decide, _, rfl⟩

/-! ### Staging -/

theorem witness_StagingParameterCheck :
    (∀ x ∈ stagings, ∀ p, (busy x.2 p (withCommit .next State.reset)).Commanded x.2 p) ∧
    (withCommit .next State.reset).cj.commit ≠ none ∧
    -- the greatest values that pass, and the first that do not
    (let p : Params := ⟨0x0F30, 0x0F30, 16, 0x0035, 0, 255⟩
     ¬(15 < streamField p.p0 ∨ 63 < slotField p.p0 ∨ 15 < streamField p.p1 ∨ 63 < slotField p.p1 ∨
        p.p2.toNat = 0 ∨ 16 < p.p2.toNat ∨ 64 < slotField p.p0 + p.p2.toNat ∨ 64 < slotField p.p1 + p.p2.toNat ∨
        1 < (p.p3 &&& 3).toNat ∨ 1 < ((p.p3 >>> 2) &&& 3).toNat ∨ 3 < ((p.p3 >>> 4) &&& 7).toNat ∨
        (2 ≤ p.p2.toNat ∧ (p.p3 &&& 3).toNat = 0) ∨ 255 < p.p5.toNat)) ∧
    15 < streamField 0x1000 ∧ 63 < slotField 0x0040 ∧ 16 < (17 : Word).toNat ∧ 64 < slotField 0x0F31 + 16 ∧
    1 < ((2 : Word) &&& 3).toNat ∧ 1 < (((8 : Word) >>> 2) &&& 3).toNat ∧ 3 < (((0x40 : Word) >>> 4) &&& 7).toNat ∧
    255 < (256 : Word).toNat ∧ 3 < (4 : Word).toNat :=
  ⟨fun _ _ _ => busy_commanded _ _ rfl, by decide +kernel, by decide⟩

theorem witness_ReservationCheck :
    (∀ x ∈ ([] : List Nat), ∀ r < 32, ∀ other, oneClaim.sau.claims r other x → other = 8) ∧
    (∃ r < 32, ∃ other, oneClaim.sau.claims r other 200 ∧ other ≠ 8) ∧
    (∀ x ∈ [204], ∀ r < 32, ∀ other, oneClaim.sau.claims r other x → other = 0) ∧
    (∀ x ∈ [200, 203, 204], ∀ r < 32, ∀ other, oneClaim.sau.claims r other x → other = 9) ∧
    (∀ r < 32, ¬oneClaim.sau.claims r 9 204) ∧
    (oneClaim.sau.claims 31 9 200 ∧ oneClaim.sau.claims 31 9 203 ∧ (∀ q < 31, ¬oneClaim.sau.claims q 9 200)) := by
  have e := fun {r} (h : r < 32) => oneClaim_claims h
  refine ⟨by simp, ⟨31, by decide, 9, ?_, by decide⟩, ?_, ?_, ?_, ?_, ?_, ?_⟩
  · exact (e (by decide) 9 200).2 ⟨rfl, rfl, by decide⟩
  · intro x hx r hr other h
    have h2 := ((e hr other x).1 h).2.2
    simp only [List.mem_singleton] at hx
    subst hx
    exact absurd h2 (by decide)
  · intro x _ r hr other h
    exact ((e hr other x).1 h).2.1
  · intro r hr h
    exact absurd ((e hr 9 204).1 h).2.2 (by decide)
  · exact (e (by decide) 9 200).2 ⟨rfl, rfl, by decide⟩
  · exact (e (by decide) 9 203).2 ⟨rfl, rfl, by decide⟩
  · intro q hq h
    have := ((e (by omega) 9 200).1 h).1
    omega

/-- The parameters of the staging witnesses: slot 200 with a tag, one slot. -/
def oneSlot (tag : Word) : Params := ⟨0x0308, 0, 1, 0, 3, tag⟩

/-- Slot 200 is not IDLE; the fan-out counter of slot 0 stands at FOLIM. -/
def occupied : State := withEntry 200 (.constant 0 1 0) State.reset

def fedFull : State := { State.reset with cm := { State.reset.cm with fanout := State.reset.cm.fanout.set 0 64 } }

theorem witness_StagingChecksInOrder :
    (∀ s ∈ [oneClaim, State.reset, occupied, fedFull, stagedConstant, fullJournal], ∀ code tag,
      (busy code (oneSlot tag) s).Commanded code (oneSlot tag) ∧ (busy code (oneSlot tag) s).cj.commit = none) ∧
    (connectPlan (oneSlot 0) = some [(200, .switched 0 .minimum false .pass 1 0)] ∧
      connectPlan (oneSlot 8) = some [(200, .switched 0 .minimum false .pass 1 0)] ∧
      connectPlan (oneSlot 9) = some [(200, .switched 0 .minimum false .pass 1 0)] ∧
      constantPlan (oneSlot 0) = some [(200, .constant 3 1 0)] ∧ testPlan (oneSlot 0) = some [(200, .test 3 1 0)]) ∧
    claimCheck oneClaim.sau 8 [200] = .slotReserved 200 31 ∧ claimCheck State.reset.sau 9 [200] = .notReserved 200 32 ∧
    claimCheck oneClaim.sau 9 [200] = .passed (some 31) ∧
    (∀ s ∈ [State.reset, occupied, fedFull, stagedConstant, fullJournal], claimCheck s.sau 0 [200] = .passed none) := by
  refine ⟨fun s hs code tag => ?_, ⟨rfl, rfl, rfl, rfl, rfl⟩, by decide +kernel⟩
  have h : ∀ s ∈ [oneClaim, State.reset, occupied, fedFull, stagedConstant, fullJournal],
      s.inReset = false ∧ s.cj.commit = none := by decide +kernel
  exact ⟨busy_commanded _ _ (h s hs).1, (h s hs).2⟩

theorem witness_StagingChecksInOrder_views :
    occupied.effective 200 ≠ .idle ∧
    (∀ s ∈ [State.reset, fedFull, stagedConstant, fullJournal], s.effective 200 = .idle) ∧
    ([(200, Entry.switched 0 .minimum false .pass 1 0)].filterMap (·.2.source?) = [] ++ 0 :: [] ∧
      fedFull.cm.folim.toNat ≤ fedFull.cm.fanout.get 0 ∧
      State.reset.cm.fanout.get 0 < State.reset.cm.folim.toNat) ∧
    stagedConstant.effective 5 = .test 3 1 0 ∧ (∀ j < 1024, (State.reset.effective j).engine? ≠ some 3) ∧
    64 < finalSize fullJournal.cm.active fullJournal.cj.journal [(200, .constant 3 1 0)] ∧
    (finalSize stagedConstant.cm.active stagedConstant.cj.journal [(200, .constant 3 1 0)] = 2 ∧ 2 ≤ 64) := by
  decide +kernel

theorem witness_StagingChecksInOrder_engine :
    ∀ j w' m, j < 1024 → stagedConstant.effective j = .test 3 w' m → j - m = 5 := by
  intro j w' m hj h
  unfold State.effective stagedConstant at h
  rw [staged_activeEntry _ _ hj] at h
  simp only [staged, withJournal, withEntry, journalGet_cons, journalGet_nil] at h
  by_cases h9 : 9 = j
  · simp [h9] at h
  · by_cases h5 : j = 5
    · simp [h5] at h
      omega
    · simp [h9, h5] at h

theorem witness_ConnectionsAreStaged :
    (∀ code p, (busy code p stagedConstant).Commanded code p ∧ (busy code p stagedConstant).JournalLaw) ∧
    stagedConstant.cj.commit = none ∧
    -- CONNECT of the last 16 slots, with the claim of record 31 on slots 200 to 203, SET CONSTANT and SET TEST
    ((let p : Params := ⟨0x0F30, 0x0F30, 16, 0x0035, 0, 0⟩
      streamField p.p0 = 15 ∧ slotField p.p0 + 16 = 64 ∧ (Delay.aligned, field p.p3 0 2) ∈ delayCodes ∧
        field p.p3 2 2 = 1 ∧ (Conditioning.hold, field p.p3 4 3) ∈ conditioningCodes) ∧
      (∀ k < 16, stagedConstant.effective (1008 + k) = .idle ∧
        stagedConstant.cm.fanout.get (1008 + k) < stagedConstant.cm.folim.toNat) ∧
      claimCheck stagedConstant.sau 0 ((List.range 16).map (1008 + ·)) = .passed none ∧
      claimCheck oneClaim.sau 9 ((List.range 4).map (200 + ·)) = .passed (some 31) ∧
      finalSize stagedConstant.cm.active stagedConstant.cj.journal
        ((List.range 16).map fun k => (1008 + k, .switched (1008 + k) .aligned true .hold 16 k)) ≤ 64) ∧
    (∀ j < 1024, (stagedConstant.effective j).engine? ≠ some 2) := by
  refine ⟨fun code p => ⟨busy_commanded _ _ rfl, stagedConstant_journalLaw⟩, rfl, ?_, ?_⟩
  · decide +kernel
  · decide +kernel

theorem wideSlot_journalLaw : (staged (.constant 1 2 0) [⟨6, .constant 1 2 1⟩]).JournalLaw :=
  staged_journalLaw (by simp [Entry.OkAt, runAt, slotOf]) (by simp [Entry.OkAt, runAt, slotOf]) (by simp) (by simp)

theorem witness_DisconnectStagesTheRemoval :
    (∀ p, (busy 0x13 p stagedConstant).Commanded 0x13 p ∧ (busy 0x13 p stagedConstant).JournalLaw ∧
      (busy 0x13 p fullJournal).JournalLaw ∧ (busy 0x13 p stagedConstant).cj.commit = none) ∧
    stagedConstant.effective 1023 = .idle ∧
    ((staged (.constant 1 2 0) [⟨6, .constant 1 2 1⟩]).effective 6).place? = some (2, 1) ∧
    ((staged (.constant 1 2 0) [⟨6, .constant 1 2 1⟩]).effective 5).place? = some (2, 0) ∧
    claimCheck oneClaim.sau 8 ((List.range 1).map (200 + ·)) = .slotReserved 200 31 ∧
    claimCheck oneClaim.sau 9 ((List.range 1).map (5 + ·)) = .notReserved 5 32 ∧
    claimCheck stagedConstant.sau 0 ((List.range 1).map (5 + ·)) = .passed none ∧
    64 < finalSize fullJournal.cm.active fullJournal.cj.journal ((List.range 1).map fun k => (5 + k, Entry.idle)) ∧
    finalSize stagedConstant.cm.active stagedConstant.cj.journal
      ((List.range 1).map fun k => (5 + k, Entry.idle)) ≤ 64 :=
  ⟨fun _ => ⟨busy_commanded _ _ rfl, stagedConstant_journalLaw, fullJournal_journalLaw, rfl⟩, by decide +kernel⟩

theorem witness_JournalKeepsItsOrder :
    (stagedConstant.cj.journal.map (·.slot)).Nodup ∧ ([(9, Entry.idle), (10, .constant 1 1 0)].map (·.1)).Nodup := by
  decide +kernel

theorem witness_StagingBindsItsRecord :
    (∀ x ∈ stagings, ∀ p, (busy x.2 p stagedConstant).Commanded x.2 p ∧ (busy x.2 p stagedConstant).JournalLaw) ∧
    seen .setConstant (busy 0x11 (oneSlot 0) stagedConstant) (fun t => t.ce.code) = some .ok ∧
    seen .setConstant (busy 0x11 (oneSlot 9) oneClaim) (fun t => (t.ce.code, t.sau.recs.get 31)) =
      some (.ok, .bound claim) ∧
    64 * streamField (oneSlot 9).p0 + slotField (oneSlot 9).p0 = 200 ∧ (oneSlot 9).p2.toNat = 1 ∧
    ((withJournal [⟨200, .constant 1 1 0⟩] State.reset).effective 200).place? = some (1, 0) ∧
    -- the withdrawal of the last staged change returns the record to HELD
    seen .disconnect (busy 0x13 (oneSlot 9) (withRec 31 (.bound claim)
      (withJournal [⟨200, .constant 1 1 0⟩] State.reset))) (fun t => (t.ce.code, t.sau.recs.get 31)) =
      some (.ok, .held { claim with remaining := 100 }) :=
  ⟨fun _ _ _ => ⟨busy_commanded _ _ rfl, stagedConstant_journalLaw⟩, by decide +kernel⟩

/-! ### Commits and reservations -/

theorem witness_CommitAndCancelCommands :
    (∀ code p, (busy code p stagedConstant).Commanded code p ∧
      (busy code p (withCommit .next stagedConstant)).Commanded code p) ∧
    stagedConstant.cj.commit = none ∧ (withCommit .next stagedConstant).cj.commit ≠ none ∧ 2 < (3 : Word).toNat :=
  ⟨fun _ _ => ⟨busy_commanded _ _ rfl, busy_commanded _ _ rfl⟩, rfl, by decide +kernel, by decide⟩

theorem witness_DiscardCommand :
    (busy 0x1A zeros (withRec 31 (.bound claim) stagedConstant)).Commanded 0x1A zeros ∧
    (withRec 31 (.bound claim) stagedConstant).cj.commit = none ∧
    (withCommit .next stagedConstant).cj.commit ≠ none ∧
    (withRec 31 (.bound claim) stagedConstant).sau.recs.get 31 = .bound claim ∧
    oneClaim.sau.recs.get 31 ≠ .bound claim :=
  ⟨busy_commanded _ _ rfl, rfl, by decide +kernel, rfl, by decide +kernel⟩

/-- Every record HELD. -/
def allHeld : State := { State.reset with sau := { State.reset.sau with recs := .replicate 5 (.held claim) } }

theorem witness_ReserveCommand :
    (let p : Params := ⟨0x0F30, 0, 16, 1, 0, 255⟩
     (busy 0x20 p oneClaim).Commanded 0x20 p ∧ streamField p.p0 = 15 ∧ slotField p.p0 + p.p2.toNat = 64 ∧ p.p3 ≠ 0 ∧
       p.p5 ≠ 0 ∧ p.p5.toNat ≤ 255 ∧ ∀ k < 16, oneClaim.isFree (64 * 15 + 48 + k) = true) ∧
    (15 < streamField 0x1000 ∧ 63 < slotField 0x0040 ∧ 16 < (17 : Word).toNat ∧ 64 < slotField 0x0F31 + 16 ∧
      255 < (256 : Word).toNat) ∧
    (stagedConstant.isFree 5 = false ∧ stagedConstant.activeEntry 5 ≠ .idle) ∧
    (stagedConstant.isFree 9 = false ∧ stagedConstant.activeEntry 9 = .idle ∧
      journalGet stagedConstant.cj.journal 9 ≠ none) ∧
    (oneClaim.isFree 200 = false ∧ oneClaim.activeEntry 200 = .idle ∧
      journalGet oneClaim.cj.journal 200 = none) ∧
    (∀ r < 32, allHeld.sau.recs.get r ≠ .free) ∧ allHeld.isFree 0 = true ∧
    State.reset.sau.recs.get 0 = .free := by
  refine ⟨⟨busy_commanded _ _ rfl, ?_⟩, ?_⟩ <;> decide +kernel

theorem witness_HuntCommand :
    (let p : Params := ⟨0x8000, 63, 1, 1, 0x8001, 255⟩
     (busy 0x21 p oneClaim).Commanded 0x21 p ∧ p.p0 ≠ 0 ∧ p.p1.toNat ≤ 63 ∧ alignmentField p.p4 ∈ [1, 2, 4, 8, 16] ∧
       p.p4.getLsbD 15 = true ∧ p.p5 ≠ 0 ∧ p.p5.toNat ≤ 255 ∧ p.p3 ≠ 0 ∧
       (15 < 16 ∧ p.p0.getLsbD 15 = true ∧ alignmentField p.p4 ∣ 63 ∧ 63 + p.p2.toNat ≤ 64 ∧
         ∀ k < 1, oneClaim.isFree (64 * 15 + 63 + k) = true)) ∧
    -- nothing fits: width 2 from slot 63 on
    (∀ q, ¬(63 ≤ q ∧ q + 2 ≤ 64)) ∧
    alignmentField 3 ∉ [1, 2, 4, 8, 16] ∧ 63 < (64 : Word).toNat ∧ 16 < (17 : Word).toNat ∧
    (0x7FFF : Word).getLsbD 15 = false := by
  refine ⟨⟨busy_commanded _ _ rfl, ?_⟩, fun q h => ?_, ?_⟩
  · decide +kernel
  · omega
  · decide +kernel

theorem witness_ReleaseAndRenewCommands :
    (∀ code p, (busy code p oneClaim).Commanded code p) ∧ oneClaim.sau.recs.get 31 = .held claim ∧ claim.tag = 9 ∧
    oneClaim.sau.recs.get 30 = .free ∧ (oneClaim.sau.recs.get 31).claim? = some claim ∧ claim.tag ≠ 8 ∧
    (withRec 31 (.bound claim) State.reset).sau.recs.get 31 = .bound claim ∧ 31 < (32 : Word).toNat ∧
    255 < (256 : Word).toNat :=
  ⟨fun _ _ => busy_commanded _ _ rfl, rfl, rfl, rfl, rfl, by decide, rfl, by decide, by decide⟩

/-! ### Test engines and the result queue -/

/-- Engine 3 ENDED, with the queue full. -/
def ended : State :=
  { withQueue 8 (State.reset.setEngine 3 { runner with
      run := .ended { record with engine := 3 }, checker := .off }) with
    rq := { queue := List.replicate 8 record, backlog := [3] } }

theorem witness_ConfigureEngineCommand :
    (∀ p, (busy 0x30 p ended).Commanded 0x30 p) ∧ (ended.engine 3).run.name = .ended ∧ (ended.engine 0).run = .idle ∧
    ((running 3 State.reset).engine 3).run.name = .running ∧
    (let p : Params := ⟨0x8143, 0, 0, 0x1030, 0x0F40, 7⟩
     field p.p0 0 3 = 3 ∧ field p.p0 3 3 = 0 ∧ field p.p0 6 2 = 1 ∧ field p.p0 8 2 = 1 ∧ field p.p0 10 6 = 32 ∧
       field p.p3 0 8 + field p.p3 8 5 = 64 ∧ field p.p3 8 5 = 16 ∧ field p.p4 0 8 = 64 ∧ field p.p4 8 5 = 15) ∧
    3 < field 4 0 3 ∧ 3 < field 0x20 3 3 ∧ 1 < field 0x80 6 2 ∧ 1 < field 0x200 8 2 ∧ field 0x1C00 10 6 < 8 ∧
    32 < field 0x8400 10 6 ∧ 15 < field 0x1000 8 5 ∧ 63 < field 0x40 0 8 ∧ 16 < field 0x1100 8 5 ∧
    64 < field 0x1031 0 8 + field 0x1031 8 5 ∧ 64 < field 0x41 0 8 ∧ (Pattern.word, 3) ∈ patternCodes ∧
    (DurationUnit.seconds, 1) ∈ unitCodes :=
  ⟨fun _ => busy_commanded _ _ rfl, by decide +kernel⟩

theorem witness_StartCommand :
    (∀ p, (busy 0x31 p ended).Commanded 0x31 p) ∧ (ended.engine 3).run.name = .ended ∧
    ((running 3 State.reset).engine 3).run.name = .running ∧
    ((ended.engine 0).run = .idle ∧ (ended.engine 0).cfg.chkWidth = 0) ∧
    (((State.reset.setEngine 3 { runner with run := .idle }).engine 3).run = .idle ∧
      ((State.reset.setEngine 3 { runner with run := .idle }).engine 3).cfg.chkWidth ≠ 0 ∧
      ((State.reset.setEngine 3 { runner with run := .idle }).engine 3).cfg.pattern.taps = some (9, 5)) ∧
    State.reset.oa.emit.get 3 = none ∧
    (supplying 3 none State.reset).oa.emit.get 3 = some { cfg := runner.cfg, tail := none } ∧ 3 < (4 : Word).toNat :=
  ⟨fun _ => busy_commanded _ _ rfl, by decide +kernel⟩

theorem witness_StopCommand :
    (∀ p k, (busy 0x32 p (withQueue k (running 3 State.reset))).Commanded 0x32 p) ∧
    ((withQueue 7 (running 3 State.reset)).engine 3).run = .running 7 ∧
    (withQueue 7 (running 3 State.reset)).rq.queue.length < 8 ∧
    8 ≤ (withQueue 8 (running 3 State.reset)).rq.queue.length ∧ (ended.engine 3).run.name = .ended ∧
    (ended.engine 0).run.name = .idle :=
  ⟨fun _ _ => busy_commanded _ _ rfl, by decide +kernel⟩

theorem witness_InjectAndSnapshotCommands :
    (∀ code p, (busy code p (running 3 State.reset)).Commanded code p ∧ (busy code p ended).Commanded code p) ∧
    ((running 3 State.reset).engine 3).run.name = .running ∧ (ended.engine 3).run.name = .ended ∧
    (ended.engine 0).run.name = .idle ∧ 3 < (4 : Word).toNat ∧ 255 < (256 : Word).toNat :=
  ⟨fun _ _ => ⟨busy_commanded _ _ rfl, busy_commanded _ _ rfl⟩, by decide +kernel⟩

theorem witness_PopCommand :
    (busy 0x38 zeros ended).Commanded 0x38 zeros ∧ State.reset.rq.queue = [] ∧
    ((withQueue 1 State.reset).rq.queue = record :: [] ∧ (withQueue 1 State.reset).rq.backlog = []) ∧
    (ended.rq.queue = record :: List.replicate 7 record ∧ ended.rq.backlog = 3 :: [] ∧
      (ended.engine 3).run = .ended { record with engine := 3 }) ∧
    -- a backlog that breaks law 10
    (let s := { State.reset with rq := { queue := [record], backlog := [3] } }
     s.rq.queue = record :: [] ∧ s.rq.backlog = 3 :: [] ∧ (s.engine 3).run.name ≠ .ended) :=
  ⟨busy_commanded _ _ rfl, rfl, ⟨rfl, rfl⟩, ⟨rfl, rfl, rfl⟩, rfl, rfl, nofun⟩

/-! ### Registers and interrupts -/

theorem witness_SettingWrites :
    State.reset.inReset = false ∧ 1 ≤ (1 : Word).toNat ∧ (64 : Word).toNat ≤ 64 ∧ 64 < (65 : Word).toNat ∧
    (withSup 15 .fault State.reset).sv.sven.getLsbD 15 = true ∧ (0x7FFF : Word).getLsbD 15 = false ∧
    (0x8000 : Word).getLsbD 15 = true := by decide +kernel

theorem witness_FlagMaskAndLevelWrites :
    State.reset.inReset = false ∧ (Instr.expfClear 1 0).wellFormed = true ∧ (Instr.ilvlWrite 6 0).wellFormed = true :=
  ⟨rfl, rfl, rfl⟩

theorem witness_InterruptThreshold :
    State.reset.inReset = false ∧ (7 : Word).toNat ≤ 7 ∧ 7 < (8 : Word).toNat ∧
    ({ InterruptUnit.reset with ithr := 7 } : InterruptUnit).ithr = 7 ∧ InterruptUnit.reset.ithr = 0 ∧
    (∀ k < 26, InterruptUnit.reset.level k ≠ 0) ∧
    (∃ t, exec (.hardwareReset .powerUp) State.reset = .next t) ∧
    ∃ t, exec .softReset (busy 0x5A zeros State.reset) = .next t :=
  ⟨rfl, by decide, by decide, rfl, rfl, by decide +kernel, ⟨_, rfl⟩, _, rfl⟩

theorem witness_VectorAndInterruptLine :
    InterruptUnit.reset.vector = none ∧
    ({ InterruptUnit.reset with flags := 0x2000000, masks := 0 } : InterruptUnit).vector = some 25 := by decide +kernel

theorem witness_RegisterWriteAccess :
    State.reset.inReset = false ∧
    ((0x33 : BitVec 7), Instr.ithrWrite 7) ∈ [((0x33 : BitVec 7), Instr.ithrWrite 7)] ∧
    (0x500F : Word) = (10 : BitVec 5) ++ (15 : BitVec 11) ∧ (0x5800 : Word) = (11 : BitVec 5) ++ (0 : BitVec 11) ∧
    ((10 : BitVec 5).toNat, Instr.inspectSupervisor 15 7) ∈ [(10, Instr.inspectSupervisor 15 7)] ∧
    10 < (11 : BitVec 5).toNat ∧
    (∀ a ∈ [(0x07 : BitVec 7), 0x09, 0x0F, 0x15, 0x1F, 0x22, 0x27, 0x34, 0x37, 0x39, 0x7F],
      a.toNat = 0x07 ∨ (0x08 < a.toNat ∧ a.toNat < 0x10) ∨ (0x14 < a.toNat ∧ a.toNat < 0x20) ∨
        (0x21 < a.toNat ∧ a.toNat < 0x28) ∨ (0x33 < a.toNat ∧ a.toNat ≠ 0x38)) := by decide +kernel

theorem witness_StatusWords :
    State.reset.inReset = false ∧ 0x41 < (0x42 : BitVec 7).toNat ∧
    (withCommit (.atFrame 7) State.reset).cj.commit = some (.atFrame 7) ∧ State.reset.cj.commit = none ∧
    (Completion.ok, 0) ∈ completionCodes ∧ (Completion.queueEmpty, 0x14) ∈ completionCodes := by
  decide +kernel

/-! ### Inspections -/

theorem witness_InspectEntriesCountersAndRecords :
    stagedConstant.inReset = false ∧ (1023 : BitVec 11).toNat < 1024 ∧ 1024 ≤ (1024 : BitVec 11).toNat ∧
    stagedConstant.cj.journal[(0 : BitVec 11).toNat]? = some ⟨9, .constant 1 1 0⟩ ∧
    stagedConstant.cj.journal.length ≤ (1 : BitVec 11).toNat ∧ (31 : BitVec 11).toNat < 32 ∧
    32 ≤ (32 : BitVec 11).toNat ∧ oneClaim.sau.recs.get 30 = .free ∧ oneClaim.sau.recs.get 31 = .held claim ∧
    (withRec 31 (.bound claim) State.reset).sau.recs.get 31 = .bound claim := by decide +kernel

theorem witness_InspectEnginesResultsAndSupervisors :
    (∀ v : BitVec 32, v.setWidth 16 = v.setWidth 16 ∧ (v >>> 16).setWidth 16 = (v >>> 16).setWidth 16) ∧
    (RunName.value .idle = 0 ∧ RunName.value .running = 1 ∧ RunName.value .ended = 2) ∧
    (CheckerName.value .off = 0 ∧ CheckerName.value .hunting = 1 ∧ CheckerName.value .confirming = 2 ∧
      CheckerName.value .locked = 3) ∧
    (3 : BitVec 11).toNat < 4 ∧ 4 ≤ (4 : BitVec 11).toNat ∧ (7 : BitVec 11).toNat < 8 ∧ 8 ≤ (8 : BitVec 11).toNat ∧
    ended.rq.queue[(15 : BitVec 11).toNat / 2]? = some record ∧ 2 * ended.rq.queue.length ≤ (16 : BitVec 11).toNat ∧
    (15 : BitVec 11).toNat < 16 ∧ 16 ≤ (16 : BitVec 11).toNat ∧ 10 < (11 : BitVec 5).toNat ∧
    (((ended.engine 3).cfg.pattern, 0) ∈ patternCodes ∧ ((ended.engine 3).cfg.unit, 0) ∈ unitCodes) :=
  ⟨fun _ => ⟨rfl, rfl⟩, by decide +kernel⟩

/-! ### What changes what, and the laws -/

theorem witness_PendingJournalIsFixed :
    (∃ t, exec .cancel (busy 0x19 zeros (withCommit .next stagedConstant)) = .next t) ∧
    Instr.cancel.isShortRelease = false ∧ (withCommit .next stagedConstant).cj.commit ≠ none :=
  ⟨⟨_, rfl⟩, rfl, by decide +kernel⟩

theorem witness_FrameInputsStayForTheFrame :
    (∃ t, exec (.idlecWrite 7) (inFrame State.reset) = .next t) ∧ (Instr.idlecWrite 7).isShortRelease = false ∧
    (∀ e, Instr.idlecWrite 7 ∉ frameRows e) ∧ (∀ cause, Instr.idlecWrite 7 ≠ .hardwareReset cause) ∧
    1023 % 64 < ({ State.reset.oa with next := State.reset.oa.next.set 15 64 } : OutputAssembler).next.get
      (1023 / 64) :=
  ⟨⟨_, rfl⟩, rfl, fun e => by simp [frameRows], nofun, by decide⟩

/-- A frame start and a command wait. -/
def queued : List Instr := [.frameStart pulse, .commandTaken 0x18]

theorem queued_noShortReset (s : State) : (waiting queued s).NoShortReset := by
  intro c hc
  have : c = .frameStart pulse ∨ c = .commandTaken 0x18 := by simpa [waiting, queued] using hc
  rcases this with rfl | rfl <;> rfl

theorem witness_StepKeepsTheJournalLaw :
    (waiting queued (withCommit .next stagedConstant)).NoShortReset ∧
    (waiting queued (withCommit .next stagedConstant)).JournalLaw ∧
    ∃ t, step (waiting queued (withCommit .next stagedConstant)) = .next t :=
  ⟨queued_noShortReset _, stagedConstant_journalLaw, _, rfl⟩

theorem stagedConstant_effective {i : Nat} (h : i < 1024) :
    stagedConstant.effective i = if i = 9 then .constant 1 1 0 else if i = 5 then .test 3 1 0 else .idle := by
  unfold State.effective stagedConstant
  rw [staged_activeEntry _ _ h]
  simp only [staged, withJournal, withEntry, journalGet_cons, journalGet_nil]
  by_cases h9 : i = 9
  · simp [h9]
  · have : ¬9 = i := fun x => h9 x.symm
    simp [h9, this]

/-- Connections of one slot are whole. -/
theorem whole_of_single {view : Nat → Entry}
    (h : ∀ i < 1024, view i = .constant 1 1 0 ∨ view i = .test 3 1 0 ∨ view i = .idle) : ConnectionsWhole view := by
  intro i hi w m hp k hk
  rcases h i hi with e | e | e <;> rw [e] at hp ⊢ <;> simp only [Entry.place?, Option.some.injEq, Prod.mk.injEq,
    reduceCtorEq] at hp
  all_goals
    obtain ⟨rfl, rfl⟩ := hp
    have : k = 0 := by omega
    subst this
    simpa [Entry.memberAt] using e

theorem oneTest_of_single {view : Nat → Entry}
    (h : ∀ i < 1024, i ≠ 5 → view i = .constant 1 1 0 ∨ view i = .idle) (h5 : view 5 = .test 3 1 0) :
    OneTestEach view := by
  have : ∀ i < 1024, ∀ n w m, view i = .test n w m → i - m = 5 := by
    intro i hi n w m e
    by_cases hi5 : i = 5
    · rw [hi5, h5] at e
      cases e
      exact hi5
    · rcases h i hi hi5 with e' | e' <;> rw [e'] at e <;> cases e
  intro i hi j hj n w m w' m' e e'
  rw [this i hi n w m e, this j hj n w' m' e']

theorem stagedConstant_connectionLaw : stagedConstant.ConnectionLaw := by
  have ha : ∀ i < 1024, stagedConstant.activeEntry i = if i = 5 then .test 3 1 0 else .idle :=
    fun i hi => staged_activeEntry _ _ hi
  refine ⟨whole_of_single fun i hi => ?_, whole_of_single fun i hi => ?_, oneTest_of_single (fun i hi h5 => ?_)
    (ha 5 (by decide)), oneTest_of_single (fun i hi h5 => ?_) (stagedConstant_effective (by decide))⟩
  · rw [ha i hi]
    by_cases h5 : i = 5 <;> simp [h5]
  · rw [stagedConstant_effective hi]
    by_cases h9 : i = 9 <;> by_cases h5 : i = 5 <;> simp [h9, h5]
  · rw [ha i hi]
    simp [h5]
  · rw [stagedConstant_effective hi]
    by_cases h9 : i = 9 <;> simp [h9, h5]

theorem witness_StepKeepsWholeConnections :
    (waiting queued stagedConstant).NoShortReset ∧ (waiting queued stagedConstant).JournalLaw ∧
    (waiting queued stagedConstant).ConnectionLaw ∧ ∃ t, step (waiting queued stagedConstant) = .next t :=
  ⟨queued_noShortReset _, stagedConstant_journalLaw, stagedConstant_connectionLaw, _, rfl⟩

theorem fedFrom_eq_zero {view : Nat → Entry} (h : ∀ i < 1024, (view i).source? = none) (u : Nat) :
    fedFrom view u = 0 := by
  have : ∀ st ∈ List.range 16, ((List.range 64).countP fun t => (view (flat st t)).source? == some u) = 0 := by
    intro st hst
    rw [List.countP_eq_zero]
    intro t ht
    rw [h _ (flat_lt (List.mem_range.1 hst) (List.mem_range.1 ht))]
    simp
  unfold fedFrom countSlots
  rw [List.map_congr_left this]
  decide

theorem witness_StepKeepsTheFanOutCounts :
    (waiting queued stagedConstant).NoShortReset ∧ (waiting queued stagedConstant).JournalLaw ∧
    (waiting queued stagedConstant).FanOutLaw ∧ ∃ t, step (waiting queued stagedConstant) = .next t := by
  refine ⟨queued_noShortReset _, stagedConstant_journalLaw, ⟨by decide, by decide, fun u _ => ?_⟩, _, rfl⟩
  have h1 : fedFrom (waiting queued stagedConstant).effective u = 0 := fedFrom_eq_zero (fun i hi => by
    have : (waiting queued stagedConstant).effective i = stagedConstant.effective i := rfl
    rw [this, stagedConstant_effective hi]
    split
    · rfl
    · split <;> rfl) u
  have h2 : fedFrom (waiting queued stagedConstant).activeEntry u = 0 := fedFrom_eq_zero (fun i hi => by
    have : (waiting queued stagedConstant).activeEntry i = stagedConstant.activeEntry i := rfl
    rw [this, stagedConstant, staged_activeEntry _ _ hi]
    split <;> rfl) u
  have h3 : (waiting queued stagedConstant).cm.fanout.get u = 0 := Table.get_replicate 10 0 u
  rw [h1, h2, h3]
  decide

theorem oneClaim_recs {r : Nat} (h : r < 32) : oneClaim.sau.recs.get r = if r = 31 then .held claim else .free := by
  have h1 : oneClaim.sau.recs.get r = if 31 % 2 ^ 5 = r % 2 ^ 5 then .held claim else State.reset.sau.recs.get r :=
    Table.get_set _ _ 31 r
  have h2 : State.reset.sau.recs.get r = .free := Table.get_replicate 5 Reservation.free r
  have h3 : r % 2 ^ 5 = r := Nat.mod_eq_of_lt h
  rw [h1, h2, h3]
  by_cases hr : r = 31
  · rw [if_pos hr, if_pos (by omega)]
  · rw [if_neg hr, if_neg (by omega)]

theorem oneClaim_reservationLaw : oneClaim.ReservationLaw := by
  refine ⟨fun r hr c hc => ?_, fun r hr c hc => ?_, fun r hr c hc => ?_, fun r hr r' hr' c c' hne hc hc' => ?_⟩
  · rw [oneClaim_recs hr] at hc
    by_cases h : r = 31
    · rw [if_pos h] at hc
      cases hc
      refine ⟨by unfold Claim.Ok; decide, fun slot _ => ?_⟩
      exact Table.get_replicate 10 Entry.idle slot
    · rw [if_neg h] at hc
      cases hc
  · rfl
  · rw [oneClaim_recs hr] at hc
    by_cases h : r = 31
    · rw [if_pos h] at hc
      cases hc
    · rw [if_neg h] at hc
      cases hc
  · rw [oneClaim_recs hr] at hc
    rw [oneClaim_recs hr'] at hc'
    by_cases h : r = 31
    · have h' : ¬r' = 31 := fun x => hne (h.trans x.symm)
      rw [if_neg h'] at hc'
      cases hc'
    · rw [if_neg h] at hc
      cases hc

theorem oneClaim_journalLaw : oneClaim.JournalLaw := by
  refine ⟨fun i _ => ?_, fun e he => absurd he (List.not_mem_nil), List.nodup_nil, Nat.zero_le 64⟩
  have : oneClaim.activeEntry i = .idle := Table.get_replicate 10 Entry.idle i
  rw [this]
  trivial

theorem witness_StepKeepsTheReservationLaws :
    (waiting queued oneClaim).NoShortReset ∧ (waiting queued oneClaim).JournalLaw ∧
    (waiting queued oneClaim).ReservationLaw ∧ ∃ t, step (waiting queued oneClaim) = .next t :=
  ⟨queued_noShortReset _, oneClaim_journalLaw, oneClaim_reservationLaw, _, rfl⟩

theorem witness_StepKeepsTheEngineLaw :
    (waiting queued (running 3 State.reset)).NoShortReset ∧ (waiting queued (running 3 State.reset)).EngineLaw ∧
    ∃ t, step (waiting queued (running 3 State.reset)) = .next t := by
  refine ⟨queued_noShortReset _, fun n hn => ?_, _, rfl⟩
  have h : (waiting queued (running 3 State.reset)).engine n = runner ∨
      (waiting queued (running 3 State.reset)).engine n = Engine.reset := by
    have h1 : (waiting queued (running 3 State.reset)).engine n =
      if 3 % 2 ^ 2 = n % 2 ^ 2 then runner else State.reset.engine n := Table.get_set _ _ 3 n
    have h2 : State.reset.engine n = Engine.reset := Table.get_replicate 2 Engine.reset n
    rw [h1, h2]
    split
    · exact Or.inl rfl
    · exact Or.inr rfl
  rcases h with h | h <;> rw [h]
  · exact ⟨by unfold EngineConfig.Ok; decide, by decide, show 0 < runner.cfg.seedLength by decide, fun _ => ⟨nofun, by decide⟩,
      nofun⟩
  · exact ⟨by unfold EngineConfig.Ok; decide, by decide, trivial, nofun, fun _ => ⟨rfl, rfl⟩⟩

theorem witness_StepKeepsTheQueueLaw :
    (waiting queued ended).NoShortReset ∧ (waiting queued ended).QueueLaw ∧
    ∃ t, step (waiting queued ended) = .next t := by
  refine ⟨queued_noShortReset _, ?_, _, rfl⟩
  unfold State.QueueLaw
  decide +kernel

theorem witness_StepKeepsTheSettingsLaws :
    (waiting queued (busy 0x18 zeros State.reset)).NoShortReset ∧
    (waiting queued (busy 0x18 zeros State.reset)).SupervisorLaw ∧
    (waiting queued (busy 0x18 zeros State.reset)).LevelLaw ∧
    (waiting queued (busy 0x18 zeros State.reset)).CommandLaw ∧
    (waiting queued (busy 0x18 zeros State.reset)).ResetLaw ∧
    (inHold ⟨true, false⟩ State.reset).ResetLaw ∧ (inHold ⟨true, false⟩ State.reset).inReset = true ∧
    ∃ t, step (waiting queued (busy 0x18 zeros State.reset)) = .next t := by
  refine ⟨queued_noShortReset _, ⟨by decide, by decide, fun i _ => ?_⟩, ?_, fun c h => ?_, nofun, fun _ => rfl, rfl, _,
    rfl⟩
  · have : (waiting queued (busy 0x18 zeros State.reset)).sv.sups.get i = { state := .clear, lastSample := none } :=
      Table.get_replicate 4 _ i
    rw [this]
    exact ⟨trivial, fun _ => rfl⟩
  · unfold State.LevelLaw
    decide +kernel
  · exact Option.some.inj h ▸ rfl

end Sys2Proof.Tests
end

