-- ==== Sys2Proof/Proofs/Settings.lean ====
section
/-! The setting writes: how `raiseStreams` acts on the flags, the fields of a word, and what each write answers. -/

namespace Sys2Proof.Machine

/-! ### Events of many sources -/

/-- Raising events changes nothing but the flags. -/
theorem raiseIf_eq_flags (b : Bool) (k : Nat) (s : State) :
    raiseIf b k s = { s with iu := { s.iu with flags := (raiseIf b k s).iu.flags } } := by
  cases b <;> rfl

theorem foldl_raiseIf_eq_flags (p : Nat → Bool) (src : Nat → Nat) (l : List Nat) : ∀ s : State,
    l.foldl (fun s i => raiseIf (p i) (src i) s) s =
      { s with iu := { s.iu with flags := (l.foldl (fun s i => raiseIf (p i) (src i) s) s).iu.flags } } := by
  induction l with
  | nil => exact fun _ => rfl
  | cons i l ih =>
    intro s
    rw [List.foldl_cons, ih, raiseIf_eq_flags]

/-- A flag after events of many sources: it was set, or one of the events sets it. -/
theorem flag_foldl_raiseIf (p : Nat → Bool) (src : Nat → Nat) (j : Nat) (l : List Nat) : ∀ s : State,
    (l.foldl (fun s i => raiseIf (p i) (src i) s) s).flag j = true ↔
      s.flag j = true ∨ ∃ i ∈ l, p i = true ∧ src i = j ∧ j < 26 := by
  induction l with
  | nil => simp
  | cons i l ih =>
    intro s
    rw [List.foldl_cons, ih, flag_raiseIf]
    by_cases hj : src i = j
    · subst hj
      simp [or_assoc]
    · simp [hj]

theorem flag_raiseStreams_stream (p : Nat → Bool) (s : State) {i : Nat} (hi : i < 16) :
    (raiseStreams p s).flag (10 + i) = true ↔ s.flag (10 + i) = true ∨ p i = true := by
  refine (flag_foldl_raiseIf p srcStreamChange (10 + i) _ s).trans (or_congr_right ⟨?_, fun h => ?_⟩)
  · rintro ⟨k, -, hp, hk, -⟩
    rwa [← Nat.add_left_cancel hk]
  · exact ⟨i, List.mem_range.mpr hi, h, rfl, by omega⟩

theorem flag_raiseStreams_below (p : Nat → Bool) (s : State) {j : Nat} (hj : j < 10) :
    (raiseStreams p s).flag j = s.flag j := by
  rw [Bool.eq_iff_iff]
  refine (flag_foldl_raiseIf p srcStreamChange j _ s).trans (or_iff_left ?_)
  rintro ⟨k, -, -, hk, -⟩
  unfold srcStreamChange at hk
  omega

/-! ### Fields of a word -/

/-- A field of a word as a bit vector is the number that the field holds. -/
theorem setWidth_shift_eq_field (v : Word) (lo len : Nat) :
    (v >>> lo).setWidth len = BitVec.ofNat len (field v lo len) := by
  apply BitVec.eq_of_toNat_eq
  simp [field, Nat.shiftRight_eq_div_pow]

theorem ofNat_field_eq_zero (v : Word) (lo len : Nat) : BitVec.ofNat len (field v lo len) = 0 ↔ field v lo len = 0 := by
  have hlt : field v lo len < 2 ^ len := Nat.mod_lt _ (Nat.two_pow_pos len)
  rw [← BitVec.toNat_inj, BitVec.toNat_ofNat, Nat.mod_eq_of_lt hlt]
  simp

/-! ### What each write does -/

theorem writeFolim_of_legal {v : Word} (h1 : 1 ≤ v.toNat) (h2 : v.toNat ≤ 64) (s : State) :
    writeFolim v s = { s with cm := { s.cm with folim := BitVec.ofNat 7 v.toNat } } := by
  rw [BitVec.ofNat_toNat]
  exact if_pos ⟨h1, h2⟩

theorem writeFolim_of_illegal {v : Word} (h : v = 0 ∨ 64 < v.toNat) (s : State) : writeFolim v s = s := by
  refine if_neg fun ⟨h1, h2⟩ => ?_
  rcases h with rfl | h
  · exact absurd h1 (by decide)
  · omega

theorem writeSvthr_eq (v : Word) (s : State) :
    writeSvthr v s = { s with sv := { s.sv with
      decl := if field v 0 4 = 0 then s.sv.decl else BitVec.ofNat 4 (field v 0 4)
      clrc := if field v 8 8 = 0 then s.sv.clrc else BitVec.ofNat 8 (field v 8 8) } } := by
  have hd : v.setWidth 4 = BitVec.ofNat 4 (field v 0 4) := by
    rw [← setWidth_shift_eq_field, BitVec.ushiftRight_zero]
  unfold writeSvthr
  simp only [hd, setWidth_shift_eq_field v 8 8, ofNat_field_eq_zero]

/-- A write of SVEN changes the enable bits, the supervisors and the flags. -/
theorem writeSven_eq (v : Word) (s : State) :
    writeSven v s = { s with sv := { s.sv with sven := v, sups := (writeSven v s).sv.sups }
                             iu := { s.iu with flags := (writeSven v s).iu.flags } } := by
  have hsv : (writeSven v s).sv = { s.sv with sven := v, sups := (writeSven v s).sv.sups } := by
    simp [writeSven]
  rw [← hsv]
  unfold writeSven
  rw [raiseStreams_sv]
  exact foldl_raiseIf_eq_flags _ srcStreamChange _ _

theorem sups_writeSven (v : Word) (s : State) {i : Nat} (hi : i < 16) :
    (writeSven v s).sv.sups.get i =
      if s.sv.disabledBy v i then { state := .clear, lastSample := none } else s.sv.sups.get i := by
  simp only [writeSven, raiseStreams_sv, Table.get_tabulate, Nat.mod_eq_of_lt (show i < 2 ^ 4 from hi)]

theorem flag_writeSven_stream (v : Word) (s : State) {i : Nat} (hi : i < 16) :
    (writeSven v s).flag (10 + i) = true ↔
      s.flag (10 + i) = true ∨ (s.sv.disabledBy v i && (s.sv.sups.get i).state.faulted) = true :=
  flag_raiseStreams_stream _ _ hi

theorem faulted_iff (x : SvState) : x.faulted = true ↔ x = .fault ∨ ∃ k, x = .recovering k := by
  cases x <;> simp [SvState.faulted]

theorem writeSven_disables {v : Word} {s : State} {i : Nat} (hi : i < 16)
    (h : s.sv.sven.getLsbD i = true ∧ v.getLsbD i = false) :
    (writeSven v s).sv.sups.get i = { state := .clear, lastSample := none } ∧
      ((writeSven v s).flag (10 + i) = true ↔ s.flag (10 + i) = true ∨ (s.sv.sups.get i).state = .fault ∨
        ∃ k, (s.sv.sups.get i).state = .recovering k) := by
  have hd : s.sv.disabledBy v i = true := by simp [Supervisors.disabledBy, h]
  rw [sups_writeSven v s hi, flag_writeSven_stream v s hi, hd, Bool.true_and, faulted_iff]
  exact ⟨if_pos rfl, Iff.rfl⟩

theorem writeSven_leaves {v : Word} {s : State} {i : Nat} (hi : i < 16)
    (h : s.sv.sven.getLsbD i = false ∨ v.getLsbD i = true) :
    (writeSven v s).sv.sups.get i = s.sv.sups.get i ∧ (writeSven v s).flag (10 + i) = s.flag (10 + i) := by
  have hd : s.sv.disabledBy v i = false := by
    rcases h with h | h <;> simp [Supervisors.disabledBy, h]
  rw [Bool.eq_iff_iff, sups_writeSven v s hi, flag_writeSven_stream v s hi, hd]
  simp

/-- Settles O43: each write is taken at once, and its effect is the one named in the lemmas above. -/
theorem settingWrites : Obligations.SettingWrites := by
  refine ⟨fun s v hr => ⟨taken_of_running hr _, fun h1 h2 => ?_, fun h => ?_, taken_of_running hr _, ?_⟩,
    fun s v hr => ⟨writeSven v s, taken_of_running hr _, writeSven_eq v s,
      fun i hi => ⟨writeSven_disables hi, writeSven_leaves hi⟩, fun k hk => flag_raiseStreams_below _ _ hk⟩⟩
  · rw [← writeFolim_of_legal h1 h2]
    exact taken_of_running hr _
  · exact (taken_of_running hr _).trans (congrArg _ (writeFolim_of_illegal h s))
  · rw [← writeSvthr_eq]
    exact taken_of_running hr _

end Sys2Proof.Machine
end

