-- ==== Sys2Proof/Proofs/Commands.lean ====
section
/-! What each command can do: the host's commands and writes leave the frame in progress alone, and `exec` answers one of
the effects that `Effect` lists. -/

namespace Sys2Proof.Machine

theorem Table.get_tabulate_of_lt {α : Type} {d i : Nat} (f : Nat → α) (h : i < 2 ^ d) :
    (Table.tabulate d f).get i = f i := by
  rw [Table.get_tabulate, Nat.mod_eq_of_lt h]

/-- A table looks an entry up modulo its size. -/
theorem Table.get_mod {α : Type} {d : Nat} (t : Table α d) (i : Nat) : t.get (i % 2 ^ d) = t.get i := by
  have hself : Table.tabulate d t.get = t := Table.ext_get _ _ fun j hj => Table.get_tabulate_of_lt _ hj
  rw [← Table.get_tabulate d t.get i, hself]

/-- Replacing an emission by another one leaves which engines supply bytes. -/
theorem isSome_set_emission {emit : Table (Option Emission) 2} {n : Nat} {em : Emission} (em' : Emission)
    (h : emit.get n = some em) (m : Nat) : ((emit.set n (some em')).get m).isSome = (emit.get m).isSome := by
  rw [Table.get_set]
  split
  · next hm => rw [← Table.get_mod emit m, ← hm, Table.get_mod, h, Option.isSome_some, Option.isSome_some]
  · rfl

/-! ### What the host's commands leave alone -/

/-- `t` differs from `s` in nothing that a frame is built from, nor in the queue of commands or the reset hold. Every
command of the host and every register write keeps these. -/
structure KeepsFrame (s t : State) : Prop where
  fcnt : t.fcnt = s.fcnt
  active : t.cm.active = s.cm.active
  hold : t.hold = s.hold
  rfm : t.rfm = s.rfm
  idleInForce : t.oa.idleInForce = s.oa.idleInForce
  inProgress : t.oa.inProgress = s.oa.inProgress
  frame : t.oa.frame = s.oa.frame
  next : t.oa.next = s.oa.next
  frameState : t.oa.frameState = s.oa.frameState
  emit : ∀ n, (t.oa.emit.get n).isSome = (s.oa.emit.get n).isSome
  held : t.held = s.held
  freeDraws : t.freeDraws = s.freeDraws
  pending : t.pending = s.pending

namespace KeepsFrame

theorem refl (s : State) : KeepsFrame s s := ⟨rfl, rfl, rfl, rfl, rfl, rfl, rfl, rfl, rfl, fun _ => rfl, rfl, rfl, rfl⟩

theorem trans {s t u : State} (h : KeepsFrame s t) (k : KeepsFrame t u) : KeepsFrame s u where
  fcnt := k.fcnt.trans h.fcnt
  active := k.active.trans h.active
  hold := k.hold.trans h.hold
  rfm := k.rfm.trans h.rfm
  idleInForce := k.idleInForce.trans h.idleInForce
  inProgress := k.inProgress.trans h.inProgress
  frame := k.frame.trans h.frame
  next := k.next.trans h.next
  frameState := k.frameState.trans h.frameState
  emit n := (k.emit n).trans (h.emit n)
  held := k.held.trans h.held
  freeDraws := k.freeDraws.trans h.freeDraws
  pending := k.pending.trans h.pending

/-- An update of the pieces of state that are not in the list. -/
theorem update (s : State) (idlec : Byte) (fanout : Table Nat 10) (folim : BitVec 7) (cj : CommitController)
    (sau : SlotAllocation) (sv : Supervisors) (te : TestEngines) (rq : ResultQueue) (ce : CommandEngine)
    (iu : InterruptUnit) (biu : BusInterface) (pins : Pins) :
    KeepsFrame s { s with
      oa := { s.oa with idlec := idlec }
      cm := { s.cm with fanout := fanout, folim := folim }
      cj := cj, sau := sau, sv := sv, te := te, rq := rq, ce := ce, iu := iu, biu := biu, pins := pins } :=
  ⟨rfl, rfl, rfl, rfl, rfl, rfl, rfl, rfl, rfl, fun _ => rfl, rfl, rfl, rfl⟩

theorem complete (c : Completion) (r0 r1 r2 r3 : Word) {s t : State} (h : KeepsFrame s t) :
    KeepsFrame s (complete c r0 r1 r2 r3 t) :=
  h.trans (update ..)

/-- A completion that answers a code and changes nothing else. -/
theorem answer (c : Completion) (r0 r1 r2 r3 : Word) (s : State) : KeepsFrame s (Machine.complete c r0 r1 r2 r3 s) :=
  complete c r0 r1 r2 r3 (refl s)

/-! Staging, commits and reservations -/

theorem stage (plan : Plan) (tag : Word) (needIdle : Bool) (engine : Option Nat) (s : State) :
    KeepsFrame s (stage plan tag needIdle engine s) := by
  unfold Machine.stage
  split
  · exact answer ..
  · exact answer ..
  · split
    · exact answer ..
    · split
      · exact answer ..
      · split
        · exact answer ..
        · split
          · exact answer ..
          · exact complete _ _ _ _ _ (update ..)

theorem stageChecked (plan : Option Plan) (tag : Word) (engine : Option Nat) (s : State) :
    KeepsFrame s (stageChecked plan tag engine s) := by
  unfold Machine.stageChecked
  split
  · exact answer ..
  · split
    · exact answer ..
    · exact stage ..

theorem disconnect (p : Params) (s : State) : KeepsFrame s (disconnect p s) := by
  unfold Machine.disconnect
  split
  · split
    · exact answer ..
    · dsimp only
      split
      · exact answer ..
      · split
        · exact answer ..
        · exact stage ..
  · exact answer ..

theorem commitCommand (p : Params) (s : State) : KeepsFrame s (commitCommand p s) := by
  unfold Machine.commitCommand
  split
  · exact answer ..
  · split
    · exact answer ..
    · exact complete _ _ _ _ _ (update ..)

theorem cancelCommand (s : State) : KeepsFrame s (cancelCommand s) := by
  unfold Machine.cancelCommand
  split
  · exact complete _ _ _ _ _ (update ..)
  · exact answer ..

theorem discardCommand (s : State) : KeepsFrame s (discardCommand s) := by
  unfold Machine.discardCommand
  split
  · exact answer ..
  · exact complete _ _ _ _ _ (update ..)

theorem reserveCommand (p : Params) (s : State) : KeepsFrame s (reserveCommand p s) := by
  unfold Machine.reserveCommand
  dsimp only
  split
  · split
    · exact answer ..
    · split
      · exact answer ..
      · exact complete _ _ _ _ _ (update ..)
  · exact answer ..

theorem huntCommand (p : Params) (s : State) : KeepsFrame s (huntCommand p s) := by
  unfold Machine.huntCommand
  split
  · split
    · exact answer ..
    · split
      · split
        · exact answer ..
        · exact complete _ _ _ _ _ (update ..)
      · exact answer ..
  · exact answer ..

theorem releaseCommand (p : Params) (s : State) : KeepsFrame s (releaseCommand p s) := by
  unfold Machine.releaseCommand
  split
  · split
    · exact answer ..
    · split
      · exact answer ..
      · exact answer ..
    · split
      · exact answer ..
      · exact complete _ _ _ _ _ (update ..)
  · exact answer ..

theorem renewCommand (p : Params) (s : State) : KeepsFrame s (renewCommand p s) := by
  unfold Machine.renewCommand
  split
  · split
    · exact answer ..
    · split
      · exact answer ..
      · exact answer ..
    · split
      · exact answer ..
      · exact complete _ _ _ _ _ (update ..)
  · exact answer ..

/-! Engines -/

theorem setEngine (s : State) (n : Nat) (e : Engine) : KeepsFrame s (s.setEngine n e) := update ..

theorem configureCommand (p : Params) (s : State) : KeepsFrame s (configureCommand p s) := by
  unfold Machine.configureCommand
  dsimp only
  split
  · split
    · exact answer ..
    · split
      · exact complete _ _ _ _ _ (setEngine ..)
      · exact answer ..
  · exact answer ..

theorem injectCommand (p : Params) (s : State) : KeepsFrame s (injectCommand p s) := by
  unfold Machine.injectCommand
  dsimp only
  split
  · split
    · exact complete _ _ _ _ _ (setEngine ..)
    · exact answer ..
  · exact answer ..

/-- What an engine supplies is replaced; that it supplies stays. -/
theorem setEmit (s : State) (n : Nat) {em : Emission} (em' : Emission) (h : s.oa.emit.get n = some em) :
    KeepsFrame s { s with oa := { s.oa with emit := s.oa.emit.set n (some em') } } :=
  ⟨rfl, rfl, rfl, rfl, rfl, rfl, rfl, rfl, rfl, isSome_set_emission em' h, rfl, rfl, rfl⟩

theorem keepTail (n : Nat) (s : State) : KeepsFrame s (keepTail n s) := by
  unfold Machine.keepTail
  split
  · next em hem =>
    split
    · exact setEmit s n _ hem
    · exact refl s
  · exact refl s

theorem startCommand (p : Params) (s : State) : KeepsFrame s (startCommand p s) := by
  unfold Machine.startCommand
  dsimp only
  split
  · split
    · split
      · exact answer ..
      · exact complete _ _ _ _ _ ((keepTail _ s).trans (update ..))
    · exact answer ..
  · exact answer ..

theorem endRun (n : Nat) (o : RunOutcome) (s : State) : KeepsFrame s (endRun n o s) := by
  unfold Machine.endRun
  split
  · dsimp only
    split
    · exact update ..
    · exact update ..
  · exact refl s

theorem stopCommand (p : Params) (s : State) : KeepsFrame s (stopCommand p s) := by
  unfold Machine.stopCommand
  dsimp only
  split
  · split
    · exact complete _ _ _ _ _ (endRun ..)
    · exact answer ..
  · exact answer ..

theorem snapshotCommand (p : Params) (s : State) : KeepsFrame s (snapshotCommand p s) := by
  unfold Machine.snapshotCommand
  dsimp only
  split
  · exact complete _ _ _ _ _ (setEngine ..)
  · exact answer ..

theorem serveBacklog (s : State) : KeepsFrame s (serveBacklog s) := by
  unfold Machine.serveBacklog
  split
  · exact refl s
  · exact update ..

theorem popCommand (s : State) : KeepsFrame s (popCommand s) := by
  unfold Machine.popCommand
  split
  · exact answer ..
  · exact complete _ _ _ _ _ ((update ..).trans (serveBacklog _))

theorem softResetCommand (s : State) : KeepsFrame s (softResetCommand s) := complete _ _ _ _ _ (update ..)

theorem unknownCompletion (s : State) : KeepsFrame s (unknownCompletion s) := by
  unfold Machine.unknownCompletion
  split
  · split
    · exact refl s
    · exact answer ..
  · exact refl s

/-! Register writes -/

theorem writeCmd (v : Word) (s : State) : KeepsFrame s (writeCmd v s) := by
  unfold Machine.writeCmd
  split
  · exact update ..
  · exact update ..

theorem writeCmdstat (v : Word) (s : State) : KeepsFrame s (writeCmdstat v s) := by
  unfold Machine.writeCmdstat
  split
  · exact update ..
  · exact refl s

theorem writeFolim (v : Word) (s : State) : KeepsFrame s (writeFolim v s) := by
  unfold Machine.writeFolim
  split
  · exact update ..
  · exact refl s

theorem writeSven (v : Word) (s : State) : KeepsFrame s (writeSven v s) := by
  rw [writeSven_eq]
  exact update ..

theorem writeIthr (v : Word) (s : State) : KeepsFrame s (writeIthr v s) := by
  unfold Machine.writeIthr
  split
  · exact update ..
  · exact refl s

theorem inspectAt (v sf : Word) (s : State) : KeepsFrame s (inspectAt v sf s) := by
  unfold Machine.inspectAt
  split
  · exact update ..
  · exact update ..

theorem writeWord (address : Nat) (v sf : Word) (s : State) : KeepsFrame s (writeWord address v sf s) := by
  unfold Machine.writeWord
  split
  case h_1 => exact writeCmd v s
  case h_8 => exact writeCmdstat v s
  case h_10 => exact writeFolim v s
  case h_11 => exact writeSven v s
  case h_27 => exact writeIthr v s
  case h_28 => exact inspectAt v sf s
  all_goals exact update ..

theorem busWrite (cycle : BusCycle) (address : Nat) (w : BusWord) (s : State) :
    KeepsFrame s (busWrite cycle address w s) := by
  cases cycle with
  | whole => exact writeWord address w.value w.sf s
  | endedEarly => exact refl s
  | bothStrobes => exact refl s

/-! Events and completions -/

theorem taken {f : State → State} (hf : ∀ s, KeepsFrame s (f s)) {s t : State} (h : taken s f = .next t) :
    KeepsFrame s t := by
  rcases taken_eq_next h with ⟨-, rfl⟩ | ⟨-, rfl⟩
  · exact hf s
  · exact refl _

theorem completion {code : Byte} {f : Params → State → State} (hf : ∀ p s, KeepsFrame s (f p s)) {s t : State}
    (h : completion code s f = .next t) : KeepsFrame s t := by
  rcases completion_cases h with ⟨p, -, rfl⟩ | ⟨-, rfl⟩
  · exact hf p s
  · exact refl _

end KeepsFrame

/-! ### What a command can do -/

/-- Everything that a command answering a next state can do. -/
inductive Effect : Instr → State → State → Prop
  /-- it leaves the frame in progress alone -/
  | kept {c s t} (h : KeepsFrame s t) : Effect c s t
  | frameStart {c s} (e : FrameEvent) (h : c ∈ frameRows e) : Effect c s (frameStart e s)
  | capture {stream slot s} (b : Byte) (hStream : stream < 16) (hSlot : slot < 64) :
      Effect (.inputByteCapture stream slot b) s (captureByte stream slot b s)
  | formation {stream slot s} (hStream : stream < 16) (hSlot : slot < 64) :
      Effect (.outputSlotFormation stream slot) s (formInOrder stream slot s)
  | hardwareReset {s} (cause : ResetCause) :
      Effect (.hardwareReset cause) s (hardwareReset (s.held.hold cause) s)
  | release {s} (cause : ResetCause) (minimumMet : Bool) (held : ResetHold) :
      Effect (.resetNRelease cause minimumMet) s { s with held := held }
  | shortRelease {s} (cause : ResetCause) : Effect (.resetNRelease cause false) s (arbitraryState s)

namespace Effect

/-- A frame-start row is the frame start where its occasion is there, and nothing otherwise (log 2). -/
theorem frameRow {c : Instr} {e : FrameEvent} {s t : State} (hc : c ∈ frameRows e) {due : State → Bool}
    (h : taken s (fun s => if due s then Machine.frameStart e s else s) = .next t) : Effect c s t := by
  rcases taken_eq_next h with ⟨-, rfl⟩ | ⟨-, rfl⟩
  · split
    · exact .frameStart e hc
    · exact .kept (.refl s)
  · exact .kept (.refl _)

theorem wholeFrame {e : FrameEvent} {s t : State} (h : taken s (Machine.frameStart e) = .next t) :
    Effect (.frameStart e) s t := frameRow (due := fun _ => true) (by simp [frameRows]) h

theorem byteCapture {stream slot : Nat} {b : Byte} {s t : State}
    (h : execInputByteCapture stream slot b s = .next t) : Effect (.inputByteCapture stream slot b) s t := by
  unfold execInputByteCapture at h
  split at h
  · next hp =>
    obtain ⟨hStream, hSlot⟩ : stream < 16 ∧ slot < 64 := by simpa [placeOk] using hp
    rcases taken_eq_next h with ⟨-, rfl⟩ | ⟨-, rfl⟩
    · exact .capture b hStream hSlot
    · exact .kept (.refl _)
  · cases h

theorem slotFormation {stream slot : Nat} {s t : State}
    (h : execOutputSlotFormation stream slot s = .next t) : Effect (.outputSlotFormation stream slot) s t := by
  unfold execOutputSlotFormation at h
  split at h
  · next hp =>
    obtain ⟨hStream, hSlot⟩ : stream < 16 ∧ slot < 64 := by simpa [placeOk] using hp
    rcases taken_eq_next h with ⟨-, rfl⟩ | ⟨-, rfl⟩
    · exact .formation hStream hSlot
    · exact .kept (.refl _)
  · cases h

theorem resetNRelease {cause : ResetCause} {minimumMet : Bool} {s t : State}
    (h : execResetNRelease cause minimumMet s = .next t) : Effect (.resetNRelease cause minimumMet) s t := by
  unfold execResetNRelease at h
  split at h
  · split at h
    · next hshort =>
      obtain ⟨-, hm, -⟩ := hshort
      cases h
      cases minimumMet
      · exact .shortRelease cause
      · cases hm
    · cases h
      exact .release cause minimumMet _
  · cases h
    exact .kept (.refl _)

/-- A write to one word of a pair or a row of words, which faults where the word does not exist. -/
theorem wordWrite {c : Instr} {P : Prop} [Decidable P] {f : State → State} (hf : ∀ s, KeepsFrame s (f s)) {s t : State}
    (h : (if P then taken s f else .fault .noSuchPlace) = .next t) : Effect c s t := by
  split at h
  · exact .kept (.taken hf h)
  · cases h

theorem of_exec {c : Instr} {s t : State} (h : exec c s = .next t) : Effect c s t := by
  cases c with
  | frameStart e => exact wholeFrame h
  | leaseExpiry e => exact frameRow (due := fun s => s.sau.expiryDue) (by simp [frameRows]) h
  | commitApplication e => exact frameRow (due := fun s => s.applicationDue e) (by simp [frameRows]) h
  | durationExpiry e => exact frameRow (due := fun s => s.durationDue e) (by simp [frameRows]) h
  | inputByteCapture stream slot b => exact byteCapture h
  | outputSlotFormation stream slot => exact slotFormation h
  | connect => exact .kept (.completion (fun p => .stageChecked (connectPlan p) p.p5 none) h)
  | setConstant => exact .kept (.completion (fun p => .stageChecked (constantPlan p) p.p5 none) h)
  | setTest => exact .kept (.completion (fun p => .stageChecked (testPlan p) p.p5 (some p.p4.toNat)) h)
  | disconnect => exact .kept (.completion .disconnect h)
  | commit => exact .kept (.completion .commitCommand h)
  | cancel => exact .kept (.completion (fun _ => .cancelCommand) h)
  | discard => exact .kept (.completion (fun _ => .discardCommand) h)
  | reserve => exact .kept (.completion .reserveCommand h)
  | hunt => exact .kept (.completion .huntCommand h)
  | release => exact .kept (.completion .releaseCommand h)
  | renew => exact .kept (.completion .renewCommand h)
  | configureEngine => exact .kept (.completion .configureCommand h)
  | start => exact .kept (.completion .startCommand h)
  | stop => exact .kept (.completion .stopCommand h)
  | inject => exact .kept (.completion .injectCommand h)
  | snapshot => exact .kept (.completion .snapshotCommand h)
  | pop => exact .kept (.completion (fun _ => .popCommand) h)
  | softReset => exact .kept (.completion (fun _ => .softResetCommand) h)
  | unknownCommand => exact .kept (.taken .unknownCompletion h)
  | commandOverrun v => exact .kept (.taken (.writeCmd v) h)
  | commandTaken v => exact .kept (.taken (.writeCmd v) h)
  | overrunFlagClear v => exact .kept (.taken (.writeCmdstat v) h)
  | idlecWrite v => exact .kept (.taken (fun _ => .update ..) h)
  | folimWrite v => exact .kept (.taken (.writeFolim v) h)
  | svenWrite v => exact .kept (.taken (.writeSven v) h)
  | svfrcWrite v => exact .kept (.taken (fun _ => .update ..) h)
  | svthrWrite v => exact .kept (.taken (fun _ => .update ..) h)
  | expfClear k v => exact wordWrite (f := writeExpf k v) (fun _ => .update ..) h
  | iflagClear k v => exact wordWrite (f := writeIflag k v) (fun _ => .update ..) h
  | imaskWrite k v => exact wordWrite (f := writeImask k v) (fun _ => .update ..) h
  | ilvlWrite k v => exact wordWrite (f := writeIlvl k v) (fun _ => .update ..) h
  | ithrWrite v => exact .kept (.taken (.writeIthr v) h)
  | inspectActiveEntry x => exact .kept (.taken (fun _ => .update ..) h)
  | inspectEffectiveEntry x => exact .kept (.taken (fun _ => .update ..) h)
  | inspectJournal x => exact .kept (.taken (fun _ => .update ..) h)
  | inspectFanOut x => exact .kept (.taken (fun _ => .update ..) h)
  | inspectReservation x => exact .kept (.taken (fun _ => .update ..) h)
  | inspectEngineConfiguration x => exact .kept (.taken (fun _ => .update ..) h)
  | inspectLiveCounters x => exact .kept (.taken (fun _ => .update ..) h)
  | inspectSnapshot x => exact .kept (.taken (fun _ => .update ..) h)
  | inspectResultQueue x => exact .kept (.taken (fun _ => .update ..) h)
  | inspectHoldByte x => exact .kept (.taken (fun _ => .update ..) h)
  | inspectSupervisor x sf => exact .kept (.taken (.inspectAt _ _) h)
  | inspectInvalid w => exact .kept (.taken (.inspectAt _ _) h)
  | registerWrite cycle a w => exact .kept (.taken (.busWrite cycle a.toNat w) h)
  | hardwareReset cause =>
    cases h
    exact .hardwareReset cause
  | resetNRelease cause m => exact resetNRelease h

/-- No command touches the queue of waiting commands. -/
theorem pending_eq {c : Instr} {s t : State} (h : Effect c s t) : t.pending = s.pending := by
  cases h with
  | kept h => exact h.pending
  | frameStart e _ => exact frameStart_pending e s
  | capture b _ _ => exact captureByte_pending ..
  | formation _ _ => exact formInOrder_pending ..
  | hardwareReset cause => rfl
  | release cause m held => rfl
  | shortRelease cause => rfl

end Effect

/-! ### Operands -/

/-- An event answers a next state whatever it does. -/
theorem exists_taken (s : State) (f : State → State) : ∃ t, taken s f = .next t := by
  rcases taken_cases s f with ⟨-, h⟩ | ⟨-, h⟩
  · exact ⟨_, h⟩
  · exact ⟨_, h⟩

theorem exists_completion (code : Byte) (s : State) (f : Params → State → State) :
    ∃ t, completion code s f = .next t := exists_taken ..

theorem exists_resetNRelease (cause : ResetCause) (m : Bool) (s : State) :
    ∃ t, execResetNRelease cause m s = .next t := by
  unfold execResetNRelease
  split
  · split
    · exact ⟨_, rfl⟩
    · exact ⟨_, rfl⟩
  · exact ⟨_, rfl⟩

/-- An operand check lets a command through or faults it. -/
theorem checked_answers {b : Bool} {P : Prop} [Decidable P] (hb : b = true ↔ P) (s : State) (f : State → State) :
    (b = true → ∃ t, (if P then taken s f else .fault .noSuchPlace) = .next t) ∧
      (b = false → (if P then taken s f else .fault .noSuchPlace) = .fault .noSuchPlace) := by
  constructor
  · intro h
    rw [if_pos (hb.mp h)]
    exact exists_taken s f
  · rintro rfl
    exact if_neg fun h => nomatch hb.mpr h

/-- The operands of a command decide its answer: six commands name a place, every other one always answers. -/
theorem exec_answers (c : Instr) (s : State) :
    (c.wellFormed = true → ∃ t, exec c s = .next t) ∧ (c.wellFormed = false → exec c s = .fault .noSuchPlace) := by
  cases c
  case inputByteCapture | outputSlotFormation => exact checked_answers Iff.rfl s _
  case expfClear k v => exact checked_answers (P := k < 2) (Laws.Places.expfClear k v) s _
  case iflagClear k v => exact checked_answers (P := k < 2) (Laws.Places.iflagClear k v) s _
  case imaskWrite k v => exact checked_answers (P := k < 2) (Laws.Places.imaskWrite k v) s _
  case ilvlWrite k v => exact checked_answers (P := k < 7) (Laws.Places.ilvlWrite k v) s _
  case hardwareReset cause => exact ⟨fun _ => ⟨_, rfl⟩, nofun⟩
  case resetNRelease cause m => exact ⟨fun _ => exists_resetNRelease cause m s, nofun⟩
  case connect | setConstant | setTest | disconnect | commit | cancel | discard | reserve | hunt | release | renew |
      configureEngine | start | stop | inject | snapshot | pop | softReset =>
    dsimp only [exec, execConnect, execSetConstant, execSetTest, execCancel, execDiscard, execPop, execSoftReset]
    exact ⟨fun _ => exists_completion .., nofun⟩
  all_goals exact ⟨fun _ => exists_taken .., nofun⟩

/-- Settles O2, by the operand checks and by the effects that a command can have. -/
theorem operandsDecideTheAnswerAndTheQueueStays : Obligations.OperandsDecideTheAnswerAndTheQueueStays :=
  ⟨exec_answers, fun _ _ _ h => (Effect.of_exec h).pending_eq⟩

end Sys2Proof.Machine
end

