-- ==== Sys2Proof/Proofs/Formation.lean ====
section
/-! The formation of slots: what it leaves of the frame in progress, and the byte that each mode forms. -/

namespace Sys2Proof.Machine

/-! ### What the formation of slots keeps -/

/-- `t` has formed no fewer slots than `s`, the bytes that `s` has formed are the same in `t`, and the same engines supply
bytes. -/
structure FormsOn (s t : State) : Prop where
  next_le : ∀ o < 16, s.oa.next.get o ≤ t.oa.next.get o
  frame : ∀ i < 1024, i % 64 < s.oa.next.get (i / 64) → t.oa.frame.get i = s.oa.frame.get i
  emit : ∀ n, (t.oa.emit.get n).isSome = (s.oa.emit.get n).isSome

/-- The byte of a TEST slot leaves which engines supply bytes. -/
theorem isSome_emit_testByte (n m : Nat) (s : State) :
    ((testByte n s).2.oa.emit.get m).isSome = (s.oa.emit.get m).isSome := by
  unfold testByte
  split
  · rfl
  · next em hem =>
    split
    · unfold supplyByte
      dsimp only
      split
      · rfl
      · rfl
    · exact isSome_set_emission _ hem m

theorem isSome_emit_slotByte (i m : Nat) (s : State) :
    ((slotByte i s).2.oa.emit.get m).isSome = (s.oa.emit.get m).isSome := by
  unfold slotByte
  split
  · rfl
  · rfl
  · rfl
  · exact isSome_emit_testByte _ m s

namespace FormsOn

theorem refl (s : State) : FormsOn s s := ⟨fun _ _ => Nat.le_refl _, fun _ _ _ => rfl, fun _ => rfl⟩

theorem trans {s t u : State} (h : FormsOn s t) (k : FormsOn t u) : FormsOn s u where
  next_le o ho := (h.next_le o ho).trans (k.next_le o ho)
  frame i hi hf :=
    (k.frame i hi (Nat.lt_of_lt_of_le hf (h.next_le (i / 64) (by omega)))).trans (h.frame i hi hf)
  emit n := (k.emit n).trans (h.emit n)

theorem foldl {f : State → Nat → State} : ∀ (l : List Nat) (s : State), (∀ n ∈ l, ∀ s, FormsOn s (f s n)) →
    FormsOn s (l.foldl f s)
  | [], s, _ => refl s
  | n :: l, s, h => (h n (by simp) s).trans (foldl l _ fun m hm => h m (by simp [hm]))

theorem formSlot {stream slot : Nat} (hStream : stream < 16) (hSlot : slot < 64) (s : State) :
    FormsOn s (formSlot stream slot s) := by
  refine ⟨fun o ho => ?_, fun i hi hf => ?_, fun n => ?_⟩
  · rw [next_formSlot]
    split
    · next h =>
      obtain rfl : stream = o := by omega
      omega
    · exact Nat.le_refl _
  · unfold Machine.formSlot
    split
    · next h =>
      have hFrame : (slotByte (flat stream slot) s).2.oa.frame = s.oa.frame :=
        slotByte_keeps (·.oa.frame) (fun _ _ _ => rfl) (fun _ _ => rfl) _ s
      have hne : flat stream slot ≠ i := by
        rintro rfl
        have h1 : flat stream slot / 64 = stream := streamOf_flat hSlot
        have h2 : flat stream slot % 64 = slot := slotOf_flat hSlot
        rw [h1, h2] at hf
        omega
      have hmod : flat stream slot % 2 ^ 10 ≠ i % 2 ^ 10 := by
        have := flat_lt hStream hSlot
        omega
      simp only [putSlot, hFrame, Table.get_set_ne _ _ hmod]
    · rfl
  · unfold Machine.formSlot
    split
    · exact isSome_emit_slotByte _ n s
    · rfl

theorem formColumn {t : Nat} (ht : t < 64) (s : State) : FormsOn s (formColumn t s) :=
  foldl _ s fun _ ho s => formSlot (List.mem_range.mp ho) ht s

theorem formSlots {k : Nat} (hk : k ≤ 64) (s : State) : FormsOn s (formSlots k s) := by
  rw [formSlots_eq]
  refine foldl _ s fun t ht s => formColumn ?_ s
  have := List.mem_range.mp ht
  omega

theorem formInOrder {stream slot : Nat} (hStream : stream < 16) (hSlot : slot < 64) (s : State) :
    FormsOn s (formInOrder stream slot s) := by
  unfold Machine.formInOrder
  split
  · exact (formSlots (Nat.le_of_lt hSlot) s).trans (formSlot hStream hSlot _)
  · exact refl s

/-- The receive memory is no part of the output frame. -/
theorem receive (s : State) (rfm : ReceiveMemory) : FormsOn s { s with rfm := rfm } :=
  ⟨fun _ _ => Nat.le_refl _, fun _ _ _ => rfl, fun _ => rfl⟩

theorem captureByte {stream slot : Nat} (b : Byte) (hSlot : slot < 64) (s : State) :
    FormsOn s (captureByte stream slot b s) := by
  unfold Machine.captureByte
  split
  · have hk : s.formedBy stream slot ≤ 64 := by
      unfold State.formedBy
      split
      · exact Nat.le_refl 64
      · exact hSlot
    exact (formSlots hk s).trans (receive _ _)
  · exact refl s

end FormsOn

theorem captureByte_rfm_completed (stream slot : Nat) (b : Byte) (s : State) :
    (captureByte stream slot b s).rfm.completed = s.rfm.completed := by
  unfold captureByte
  split
  · simp
  · rfl

/-- Settles O52: of the effects that a command can have, those that are left keep the frame in progress or form on. -/
theorem frameInputsStayForTheFrame : Obligations.FrameInputsStayForTheFrame := by
  intro c s t h hShort hRow hReset
  cases Effect.of_exec h with
  | kept k =>
    exact ⟨k.fcnt, k.active, k.hold, by rw [k.rfm], k.idleInForce, k.inProgress, k.frameState, fun n _ => k.emit n,
      fun i _ _ => by rw [k.frame]⟩
  | frameStart e he => exact absurd he (hRow e)
  | @capture stream slot _ b hStream hSlot =>
    have k := FormsOn.captureByte (stream := stream) b hSlot s
    exact ⟨captureByte_fcnt .., by rw [captureByte_cm], captureByte_hold .., captureByte_rfm_completed ..,
      captureByte_oa_idleInForce .., captureByte_oa_inProgress .., captureByte_oa_frameState .., fun n _ => k.emit n,
      k.frame⟩
  | formation hStream hSlot =>
    have k := FormsOn.formInOrder hStream hSlot s
    exact ⟨formInOrder_fcnt .., by rw [formInOrder_cm], formInOrder_hold .., by rw [formInOrder_rfm],
      formInOrder_oa_idleInForce .., formInOrder_oa_inProgress .., formInOrder_oa_frameState .., fun n _ => k.emit n,
      k.frame⟩
  | hardwareReset cause => exact absurd rfl (hReset cause)
  | release cause m held => exact ⟨rfl, rfl, rfl, rfl, rfl, rfl, rfl, fun _ _ => rfl, fun _ _ _ => rfl⟩
  | shortRelease cause => cases hShort

/-! ### The byte of one slot -/

/-- A slot whose earlier slots have been formed is formed with its byte, and nothing else is formed (R5, R111). -/
theorem formSlot_of_next {stream slot : Nat} {s : State} (hp : s.oa.inProgress = true)
    (hn : s.oa.next.get stream ≤ slot) :
    formSlot stream slot s =
      (slotByte (64 * stream + slot) s).2.withByte stream slot (slotByte (64 * stream + slot) s).1 :=
  if_pos ⟨hp, hn⟩

theorem exec_outputSlotFormation {stream slot : Nat} (hStream : stream < 16) (hSlot : slot < 64) (s : State) :
    exec (.outputSlotFormation stream slot) s = taken s (formInOrder stream slot) :=
  if_pos (by simp [placeOk, hStream, hSlot])

theorem exec_inputByteCapture {stream slot : Nat} (hStream : stream < 16) (hSlot : slot < 64) (b : Byte) (s : State) :
    exec (.inputByteCapture stream slot b) s = taken s (captureByte stream slot b) :=
  if_pos (by simp [placeOk, hStream, hSlot])

/-- The answer of a formation, by the byte of the slot. -/
theorem exec_formation_of_slotByte {stream slot : Nat} {s s' : State} {b : Byte} (hStream : stream < 16)
    (hSlot : slot < 64) (hr : s.inReset = false) (hp : s.oa.inProgress = true) (hf : s.formedTo slot)
    (hn : s.oa.next.get stream ≤ slot) (hb : slotByte (64 * stream + slot) s = (b, s')) :
    exec (.outputSlotFormation stream slot) s = .next (s'.withByte stream slot b) := by
  rw [exec_outputSlotFormation hStream hSlot, taken_of_running hr, formInOrder_of_formedTo _ _ _ hf,
    formSlot_of_next hp hn, hb]

theorem slotByte_of_idle {i : Nat} {s : State} (h : s.activeEntry i = .idle) : slotByte i s = (s.oa.idleInForce, s) := by
  simp only [slotByte, h]

theorem slotByte_of_constant {i : Nat} {s : State} {b : Byte} {w m : Nat} (h : s.activeEntry i = .constant b w m) :
    slotByte i s = (b, s) := by
  simp only [slotByte, h]

theorem slotByte_of_test {i : Nat} {s : State} {n w m : Nat} (h : s.activeEntry i = .test n w m) :
    slotByte i s = testByte n s := by
  simp only [slotByte, h]

theorem slotByte_of_switched {i : Nat} {s : State} {src : Nat} {d : Delay} {inv : Bool} {c : Conditioning} {w m : Nat}
    (h : s.activeEntry i = .switched src d inv c w m) : slotByte i s = (switchedByte s i src d inv c, s) := by
  simp only [slotByte, h]

/-! The path of a SWITCHED slot -/

theorem sourceByte_eq (r : ReceiveMemory) (src t : Nat) (d : Delay) :
    sourceByte r src t d = if d = .minimum ∧ src % 64 + 2 ≤ t then r.receiving.get src else r.completed.get src := by
  cases d with
  | minimum => exact if_congr (by simp [slotOf]) rfl rfl
  | aligned => exact (if_neg (by simp)).symm

theorem pathByte_eq (invert : Bool) (b : Byte) : pathByte invert b = if invert = true then b ^^^ 0xFF else b := by
  cases invert with
  | false => rfl
  | true => exact (BitVec.xor_allOnes (x := b)).symm

/-- The conditioning of a SWITCHED slot by the frame state of its source stream (R16, R97). -/
theorem switchedByte_eq (s : State) (i src : Nat) (d : Delay) (inv : Bool) (c : Conditioning) :
    switchedByte s i src d inv c =
      match s.oa.frameState.get (src / 64), c with
      | .clear, _ => pathByte inv (sourceByte s.rfm src (slotOf i) d)
      | .suspect _, _ => pathByte inv (sourceByte s.rfm src (slotOf i) d)
      | _, .pass => pathByte inv (sourceByte s.rfm src (slotOf i) d)
      | _, .idleCode => s.oa.idleInForce
      | _, .allOnes => 0xFF
      | _, .hold => s.hold.get i := by
  unfold switchedByte streamOf
  cases s.oa.frameState.get (src / 64) with
  | clear => rfl
  | suspect k => rfl
  | fault => cases c <;> rfl
  | recovering k => cases c <;> rfl

theorem lineByte_withByte {s : State} (hp : s.oa.inProgress = true) (stream slot : Nat) (b : Byte) :
    (s.withByte stream slot b).lineByte stream slot = some b :=
  (if_pos hp).trans (Table.get_set_self _ _ _)

/-- Settles O7, by the byte that each mode forms. -/
theorem formedByteOfIdleConstantAndSwitched : Obligations.FormedByteOfIdleConstantAndSwitched := by
  refine ⟨fun s stream slot hp => if_neg (by simp [hp]), fun s stream slot hStream hSlot hr hp hf hn =>
    ⟨fun h => ?_, fun b w m h => ?_, fun src d inv c w m source path b h hsource hpath hb => ?_,
      lineByte_withByte hp stream slot⟩⟩
  · exact exec_formation_of_slotByte hStream hSlot hr hp hf hn (slotByte_of_idle h)
  · exact exec_formation_of_slotByte hStream hSlot hr hp hf hn (slotByte_of_constant h)
  · have hslot : slotOf (64 * stream + slot) = slot := slotOf_flat hSlot
    have hbyte : switchedByte s (64 * stream + slot) src d inv c = b := by
      rw [switchedByte_eq, hslot, sourceByte_eq, ← hsource, pathByte_eq, ← hpath]
      exact hb.symm
    rw [← hbyte]
    exact exec_formation_of_slotByte hStream hSlot hr hp hf hn (slotByte_of_switched h)

/-! The byte of a TEST slot -/

theorem testByte_of_silent {n : Nat} {s : State} (h : s.oa.emit.get n = none) : testByte n s = (s.oa.idleInForce, s) := by
  simp only [testByte, h]

theorem testByte_of_plain {n : Nat} {s : State} {cfg : EngineConfig} {b : Byte} {q : Sequence}
    (h : s.oa.emit.get n = some { cfg := cfg, tail := none }) (hb : nextByte cfg (s.engine n).gen.seq = (b, q))
    (hinj : (s.engine n).gen.pendingInj = 0) :
    testByte n s = (b, s.setEngine n { s.engine n with gen := { seq := q, pendingInj := 0 } }) := by
  simp only [testByte, h, supplyByte, hb, hinj, Nat.lt_irrefl, if_false]

theorem testByte_of_injection {n k : Nat} {s : State} {cfg : EngineConfig} {b : Byte} {q : Sequence}
    (h : s.oa.emit.get n = some { cfg := cfg, tail := none }) (hb : nextByte cfg (s.engine n).gen.seq = (b, q))
    (hinj : (s.engine n).gen.pendingInj = k + 1) :
    testByte n s = (b ^^^ 1, s.setEngine n { s.engine n with
      gen := { seq := q, pendingInj := k }
      live := { (s.engine n).live with errorsInjected := satInc (s.engine n).live.errorsInjected } }) := by
  simp only [testByte, h, supplyByte, hb, hinj, Nat.zero_lt_succ, if_true, injected, Nat.add_sub_cancel]

theorem testByte_of_tail {n : Nat} {s : State} {cfg : EngineConfig} {b : Byte} {q q' : Sequence}
    (h : s.oa.emit.get n = some { cfg := cfg, tail := some q }) (hb : nextByte cfg q = (b, q')) :
    testByte n s =
      (b, { s with oa := { s.oa with emit := s.oa.emit.set n (some { cfg := cfg, tail := some q' }) } }) := by
  simp only [testByte, h, supplyTail, hb]

/-- Settles O8, by what the engine supplies in the frame. -/
theorem formedByteOfTest : Obligations.FormedByteOfTest := by
  intro s stream slot n w m hStream hSlot hr hp hf hn hEntry
  have hSlotByte := slotByte_of_test hEntry
  refine ⟨fun h => ?_, fun cfg b q h hb => ⟨fun hinj => ?_, fun k hinj => ?_⟩, fun cfg b q q' h hb => ?_⟩
  · exact exec_formation_of_slotByte hStream hSlot hr hp hf hn (hSlotByte.trans (testByte_of_silent h))
  · exact exec_formation_of_slotByte hStream hSlot hr hp hf hn (hSlotByte.trans (testByte_of_plain h hb hinj))
  · exact exec_formation_of_slotByte hStream hSlot hr hp hf hn (hSlotByte.trans (testByte_of_injection h hb hinj))
  · exact exec_formation_of_slotByte hStream hSlot hr hp hf hn (hSlotByte.trans (testByte_of_tail h hb))

end Sys2Proof.Machine
end

