-- ==== Sys2Proof/Proofs/LineOrder.lean ====
section
/-! The order of the line (R5): the first slot not yet formed can be formed first, and a capture passes a formation. -/

namespace Sys2Proof.Machine

/-! ### Nothing is formed before the first frame, and nothing twice -/

theorem formSlots_of_idle (k : Nat) {s : State} (h : s.oa.inProgress = false) : formSlots k s = s := by
  rw [formSlots_eq]
  exact foldl_id _ fun t _ => foldl_id _ fun o _ => formSlot_of_formed o t s (Or.inl h)

theorem formInOrder_of_formed {stream slot : Nat} {s : State}
    (h : s.oa.inProgress = false ∨ slot < s.oa.next.get stream) : formInOrder stream slot s = s := by
  unfold formInOrder
  split
  · next hn =>
    have hp : s.oa.inProgress = false := h.resolve_right (by omega)
    rw [formSlots_of_idle slot hp]
    exact formSlot_of_formed stream slot s h
  · rfl

theorem formSlot_inReset (stream slot : Nat) (s : State) : (formSlot stream slot s).inReset = s.inReset :=
  formSlot_keeps (·.inReset) (fun _ _ _ => rfl) (fun _ _ => rfl) (fun _ _ _ _ => rfl) _ _ _

theorem FormsOn.formedTo {s t : State} {k : Nat} (h : FormsOn s t) (hf : s.formedTo k) : t.formedTo k :=
  fun o ho => (hf o ho).trans (h.next_le o ho)

/-! ### The byte received -/

/-- The byte of an input slot in the receiving frame, with the line at the end of that slot (R5, R6). -/
def State.received (s : State) (stream slot : Nat) (b : Byte) : State :=
  { s with rfm := { s.rfm with receiving := s.rfm.receiving.set (64 * stream + slot) b
                               captured := s.rfm.captured.set stream (slot + 1) } }

theorem captureByte_of_inProgress {s : State} (hp : s.oa.inProgress = true) (stream slot : Nat) (b : Byte) :
    captureByte stream slot b s = (formSlots (s.formedBy stream slot) s).received stream slot b := if_pos hp

theorem captureByte_of_idle {s : State} (hp : s.oa.inProgress = false) (stream slot : Nat) (b : Byte) :
    captureByte stream slot b s = s := if_neg (by simp [hp])

/-- Where the slots that the line has sent have been formed, a capture writes its byte only. -/
theorem captureByte_of_formedTo {s : State} {stream slot : Nat} (hp : s.oa.inProgress = true)
    (hf : s.formedTo (slot + 1)) (hpass : s.linePassed stream slot → s.formedTo 64) (b : Byte) :
    captureByte stream slot b s = s.received stream slot b := by
  have hformed : s.formedTo (s.formedBy stream slot) := by
    unfold State.formedBy
    split
    · next h => exact hpass ((passed_iff s stream slot).mp h)
    · exact hf
  rw [captureByte_of_inProgress hp, formSlots_of_formedTo _ s hformed]

/-! ### The first slot not yet formed comes first -/

section
variable {s : State} {o k : Nat} (h : s.firstUnformed o k)
include h

theorem State.firstUnformed.stream_lt : o < 16 := by
  obtain ⟨ho, -⟩ := h
  exact ho

theorem State.firstUnformed.slot_lt : k < 64 := by
  obtain ⟨-, hk, -⟩ := h
  exact hk

theorem State.firstUnformed.formedTo : s.formedTo k := by
  obtain ⟨-, -, -, hf, -⟩ := h
  exact hf

end

/-- A fold over a range is the fold over its first entries and then over the others. -/
theorem foldl_range_split (f : State → Nat → State) (s : State) {n m : Nat} (h : n ≤ m) :
    (List.range m).foldl f s = (List.range' n (m - n)).foldl f ((List.range n).foldl f s) := by
  obtain ⟨d, rfl⟩ := Nat.exists_eq_add_of_le h
  rw [← List.foldl_append, Nat.add_sub_cancel_left, List.range_eq_range', List.range_eq_range', ← List.range'_append_1,
    Nat.zero_add]

/-- The first stream of a column that has not formed it forms it first. -/
theorem formColumn_formSlot_first {s : State} {o k : Nat} (h : s.firstUnformed o k) :
    formColumn k (formSlot o k s) = formColumn k s := by
  obtain ⟨ho, hk, hn, -, hbefore⟩ := h
  have hFirst : (List.range (o + 1)).foldl (fun s st => formSlot st k s) s = formSlot o k s := by
    rw [List.range_succ, List.foldl_append,
      foldl_id _ fun o' ho' => formSlot_of_formed o' k s (Or.inr (hbefore o' (List.mem_range.mp ho')))]
    rfl
  have hAgain : (List.range (o + 1)).foldl (fun s st => formSlot st k s) (formSlot o k s) = formSlot o k s := by
    refine foldl_id _ fun o' ho' => formSlot_of_formed o' k _ ?_
    have ho' := List.mem_range.mp ho'
    rw [formSlot_oa_inProgress, next_formSlot]
    cases hp : s.oa.inProgress with
    | false => exact Or.inl rfl
    | true =>
      refine Or.inr ?_
      split
      · exact Nat.lt_succ_self k
      · next hne =>
        refine hbefore o' (Nat.lt_of_le_of_ne (Nat.lt_succ_iff.mp ho') ?_)
        rintro rfl
        exact hne ⟨rfl, hn, rfl⟩
  unfold formColumn
  rw [foldl_range_split _ _ ho, foldl_range_split _ s ho, hFirst, hAgain]

theorem formSlots_formSlot_first {s : State} {o k j : Nat} (h : s.firstUnformed o k) (hj : k < j) :
    formSlots j (formSlot o k s) = formSlots j s := by
  have hFormsOn : FormsOn s (formSlot o k s) := .formSlot h.stream_lt h.slot_lt s
  induction j, hj using Nat.le_induction with
  | base =>
    rw [formSlots_succ, formSlots_succ, formSlots_of_formedTo k _ (hFormsOn.formedTo h.formedTo),
      formSlots_of_formedTo k s h.formedTo, formColumn_formSlot_first h]
  | succ j _ ih => rw [formSlots_succ, formSlots_succ, ih]

theorem formInOrder_formSlot_first {s : State} {o k stream slot : Nat} (h : s.firstUnformed o k) (hk : k < slot)
    (hn : s.oa.next.get stream ≤ slot) : formInOrder stream slot (formSlot o k s) = formInOrder stream slot s := by
  have hn' : (formSlot o k s).oa.next.get stream ≤ slot := by
    rw [next_formSlot]
    split
    · exact hk
    · exact hn
  unfold formInOrder
  rw [if_pos hn', if_pos hn, formSlots_formSlot_first h hk]

/-- The formation of slot `k` does not take the line past the end of slot `k` − 1. -/
theorem passed_formSlot {s : State} {o k stream slot : Nat} (ho : o < 16) (hk : k < 64)
    (h : k ≤ slot + 1 ∨ s.linePassed stream slot) :
    (formSlot o k s).passed stream slot = s.passed stream slot := by
  rw [Bool.eq_iff_iff, passed_iff, passed_iff]
  constructor
  · intro hPassed
    refine h.elim (fun hle => ?_) id
    rcases hPassed with hcap | ⟨o', ho', hnext | hcap⟩
    · exact Or.inl (by rwa [formSlot_rfm] at hcap)
    · rw [next_formSlot] at hnext
      split at hnext
      · omega
      · exact Or.inr ⟨o', ho', Or.inl hnext⟩
    · exact Or.inr ⟨o', ho', Or.inr (by rwa [formSlot_rfm] at hcap)⟩
  · rintro (hcap | ⟨o', ho', hnext | hcap⟩)
    · exact Or.inl (by rwa [formSlot_rfm])
    · exact Or.inr ⟨o', ho', Or.inl (Nat.lt_of_lt_of_le hnext ((FormsOn.formSlot ho hk s).next_le o' ho'))⟩
    · exact Or.inr ⟨o', ho', Or.inr (by rwa [formSlot_rfm])⟩

theorem captureByte_formSlot_first {s : State} {o k stream slot : Nat} (h : s.firstUnformed o k)
    (hc : k ≤ slot ∨ s.linePassed stream slot) (b : Byte) :
    captureByte stream slot b (formSlot o k s) = captureByte stream slot b s := by
  have hPassed : (formSlot o k s).passed stream slot = s.passed stream slot :=
    passed_formSlot h.stream_lt h.slot_lt (hc.imp_left Nat.le_succ_of_le)
  have hk : k < s.formedBy stream slot := by
    unfold State.formedBy
    split
    · exact h.slot_lt
    · next hn => exact Nat.lt_succ_of_le (hc.resolve_right fun hl => hn ((passed_iff s stream slot).mpr hl))
  cases hp : s.oa.inProgress with
  | false => rw [formSlot_of_formed o k s (Or.inl hp)]
  | true =>
    have hFormedBy : (formSlot o k s).formedBy stream slot = s.formedBy stream slot := by
      unfold State.formedBy
      rw [hPassed]
    rw [captureByte_of_inProgress hp, captureByte_of_inProgress ((formSlot_oa_inProgress ..).trans hp), hFormedBy,
      formSlots_formSlot_first h hk]

/-! ### A capture passes the formation of the next slot -/

theorem supplyByte_rfm (n : Nat) (em : Emission) (s : State) (r : ReceiveMemory) :
    supplyByte n em { s with rfm := r } = ((supplyByte n em s).1, { (supplyByte n em s).2 with rfm := r }) := by
  unfold supplyByte
  dsimp only [State.engine]
  split
  · rfl
  · rfl

theorem testByte_rfm (n : Nat) (s : State) (r : ReceiveMemory) :
    testByte n { s with rfm := r } = ((testByte n s).1, { (testByte n s).2 with rfm := r }) := by
  cases hem : s.oa.emit.get n with
  | none => simp only [testByte, hem]
  | some em =>
    cases htail : em.tail with
    | none => simp only [testByte, hem, htail, supplyByte_rfm]
    | some q => simp only [testByte, hem, htail, supplyTail]

/-- The byte of a slot depends on the receive memory through its source byte only. -/
theorem slotByte_rfm (i : Nat) (s : State) (r : ReceiveMemory)
    (h : ∀ src d, sourceByte r src (slotOf i) d = sourceByte s.rfm src (slotOf i) d) :
    slotByte i { s with rfm := r } = ((slotByte i s).1, { (slotByte i s).2 with rfm := r }) := by
  cases hEntry : s.activeEntry i with
  | idle => rw [slotByte_of_idle hEntry, slotByte_of_idle (s := { s with rfm := r }) hEntry]
  | constant b w m => rw [slotByte_of_constant hEntry, slotByte_of_constant (s := { s with rfm := r }) hEntry]
  | test n w m => rw [slotByte_of_test hEntry, slotByte_of_test (s := { s with rfm := r }) hEntry, testByte_rfm]
  | switched src d inv c w m =>
    rw [slotByte_of_switched hEntry, slotByte_of_switched (s := { s with rfm := r }) hEntry]
    simp only [switchedByte, h]

/-- No slot takes a byte of the slot before it from the frame being received (R13). -/
theorem sourceByte_received {s : State} {stream slot : Nat} (hSlot : slot < 64) (b : Byte) (src : Nat) (d : Delay) :
    sourceByte (s.received stream slot b).rfm src (slot + 1) d = sourceByte s.rfm src (slot + 1) d := by
  rw [sourceByte_eq, sourceByte_eq]
  split
  · next h =>
    have hne : (64 * stream + slot) % 2 ^ 10 ≠ src % 2 ^ 10 := by omega
    exact Table.get_set_ne _ _ hne
  · rfl

/-- The formation of a slot and the completion of the input byte one slot before it come out the same in either order. -/
theorem formSlot_received {o stream slot : Nat} (hSlot : slot + 1 < 64) (b : Byte) (s : State) :
    formSlot o (slot + 1) (s.received stream slot b) = (formSlot o (slot + 1) s).received stream slot b := by
  by_cases h : s.oa.inProgress = true ∧ s.oa.next.get o ≤ slot + 1
  · obtain ⟨hp, hn⟩ := h
    have hByte := slotByte_rfm (64 * o + (slot + 1)) s (s.received stream slot b).rfm (by
      rw [show slotOf (64 * o + (slot + 1)) = slot + 1 from slotOf_flat hSlot]
      exact sourceByte_received (by omega) b)
    have hRfm : (slotByte (64 * o + (slot + 1)) s).2.rfm = s.rfm :=
      slotByte_keeps (·.rfm) (fun _ _ _ => rfl) (fun _ _ => rfl) _ s
    rw [formSlot_of_next hp hn, formSlot_of_next (s := s.received stream slot b) hp hn,
      show s.received stream slot b = { s with rfm := (s.received stream slot b).rfm } from rfl, hByte]
    simp only [State.received, State.withByte, hRfm]
  · have hFormed : s.oa.inProgress = false ∨ slot + 1 < s.oa.next.get o := by
      rw [not_and_or, Bool.not_eq_true, Nat.not_le] at h
      exact h
    rw [formSlot_of_formed o (slot + 1) s hFormed]
    exact formSlot_of_formed o (slot + 1) _ hFormed

theorem captureByte_formSlot_comm {s : State} {o stream slot : Nat} (ho : o < 16) (hSlot : slot + 1 < 64)
    (hf : s.formedTo (slot + 1)) (hpass : ¬s.linePassed stream slot) (b : Byte) :
    captureByte stream slot b (formInOrder o (slot + 1) s) = formInOrder o (slot + 1) (captureByte stream slot b s) := by
  rw [formInOrder_of_formedTo _ _ s hf]
  cases hp : s.oa.inProgress with
  | false =>
    rw [formSlot_of_formed o _ s (Or.inl hp), captureByte_of_idle hp, formInOrder_of_formed (Or.inl hp)]
  | true =>
    have hpass' : ¬(formSlot o (slot + 1) s).linePassed stream slot := by
      rwa [← passed_iff, passed_formSlot ho hSlot (Or.inl (Nat.le_refl _)), passed_iff]
    rw [captureByte_of_formedTo hp hf (absurd · hpass),
      captureByte_of_formedTo ((formSlot_oa_inProgress ..).trans hp) ((FormsOn.formSlot ho hSlot s).formedTo hf)
        (absurd · hpass'),
      formInOrder_of_formedTo o _ (s.received stream slot b) hf, formSlot_received hSlot]

/-! ### The statement, clause by clause -/

theorem exec_formation_of_formed {s : State} {stream slot : Nat} (hStream : stream < 16) (hSlot : slot < 64)
    (h : s.oa.inProgress = false ∨ slot < s.oa.next.get stream) :
    exec (.outputSlotFormation stream slot) s = .next s := by
  rw [exec_outputSlotFormation hStream hSlot]
  rcases taken_cases s (formInOrder stream slot) with ⟨-, h'⟩ | ⟨-, h'⟩
  · rw [h', formInOrder_of_formed h]
  · exact h'

/-- The formation of the first slot not yet formed: nothing in reset, that slot otherwise. -/
theorem exec_formation_first {s s' : State} {o k : Nat} (h : s.firstUnformed o k)
    (hexec : exec (.outputSlotFormation o k) s = .next s') :
    s' = s ∨ s.inReset = false ∧ s' = formSlot o k s := by
  rw [exec_outputSlotFormation h.stream_lt h.slot_lt] at hexec
  rcases taken_eq_next hexec with ⟨hr, rfl⟩ | ⟨-, rfl⟩
  · exact Or.inr ⟨hr, formInOrder_of_formedTo o k s h.formedTo⟩
  · exact Or.inl rfl

theorem exec_formation_capture_comm {s s' t' : State} {o stream slot : Nat} {b : Byte} (ho : o < 16)
    (hStream : stream < 16) (hSlot : slot + 1 < 64) (hf : s.formedTo (slot + 1)) (hpass : ¬s.linePassed stream slot)
    (hs : exec (.outputSlotFormation o (slot + 1)) s = .next s')
    (ht : exec (.inputByteCapture stream slot b) s = .next t') :
    exec (.inputByteCapture stream slot b) s' = exec (.outputSlotFormation o (slot + 1)) t' := by
  have hSlot' : slot < 64 := by omega
  rw [exec_outputSlotFormation ho hSlot] at hs ⊢
  rw [exec_inputByteCapture hStream hSlot'] at ht ⊢
  cases hr : s.inReset with
  | true =>
    rw [taken_of_held hr] at hs ht
    cases hs
    cases ht
    rw [taken_of_held hr, taken_of_held hr]
  | false =>
    rw [taken_of_running hr] at hs ht
    cases hs
    cases ht
    have hrs : (formInOrder o (slot + 1) s).inReset = false := by
      rw [formInOrder_of_formedTo o _ s hf, formSlot_inReset, hr]
    have hrt : (captureByte stream slot b s).inReset = false :=
      (captureByte_keeps (·.inReset) (fun _ _ _ => rfl) (fun _ _ => rfl) (fun _ _ _ _ => rfl) (fun _ _ => rfl) ..).trans
        hr
    rw [taken_of_running hrs, taken_of_running hrt, captureByte_formSlot_comm ho hSlot hf hpass]

/-- Settles O6, by what is formed once and by the order of the line. -/
theorem captureAndRepeatedFrames : Obligations.CaptureAndRepeatedFrames := by
  refine ⟨fun s stream slot b hStream hSlot hr => ?_, fun s stream slot hStream hSlot => ?_,
    fun s s' o k stream slot h hexec hStream hSlot => ?_,
    fun s s' t' o stream slot b ho hStream hSlot hf hpass hs ht => ?_⟩
  · rw [exec_inputByteCapture hStream hSlot, taken_of_running hr]
    exact ⟨fun hp hf hpass => congrArg _ (captureByte_of_formedTo hp hf hpass b),
      fun hp => congrArg _ (captureByte_of_idle hp stream slot b)⟩
  · exact exec_formation_of_formed hStream hSlot
  · rw [exec_outputSlotFormation hStream hSlot, exec_outputSlotFormation hStream hSlot]
    rcases exec_formation_first h hexec with rfl | ⟨hr, rfl⟩
    · exact ⟨fun _ _ => rfl, fun _ _ => rfl⟩
    · have hr' := (formSlot_inReset o k s).trans hr
      refine ⟨fun hk hn => ?_, fun hc b => ?_⟩
      · rw [taken_of_running hr, taken_of_running hr', formInOrder_formSlot_first h hk hn]
      · rw [exec_inputByteCapture hStream hSlot, exec_inputByteCapture hStream hSlot, taken_of_running hr,
          taken_of_running hr', captureByte_formSlot_first h hc]
  · exact exec_formation_capture_comm ho hStream hSlot hf hpass hs ht

end Sys2Proof.Machine
end

