-- ==== Sys2Proof/Proofs/FrameStart.lean ====
section
/-! What every frame start does to the engines and to the output frame, and what it keeps. -/

namespace Sys2Proof.Machine

/-! ### What a frame start keeps of each engine -/

/-- The SYNC_CHANGE events leave every engine as its frame-start work has left it. -/
theorem engine_raiseSyncs_tabulate (p : Nat → Bool) (s : State) {te : TestEngines} (f : Nat → Engine)
    (hte : te.engines = .tabulate 2 f) {m : Nat} (hm : m < 4) : (raiseSyncs p { s with te := te }).engine m = f m := by
  rw [State.engine, raiseSyncs_te, hte]
  exact Table.get_tabulate_of_lt f hm

/-- What no frame start changes of an engine. -/
structure Engine.KeepsSetup (e e' : Engine) : Prop where
  cfg : e'.cfg = e.cfg
  seq : e'.gen.seq = e.gen.seq
  lastRun : e'.lastRun = e.lastRun
  snap : e'.snap = e.snap

namespace Engine.KeepsSetup

theorem refl (e : Engine) : KeepsSetup e e := ⟨rfl, rfl, rfl, rfl⟩

theorem trans {a b c : Engine} (h : KeepsSetup a b) (k : KeepsSetup b c) : KeepsSetup a c :=
  ⟨k.cfg.trans h.cfg, k.seq.trans h.seq, k.lastRun.trans h.lastRun, k.snap.trans h.snap⟩

/-- The frame-start work of an engine moves its checker and its counters alone (R126). -/
theorem engineStart (completed : Table Byte 10) (faulted removed workFirst : Bool) (e : Engine) :
    KeepsSetup e (engineStart completed faulted removed workFirst e).engine := by
  unfold Machine.engineStart
  split
  · split
    · split
      · exact ⟨rfl, rfl, rfl, rfl⟩
      · exact refl e
    · exact ⟨rfl, rfl, rfl, rfl⟩
  · exact refl e

/-- Replacing one engine by one with the same setup. -/
theorem setEngine {s : State} {n : Nat} {e : Engine} (h : KeepsSetup (s.engine n) e) (m : Nat) :
    KeepsSetup (s.engine m) ((s.setEngine n e).engine m) := by
  rw [engine_setEngine]
  split
  · next hm =>
    have hsame : s.engine n = s.engine m := by
      unfold State.engine
      rw [← Table.get_mod _ n, ← Table.get_mod _ m]
      exact congrArg _ hm
    rwa [hsame] at h
  · exact refl _

/-- The end of a run drops the pending injections and the checker (R132). -/
theorem endRun (n : Nat) (o : RunOutcome) (s : State) (m : Nat) :
    KeepsSetup (s.engine m) ((endRun n o s).engine m) := by
  rcases endRun_cases n o s with ⟨c, r, -, -, ⟨-, h⟩ | ⟨-, h⟩⟩ | ⟨-, h⟩
  · rw [h]
    exact setEngine (e := (s.engine n).ended .idle) ⟨rfl, rfl, rfl, rfl⟩ m
  · rw [h]
    exact setEngine (e := (s.engine n).ended (.ended r)) ⟨rfl, rfl, rfl, rfl⟩ m
  · rw [h]
    exact refl _

theorem endRunIf (o : Option RunOutcome) (n : Nat) (s : State) (m : Nat) :
    KeepsSetup (s.engine m) ((endRunIf o n s).engine m) := by
  cases o with
  | none => exact refl _
  | some o => exact endRun n o s m

theorem foldl_endRunIf (o : Nat → Option RunOutcome) (m : Nat) : ∀ (l : List Nat) (s : State),
    KeepsSetup (s.engine m) ((l.foldl (fun s n => Machine.endRunIf (o n) n s) s).engine m)
  | [], _ => refl _
  | n :: l, s => (endRunIf (o n) n s m).trans (foldl_endRunIf o m l _)

theorem startEngines (e : FrameEvent) (applied : Bool) (s : State) {m : Nat} (hm : m < 4) :
    KeepsSetup (s.engine m) ((startEngines e applied s).engine m) := by
  refine trans ?_ (foldl_endRunIf _ m _ _)
  rw [engine_raiseSyncs_tabulate _ s (fun n => (engineStartOf e applied s n).engine) rfl hm]
  exact engineStart ..

theorem frameStart (e : FrameEvent) (s : State) {m : Nat} (hm : m < 4) :
    KeepsSetup (s.engine m) ((frameStart e s).engine m) := by
  have h := startEngines e (s.applicationDue e) (frameStartMap e s) hm
  have hMap : (frameStartMap e s).engine m = s.engine m := by rw [State.engine, frameStartMap_te, State.engine]
  rwa [hMap] at h

end Engine.KeepsSetup

/-! ### The receive memory, the settings and the new output frame -/

@[simp] theorem frameStart_rfm (e : FrameEvent) (s : State) :
    (frameStart e s).rfm =
      { completed := s.rfm.receiving, receiving := s.rfm.receiving, captured := .replicate 4 0 } := by
  simp [frameStart, frameStartMap, completeFrames]

@[simp] theorem frameStartMap_oa (e : FrameEvent) (s : State) :
    (frameStartMap e s).oa = { s.oa with idleInForce := s.oa.idlec } := by
  simp [frameStartMap, takeIdleCode]

theorem frameStart_sv (e : FrameEvent) (s : State) :
    (frameStart e s).sv = { s.sv with sups := .tabulate 4 fun i => s.sv.sampled e.sf i } := by
  simp [frameStart, frameStartMap, sampleSupervisors]

/-- The output frame that begins is made of the state that the frame start leaves (R8, R11, R17, R95). -/
theorem frameStart_oa (e : FrameEvent) (s : State) :
    (frameStart e s).oa =
      { idlec := s.oa.idlec
        idleInForce := s.oa.idlec
        inProgress := true
        frame := .replicate 10 none
        next := .replicate 4 0
        frameState := .tabulate 4 fun i => ((frameStart e s).sv.sups.get i).state
        emit := .tabulate 2 fun n => emission ((frameStart e s).engine n) } := by
  simp only [frameStart, beginOutput, startEngines_oa, frameStartMap_oa]
  rfl

/-- Settles O10, block by block of the state. -/
theorem frameStartBeginsAFrame : Obligations.FrameStartBeginsAFrame := by
  intro e s hr
  have hoa := frameStart_oa e s
  have hsv := frameStart_sv e s
  refine ⟨frameStart e s, taken_of_running hr _, frameStart_fcnt e s, ?_, ?_, ?_, ?_, ?_, ?_, ?_, ?_, ?_, ?_,
    frameStart_pins e s, frameStart_cm_fanout e s, frameStart_cm_folim e s, ?_, ?_, ?_, ?_, frameStart_te_runCounter e s,
    fun n hn => ?_, frameStart_ce e s, frameStart_iu_masks e s, frameStart_iu_levels e s, frameStart_iu_ithr e s,
    frameStart_biu e s, frameStart_held e s, frameStart_freeDraws e s⟩
  · rw [frameStart_rfm]
  · rw [frameStart_rfm]
  · intro i
    rw [frameStart_rfm]
    exact Table.get_replicate 4 0 i
  · rw [hoa]
  · rw [hoa]
  · rw [hoa]
  · intro i
    rw [hoa]
    exact Table.get_replicate 10 none i
  · intro i
    rw [hoa]
    exact Table.get_replicate 4 0 i
  · intro i hi
    rw [hoa]
    exact Table.get_tabulate_of_lt (d := 4) (fun i => ((frameStart e s).sv.sups.get i).state) hi
  · intro n hn
    rw [hoa]
    exact Table.get_tabulate_of_lt (d := 2) (fun n => emission ((frameStart e s).engine n)) hn
  · rw [hsv]
  · rw [hsv]
  · rw [hsv]
  · rw [hsv]
  · have h := Engine.KeepsSetup.frameStart e s hn
    exact ⟨h.cfg, h.seq, h.lastRun, h.snap⟩

end Sys2Proof.Machine
end

