-- ==== Sys2Proof/Proofs/Start.lean ====
section
/-! The command START: the seeded generator, the supply that an ended run keeps, and the answers. -/

namespace Sys2Proof.Machine

/-! ### Seeding (R108) -/

theorem seedSequence_wordPos (p : Pattern) (q : Sequence) : (seedSequence p q).wordPos = 0 := by
  cases p <;> rfl

/-- The S latest bits of a seeded PRBS are 1. -/
theorem seedSequence_reg {p : Pattern} {order tap : Nat} (h : p.taps = some (order, tap)) (q : Sequence) {k : Nat}
    (hk : k < order) : (seedSequence p q).reg.getLsbD k = true := by
  have horder : order ≤ 31 := by
    cases p <;> simp [Pattern.taps] at h <;> omega
  have hreg : (seedSequence p q).reg = q.reg ||| BitVec.ofNat 31 (2 ^ order - 1) := by
    simp only [seedSequence, h]
  have hk31 : k < 31 := by omega
  rw [hreg, BitVec.getLsbD_or, BitVec.getLsbD_ofNat, Nat.testBit_two_pow_sub_one]
  simp [hk, hk31]

/-! ### What the ended run supplies (R11, log 7) -/

/-- The tail of a run changes the emissions alone. -/
theorem keepTail_eq_emit (n : Nat) (s : State) :
    keepTail n s = { s with oa := { s.oa with emit := (keepTail n s).oa.emit } } := by
  unfold keepTail
  split
  · split
    · rfl
    · rfl
  · rfl

/-- The emission of an ended run goes on from the sequence that it had reached. -/
theorem emit_keepTail_self {n : Nat} {s : State} {em : Emission} (h : s.oa.emit.get n = some em) :
    (keepTail n s).oa.emit.get n = some { em with tail := some (em.tail.getD (s.engine n).gen.seq) } := by
  cases htail : em.tail with
  | none =>
    simp only [keepTail, h, htail]
    exact Table.get_set_self ..
  | some q =>
    simp only [keepTail, h, htail, Option.getD_some]
    rw [← htail]

theorem emit_keepTail_other {n m : Nat} {s : State} (hn : n < 4) (hm : m < 4)
    (h : m ≠ n ∨ s.oa.emit.get n = none) : (keepTail n s).oa.emit.get m = s.oa.emit.get m := by
  unfold keepTail
  split
  · next em hem =>
    have hne : n % 2 ^ 2 ≠ m % 2 ^ 2 := by
      have := h.resolve_right (by simp [hem])
      omega
    split
    · exact Table.get_set_ne _ _ hne
    · rfl
  · rfl

/-! ### The answers (R127) -/

/-- The state that START leaves before it answers: engine `n` runs, and an ended run of it goes on supplying the frame. -/
def State.startedRun (s : State) (n : Nat) : State :=
  { s with
    oa := { s.oa with emit := (keepTail n s).oa.emit }
    te := { engines := s.te.engines.set n ((s.engine n).started (s.te.runCounter + 1) s.cj.cseq)
            runCounter := s.te.runCounter + 1 } }

theorem engine_startedRun (s : State) (n m : Nat) :
    (s.startedRun n).engine m =
      if n % 4 = m % 4 then (s.engine n).started (s.te.runCounter + 1) s.cj.cseq else s.engine m :=
  Table.get_set ..

section
variable {s : State} {p : Params}

theorem startCommand_of_bad (h : 3 < p.p0.toNat) : startCommand p s = s.answered .badParameter 0 0 0 0 :=
  if_neg (Nat.not_le.mpr h)

theorem startCommand_of_busy (hn : p.p0.toNat ≤ 3) (h : (s.engine p.p0.toNat).run ≠ .idle) :
    startCommand p s =
      s.answered .engineBusy (word p.p0.toNat) (word (s.engine p.p0.toNat).run.name.value) 0 0 := by
  unfold startCommand
  rw [if_pos hn]
  split
  · contradiction
  · rfl

theorem startCommand_of_unconfigured (hn : p.p0.toNat ≤ 3) (hi : (s.engine p.p0.toNat).run = .idle)
    (hw : (s.engine p.p0.toNat).cfg.chkWidth = 0) :
    startCommand p s = s.answered .notConfigured (word p.p0.toNat) 0 0 0 := by
  simp only [startCommand, if_pos hn, hi, if_pos hw]
  rfl

theorem startCommand_of_idle (hn : p.p0.toNat ≤ 3) (hi : (s.engine p.p0.toNat).run = .idle)
    (hw : (s.engine p.p0.toNat).cfg.chkWidth ≠ 0) :
    startCommand p s =
      (s.startedRun p.p0.toNat).answered .ok (word p.p0.toNat) (s.te.runCounter + 1) s.cj.cseq 0 := by
  simp only [startCommand, if_pos hn, hi, if_neg hw]
  rw [keepTail_eq_emit]
  rfl

end

theorem run_ne_idle {r : RunState} {x : RunName} (h : r.name = x) (hx : x ≠ .idle) : r ≠ .idle := by
  rintro rfl
  exact hx h.symm

theorem answered_engine (s : State) (c : Completion) (r0 r1 r2 r3 : Word) (n : Nat) :
    (s.answered c r0 r1 r2 r3).engine n = s.engine n := rfl

end Sys2Proof.Machine

namespace Sys2Proof.Proofs

open Sys2Proof.Machine

/-- Settles O39, by the four answers of START. -/
theorem startCommand : Obligations.StartCommand := by
  rintro s p n hc rfl
  have hexec : exec .start s = .next (Machine.startCommand p s) := completion_of_commanded hc Machine.startCommand
  rw [hexec]
  refine ⟨fun h => congrArg _ (startCommand_of_bad h), fun hn => ⟨fun hr => ?_, fun hr => ?_, fun hi hw => ?_,
    fun hi hw => ⟨_, congrArg _ (startCommand_of_idle hn hi hw), rfl, rfl, ?_⟩⟩⟩
  · rw [startCommand_of_busy hn (run_ne_idle hr nofun), hr]
    rfl
  · rw [startCommand_of_busy hn (run_ne_idle hr nofun), hr]
    rfl
  · rw [startCommand_of_unconfigured hn hi hw]
  · have hself := engine_startedRun s p.p0.toNat p.p0.toNat
    rw [if_pos rfl] at hself
    simp only [answered_engine, hself]
    refine ⟨rfl, seedSequence_wordPos _ _, fun order tap htaps k hk => seedSequence_reg htaps _ hk, fun m hm hne => ?_,
      fun m hm h => emit_keepTail_other (Nat.lt_succ_of_le hn) hm h, fun em hem => emit_keepTail_self hem⟩
    exact (engine_startedRun s _ m).trans (if_neg (by omega))

end Sys2Proof.Proofs
end

