-- ==== Sys2Proof/Proofs/Plans.lean ====
section
/-! The staged entries of a command: the view, the journal and the fan-out table that they leave. -/

namespace Sys2Proof.Machine

/-! ### The effective view after a plan -/

/-- The effective view of a map and a journal (R27). -/
def viewOf (active : Table Entry 10) (j : List JournalEntry) (slot : Nat) : Entry :=
  (journalGet j slot).getD (active.get slot)

theorem effective_eq_viewOf (s : State) : s.effective = viewOf s.cm.active s.cj.journal := rfl

theorem viewOf_nil (active : Table Entry 10) : viewOf active [] = active.get := rfl

/-- A view in which the target slots of a plan hold their staged entries. -/
def stagedView (view : Nat → Entry) (plan : Plan) : Nat → Entry :=
  plan.foldl (fun v p => Function.update v p.1 p.2) view

/-- Whatever the case of R40, the target slot shows its staged entry. -/
theorem viewOf_treat (active : Table Entry 10) (j : List JournalEntry) (p : Nat × Entry) :
    viewOf active (treat active j p) = Function.update (viewOf active j) p.1 p.2 := by
  funext slot
  rw [viewOf, journalGet_treat, Function.update_apply]
  by_cases hs : slot = p.1
  · subst hs
    by_cases ha : p.2 = active.get p.1 <;> simp [ha]
  · simp [hs, viewOf]

theorem viewOf_treatAll (active : Table Entry 10) (plan : Plan) :
    ∀ j, viewOf active (treatAll active j plan) = stagedView (viewOf active j) plan := by
  induction plan with
  | nil => exact fun _ => rfl
  | cons p plan ih =>
    intro j
    rw [stagedView, List.foldl_cons, ← viewOf_treat]
    exact ih _

theorem stagedView_concat (view : Nat → Entry) (plan : Plan) (p : Nat × Entry) :
    stagedView view (plan ++ [p]) = Function.update (stagedView view plan) p.1 p.2 := List.foldl_append ..

theorem planOf_succ (head w : Nat) (entry : Nat → Entry) :
    planOf head (w + 1) entry = planOf head w entry ++ [(head + w, entry w)] := by
  simp [planOf, List.range_succ]

/-- A run of target slots in the view. -/
theorem stagedView_planOf (view : Nat → Entry) (head : Nat) (entry : Nat → Entry) (slot : Nat) (w : Nat) :
    stagedView view (planOf head w entry) slot =
      if head ≤ slot ∧ slot < head + w then entry (slot - head) else view slot := by
  induction w with
  | zero =>
    rw [if_neg (by omega)]
    rfl
  | succ w ih =>
    rw [planOf_succ, stagedView_concat, Function.update_apply, ih]
    by_cases hs : slot = head + w
    · simp [hs]
    · rw [if_neg hs]
      exact if_congr (by omega) rfl rfl

theorem stagedView_member (view : Nat → Entry) (head : Nat) (entry : Nat → Entry) {w k : Nat} (hk : k < w) :
    stagedView view (planOf head w entry) (head + k) = entry k := by
  rw [stagedView_planOf, if_pos (by omega), Nat.add_sub_cancel_left]

theorem stagedView_other (view : Nat → Entry) (entry : Nat → Entry) {head w slot : Nat}
    (h : slot < head ∨ head + w ≤ slot) : stagedView view (planOf head w entry) slot = view slot := by
  rw [stagedView_planOf, if_neg (by omega)]

theorem map_fst_planOf (head w : Nat) (entry : Nat → Entry) :
    (planOf head w entry).map (·.1) = (List.range w).map (head + ·) := by
  simp [planOf, Function.comp_def]

theorem mem_planOf {head w : Nat} {entry : Nat → Entry} {p : Nat × Entry} :
    p ∈ planOf head w entry ↔ ∃ k < w, p = (head + k, entry k) := by
  simp [planOf, eq_comm]

/-! ### The journal after a plan -/

/-- An entry of the journal after a target slot is treated was there, or is the staged one. -/
theorem mem_treat {active : Table Entry 10} {j : List JournalEntry} {p : Nat × Entry} {e : JournalEntry}
    (h : e ∈ treat active j p) : e ∈ j ∨ (e = ⟨p.1, p.2⟩ ∧ p.2 ≠ active.get p.1) := by
  unfold treat treatmentOf at h
  cases hj : (journalGet j p.1).isSome <;> cases ha : p.2 == active.get p.1 <;> rw [hj, ha] at h
  · rw [List.mem_append, List.mem_singleton] at h
    exact h.imp_right fun he => ⟨he, by simpa using ha⟩
  · exact Or.inl h
  · obtain ⟨x, hx, rfl⟩ := List.mem_map.mp h
    split
    · exact Or.inr ⟨rfl, by simpa using ha⟩
    · exact Or.inl hx
  · exact Or.inl (List.mem_of_mem_filter h)

theorem mem_treatAll {active : Table Entry 10} {e : JournalEntry} {plan : Plan} :
    ∀ {j : List JournalEntry}, e ∈ treatAll active j plan →
      e ∈ j ∨ ∃ p ∈ plan, e = ⟨p.1, p.2⟩ ∧ p.2 ≠ active.get p.1 := by
  induction plan with
  | nil => exact fun h => Or.inl h
  | cons p plan ih =>
    intro j h
    rcases ih (j := treat active j p) h with h | ⟨q, hq, he⟩
    · exact (mem_treat h).imp_right fun he => ⟨p, List.mem_cons_self, he⟩
    · exact Or.inr ⟨q, List.mem_cons_of_mem _ hq, he⟩

theorem nodup_treatAll (active : Table Entry 10) (plan : Plan) :
    ∀ {j : List JournalEntry}, (j.map (·.slot)).Nodup → ((treatAll active j plan).map (·.slot)).Nodup := by
  induction plan with
  | nil => exact fun h => h
  | cons p plan ih => exact fun h => ih (nodup_treat active p h)

/-- Treating one target slot leaves the case of every other one. -/
theorem treatmentOf_treat (active : Table Entry 10) (j : List JournalEntry) {p q : Nat × Entry} (h : q.1 ≠ p.1) :
    treatmentOf active (treat active j p) q = treatmentOf active j q := by
  rw [treatmentOf, journalGet_treat, if_neg h, treatmentOf]

/-- In a journal without two entries for one slot, one entry goes with its slot. -/
theorem length_filter_slot_ne {j : List JournalEntry} {slot : Nat} (hnd : (j.map (·.slot)).Nodup)
    (h : slot ∈ j.map (·.slot)) : (j.filter fun e => e.slot ≠ slot).length + 1 = j.length := by
  have hone : j.countP (fun e => e.slot = slot) = 1 := by
    rw [← List.count_eq_one_of_mem hnd h, List.count, List.countP_map]
    exact List.countP_congr fun e _ => by simp
  rw [List.length_eq_countP_add_countP (fun e => decide (e.slot = slot)) (l := j), hone, ← List.countP_eq_length_filter,
    Nat.add_comm]
  simp

theorem length_treat (active : Table Entry 10) {j : List JournalEntry} (p : Nat × Entry) (h : (j.map (·.slot)).Nodup) :
    (treat active j p).length + (if treatmentOf active j p = .withdrawn then 1 else 0) =
      j.length + (if treatmentOf active j p = .placed then 1 else 0) := by
  unfold treat
  cases ht : treatmentOf active j p with
  | placed => simp
  | unchanged => simp
  | superseded => simp
  | withdrawn =>
    have hmem : p.1 ∈ j.map (·.slot) := by
      by_contra hn
      rw [treatmentOf, (journalGet_eq_none j p.1).mpr hn] at ht
      cases ha : p.2 == active.get p.1 <;> simp [ha] at ht
    simpa using length_filter_slot_ne h hmem

theorem countTreated_cons (active : Table Entry 10) (j : List JournalEntry) (p : Nat × Entry) (plan : Plan)
    (c : Treatment) :
    countTreated active j (p :: plan) c =
      countTreated active j plan c + if treatmentOf active j p = c then 1 else 0 := by
  simp [countTreated, List.countP_cons]

theorem countTreated_treat (active : Table Entry 10) (j : List JournalEntry) {p : Nat × Entry} {plan : Plan}
    (h : p.1 ∉ plan.map (·.1)) (c : Treatment) :
    countTreated active (treat active j p) plan c = countTreated active j plan c := by
  refine List.countP_congr fun q hq => ?_
  have hne : q.1 ≠ p.1 := fun he => h (he ▸ List.mem_map_of_mem hq)
  rw [treatmentOf_treat active j hne]

theorem length_treatAll_add (active : Table Entry 10) (plan : Plan) :
    ∀ {j : List JournalEntry}, (j.map (·.slot)).Nodup → (plan.map (·.1)).Nodup →
      (treatAll active j plan).length + countTreated active j plan .withdrawn =
        j.length + countTreated active j plan .placed := by
  induction plan with
  | nil => exact fun _ _ => rfl
  | cons p plan ih =>
    intro j hj hp
    rw [List.map_cons, List.nodup_cons] at hp
    obtain ⟨hnew, hp⟩ := hp
    have hrest := ih (nodup_treat active p hj) hp
    have hfirst := length_treat active p hj
    rw [countTreated_treat active j hnew, countTreated_treat active j hnew] at hrest
    rw [countTreated_cons, countTreated_cons, treatAll, List.foldl_cons, ← treatAll]
    omega

/-- The journal of distinct slots has its final size (R41). -/
theorem length_treatAll (active : Table Entry 10) (plan : Plan) {j : List JournalEntry}
    (hj : (j.map (·.slot)).Nodup) (hp : (plan.map (·.1)).Nodup) :
    (treatAll active j plan).length = finalSize active j plan := by
  have := length_treatAll_add active plan hj hp
  unfold finalSize
  omega

/-! ### Fan-out -/

/-- Whether an entry is SWITCHED from input slot `u`, as a number. -/
def Entry.feeds (e : Entry) (u : Nat) : Nat := if e.source? = some u then 1 else 0

/-- The source of an entry, if it has one, is an input slot of the part. -/
def Entry.SourceOk (e : Entry) : Prop := ∀ v, e.source? = some v → v < 1024

theorem Entry.OkAt.sourceOk {e : Entry} {i : Nat} (h : e.OkAt i) : e.SourceOk := by
  intro v hv
  cases e with
  | switched src d inv c w m =>
    obtain ⟨-, hsrc, -⟩ := h
    cases hv
    exact hsrc
  | idle | constant | test => cases hv

/-- A counter in a table of counters after the one of input slot `v` is replaced. -/
theorem fan_get_set {v u : Nat} (hv : v < 1024) (hu : u < 1024) (fan : Table Nat 10) (n : Nat) :
    (fan.set v n).get u = if v = u then n else fan.get u := by
  rw [Table.get_set]
  exact if_congr (by omega) rfl rfl

theorem fanDown_get {e : Entry} {u : Nat} (he : e.SourceOk) (hu : u < 1024) (fan : Table Nat 10) :
    (fanDown fan e.source?).get u = fan.get u - e.feeds u := by
  unfold fanDown Entry.feeds
  cases hs : e.source? with
  | none => simp
  | some v =>
    simp only [fan_get_set (he v hs) hu, Option.some.injEq]
    split
    · next h => rw [h]
    · rfl

theorem fanUp_get {e : Entry} {u : Nat} (he : e.SourceOk) (hu : u < 1024) (fan : Table Nat 10) :
    (fanUp fan e.source?).get u = fan.get u + e.feeds u := by
  unfold fanUp Entry.feeds
  cases hs : e.source? with
  | none => simp
  | some v =>
    simp only [fan_get_set (he v hs) hu, Option.some.injEq]
    split
    · next h => rw [h]
    · rfl

/-- One target slot in a counter (R30). -/
theorem fanStep_get {s : State} {p : Nat × Entry} {u : Nat} (hold : (s.effective p.1).SourceOk) (hnew : p.2.SourceOk)
    (hu : u < 1024) (fan : Table Nat 10) :
    (fanStep s fan p).get u = fan.get u - (s.effective p.1).feeds u + p.2.feeds u := by
  rw [fanStep, fanUp_get hnew hu, fanDown_get hold hu]

theorem countP_source_cons (u : Nat) (p : Nat × Entry) (plan : Plan) :
    (p :: plan).countP (fun q => q.2.source? == some u) =
      plan.countP (fun q => q.2.source? == some u) + p.2.feeds u := by
  simp [List.countP_cons, Entry.feeds]

theorem sourceOk_idle : Entry.idle.SourceOk := nofun

theorem feeds_idle (u : Nat) : Entry.idle.feeds u = 0 := rfl

/-- On IDLE slots the counters rise by the entries staged from their input slots. -/
theorem foldl_fanStep_of_idle {s : State} {u : Nat} (hu : u < 1024) (plan : Plan) :
    (∀ p ∈ plan, s.effective p.1 = .idle ∧ p.2.SourceOk) → ∀ fan : Table Nat 10,
      (plan.foldl (fanStep s) fan).get u = fan.get u + plan.countP fun q => q.2.source? == some u := by
  induction plan with
  | nil => exact fun _ _ => rfl
  | cons p plan ih =>
    intro h fan
    obtain ⟨hidle, hsrc⟩ := h p List.mem_cons_self
    rw [List.foldl_cons, ih fun q hq => h q (List.mem_cons_of_mem _ hq), countP_source_cons,
      fanStep_get (hidle ▸ sourceOk_idle) hsrc hu, hidle, feeds_idle]
    omega

/-- Where IDLE is staged, the counters fall by the entries removed. -/
theorem foldl_fanStep_of_removal {s : State} {u : Nat} (hu : u < 1024) (plan : Plan) :
    (∀ p ∈ plan, (s.effective p.1).SourceOk ∧ p.2 = .idle) → ∀ fan : Table Nat 10,
      (plan.foldl (fanStep s) fan).get u =
        fan.get u - plan.countP fun q => (s.effective q.1).source? == some u := by
  induction plan with
  | nil => exact fun _ _ => rfl
  | cons p plan ih =>
    intro h fan
    obtain ⟨hsrc, hidle⟩ := h p List.mem_cons_self
    have hcount : (p :: plan).countP (fun q => (s.effective q.1).source? == some u) =
        plan.countP (fun q => (s.effective q.1).source? == some u) + (s.effective p.1).feeds u := by
      simp [List.countP_cons, Entry.feeds]
    rw [List.foldl_cons, ih fun q hq => h q (List.mem_cons_of_mem _ hq), hcount,
      fanStep_get hsrc (hidle ▸ sourceOk_idle) hu, hidle, feeds_idle]
    omega

/-! ### The journal law on a map and a journal -/

/-- The journal law (R21, R39) reads the map and the journal alone. -/
def JournalOk (active : Table Entry 10) (j : List JournalEntry) : Prop :=
  (∀ i < 1024, (active.get i).OkAt i) ∧
  (∀ e ∈ j, e.slot < 1024 ∧ e.entry.OkAt e.slot ∧ e.entry ≠ active.get e.slot) ∧
  (j.map (·.slot)).Nodup ∧ j.length ≤ 64

theorem journalLaw_iff (s : State) : s.JournalLaw ↔ JournalOk s.cm.active s.cj.journal := Iff.rfl

/-- Both views hold entries that R21 allows (R21, R39). -/
theorem JournalOk.view_ok {active : Table Entry 10} {j : List JournalEntry} (h : JournalOk active j) {i : Nat}
    (hi : i < 1024) : (viewOf active j i).OkAt i := by
  obtain ⟨hactive, hj, -⟩ := h
  unfold viewOf
  cases hget : journalGet j i with
  | none => exact hactive i hi
  | some x =>
    obtain ⟨-, hok, -⟩ := hj _ (mem_of_journalGet hget)
    exact hok

end Sys2Proof.Machine
end

