-- ==== Sys2Proof/Proofs/Staging.lean ====
section
/-! The staging commands: the plans that the parameters give, the checks in their order, and what a command that passes
them stages. -/

namespace Sys2Proof.Machine

/-! ### The head of a connection and its members -/

/-- `e` is the entry of the head of a connection of width `w` that may stand at output slot `head` (R21). -/
structure Entry.HeadAt (e : Entry) (head w : Nat) : Prop where
  slot_lt : head < 1024
  place : e.place? = some (w, 0)
  ok : e.OkAt head

theorem Entry.place?_memberAt {e : Entry} {w m : Nat} (h : e.place? = some (w, m)) (k : Nat) :
    (e.memberAt k).place? = some (w, k) := by
  cases e with
  | idle => cases h
  | switched | constant | test =>
    cases h
    rfl

theorem Entry.runAt_of_place {e : Entry} {i w m : Nat} (hok : e.OkAt i) (h : e.place? = some (w, m)) :
    runAt i w m := by
  cases e with
  | idle => cases h
  | switched | test =>
    cases h
    exact hok.1
  | constant =>
    cases h
    exact hok

namespace Entry.HeadAt

variable {e : Entry} {head w k : Nat}

theorem run (h : e.HeadAt head w) : 1 ≤ w ∧ w ≤ 16 ∧ head % 64 + w ≤ 64 := by
  obtain ⟨hw, hm, -, hfit⟩ := Entry.runAt_of_place h.ok h.place
  unfold slotOf at hfit
  omega

theorem member_lt (h : e.HeadAt head w) (hk : k < w) : head + k < 1024 := by
  have := h.slot_lt
  have := h.run
  omega

/-- The members of a connection whose head R21 allows are allowed at their slots. -/
theorem member_ok (h : e.HeadAt head w) (hk : k < w) : (e.memberAt k).OkAt (head + k) := by
  obtain ⟨hw1, hw, hfit⟩ := h.run
  have hrun : runAt (head + k) w k := by
    unfold runAt slotOf
    omega
  have hplace := h.place
  have hok := h.ok
  cases e with
  | idle => cases hplace
  | switched src d inv c w' m =>
    cases hplace
    obtain ⟨-, hsrc, -, hsrcfit, hd⟩ := hok
    unfold slotOf at hsrcfit
    refine ⟨hrun, by omega, ?_, ?_, hd⟩
    · unfold slotOf
      omega
    · unfold slotOf
      omega
  | constant b w' m =>
    cases hplace
    exact hrun
  | test n w' m =>
    cases hplace
    exact ⟨hrun, hok.2⟩

end Entry.HeadAt

/-- The input slots that the members of a connection are switched from are distinct. -/
theorem nodup_sources {e : Entry} {w : Nat} (h : e.place? = some (w, 0)) (head : Nat) :
    ((planOf head w e.memberAt).filterMap (·.2.source?)).Nodup := by
  cases e with
  | idle => cases h
  | switched src d inv c w' m =>
    have hsources : (planOf head w (Entry.switched src d inv c w' m).memberAt).filterMap (·.2.source?) =
        (List.range w).map (src - m + ·) := by
      simp [planOf, List.filterMap_map, Entry.memberAt, Entry.source?]
    rw [hsources]
    exact List.Nodup.map (fun a b hab => Nat.add_left_cancel hab) List.nodup_range
  | constant | test => simp [planOf, List.filterMap_map, Entry.memberAt, Entry.source?]

/-! ### The plans that parameters give -/

theorem runOk_iff (stream first w : Nat) :
    runOk stream first w = true ↔ stream ≤ 15 ∧ 1 ≤ w ∧ w ≤ 16 ∧ first + w ≤ 64 := by
  simp only [runOk, Bool.and_eq_true, decide_eq_true_eq]
  omega

/-- A plan is that of one connection, with its head at `head` and the entry `e` there; `engine` is the engine whose TEST
connection it is. -/
structure ConnectionPlan (plan : Plan) (engine : Option Nat) (head w : Nat) (e : Entry) : Prop where
  plan_eq : plan = planOf head w e.memberAt
  headAt : e.HeadAt head w
  engine_eq : e.engine? = engine

theorem ConnectionPlan.sourceOk {plan : Plan} {engine : Option Nat} {head w : Nat} {e : Entry}
    (h : ConnectionPlan plan engine head w e) {q : Nat × Entry} (hq : q ∈ plan) : q.2.SourceOk := by
  rw [h.plan_eq, mem_planOf] at hq
  obtain ⟨k, hk, rfl⟩ := hq
  exact (h.headAt.member_ok hk).sourceOk

/-- The flat index of the output slot that PARAM0 names. -/
def Params.target (p : Params) : Nat := flat (streamField p.p0) (slotField p.p0)

theorem connectPlan_some {p : Params} {plan : Plan} (h : connectPlan p = some plan) :
    ∃ e, ConnectionPlan plan none p.target p.p2.toNat e := by
  unfold connectPlan at h
  dsimp only at h
  split at h
  · next d inv c _ _ _ =>
    split at h
    · next hlegal =>
      obtain ⟨hout, hin, hdelay, -⟩ := hlegal
      rw [runOk_iff] at hout hin
      refine ⟨.switched (flat (streamField p.p1) (slotField p.p1)) d inv c p.p2.toNat 0, (Option.some.inj h).symm,
        ⟨?_, rfl, ?_⟩, rfl⟩
      · unfold Params.target flat
        omega
      · refine ⟨?_, ?_, ?_, ?_, ?_⟩
        · unfold runAt slotOf Params.target flat
          omega
        · unfold flat
          omega
        · exact Nat.zero_le _
        · unfold slotOf flat
          omega
        · cases d
          · exact Or.inr (by simp at hdelay; omega)
          · exact Or.inl rfl
    · cases h
  · cases h

theorem runAt_target {p : Params} {w : Nat} (h : runOk (streamField p.p0) (slotField p.p0) w = true) :
    p.target < 1024 ∧ runAt p.target w 0 := by
  rw [runOk_iff] at h
  unfold runAt slotOf Params.target flat
  omega

theorem constantPlan_some {p : Params} {plan : Plan} (h : constantPlan p = some plan) :
    ∃ e, ConnectionPlan plan none p.target p.p2.toNat e := by
  unfold constantPlan at h
  dsimp only at h
  split at h
  · next hlegal =>
    obtain ⟨hslot, hrun⟩ := runAt_target hlegal.1
    exact ⟨.constant (p.p4.setWidth 8) p.p2.toNat 0, (Option.some.inj h).symm, ⟨hslot, rfl, hrun⟩, rfl⟩
  · cases h

theorem testPlan_some {p : Params} {plan : Plan} (h : testPlan p = some plan) :
    ∃ e, ConnectionPlan plan (some p.p4.toNat) p.target p.p2.toNat e := by
  unfold testPlan at h
  dsimp only at h
  split at h
  · next hlegal =>
    obtain ⟨hslot, hrun⟩ := runAt_target hlegal.1
    have hengine : p.p4.toNat < 4 := Nat.lt_succ_of_le hlegal.2.1
    exact ⟨.test p.p4.toNat p.p2.toNat 0, (Option.some.inj h).symm, ⟨hslot, rfl, hrun, hengine⟩, rfl⟩
  · cases h

/-! ### The checks (Table 3-1) -/

/-- The checks 4 to 8 of a staging command pass, and the claim check finds `record`. -/
structure StagePasses (plan : Plan) (tag : Word) (needIdle : Bool) (engine : Option Nat) (s : State)
    (record : Option Nat) : Prop where
  claim : claimCheck s.sau tag (plan.map (·.1)) = .passed record
  idle : needIdle = true → firstBusy s plan = none
  fan : fanExceeded s plan = none
  engine : engineInUse s engine = none
  size : finalSize s.cm.active s.cj.journal plan ≤ 64

section
variable {plan : Plan} {tag : Word} {needIdle : Bool} {engine : Option Nat} {s : State} {record : Option Nat}

theorem stage_of_slotReserved {t r : Nat} (h : claimCheck s.sau tag (plan.map (·.1)) = .slotReserved t r) :
    stage plan tag needIdle engine s = s.answered .slotReserved s.jcnt (word t) (word r) 0 := by
  simp only [stage, h]
  rfl

theorem stage_of_notReserved {t r : Nat} (h : claimCheck s.sau tag (plan.map (·.1)) = .notReserved t r) :
    stage plan tag needIdle engine s = s.answered .notReserved s.jcnt (word t) (word r) 0 := by
  simp only [stage, h]
  rfl

theorem stage_of_busy (hclaim : claimCheck s.sau tag (plan.map (·.1)) = .passed record) {t : Nat}
    (h : firstBusy s plan = some t) :
    stage plan tag true engine s = s.answered .slotsBusy s.jcnt (word t) 0 0 := by
  simp only [stage, hclaim, if_true, h]
  rfl

/-- Check 5 passes, for the commands that make it. -/
theorem targets_free (hidle : needIdle = true → firstBusy s plan = none) :
    (if needIdle = true then firstBusy s plan else none) = none := by
  split
  · next h => exact hidle h
  · rfl

section
variable (hclaim : claimCheck s.sau tag (plan.map (·.1)) = .passed record)
  (hidle : needIdle = true → firstBusy s plan = none)
include hclaim hidle

theorem stage_of_fanExceeded {u : Nat} (h : fanExceeded s plan = some u) :
    stage plan tag needIdle engine s = s.answered .fanoutExceeded s.jcnt (word u) 0 0 := by
  simp only [stage, hclaim, targets_free hidle, h]
  rfl

theorem stage_of_engineInUse {n : Nat} (hfan : fanExceeded s plan = none) (h : engineInUse s engine = some n) :
    stage plan tag needIdle engine s = s.answered .engineInUse s.jcnt (word n) 0 0 := by
  simp only [stage, hclaim, targets_free hidle, hfan, h]
  rfl

theorem stage_of_full (hfan : fanExceeded s plan = none) (hengine : engineInUse s engine = none)
    (h : 64 < finalSize s.cm.active s.cj.journal plan) :
    stage plan tag needIdle engine s =
      s.answered .journalFull s.jcnt (word (finalSize s.cm.active s.cj.journal plan)) 0 0 := by
  simp only [stage, hclaim, targets_free hidle, hfan, hengine, if_pos h]
  rfl

end

theorem stage_of_passes (h : StagePasses plan tag needIdle engine s record) :
    stage plan tag needIdle engine s = stageOk plan record s := by
  simp only [stage, h.claim, targets_free h.idle, h.fan, h.engine, if_neg (Nat.not_lt.mpr h.size)]

/-- Everything that the checks can do: they refuse with a code that is not OK, or all of them pass. -/
theorem stage_cases (plan : Plan) (tag : Word) (needIdle : Bool) (engine : Option Nat) (s : State) :
    (∃ code r1 r2, stage plan tag needIdle engine s = s.answered code s.jcnt r1 r2 0 ∧ code ≠ .ok) ∨
      ∃ record, StagePasses plan tag needIdle engine s record ∧
        stage plan tag needIdle engine s = stageOk plan record s := by
  cases hclaim : claimCheck s.sau tag (plan.map (·.1)) with
  | slotReserved t r => exact Or.inl ⟨_, _, _, stage_of_slotReserved hclaim, nofun⟩
  | notReserved t r => exact Or.inl ⟨_, _, _, stage_of_notReserved hclaim, nofun⟩
  | passed record =>
    by_cases hidle : needIdle = true → firstBusy s plan = none
    · cases hfan : fanExceeded s plan with
      | some u => exact Or.inl ⟨_, _, _, stage_of_fanExceeded hclaim hidle hfan, nofun⟩
      | none =>
        cases hengine : engineInUse s engine with
        | some n => exact Or.inl ⟨_, _, _, stage_of_engineInUse hclaim hidle hfan hengine, nofun⟩
        | none =>
          by_cases hsize : 64 < finalSize s.cm.active s.cj.journal plan
          · exact Or.inl ⟨_, _, _, stage_of_full hclaim hidle hfan hengine hsize, nofun⟩
          · have hpass : StagePasses plan tag needIdle engine s record :=
              ⟨hclaim, hidle, hfan, hengine, Nat.not_lt.mp hsize⟩
            exact Or.inr ⟨record, hpass, stage_of_passes hpass⟩
    · obtain ⟨rfl, hbusy⟩ := Classical.not_imp.mp hidle
      obtain ⟨t, ht⟩ := Option.ne_none_iff_exists'.mp hbusy
      exact Or.inl ⟨_, _, _, stage_of_busy hclaim ht, nofun⟩

end

/-! ### What the checks look for -/

theorem firstBusy_eq_none {s : State} {plan : Plan} :
    firstBusy s plan = none ↔ ∀ x ∈ plan.map (·.1), s.effective x = .idle := by
  unfold firstBusy
  rw [List.find?_eq_none]
  simp

theorem firstBusy_eq_some {s : State} {plan : Plan} {t : Nat} {pre post : List Nat}
    (hplan : plan.map (·.1) = pre ++ t :: post) (hpre : ∀ x ∈ pre, s.effective x = .idle)
    (ht : s.effective t ≠ .idle) : firstBusy s plan = some t := by
  unfold firstBusy
  rw [List.find?_eq_some_iff_append]
  exact ⟨by simpa using ht, pre, post, hplan, fun x hx => by simpa using hpre x hx⟩

/-- Check 7 finds no engine in use: the effective view holds no TEST entry of the engine. -/
theorem engineInUse_eq_none {s : State} {engine : Option Nat} :
    engineInUse s engine = none ↔ ∀ n, engine = some n → ∀ j < 1024, (s.effective j).engine? ≠ some n := by
  cases engine with
  | none => simp [engineInUse]
  | some n =>
    rw [engineInUse, Option.bind_some, State.effectiveTestHead, Option.map_eq_none_iff, lowestSlot_eq_none]
    simp

theorem engine?_eq_some {e : Entry} {n : Nat} : e.engine? = some n ↔ ∃ w m, e = .test n w m := by
  cases e <;> simp [Entry.engine?]

/-- Check 7 names the head of the engine's TEST connection. -/
theorem engineInUse_eq_some {s : State} {h w n : Nat} (hh : h < 1024) (hhead : s.effective h = .test n w 0)
    (hall : ∀ j w' m, j < 1024 → s.effective j = .test n w' m → j - m = h) :
    engineInUse s (some n) = some h := by
  rw [engineInUse, Option.bind_some, State.effectiveTestHead]
  cases hlow : lowestSlot fun i => (s.effective i).engine? == some n with
  | none =>
    have := (lowestSlot_eq_none _).mp hlow h hh
    simp [hhead, Entry.engine?] at this
  | some i =>
    obtain ⟨hi, hengine⟩ := lowestSlot_some hlow
    obtain ⟨w', m, htest⟩ := engine?_eq_some.mp (by simpa using hengine)
    simp only [Option.map_some, htest, Entry.place?, hall i w' m hi htest]

/-- On IDLE slots a counter of a connection's source rises by 1, so check 6 asks whether it has reached FOLIM. -/
theorem fanAfter_source {s : State} {plan : Plan} {engine : Option Nat} {head w u : Nat} {e : Entry}
    (hplan : ConnectionPlan plan engine head w e) (hidle : ∀ x ∈ plan.map (·.1), s.effective x = .idle)
    (hu : u ∈ plan.filterMap (·.2.source?)) : (fanAfter s plan).get u = s.cm.fanout.get u + 1 := by
  have hmembers : ∀ q ∈ plan, s.effective q.1 = .idle ∧ q.2.SourceOk := fun q hq =>
    ⟨hidle q.1 (List.mem_map_of_mem hq), hplan.sourceOk hq⟩
  have hu' : u < 1024 := by
    obtain ⟨q, hq, hsrc⟩ := List.mem_filterMap.mp hu
    exact (hmembers q hq).2 u hsrc
  have hnodup : (plan.filterMap (·.2.source?)).Nodup := hplan.plan_eq ▸ nodup_sources hplan.headAt.place head
  have hone : plan.countP (fun q => q.2.source? == some u) = 1 := by
    rw [← List.count_filterMap]
    exact List.count_eq_one_of_mem hnodup hu
  rw [fanAfter, foldl_fanStep_of_idle hu' plan hmembers, hone]

section
variable {s : State} {plan : Plan} {engine : Option Nat} {head w : Nat} {e : Entry}
  (hplan : ConnectionPlan plan engine head w e) (hidle : ∀ x ∈ plan.map (·.1), s.effective x = .idle)
include hplan hidle

theorem fanExceeded_eq_find :
    fanExceeded s plan = (plan.filterMap (·.2.source?)).find? fun u => s.cm.folim.toNat ≤ s.cm.fanout.get u := by
  refine List.find?_congr fun u hu => ?_
  rw [fanAfter_source hplan hidle hu, ← Bool.decide_and, decide_eq_decide]
  omega

theorem fanExceeded_eq_none (h : ∀ x ∈ plan.filterMap (·.2.source?), s.cm.fanout.get x < s.cm.folim.toNat) :
    fanExceeded s plan = none := by
  rw [fanExceeded_eq_find hplan hidle, List.find?_eq_none]
  simpa using h

theorem fanExceeded_eq_some {u : Nat} {pre post : List Nat}
    (hsources : plan.filterMap (·.2.source?) = pre ++ u :: post)
    (hpre : ∀ x ∈ pre, s.cm.fanout.get x < s.cm.folim.toNat) (hu : s.cm.folim.toNat ≤ s.cm.fanout.get u) :
    fanExceeded s plan = some u := by
  rw [fanExceeded_eq_find hplan hidle, List.find?_eq_some_iff_append]
  exact ⟨by simpa using hu, pre, post, hsources, fun x hx => by simpa using hpre x hx⟩

end

/-! ### The answers of CONNECT, SET CONSTANT and SET TEST -/

theorem stageChecked_of_plan {s : State} (hcommit : s.cj.commit = none) (plan : Plan) (tag : Word)
    (engine : Option Nat) : stageChecked (some plan) tag engine s = stage plan tag true engine s := by
  simp [stageChecked, hcommit]

/-- One of the three commands completes with the plan `plan`, for which check 7 asks about `engine`. -/
def State.Connecting (s : State) (p : Params) (i : Instr) (plan : Plan) (engine : Option Nat) : Prop :=
  (i = .connect ∧ s.Commanded 0x10 p ∧ connectPlan p = some plan ∧ engine = none) ∨
    (i = .setConstant ∧ s.Commanded 0x11 p ∧ constantPlan p = some plan ∧ engine = none) ∨
    (i = .setTest ∧ s.Commanded 0x12 p ∧ testPlan p = some plan ∧ engine = some p.p4.toNat)

/-- Past checks 1 and 2, the three commands go on to the checks on the plan of one connection. -/
theorem exec_connecting {s : State} {p : Params} {i : Instr} {plan : Plan} {engine : Option Nat}
    (h : s.Connecting p i plan engine) (hcommit : s.cj.commit = none) :
    exec i s = .next (stage plan p.p5 true engine s) ∧ ∃ e, ConnectionPlan plan engine p.target p.p2.toNat e := by
  rw [← stageChecked_of_plan hcommit]
  rcases h with ⟨rfl, hc, hplan, rfl⟩ | ⟨rfl, hc, hplan, rfl⟩ | ⟨rfl, hc, hplan, rfl⟩
  · exact ⟨hplan ▸ completion_of_commanded hc fun p => stageChecked (connectPlan p) p.p5 none, connectPlan_some hplan⟩
  · exact ⟨hplan ▸ completion_of_commanded hc fun p => stageChecked (constantPlan p) p.p5 none,
      constantPlan_some hplan⟩
  · exact ⟨hplan ▸ completion_of_commanded hc fun p => stageChecked (testPlan p) p.p5 (some p.p4.toNat),
      testPlan_some hplan⟩

/-- Settles O28, check by check. -/
theorem stagingChecksInOrder : Obligations.StagingChecksInOrder := by
  intro s p i plan engine hi hcommit
  obtain ⟨hexec, e, hplan⟩ := exec_connecting hi hcommit
  rw [hexec]
  refine ⟨fun t r h => congrArg _ (stage_of_slotReserved h), fun t r h => congrArg _ (stage_of_notReserved h),
    fun record hclaim => ⟨fun t pre post hslots hpre ht => ?_, fun hidle => ?_⟩⟩
  · exact congrArg _ (stage_of_busy hclaim (firstBusy_eq_some hslots hpre ht))
  · have hfree : true = true → firstBusy s plan = none := fun _ => firstBusy_eq_none.mpr hidle
    refine ⟨fun u pre post hsources hpre hu => ?_, fun hlimit => ?_⟩
    · exact congrArg _ (stage_of_fanExceeded hclaim hfree (fanExceeded_eq_some hplan hidle hsources hpre hu))
    · have hfan := fanExceeded_eq_none hplan hidle hlimit
      refine ⟨fun h w n hn hh hhead hall => ?_, fun hnone => ⟨fun hsize => ?_, fun hsize => ?_⟩⟩
      · subst hn
        exact congrArg _ (stage_of_engineInUse hclaim hfree hfan (engineInUse_eq_some hh hhead hall))
      · exact congrArg _ (stage_of_full hclaim hfree hfan (engineInUse_eq_none.mpr hnone) hsize)
      · have hpass : StagePasses plan p.p5 true engine s record :=
          ⟨hclaim, hfree, hfan, engineInUse_eq_none.mpr hnone, hsize⟩
        exact ⟨_, congrArg _ (stage_of_passes hpass), rfl⟩

end Sys2Proof.Machine
end

