-- ==== Sys2Proof/Proofs/Staged.lean ====
section
/-! What a staging command that passes its checks changes: CONNECT, SET CONSTANT, SET TEST and DISCONNECT. -/

namespace Sys2Proof.Machine

/-! ### The effect on the state -/

/-! The three cases of R40 that the result words count -/

section
variable (active : Table Entry 10) (j : List JournalEntry) (p : Nat × Entry)

theorem treatmentOf_beq_placed :
    (treatmentOf active j p == .placed) = (journalGet j p.1 == none && p.2 != active.get p.1) := by
  unfold treatmentOf bne
  cases journalGet j p.1 <;> cases p.2 == active.get p.1 <;> rfl

theorem treatmentOf_beq_superseded :
    (treatmentOf active j p == .superseded) = (journalGet j p.1 != none && p.2 != active.get p.1) := by
  unfold treatmentOf bne
  cases journalGet j p.1 <;> cases p.2 == active.get p.1 <;> rfl

theorem treatmentOf_beq_withdrawn :
    (treatmentOf active j p == .withdrawn) = (journalGet j p.1 != none && p.2 == active.get p.1) := by
  unfold treatmentOf bne
  cases journalGet j p.1 <;> cases p.2 == active.get p.1 <;> rfl

end

theorem countTreated_planOf (active : Table Entry 10) (j : List JournalEntry) (head w : Nat) (entry : Nat → Entry)
    (c : Treatment) :
    countTreated active j (planOf head w entry) c =
      (List.range w).countP fun k => treatmentOf active j (head + k, entry k) == c := by
  simp [countTreated, planOf, List.countP_map, Function.comp_def]

section
variable (head w : Nat) (entry : Nat → Entry) (record : Option Nat) (s : State)

/-- A command that passes its checks changes the journal, the counters and its record, and counts the cases. -/
theorem stageOk_planOf_eq {t : State} (ht : t = stageOk (planOf head w entry) record s) :
    t = { s with cm := { s.cm with fanout := t.cm.fanout }
                 cj := { s.cj with journal := t.cj.journal }
                 sau := { s.sau with recs := t.sau.recs } }.answered .ok (word t.cj.journal.length)
      (word ((List.range w).countP fun k =>
        journalGet s.cj.journal (head + k) == none && entry k != s.activeEntry (head + k)))
      (word ((List.range w).countP fun k =>
        journalGet s.cj.journal (head + k) != none && entry k != s.activeEntry (head + k)))
      (word ((List.range w).countP fun k =>
        journalGet s.cj.journal (head + k) != none && entry k == s.activeEntry (head + k))) := by
  have hplaced := fun k => treatmentOf_beq_placed s.cm.active s.cj.journal (head + k, entry k)
  have hsuperseded := fun k => treatmentOf_beq_superseded s.cm.active s.cj.journal (head + k, entry k)
  have hwithdrawn := fun k => treatmentOf_beq_withdrawn s.cm.active s.cj.journal (head + k, entry k)
  unfold State.activeEntry
  simp only [← hplaced, ← hsuperseded, ← hwithdrawn, ← countTreated_planOf]
  subst ht
  cases record with
  | none => rfl
  | some r => rfl

theorem effective_stageOk (plan : Plan) : (stageOk plan record s).effective = stagedView s.effective plan :=
  viewOf_treatAll s.cm.active plan s.cj.journal

theorem effective_stageOk_member {k : Nat} (hk : k < w) :
    (stageOk (planOf head w entry) record s).effective (head + k) = entry k := by
  rw [effective_stageOk, stagedView_member _ _ _ hk]

theorem effective_stageOk_other {slot : Nat} (h : slot < head ∨ head + w ≤ slot) :
    (stageOk (planOf head w entry) record s).effective slot = s.effective slot := by
  rw [effective_stageOk, stagedView_other _ _ h]

end

/-! ### CONNECT, SET CONSTANT and SET TEST -/

theorem delayOf_of_mem {d : Delay} {n : Nat} (h : (d, n) ∈ delayCodes) : delayOf n = some d := by
  simp only [delayCodes, List.mem_cons, Prod.mk.injEq, List.not_mem_nil, or_false] at h
  rcases h with ⟨rfl, rfl⟩ | ⟨rfl, rfl⟩ <;> rfl

theorem conditioningOf_of_mem {c : Conditioning} {n : Nat} (h : (c, n) ∈ conditioningCodes) :
    conditioningOf n = some c := by
  simp only [conditioningCodes, List.mem_cons, Prod.mk.injEq, List.not_mem_nil, or_false] at h
  rcases h with ⟨rfl, rfl⟩ | ⟨rfl, rfl⟩ | ⟨rfl, rfl⟩ | ⟨rfl, rfl⟩ <;> rfl

theorem invertOf_code (inv : Bool) : invertOf (if inv = true then 1 else 0) = some inv := by
  cases inv <;> rfl

section
variable {p : Params} {w : Nat}

theorem connectPlan_of_legal {d : Delay} {inv : Bool} {c : Conditioning} (hw : w = p.p2.toNat)
    (hout : runOk (streamField p.p0) (slotField p.p0) w = true)
    (hin : runOk (streamField p.p1) (slotField p.p1) w = true) (htag : p.p5.toNat ≤ 255)
    (hd : (d, field p.p3 0 2) ∈ delayCodes) (hinv : field p.p3 2 2 = if inv = true then 1 else 0)
    (hc : (c, field p.p3 4 3) ∈ conditioningCodes) (hwide : w = 1 ∨ d = .aligned) :
    connectPlan p = some (planOf p.target w fun k =>
      .switched (64 * streamField p.p1 + slotField p.p1 + k) d inv c w k) := by
  subst hw
  have hdelay : pathDelay p.p3 = some d := delayOf_of_mem hd
  have hinvert : pathInvert p.p3 = some inv := by rw [pathInvert, hinv, invertOf_code]
  have hcond : pathConditioning p.p3 = some c := conditioningOf_of_mem hc
  have hnarrow : ¬(2 ≤ p.p2.toNat ∧ d = .minimum) := by
    rintro ⟨h2, rfl⟩
    rcases hwide with h1 | h1
    · omega
    · cases h1
  simp only [connectPlan, hdelay, hinvert, hcond]
  exact if_pos ⟨hout, hin, hnarrow, decide_eq_true htag⟩

theorem constantPlan_of_legal (hw : w = p.p2.toNat) (hout : runOk (streamField p.p0) (slotField p.p0) w = true)
    (hbyte : p.p4.toNat ≤ 255) (htag : p.p5.toNat ≤ 255) :
    constantPlan p = some (planOf p.target w fun k => .constant (p.p4.setWidth 8) w k) := by
  subst hw
  exact if_pos ⟨hout, hbyte, decide_eq_true htag⟩

theorem testPlan_of_legal (hw : w = p.p2.toNat) (hout : runOk (streamField p.p0) (slotField p.p0) w = true)
    (hengine : p.p4.toNat ≤ 3) (htag : p.p5.toNat ≤ 255) :
    testPlan p = some (planOf p.target w fun k => .test p.p4.toNat w k) := by
  subst hw
  exact if_pos ⟨hout, hengine, decide_eq_true htag⟩

end

theorem mem_sources_planOf {head w u : Nat} {entry : Nat → Entry}
    (h : u ∈ (planOf head w entry).filterMap (·.2.source?)) : ∃ k < w, (entry k).source? = some u := by
  obtain ⟨q, hq, hsrc⟩ := List.mem_filterMap.mp h
  obtain ⟨k, hk, rfl⟩ := mem_planOf.mp hq
  exact ⟨k, hk, hsrc⟩

/-- The counters after a connection has been staged on IDLE slots (R30). -/
theorem fanAfter_connection {s : State} {head w u : Nat} {entry : Nat → Entry}
    (hidle : ∀ k < w, s.effective (head + k) = .idle) (hsrc : ∀ k < w, (entry k).SourceOk) (hu : u < 1024) :
    (fanAfter s (planOf head w entry)).get u =
      s.cm.fanout.get u + (List.range w).countP fun k => (entry k).source? == some u := by
  have hmembers : ∀ q ∈ planOf head w entry, s.effective q.1 = .idle ∧ q.2.SourceOk := by
    intro q hq
    obtain ⟨k, hk, rfl⟩ := mem_planOf.mp hq
    exact ⟨hidle k hk, hsrc k hk⟩
  rw [fanAfter, foldl_fanStep_of_idle hu _ hmembers]
  simp [planOf, List.countP_map, Function.comp_def]

theorem idle_on_targets {s : State} {head w : Nat} {entry : Nat → Entry}
    (hidle : ∀ k < w, s.effective (head + k) = .idle) :
    ∀ x ∈ (planOf head w entry).map (·.1), s.effective x = .idle := by
  intro x hx
  rw [map_fst_planOf] at hx
  obtain ⟨k, hk, rfl⟩ := List.mem_map.mp hx
  exact hidle k (List.mem_range.mp hk)

/-- Settles O29: the parameters give the plan, its checks pass, and the staged connection is as the lemmas above say. -/
theorem connectionsAreStaged : Obligations.ConnectionsAreStaged := by
  intro s p i code entry record head w _ hc hcommit hhead hw hstream hw1 hw16 hslot htag hi hclaim hidle hsize
  have hout : runOk (streamField p.p0) (slotField p.p0) w = true := (runOk_iff ..).mpr ⟨hstream, hw1, hw16, hslot⟩
  have htarget : head = p.target := hhead
  obtain ⟨engine, hcommand, hengine, hlimit⟩ : ∃ engine, s.Connecting p i (planOf head w entry) engine ∧
      engineInUse s engine = none ∧
      ∀ k < w, ∀ u, (entry k).source? = some u → s.cm.fanout.get u < s.cm.folim.toNat := by
    rw [htarget]
    rcases hi with ⟨rfl, rfl, hstream1, hslot1, ⟨d, inv, cond, hd, hinv, hcond, hwide, rfl⟩, hfan⟩ |
      ⟨rfl, rfl, hbyte, rfl⟩ | ⟨rfl, rfl, hn, rfl, hfree⟩
    · have hin := (runOk_iff (streamField p.p1) (slotField p.p1) w).mpr ⟨hstream1, hw1, hw16, hslot1⟩
      refine ⟨none, Or.inl ⟨rfl, hc, connectPlan_of_legal hw hout hin htag hd hinv hcond hwide, rfl⟩, rfl, ?_⟩
      rintro k hk u ⟨⟩
      exact hfan k hk
    · exact ⟨none, Or.inr (Or.inl ⟨rfl, hc, constantPlan_of_legal hw hout hbyte htag, rfl⟩), rfl, fun _ _ _ => nofun⟩
    · refine ⟨some p.p4.toNat, Or.inr (Or.inr ⟨rfl, hc, testPlan_of_legal hw hout hn htag, rfl⟩),
        engineInUse_eq_none.mpr ?_, fun _ _ _ => nofun⟩
      rintro n ⟨⟩
      exact hfree
  obtain ⟨hexec, e, hplan⟩ := exec_connecting hcommand hcommit
  have htargets := idle_on_targets (entry := entry) hidle
  have hfan : fanExceeded s (planOf head w entry) = none := by
    refine fanExceeded_eq_none hplan htargets fun u hu => ?_
    obtain ⟨k, hk, hsrc⟩ := mem_sources_planOf hu
    exact hlimit k hk u hsrc
  have hpass : StagePasses (planOf head w entry) p.p5 true engine s record :=
    ⟨by rwa [map_fst_planOf], fun _ => firstBusy_eq_none.mpr htargets, hfan, hengine, hsize⟩
  have hsrc : ∀ k < w, (entry k).SourceOk := fun k hk => hplan.sourceOk (mem_planOf.mpr ⟨k, hk, rfl⟩)
  refine ⟨stageOk (planOf head w entry) record s, by rw [hexec, stage_of_passes hpass],
    stageOk_planOf_eq head w entry record s rfl, rfl, fun k hk => effective_stageOk_member head w entry record s hk,
    fun j _ hj => effective_stageOk_other head w entry record s hj, fun u hu => fanAfter_connection hidle hsrc hu⟩

/-! ### DISCONNECT -/

theorem place?_eq_none {e : Entry} : e.place? = none ↔ e = .idle := by
  cases e <;> simp [Entry.place?]

theorem disconnect_legal {p : Params} (hstream : streamField p.p0 ≤ 15) (hslot : slotField p.p0 ≤ 63)
    (htag : p.p5.toNat ≤ 255) : streamField p.p0 ≤ 15 ∧ slotField p.p0 ≤ 63 ∧ tagOk p.p5 = true :=
  ⟨hstream, hslot, decide_eq_true htag⟩

section
variable {s : State} {p : Params} (hstream : streamField p.p0 ≤ 15) (hslot : slotField p.p0 ≤ 63)
  (htag : p.p5.toNat ≤ 255) (hcommit : s.cj.commit = none)
include hstream hslot htag hcommit

theorem disconnect_of_idle (h : s.effective p.target = .idle) :
    disconnect p s = s.answered .slotIdle s.jcnt 0 0 0 := by
  have hplace := place?_eq_none.mpr h
  unfold Params.target at hplace
  simp only [disconnect, if_pos (disconnect_legal hstream hslot htag), hcommit, hplace]
  rfl

theorem disconnect_of_member {w m : Nat} (hplace : (s.effective p.target).place? = some (w, m)) (hm : m ≠ 0) :
    disconnect p s = s.answered .partOfWide s.jcnt 0 0 0 := by
  unfold Params.target at hplace
  simp only [disconnect, if_pos (disconnect_legal hstream hslot htag), hcommit, hplace, if_pos hm]
  rfl

theorem disconnect_of_head {w : Nat} (hplace : (s.effective p.target).place? = some (w, 0)) :
    disconnect p s = stage (planOf p.target w fun _ => .idle) p.p5 false none s := by
  unfold Params.target at hplace
  simp only [disconnect, if_pos (disconnect_legal hstream hslot htag), hcommit, hplace]
  rfl

end

/-- Nothing that DISCONNECT stages raises a counter (R33). -/
theorem fanExceeded_of_removal (s : State) (head w : Nat) : fanExceeded s (planOf head w fun _ => .idle) = none := by
  have hsources : (planOf head w fun _ => .idle).filterMap (·.2.source?) = [] := by
    simp [planOf, List.filterMap_map, Entry.source?]
  rw [fanExceeded, hsources]
  rfl

/-- The counters after a connection has been removed (R30). -/
theorem fanAfter_removal {s : State} {head w u : Nat} (hsrc : ∀ k < w, (s.effective (head + k)).SourceOk)
    (hu : u < 1024) :
    (fanAfter s (planOf head w fun _ => .idle)).get u =
      s.cm.fanout.get u - (List.range w).countP fun k => (s.effective (head + k)).source? == some u := by
  have hmembers : ∀ q ∈ planOf head w fun _ => .idle, (s.effective q.1).SourceOk ∧ q.2 = .idle := by
    intro q hq
    obtain ⟨k, hk, rfl⟩ := mem_planOf.mp hq
    exact ⟨hsrc k hk, rfl⟩
  rw [fanAfter, foldl_fanStep_of_removal hu _ hmembers]
  simp [planOf, List.countP_map, Function.comp_def]

theorem State.JournalLaw.effective_ok {s : State} (h : s.JournalLaw) {i : Nat} (hi : i < 1024) :
    (s.effective i).OkAt i := JournalOk.view_ok h hi

/-- Under the journal law, the head of an effective connection is one that may stand at its slot. -/
theorem State.JournalLaw.headAt {s : State} (h : s.JournalLaw) {head w : Nat} (hlt : head < 1024)
    (hplace : (s.effective head).place? = some (w, 0)) : (s.effective head).HeadAt head w :=
  ⟨hlt, hplace, h.effective_ok hlt⟩

theorem target_lt {p : Params} (hstream : streamField p.p0 ≤ 15) (hslot : slotField p.p0 ≤ 63) : p.target < 1024 :=
  flat_lt (Nat.lt_succ_of_le hstream) (Nat.lt_succ_of_le hslot)

/-- Settles O30, by what DISCONNECT finds at the named slot. -/
theorem disconnectStagesTheRemoval : Obligations.DisconnectStagesTheRemoval := by
  intro s p head hlaw hc hcommit hhead hstream hslot htag
  obtain rfl : head = p.target := hhead
  have hexec : exec .disconnect s = .next (disconnect p s) := completion_of_commanded hc disconnect
  rw [hexec]
  refine ⟨fun h => congrArg _ (disconnect_of_idle hstream hslot htag hcommit h),
    fun w m h hm => congrArg _ (disconnect_of_member hstream hslot htag hcommit h hm), fun w hplace => ?_⟩
  rw [disconnect_of_head hstream hslot htag hcommit hplace, ← map_fst_planOf p.target w fun _ => .idle]
  refine ⟨fun t r h => congrArg _ (stage_of_slotReserved h), fun t r h => congrArg _ (stage_of_notReserved h),
    fun record size hclaim hsize => ⟨fun hfull => ?_, fun hfits => ?_⟩⟩
  · subst hsize
    exact congrArg _ (stage_of_full hclaim nofun (fanExceeded_of_removal ..) rfl hfull)
  · subst hsize
    have hpass : StagePasses (planOf p.target w fun _ => .idle) p.p5 false none s record :=
      ⟨hclaim, nofun, fanExceeded_of_removal .., rfl, hfits⟩
    have hsrc : ∀ k < w, (s.effective (p.target + k)).SourceOk := fun k hk =>
      (hlaw.effective_ok ((hlaw.headAt (target_lt hstream hslot) hplace).member_lt hk)).sourceOk
    have heq := stageOk_planOf_eq p.target w (fun _ => .idle) record s rfl
    simp only [bne_comm (a := Entry.idle), Bool.beq_comm (a := Entry.idle)] at heq
    exact ⟨stageOk (planOf p.target w fun _ => .idle) record s, congrArg _ (stage_of_passes hpass), heq, rfl,
      fun k hk => effective_stageOk_member p.target w (fun _ => .idle) record s hk,
      fun j _ hj => effective_stageOk_other p.target w _ record s hj, fun u hu => fanAfter_removal hsrc hu⟩

end Sys2Proof.Machine
end

