-- ==== Sys2Proof/Proofs/Discard.lean ====
section
/-! The command DISCARD: the journal, the recount and the records that it leaves. -/

namespace Sys2Proof.Machine

theorem recount_get (active : Table Entry 10) {u : Nat} (hu : u < 1024) :
    (recount active).get u = fedFrom active.get u := Table.get_tabulate_of_lt _ hu

theorem mapRecs_get (a : SlotAllocation) (f : Reservation → Reservation) {r : Nat} (hr : r < 32) :
    (a.mapRecs f).recs.get r = f (a.recs.get r) :=
  Table.get_tabulate_of_lt (d := 5) (fun r => f (a.recs.get r)) hr

theorem unbind_of_not_bound {x : Reservation} (h : ∀ c, x ≠ .bound c) : x.unbind = x := by
  cases x with
  | free | held => rfl
  | bound c => exact absurd rfl (h c)

theorem discardCommand_of_pending {s : State} (h : s.cj.commit ≠ none) :
    discardCommand s = s.answered .commitPending 0 0 0 0 := if_pos (Option.isSome_iff_ne_none.mpr h)

/-- The state that DISCARD leaves before it answers. -/
def State.discarded (s : State) : State :=
  { s with cm := { s.cm with fanout := recount s.cm.active }
           cj := { s.cj with journal := [] }
           sau := s.sau.mapRecs Reservation.unbind }

theorem discardCommand_of_idle {s : State} (h : s.cj.commit = none) :
    discardCommand s = s.discarded.answered .ok s.jcnt 0 0 0 := if_neg (by simp [h])

end Sys2Proof.Machine

namespace Sys2Proof.Proofs

open Sys2Proof.Machine

/-- Settles O34, by the two answers of DISCARD. -/
theorem discardCommand : Obligations.DiscardCommand := by
  intro s p hc
  have hexec : exec .discard s = .next (Machine.discardCommand s) :=
    completion_of_commanded hc fun _ => Machine.discardCommand
  rw [hexec]
  refine ⟨fun h => congrArg _ (discardCommand_of_pending h), fun h =>
    ⟨_, congrArg _ (discardCommand_of_idle h), rfl, fun j => rfl, fun u hu => recount_get s.cm.active hu,
      fun r hr => ?_⟩⟩
  have hrec : (s.discarded.answered .ok s.jcnt 0 0 0).sau.recs.get r = (s.sau.recs.get r).unbind :=
    mapRecs_get s.sau Reservation.unbind hr
  rw [hrec]
  refine ⟨fun c hbound => ?_, unbind_of_not_bound⟩
  rw [hbound]
  rfl

end Sys2Proof.Proofs
end

