-- ==== Sys2Proof/Proofs/EntryInspection.lean ====
section
/-! Inspections of entries, fan-out counters, hold bytes and reservation records. -/

namespace Sys2Proof.Machine

/-! ### The INSA word -/

theorem field_index (sel : BitVec 5) (x : BitVec 11) : field (insaWord sel x) 0 11 = x.toNat := by
  unfold field insaWord
  rw [BitVec.toNat_append, Nat.pow_zero, Nat.div_one, Nat.shiftLeft_eq, Nat.mul_comm,
    ← Nat.two_pow_add_eq_or_of_lt x.isLt]
  omega

theorem field_selector (sel : BitVec 5) (x : BitVec 11) : field (insaWord sel x) 11 5 = sel.toNat := by
  have := sel.isLt
  have := x.isLt
  unfold field insaWord
  rw [BitVec.toNat_append, Nat.shiftLeft_eq, Nat.mul_comm, ← Nat.two_pow_add_eq_or_of_lt x.isLt]
  omega

/-- A write of INSA latches the copy that its selector and index name (R175). -/
theorem taken_writeInsa {s : State} {sel : BitVec 5} {x : BitVec 11} {copy : Option DataWords} (hr : s.inReset = false)
    (hcopy : tableCopy s sel.toNat x.toNat = copy) :
    taken s (writeInsa (insaWord sel x)) = .next (s.inspected sel x copy) := by
  rw [taken_of_running hr, writeInsa, field_selector, field_index, hcopy]
  rfl

theorem inRange_of_lt {i n : Nat} (h : i < n) (d : DataWords) : inRange (i < n) d = some d :=
  if_pos (decide_eq_true h)

theorem inRange_of_le {i n : Nat} (h : n ≤ i) (d : DataWords) : inRange (i < n) d = none :=
  if_neg (by simpa using h)

/-! ### The words of a record -/

theorem setWidth_eq_word {n : Nat} (x : BitVec n) : x.setWidth 16 = word x.toNat := by
  apply BitVec.eq_of_toNat_eq
  simp [word]

theorem mem_delayCodes (d : Delay) : (d, d.value) ∈ delayCodes := by
  cases d <;> decide

theorem mem_conditioningCodes (c : Conditioning) : (c, c.value) ∈ conditioningCodes := by
  cases c <;> decide

/-- The data words of an entry show it (Table 10-5). -/
theorem entryWords_showEntry (e : Entry) (d5 d6 : Word) : (entryWords e d5 d6).showEntry e := by
  cases e with
  | idle => exact ⟨rfl, rfl, rfl, rfl, rfl⟩
  | switched src d inv c w m =>
    exact ⟨⟨d.value, c.value, mem_delayCodes d, mem_conditioningCodes c, rfl⟩, rfl, rfl, rfl, rfl⟩
  | constant b w m => exact ⟨rfl, rfl, setWidth_eq_word b, rfl, rfl⟩
  | test n w m => exact ⟨rfl, rfl, rfl, rfl, rfl⟩

theorem word_mode (e : Entry) :
    word e.mode =
      match e with
      | .idle => 0
      | .switched _ _ _ _ _ _ => 1
      | .constant _ _ _ => 2
      | .test _ _ _ => 3 := by
  cases e <;> rfl

theorem journalCopy_of_some {s : State} {i : Nat} {e : JournalEntry} (h : s.cj.journal[i]? = some e) :
    journalCopy s i = some (entryWords e.entry (word e.slot) (word (s.activeEntry e.slot).mode)) := by
  rw [journalCopy, h]
  rfl

theorem journalCopy_of_le {s : State} {i : Nat} (h : s.cj.journal.length ≤ i) : journalCopy s i = none := by
  rw [journalCopy, List.getElem?_eq_none h]
  rfl

theorem reservationCopy_of {s : State} {i : Nat} {r : Reservation} (hi : i < 32) (h : s.sau.recs.get i = r) :
    reservationCopy s i = some (reservationWords r) := h ▸ inRange_of_lt hi _

/-- Settles O49, table by table. -/
theorem inspectEntriesCountersAndRecords : Obligations.InspectEntriesCountersAndRecords := by
  refine ⟨fun s x hr => ⟨fun h => ?_, fun h => ?_, fun h => ?_, fun h => ?_, fun e he => ?_, fun h => ?_⟩,
    fun s x hr => ⟨fun h => ⟨?_, ?_⟩, fun h => ⟨?_, ?_⟩, fun h => ⟨fun hx => ?_, fun c hx => ?_, fun c hx => ?_⟩,
      fun h => ?_⟩⟩
  · exact ⟨_, entryWords_showEntry _ 0 0, rfl, rfl, rfl, taken_writeInsa hr (inRange_of_lt h _)⟩
  · exact taken_writeInsa hr (inRange_of_le h _)
  · refine ⟨_, entryWords_showEntry _ _ 0, ?_, rfl, rfl, taken_writeInsa hr (inRange_of_lt h _)⟩
    cases journalGet s.cj.journal x.toNat <;> rfl
  · exact taken_writeInsa hr (inRange_of_le h _)
  · exact ⟨_, entryWords_showEntry _ _ _, rfl, word_mode _, rfl, taken_writeInsa hr (journalCopy_of_some he)⟩
  · exact taken_writeInsa hr (journalCopy_of_le h)
  · rw [← setWidth_eq_word]
    exact taken_writeInsa hr (inRange_of_lt h _)
  · rw [← setWidth_eq_word]
    exact taken_writeInsa hr (inRange_of_lt h _)
  · exact taken_writeInsa hr (inRange_of_le h _)
  · exact taken_writeInsa hr (inRange_of_le h _)
  · exact taken_writeInsa hr (reservationCopy_of h hx)
  · exact taken_writeInsa hr (reservationCopy_of h hx)
  · exact taken_writeInsa hr (reservationCopy_of h hx)
  · exact taken_writeInsa hr (inRange_of_le h _)

end Sys2Proof.Machine
end

