-- ==== Sys2Proof/Proofs/MapChanges.lean ====
section
/-! What a command can do to the map, the journal and the fan-out counters: `MapChange` lists it, and every command
makes one of its changes. -/

namespace Sys2Proof.Machine

/-! ### Commands that leave the map, the counters and the journal alone -/

/-- `t` has the map, the counters, FOLIM and the journal of `s`. -/
structure SameMap (s t : State) : Prop where
  cm : t.cm = s.cm
  journal : t.cj.journal = s.cj.journal

namespace SameMap

theorem refl (s : State) : SameMap s s := ⟨rfl, rfl⟩

theorem trans {s t u : State} (h : SameMap s t) (k : SameMap t u) : SameMap s u :=
  ⟨k.cm.trans h.cm, k.journal.trans h.journal⟩

/-- An update of the other blocks, and of the commit state. -/
theorem update (s : State) (oa : OutputAssembler) (commit : Option Trigger) (sau : SlotAllocation) (sv : Supervisors)
    (te : TestEngines) (rq : ResultQueue) (ce : CommandEngine) (iu : InterruptUnit) (biu : BusInterface) (pins : Pins)
    (held : ResetHold) :
    SameMap s { s with oa := oa, cj := { s.cj with commit := commit }, sau := sau, sv := sv, te := te, rq := rq
                       ce := ce, iu := iu, biu := biu, pins := pins, held := held } := ⟨rfl, rfl⟩

theorem complete (c : Completion) (r0 r1 r2 r3 : Word) {s t : State} (h : SameMap s t) :
    SameMap s (complete c r0 r1 r2 r3 t) := h.trans (update ..)

theorem answer (c : Completion) (r0 r1 r2 r3 : Word) (s : State) : SameMap s (Machine.complete c r0 r1 r2 r3 s) :=
  complete c r0 r1 r2 r3 (refl s)

theorem commitCommand (p : Params) (s : State) : SameMap s (commitCommand p s) := by
  unfold Machine.commitCommand
  split
  · exact answer ..
  · split
    · exact answer ..
    · exact complete _ _ _ _ _ (update ..)

theorem cancelCommand (s : State) : SameMap s (cancelCommand s) := by
  unfold Machine.cancelCommand
  split
  · exact complete _ _ _ _ _ (update ..)
  · exact answer ..

theorem reserveCommand (p : Params) (s : State) : SameMap s (reserveCommand p s) := by
  unfold Machine.reserveCommand
  dsimp only
  split
  · split
    · exact answer ..
    · split
      · exact answer ..
      · exact complete _ _ _ _ _ (update ..)
  · exact answer ..

theorem huntCommand (p : Params) (s : State) : SameMap s (huntCommand p s) := by
  unfold Machine.huntCommand
  split
  · split
    · exact answer ..
    · split
      · split
        · exact answer ..
        · exact complete _ _ _ _ _ (update ..)
      · exact answer ..
  · exact answer ..

theorem releaseCommand (p : Params) (s : State) : SameMap s (releaseCommand p s) := by
  unfold Machine.releaseCommand
  split
  · split
    · exact answer ..
    · split
      · exact answer ..
      · exact answer ..
    · split
      · exact answer ..
      · exact complete _ _ _ _ _ (update ..)
  · exact answer ..

theorem renewCommand (p : Params) (s : State) : SameMap s (renewCommand p s) := by
  unfold Machine.renewCommand
  split
  · split
    · exact answer ..
    · split
      · exact answer ..
      · exact answer ..
    · split
      · exact answer ..
      · exact complete _ _ _ _ _ (update ..)
  · exact answer ..

theorem setEngine (s : State) (n : Nat) (e : Engine) : SameMap s (s.setEngine n e) := update ..

theorem configureCommand (p : Params) (s : State) : SameMap s (configureCommand p s) := by
  unfold Machine.configureCommand
  dsimp only
  split
  · split
    · exact answer ..
    · split
      · exact complete _ _ _ _ _ (setEngine ..)
      · exact answer ..
  · exact answer ..

theorem injectCommand (p : Params) (s : State) : SameMap s (injectCommand p s) := by
  unfold Machine.injectCommand
  dsimp only
  split
  · split
    · exact complete _ _ _ _ _ (setEngine ..)
    · exact answer ..
  · exact answer ..

theorem keepTail (n : Nat) (s : State) : SameMap s (keepTail n s) := by
  rw [keepTail_eq_emit]
  exact update ..

theorem startCommand (p : Params) (s : State) : SameMap s (startCommand p s) := by
  unfold Machine.startCommand
  dsimp only
  split
  · split
    · split
      · exact answer ..
      · exact complete _ _ _ _ _ ((keepTail _ s).trans (update ..))
    · exact answer ..
  · exact answer ..

theorem stopCommand (p : Params) (s : State) : SameMap s (stopCommand p s) := by
  unfold Machine.stopCommand
  dsimp only
  split
  · split
    · exact complete _ _ _ _ _ ⟨endRun_cm .., by rw [endRun_cj]⟩
    · exact answer ..
  · exact answer ..

theorem snapshotCommand (p : Params) (s : State) : SameMap s (snapshotCommand p s) := by
  unfold Machine.snapshotCommand
  dsimp only
  split
  · exact complete _ _ _ _ _ (setEngine ..)
  · exact answer ..

theorem serveBacklog (s : State) : SameMap s (serveBacklog s) := by
  unfold Machine.serveBacklog
  split
  · exact refl s
  · exact update ..

theorem popCommand (s : State) : SameMap s (popCommand s) := by
  unfold Machine.popCommand
  split
  · exact answer ..
  · exact complete _ _ _ _ _ ((update ..).trans (serveBacklog _))

theorem unknownCompletion (s : State) : SameMap s (unknownCompletion s) := by
  unfold Machine.unknownCompletion
  split
  · split
    · exact refl s
    · exact answer ..
  · exact refl s

theorem writeCmd (v : Word) (s : State) : SameMap s (writeCmd v s) := by
  unfold Machine.writeCmd
  split
  · exact update ..
  · exact update ..

theorem writeCmdstat (v : Word) (s : State) : SameMap s (writeCmdstat v s) := by
  unfold Machine.writeCmdstat
  split
  · exact update ..
  · exact refl s

theorem writeSven (v : Word) (s : State) : SameMap s (writeSven v s) := by
  rw [writeSven_eq]
  exact update ..

theorem writeIthr (v : Word) (s : State) : SameMap s (writeIthr v s) := by
  unfold Machine.writeIthr
  split
  · exact update ..
  · exact refl s

theorem inspectAt (v sf : Word) (s : State) : SameMap s (inspectAt v sf s) :=
  ⟨inspectAt_cm .., by rw [inspectAt_cj]⟩

end SameMap

/-! ### What a command can do -/

/-- The entries that a staging command stages, on slots that its checks have passed: the members of a connection on
IDLE slots, or IDLE on the members of a connection. -/
inductive Stageable (s : State) (head w : Nat) : (Nat → Entry) → Prop
  | connection {e : Entry} (hhead : e.HeadAt head w) (hidle : ∀ k < w, s.effective (head + k) = .idle)
      (hengine : ∀ n, e.engine? = some n → ∀ j < 1024, (s.effective j).engine? ≠ some n) : Stageable s head w e.memberAt
  | removal (hlt : head < 1024) (hplace : (s.effective head).place? = some (w, 0)) :
      Stageable s head w fun _ => .idle

/-- Everything that a command can do to the map, the counters, FOLIM and the journal. -/
inductive MapChange (s t : State) : Prop
  | same (h : SameMap s t)
  | folim (folim : BitVec 7) (hlegal : 1 ≤ folim.toNat ∧ folim.toNat ≤ 64)
      (hcm : t.cm = { s.cm with folim := folim }) (hj : t.cj.journal = s.cj.journal)
  | staged {head w : Nat} {entry : Nat → Entry} (hstage : Stageable s head w entry)
      (hfan : fanExceeded s (planOf head w entry) = none)
      (hsize : finalSize s.cm.active s.cj.journal (planOf head w entry) ≤ 64)
      (hcm : t.cm = { s.cm with fanout := fanAfter s (planOf head w entry) })
      (hj : t.cj.journal = treatAll s.cm.active s.cj.journal (planOf head w entry))
  | dropped (hcm : t.cm = { s.cm with fanout := recount s.cm.active }) (hj : t.cj.journal = [])
  | applied (hcm : t.cm = { s.cm with active := applyJournal s.cm.active s.cj.journal }) (hj : t.cj.journal = [])
  | reset (hcm : t.cm = .reset) (hj : t.cj.journal = [])

namespace MapChange

theorem stage {plan : Plan} {tag : Word} {needIdle : Bool} {engine : Option Nat} {s : State} {head w : Nat}
    {entry : Nat → Entry} (hplan : plan = planOf head w entry)
    (h : ∀ record, StagePasses plan tag needIdle engine s record → Stageable s head w entry) :
    MapChange s (stage plan tag needIdle engine s) := by
  subst hplan
  rcases stage_cases (planOf head w entry) tag needIdle engine s with ⟨c, r1, r2, heq, -⟩ | ⟨record, hpass, heq⟩
  · rw [heq]
    exact .same (.answer ..)
  · rw [heq]
    exact .staged (h record hpass) hpass.fan hpass.size rfl rfl

/-- The plan of one connection, past its checks. -/
theorem stageChecked {s : State} {plan : Option Plan} {tag : Word} {engine : Option Nat} {head w : Nat}
    (h : ∀ l, plan = some l → ∃ e, ConnectionPlan l engine head w e) :
    MapChange s (stageChecked plan tag engine s) := by
  unfold Machine.stageChecked
  split
  · exact .same (.answer ..)
  · next l =>
    split
    · exact .same (.answer ..)
    · obtain ⟨e, hplan⟩ := h l rfl
      refine stage hplan.plan_eq fun record hpass => .connection hplan.headAt (fun k hk => ?_) fun n hn => ?_
      · have hidle := firstBusy_eq_none.mp (hpass.idle rfl)
        rw [hplan.plan_eq, map_fst_planOf] at hidle
        exact hidle _ (List.mem_map_of_mem (List.mem_range.mpr hk))
      · exact engineInUse_eq_none.mp hpass.engine n (hplan.engine_eq ▸ hn)

theorem disconnect (p : Params) (s : State) : MapChange s (disconnect p s) := by
  unfold Machine.disconnect
  split
  · next hlegal =>
    obtain ⟨hstream, hslot, -⟩ := hlegal
    split
    · exact .same (.answer ..)
    · dsimp only
      split
      · exact .same (.answer ..)
      · next w m hplace =>
        split
        · exact .same (.answer ..)
        · next hm =>
          obtain rfl : m = 0 := Decidable.not_not.mp hm
          exact stage rfl fun _ _ => .removal (target_lt hstream hslot) hplace
  · exact .same (.answer ..)

theorem discardCommand (s : State) : MapChange s (discardCommand s) := by
  unfold Machine.discardCommand
  split
  · exact .same (.answer ..)
  · exact .dropped rfl rfl

theorem softResetCommand (s : State) : MapChange s (softResetCommand s) := .dropped rfl rfl

theorem writeFolim (v : Word) (s : State) : MapChange s (writeFolim v s) := by
  unfold Machine.writeFolim
  split
  · next h =>
    have hv : (v.setWidth 7).toNat = v.toNat := by
      rw [BitVec.toNat_setWidth]
      omega
    exact .folim (v.setWidth 7) (hv.symm ▸ h) rfl rfl
  · exact .same (.refl s)

theorem frameStart (e : FrameEvent) (s : State) : MapChange s (frameStart e s) := by
  cases hdue : s.applicationDue e with
  | false =>
    refine .same ⟨?_, ?_⟩
    · simp [Machine.frameStart, frameStartMap, hdue, applyIf]
    · simp [Machine.frameStart, frameStartMap, hdue, applyIf]
  | true =>
    refine .applied ?_ ?_
    · simp [Machine.frameStart, frameStartMap, hdue, applyIf, applyCommit]
    · simp [Machine.frameStart, frameStartMap, hdue, applyIf]

theorem writeWord (address : Nat) (v sf : Word) (s : State) : MapChange s (writeWord address v sf s) := by
  unfold Machine.writeWord
  split
  case h_1 => exact .same (.writeCmd v s)
  case h_8 => exact .same (.writeCmdstat v s)
  case h_10 => exact writeFolim v s
  case h_11 => exact .same (.writeSven v s)
  case h_27 => exact .same (.writeIthr v s)
  case h_28 => exact .same (.inspectAt v sf s)
  all_goals exact .same (.update ..)

theorem busWrite (cycle : BusCycle) (address : Nat) (w : BusWord) (s : State) :
    MapChange s (busWrite cycle address w s) := by
  cases cycle with
  | whole => exact writeWord address w.value w.sf s
  | endedEarly => exact .same (.refl s)
  | bothStrobes => exact .same (.refl s)

/-! Events and completions -/

theorem taken {f : State → State} (hf : ∀ s, MapChange s (f s)) {s t : State} (h : taken s f = .next t) :
    MapChange s t := by
  rcases taken_eq_next h with ⟨-, rfl⟩ | ⟨-, rfl⟩
  · exact hf s
  · exact .same (.refl _)

theorem completion {code : Byte} {f : Params → State → State} (hf : ∀ p s, MapChange s (f p s)) {s t : State}
    (h : completion code s f = .next t) : MapChange s t := by
  rcases completion_cases h with ⟨p, -, rfl⟩ | ⟨-, rfl⟩
  · exact hf p s
  · exact .same (.refl _)

/-- A frame-start row is the frame start where its occasion is there, and nothing otherwise (log 2). -/
theorem frameRow {e : FrameEvent} {due : State → Bool} {s t : State}
    (h : Machine.taken s (fun s => if due s then Machine.frameStart e s else s) = .next t) : MapChange s t := by
  refine taken (fun s => ?_) h
  split
  · exact frameStart e s
  · exact .same (.refl s)

/-- A write to one word of a pair or a row of words, which faults where the word does not exist. -/
theorem wordWrite {P : Prop} [Decidable P] {f : State → State} (hf : ∀ s, SameMap s (f s)) {s t : State}
    (h : (if P then Machine.taken s f else .fault .noSuchPlace) = .next t) : MapChange s t := by
  split at h
  · exact taken (fun s => .same (hf s)) h
  · cases h

theorem resetNRelease {cause : ResetCause} {s t : State} (h : execResetNRelease cause true s = .next t) :
    MapChange s t := by
  unfold execResetNRelease at h
  split at h
  · split at h
    · next hshort => simp at hshort
    · cases h
      exact .same (.update ..)
  · cases h
    exact .same (.refl _)

/-- Every command but a release after too short a reset makes one of these changes. -/
theorem of_exec {c : Instr} {s t : State} (hc : c.isShortRelease = false) (h : exec c s = .next t) :
    MapChange s t := by
  cases c with
  | frameStart e => exact taken (frameStart e) h
  | leaseExpiry e => exact frameRow (due := fun s => s.sau.expiryDue) h
  | commitApplication e => exact frameRow (due := fun s => s.applicationDue e) h
  | durationExpiry e => exact frameRow (due := fun s => s.durationDue e) h
  | inputByteCapture stream slot b =>
    exact wordWrite (f := captureByte stream slot b) (fun _ => ⟨captureByte_cm .., by rw [captureByte_cj]⟩) h
  | outputSlotFormation stream slot =>
    exact wordWrite (f := formInOrder stream slot) (fun _ => ⟨formInOrder_cm .., by rw [formInOrder_cj]⟩) h
  | connect =>
    exact completion (f := fun p => Machine.stageChecked (connectPlan p) p.p5 none)
      (fun _ _ => stageChecked fun _ => connectPlan_some) h
  | setConstant =>
    exact completion (f := fun p => Machine.stageChecked (constantPlan p) p.p5 none)
      (fun _ _ => stageChecked fun _ => constantPlan_some) h
  | setTest =>
    exact completion (f := fun p => Machine.stageChecked (testPlan p) p.p5 (some p.p4.toNat))
      (fun _ _ => stageChecked fun _ => testPlan_some) h
  | disconnect => exact completion disconnect h
  | commit => exact completion (fun p s => .same (.commitCommand p s)) h
  | cancel => exact completion (fun _ s => .same (.cancelCommand s)) h
  | discard => exact completion (fun _ => discardCommand) h
  | reserve => exact completion (fun p s => .same (.reserveCommand p s)) h
  | hunt => exact completion (fun p s => .same (.huntCommand p s)) h
  | release => exact completion (fun p s => .same (.releaseCommand p s)) h
  | renew => exact completion (fun p s => .same (.renewCommand p s)) h
  | configureEngine => exact completion (fun p s => .same (.configureCommand p s)) h
  | start => exact completion (fun p s => .same (.startCommand p s)) h
  | stop => exact completion (fun p s => .same (.stopCommand p s)) h
  | inject => exact completion (fun p s => .same (.injectCommand p s)) h
  | snapshot => exact completion (fun p s => .same (.snapshotCommand p s)) h
  | pop => exact completion (fun _ s => .same (.popCommand s)) h
  | softReset => exact completion (fun _ => softResetCommand) h
  | unknownCommand => exact taken (fun s => .same (.unknownCompletion s)) h
  | commandOverrun v => exact taken (fun s => .same (.writeCmd v s)) h
  | commandTaken v => exact taken (fun s => .same (.writeCmd v s)) h
  | overrunFlagClear v => exact taken (fun s => .same (.writeCmdstat v s)) h
  | idlecWrite v => exact taken (fun _ => .same (.update ..)) h
  | folimWrite v => exact taken (writeFolim v) h
  | svenWrite v => exact taken (fun s => .same (.writeSven v s)) h
  | svfrcWrite v => exact taken (fun _ => .same (.update ..)) h
  | svthrWrite v => exact taken (fun _ => .same (.update ..)) h
  | expfClear k v => exact wordWrite (f := writeExpf k v) (fun _ => .update ..) h
  | iflagClear k v => exact wordWrite (f := writeIflag k v) (fun _ => .update ..) h
  | imaskWrite k v => exact wordWrite (f := writeImask k v) (fun _ => .update ..) h
  | ilvlWrite k v => exact wordWrite (f := writeIlvl k v) (fun _ => .update ..) h
  | ithrWrite v => exact taken (fun s => .same (.writeIthr v s)) h
  | inspectActiveEntry x => exact taken (fun _ => .same (.update ..)) h
  | inspectEffectiveEntry x => exact taken (fun _ => .same (.update ..)) h
  | inspectJournal x => exact taken (fun _ => .same (.update ..)) h
  | inspectFanOut x => exact taken (fun _ => .same (.update ..)) h
  | inspectReservation x => exact taken (fun _ => .same (.update ..)) h
  | inspectEngineConfiguration x => exact taken (fun _ => .same (.update ..)) h
  | inspectLiveCounters x => exact taken (fun _ => .same (.update ..)) h
  | inspectSnapshot x => exact taken (fun _ => .same (.update ..)) h
  | inspectResultQueue x => exact taken (fun _ => .same (.update ..)) h
  | inspectHoldByte x => exact taken (fun _ => .same (.update ..)) h
  | inspectSupervisor x sf => exact taken (fun s => .same (.inspectAt _ _ s)) h
  | inspectInvalid w => exact taken (fun s => .same (.inspectAt _ _ s)) h
  | registerWrite cycle a w => exact taken (busWrite cycle a.toNat w) h
  | hardwareReset cause =>
    cases h
    exact .reset rfl rfl
  | resetNRelease cause m =>
    obtain rfl : m = true := by simpa [Instr.isShortRelease] using hc
    exact resetNRelease h

end MapChange

end Sys2Proof.Machine
end

