-- ==== Sys2Proof/Proofs/JournalLaw.lean ====
section
/-! The journal law through every change of the map, and what a step needs to keep a law of the map. -/

namespace Sys2Proof.Machine

/-! ### What keeps the law -/

theorem JournalOk.nil {active : Table Entry 10} (h : ∀ i < 1024, (active.get i).OkAt i) : JournalOk active [] :=
  ⟨h, nofun, List.nodup_nil, Nat.zero_le _⟩

theorem JournalOk.treatAll {active : Table Entry 10} {j : List JournalEntry} {plan : Plan} (h : JournalOk active j)
    (hok : ∀ p ∈ plan, p.1 < 1024 ∧ p.2.OkAt p.1) (hnodup : (plan.map (·.1)).Nodup)
    (hsize : finalSize active j plan ≤ 64) : JournalOk active (treatAll active j plan) := by
  obtain ⟨hactive, hj, hjnodup, -⟩ := h
  refine ⟨hactive, fun e he => ?_, nodup_treatAll active plan hjnodup, ?_⟩
  · rcases mem_treatAll he with he | ⟨p, hp, rfl, hne⟩
    · exact hj e he
    · obtain ⟨hlt, hpok⟩ := hok p hp
      exact ⟨hlt, hpok, hne⟩
  · rwa [length_treatAll active plan hjnodup hnodup]

/-- The application of a commit makes the effective view the active map (R57). -/
theorem applyJournal_get {i : Nat} (hi : i < 1024) : ∀ {j : List JournalEntry} (active : Table Entry 10),
    (j.map (·.slot)).Nodup → (∀ e ∈ j, e.slot < 1024) → (applyJournal active j).get i = viewOf active j i := by
  intro j
  induction j with
  | nil => exact fun _ _ _ => rfl
  | cons e j ih =>
    intro active hnodup hlt
    rw [List.map_cons, List.nodup_cons] at hnodup
    obtain ⟨hnew, hnodup⟩ := hnodup
    have hslot := hlt e List.mem_cons_self
    rw [applyJournal, List.foldl_cons, ← applyJournal, ih _ hnodup fun x hx => hlt x (List.mem_cons_of_mem _ hx),
      viewOf, viewOf, journalGet_cons, Table.get_set]
    by_cases h : e.slot = i
    · subst h
      rw [(journalGet_eq_none j e.slot).mpr hnew]
      simp
    · have hmod : ¬e.slot % 2 ^ 10 = i % 2 ^ 10 := by omega
      rw [if_neg h, if_neg hmod]

theorem JournalOk.applied {active : Table Entry 10} {j : List JournalEntry} (h : JournalOk active j) :
    JournalOk (applyJournal active j) [] := by
  refine .nil fun i hi => ?_
  have hok := h.view_ok hi
  obtain ⟨-, hj, hnodup, -⟩ := h
  rwa [applyJournal_get hi active hnodup fun e he => (hj e he).1]

/-! ### Changes of the map -/

/-- What is staged may stand where it is staged. -/
theorem Stageable.ok {s : State} {head w : Nat} {entry : Nat → Entry} (h : Stageable s head w entry)
    (hlaw : s.JournalLaw) : ∀ p ∈ planOf head w entry, p.1 < 1024 ∧ p.2.OkAt p.1 := by
  intro p hp
  obtain ⟨k, hk, rfl⟩ := mem_planOf.mp hp
  cases h with
  | connection hhead _ _ => exact ⟨hhead.member_lt hk, hhead.member_ok hk⟩
  | removal hlt hplace => exact ⟨(hlaw.headAt hlt hplace).member_lt hk, trivial⟩

theorem MapChange.keeps_journalLaw {s t : State} (h : MapChange s t) (hlaw : s.JournalLaw) : t.JournalLaw := by
  rw [journalLaw_iff] at hlaw ⊢
  cases h with
  | same h =>
    rw [h.cm, h.journal]
    exact hlaw
  | folim f hlegal hcm hj =>
    rw [hcm, hj]
    exact hlaw
  | staged hstage hfan hsize hcm hj =>
    rw [hcm, hj]
    exact hlaw.treatAll (hstage.ok hlaw) (nodup_planOf ..) hsize
  | dropped hcm hj =>
    rw [hcm, hj]
    obtain ⟨hactive, -⟩ := hlaw
    exact .nil hactive
  | applied hcm hj =>
    rw [hcm, hj]
    exact hlaw.applied
  | reset hcm hj =>
    rw [hcm, hj]
    refine .nil fun i _ => ?_
    rw [ConnectionMap.reset, Table.get_replicate]
    exact trivial

/-! ### Steps -/

/-- A law that does not read the queue of commands, and that every change of the map keeps, is kept by every step
without too short a reset. -/
theorem step_keeps_of_mapChange {P : State → Prop} (hqueue : ∀ (s : State) (rest : List Instr), P s →
    P { s with pending := rest }) (hchange : ∀ s t : State, MapChange s t → P s → P t) {s t : State}
    (hshort : s.NoShortReset) (hs : P s) (h : step s = .next t) : t.NoShortReset ∧ P t := by
  unfold step at h
  split at h
  · cases h
    exact ⟨hshort, hs⟩
  · next c rest hpending =>
    have hc : c.isShortRelease = false := hshort c (by simp [hpending])
    refine ⟨?_, hchange _ t (.of_exec hc h) (hqueue s rest hs)⟩
    unfold State.NoShortReset
    rw [(Effect.of_exec h).pending_eq]
    exact fun x hx => hshort x (by simp [hpending, hx])

end Sys2Proof.Machine
end

