-- ==== Sys2Proof/Proofs/ConnectionLaw.lean ====
section
/-! The connection law through every change of the map: staging a connection on IDLE slots, and removing a whole one. -/

namespace Sys2Proof.Machine

/-! ### Views that are made of whole connections -/

/-- Every slot of a view holds an entry that R21 allows there. -/
def ViewOk (view : Nat → Entry) : Prop := ∀ i < 1024, (view i).OkAt i

/-- A view is made of whole connections, with at most one TEST connection for each engine (R23, R25). -/
structure ViewLaw (view : Nat → Entry) : Prop where
  whole : ConnectionsWhole view
  oneTest : OneTestEach view

theorem connectionLaw_iff (s : State) : s.ConnectionLaw ↔ ViewLaw s.activeEntry ∧ ViewLaw s.effective := by
  constructor
  · rintro ⟨ha, he, ha', he'⟩
    exact ⟨⟨ha, ha'⟩, ⟨he, he'⟩⟩
  · rintro ⟨⟨ha, ha'⟩, ⟨he, he'⟩⟩
    exact ⟨ha, he, ha', he'⟩

/-- Every member of the connection of an entry stands at a slot of the part. -/
theorem member_lt_of_place {view : Nat → Entry} (hok : ViewOk view) {i w m k : Nat} (hi : i < 1024)
    (hplace : (view i).place? = some (w, m)) (hk : k < w) : m < w ∧ m ≤ i ∧ i - m + k < 1024 := by
  obtain ⟨-, hm, hslot, hfit⟩ := Entry.runAt_of_place (hok i hi) hplace
  unfold slotOf at hslot hfit
  omega

/-- The law is about the slots of the part. -/
theorem ViewLaw.congr {v v' : Nat → Entry} (h : ViewLaw v) (hok : ViewOk v) (heq : ∀ i < 1024, v' i = v i) :
    ViewLaw v' := by
  refine ⟨fun i hi w m hplace k hk => ?_, fun i hi j hj n w m w' m' => ?_⟩
  · rw [heq i hi] at hplace ⊢
    obtain ⟨-, -, hlt⟩ := member_lt_of_place hok hi hplace hk
    rw [heq _ hlt]
    exact h.whole i hi w m hplace k hk
  · rw [heq i hi, heq j hj]
    exact h.oneTest i hi j hj n w m w' m'

theorem viewLaw_idle : ViewLaw fun _ => .idle := ⟨fun _ _ _ _ => nofun, fun _ _ _ _ _ _ _ _ _ => nofun⟩

/-! ### Members -/

/-- A member of a connection names the same members as the head. -/
theorem Entry.memberAt_memberAt {e : Entry} {w : Nat} (h : e.place? = some (w, 0)) (a k : Nat) :
    (e.memberAt a).memberAt k = e.memberAt k := by
  cases e with
  | idle => cases h
  | switched src d inv c w' m =>
    simp only [Entry.memberAt, Entry.switched.injEq, and_true]
    omega
  | constant | test => rfl

theorem Entry.engine?_memberAt (e : Entry) (k : Nat) : (e.memberAt k).engine? = e.engine? := by
  cases e <;> rfl

theorem Entry.engine?_of_test {e : Entry} {n w m : Nat} (h : e = .test n w m) : e.engine? = some n := h ▸ rfl

/-! ### A connection staged on IDLE slots -/

section
variable {view : Nat → Entry} {head w : Nat} {e : Entry}

/-- A slot of the view after staging: a member of the staged connection, or a slot outside it. -/
theorem stagedView_cases (view : Nat → Entry) (head w : Nat) (entry : Nat → Entry) (i : Nat) :
    (∃ k < w, i = head + k ∧ stagedView view (planOf head w entry) i = entry k) ∨
      ((i < head ∨ head + w ≤ i) ∧ stagedView view (planOf head w entry) i = view i) := by
  by_cases h : head ≤ i ∧ i < head + w
  · refine Or.inl ⟨i - head, by omega, by omega, ?_⟩
    rw [stagedView_planOf, if_pos h]
  · exact Or.inr ⟨by omega, by rw [stagedView_planOf, if_neg h]⟩

theorem connectionsWhole_staged (hwhole : ConnectionsWhole view) (hhead : e.HeadAt head w)
    (hidle : ∀ k < w, view (head + k) = .idle) :
    ConnectionsWhole (stagedView view (planOf head w e.memberAt)) := by
  intro i hi w' m hplace k hk
  rcases stagedView_cases view head w e.memberAt i with ⟨a, ha, rfl, hview⟩ | ⟨-, hview⟩ <;> rw [hview] at hplace ⊢
  · rw [Entry.place?_memberAt hhead.place] at hplace
    cases hplace
    rw [Nat.add_sub_cancel, stagedView_member _ _ _ hk, Entry.memberAt_memberAt hhead.place]
  · have hmember := hwhole i hi w' m hplace k hk
    rcases stagedView_cases view head w e.memberAt (i - m + k) with ⟨a, ha, hslot, -⟩ | ⟨-, hview'⟩
    · have hfree := hidle a ha
      rw [← hslot, hmember] at hfree
      have hplace' := Entry.place?_memberAt hplace k
      rw [hfree] at hplace'
      cases hplace'
    · rw [hview', hmember]

/-- A TEST entry of the view after staging is a member of the staged connection, or stood there before. -/
theorem test_of_staged (hhead : e.HeadAt head w) {i n w' m : Nat}
    (h : stagedView view (planOf head w e.memberAt) i = .test n w' m) :
    (e.engine? = some n ∧ i = head + m) ∨ view i = .test n w' m := by
  rcases stagedView_cases view head w e.memberAt i with ⟨a, -, rfl, hview⟩ | ⟨-, hview⟩ <;> rw [hview] at h
  · have hplace := Entry.place?_memberAt hhead.place a
    have hengine := Entry.engine?_memberAt e a
    rw [h] at hplace hengine
    cases hplace
    exact Or.inl ⟨hengine.symm, rfl⟩
  · exact Or.inr h

theorem oneTestEach_staged (hone : OneTestEach view) (hhead : e.HeadAt head w)
    (hengine : ∀ n, e.engine? = some n → ∀ j < 1024, (view j).engine? ≠ some n) :
    OneTestEach (stagedView view (planOf head w e.memberAt)) := by
  intro i hi j hj n w1 m w2 m' h1 h2
  rcases test_of_staged hhead h1 with ⟨hn, hslot⟩ | h1
  · rcases test_of_staged hhead h2 with ⟨-, hslot'⟩ | h2
    · omega
    · exact absurd (Entry.engine?_of_test h2) (hengine n hn j hj)
  · rcases test_of_staged hhead h2 with ⟨hn, -⟩ | h2
    · exact absurd (Entry.engine?_of_test h1) (hengine n hn i hi)
    · exact hone i hi j hj n w1 m w2 m' h1 h2

/-! ### A whole connection removed -/

/-- Two connections of a view do not overlap: a slot whose connection has a member in another one is a member of it. -/
theorem mem_of_overlap (hwhole : ConnectionsWhole view) (hok : ViewOk view) (hhead : (view head).HeadAt head w)
    {i w' m k a : Nat} (hi : i < 1024) (hplace : (view i).place? = some (w', m)) (hk : k < w') (ha : a < w)
    (hslot : i - m + k = head + a) : head ≤ i ∧ i < head + w := by
  have hmember := Entry.place?_memberAt hplace k
  rw [← hwhole i hi w' m hplace k hk, hslot, ← Nat.sub_zero head, hwhole head hhead.slot_lt w 0 hhead.place a ha,
    Entry.place?_memberAt hhead.place] at hmember
  cases hmember
  obtain ⟨hm, hmi, -⟩ := member_lt_of_place hok hi hplace hk
  omega

theorem connectionsWhole_removed (hwhole : ConnectionsWhole view) (hok : ViewOk view)
    (hhead : (view head).HeadAt head w) : ConnectionsWhole (stagedView view (planOf head w fun _ => .idle)) := by
  intro i hi w' m hplace k hk
  rcases stagedView_cases view head w (fun _ => .idle) i with ⟨a, ha, rfl, hview⟩ | ⟨hout, hview⟩ <;>
    rw [hview] at hplace ⊢
  · cases hplace
  · rcases stagedView_cases view head w (fun _ => .idle) (i - m + k) with ⟨a, ha, hslot, -⟩ | ⟨-, hview'⟩
    · have := mem_of_overlap hwhole hok hhead hi hplace hk ha hslot
      omega
    · rw [hview', hwhole i hi w' m hplace k hk]

theorem oneTestEach_removed (hone : OneTestEach view) :
    OneTestEach (stagedView view (planOf head w fun _ => .idle)) := by
  have hkept : ∀ {i n w' m : Nat}, stagedView view (planOf head w fun _ => .idle) i = .test n w' m →
      view i = .test n w' m := by
    intro i n w' m h
    rcases stagedView_cases view head w (fun _ => .idle) i with ⟨a, ha, rfl, hview⟩ | ⟨-, hview⟩ <;> rw [hview] at h
    · cases h
    · exact h
  exact fun i hi j hj n w1 m w2 m' h1 h2 => hone i hi j hj n w1 m w2 m' (hkept h1) (hkept h2)

end

/-! ### The law -/

theorem Stageable.viewLaw {s : State} {head w : Nat} {entry : Nat → Entry} (h : Stageable s head w entry)
    (hlaw : s.JournalLaw) (hview : ViewLaw s.effective) : ViewLaw (stagedView s.effective (planOf head w entry)) := by
  cases h with
  | connection hhead hidle hengine =>
    exact ⟨connectionsWhole_staged hview.whole hhead hidle, oneTestEach_staged hview.oneTest hhead hengine⟩
  | removal hlt hplace =>
    exact ⟨connectionsWhole_removed hview.whole (fun _ => hlaw.effective_ok) (hlaw.headAt hlt hplace),
      oneTestEach_removed hview.oneTest⟩

theorem activeEntry_eq (s : State) : s.activeEntry = s.cm.active.get := rfl

theorem reset_active_get : ConnectionMap.reset.active.get = fun _ => .idle :=
  funext fun i => Table.get_replicate 10 Entry.idle i

theorem MapChange.keeps_connectionLaw {s t : State} (h : MapChange s t) (hlaw : s.JournalLaw) (hs : s.ConnectionLaw) :
    t.ConnectionLaw := by
  rw [connectionLaw_iff, activeEntry_eq, effective_eq_viewOf] at hs ⊢
  obtain ⟨hactive, heffective⟩ := hs
  cases h with
  | same h =>
    rw [h.cm, h.journal]
    exact ⟨hactive, heffective⟩
  | folim f hlegal hcm hj =>
    rw [hcm, hj]
    exact ⟨hactive, heffective⟩
  | staged hstage hfan hsize hcm hj =>
    rw [hcm, hj, viewOf_treatAll]
    exact ⟨hactive, hstage.viewLaw hlaw heffective⟩
  | dropped hcm hj =>
    rw [hcm, hj]
    exact ⟨hactive, hactive⟩
  | applied hcm hj =>
    rw [hcm, hj, viewOf_nil, and_self_iff]
    have hok : ViewOk (viewOf s.cm.active s.cj.journal) := fun _ => hlaw.effective_ok
    obtain ⟨-, hjournal, hnodup, -⟩ := hlaw
    exact heffective.congr hok fun i hi =>
      applyJournal_get hi _ hnodup fun e he => (hjournal e he).1
  | reset hcm hj =>
    rw [hcm, hj, viewOf_nil, reset_active_get, and_self_iff]
    exact viewLaw_idle

/-- Settles O55: every change of the map that a step can make keeps both laws. -/
theorem stepKeepsWholeConnections : Obligations.StepKeepsWholeConnections := by
  intro s t hshort hlaw hs h
  exact step_keeps_of_mapChange (P := fun s => s.JournalLaw ∧ s.ConnectionLaw) (fun _ _ hs => hs)
    (fun _ _ hchange ⟨hlaw, hs⟩ => ⟨hchange.keeps_journalLaw hlaw, hchange.keeps_connectionLaw hlaw hs⟩) hshort
    ⟨hlaw, hs⟩ h

end Sys2Proof.Machine
end

