-- ==== Sys2Proof/Proofs/FanOutLaw.lean ====
section
/-! The fan-out law through every change of the map: the counters follow the counts of the effective view. -/

namespace Sys2Proof.Machine

/-! ### Counts of a view -/

theorem sum_countP_blocks (p : Nat → Bool) (n : Nat) :
    ((List.range n).map fun s => (List.range 64).countP fun t => p (flat s t)).sum =
      (List.range (64 * n)).countP p := by
  induction n with
  | zero => rfl
  | succ n ih =>
    rw [List.range_succ (n := n), List.map_append, List.sum_append, ih, Nat.mul_succ, List.range_add,
      List.countP_append, List.countP_map]
    simp [Function.comp_def, flat]

/-- The count of the slots is the count over all flat indices. -/
theorem countSlots_eq (p : Nat → Bool) : countSlots p = (List.range 1024).countP p := sum_countP_blocks p 16

theorem fedFrom_congr {v v' : Nat → Entry} (h : ∀ i < 1024, v' i = v i) (u : Nat) : fedFrom v' u = fedFrom v u := by
  unfold fedFrom
  rw [countSlots_eq, countSlots_eq]
  exact List.countP_congr fun i hi => by rw [h i (List.mem_range.mp hi)]

/-- Two tests that differ at one place count that place differently and no other. -/
theorem countP_range_swap {p q : Nat → Bool} {slot : Nat} (h : ∀ i, i ≠ slot → q i = p i) :
    ∀ n, slot < n → (List.range n).countP q + (p slot).toNat = (List.range n).countP p + (q slot).toNat := by
  have hcount : ∀ (f : Nat → Bool) n, (List.range (n + 1)).countP f = (List.range n).countP f + (f n).toNat := by
    intro f n
    rw [List.range_succ, List.countP_append, List.countP_singleton]
    cases f n <;> rfl
  intro n hn
  induction n with
  | zero => exact absurd hn (Nat.not_lt_zero _)
  | succ n ih =>
    rw [hcount, hcount]
    by_cases hs : slot = n
    · have hrest : (List.range n).countP q = (List.range n).countP p :=
        List.countP_congr fun i hi => by
          have := List.mem_range.mp hi
          rw [h i (by omega)]
      rw [hs, hrest]
      omega
    · have := ih (by omega)
      rw [h n fun he => hs he.symm]
      omega

theorem feeds_eq_toNat (e : Entry) (u : Nat) : e.feeds u = (e.source? == some u).toNat := by
  unfold Entry.feeds
  by_cases h : e.source? = some u
  · simp [h]
  · rw [if_neg h, beq_eq_false_iff_ne.mpr h]
    rfl

/-- One slot of a view replaced moves the counts by its entries (R29). -/
theorem fedFrom_update (view : Nat → Entry) {slot : Nat} (hslot : slot < 1024) (e : Entry) (u : Nat) :
    fedFrom (Function.update view slot e) u + (view slot).feeds u = fedFrom view u + e.feeds u := by
  have hswap := countP_range_swap (p := fun i => (view i).source? == some u)
    (q := fun i => (Function.update view slot e i).source? == some u) (slot := slot)
    (fun i hi => by simp only [Function.update_of_ne hi]) 1024 hslot
  simp only [Function.update_self] at hswap
  unfold fedFrom
  rwa [countSlots_eq, countSlots_eq, feeds_eq_toNat, feeds_eq_toNat]

theorem feeds_le_fedFrom (view : Nat → Entry) {slot : Nat} (hslot : slot < 1024) (u : Nat) :
    (view slot).feeds u ≤ fedFrom view u := by
  have := fedFrom_update view hslot .idle u
  rw [feeds_idle] at this
  omega

/-! ### The counters after a plan -/

/-- Treating the target slots one after another, a counter that counts a view counts the staged view (R30). -/
theorem foldl_fanStep_counts {s : State} {u : Nat} (hu : u < 1024) (plan : Plan) :
    (plan.map (·.1)).Nodup → (∀ p ∈ plan, p.1 < 1024 ∧ (s.effective p.1).SourceOk ∧ p.2.SourceOk) →
    ∀ (fan : Table Nat 10) (view : Nat → Entry), (∀ p ∈ plan, view p.1 = s.effective p.1) →
      fan.get u = fedFrom view u → (plan.foldl (fanStep s) fan).get u = fedFrom (stagedView view plan) u := by
  induction plan with
  | nil => exact fun _ _ _ _ _ h => h
  | cons p plan ih =>
    intro hnodup hok fan view hview hfan
    rw [List.map_cons, List.nodup_cons] at hnodup
    obtain ⟨hnew, hnodup⟩ := hnodup
    obtain ⟨hslot, hold, hp⟩ := hok p List.mem_cons_self
    refine ih hnodup (fun q hq => hok q (List.mem_cons_of_mem _ hq)) _ (Function.update view p.1 p.2)
      (fun q hq => ?_) ?_
    · have hne : q.1 ≠ p.1 := fun h => hnew (h ▸ List.mem_map_of_mem hq)
      rw [Function.update_of_ne hne]
      exact hview q (List.mem_cons_of_mem _ hq)
    · rw [fanStep_get hold hp hu, hfan, ← hview p List.mem_cons_self]
      have := fedFrom_update view hslot p.2 u
      have := feeds_le_fedFrom view hslot u
      omega

/-- A counter that the plan stages no entry from does not rise. -/
theorem foldl_fanStep_le {s : State} {u : Nat} (hu : u < 1024) (plan : Plan) :
    (∀ p ∈ plan, (s.effective p.1).SourceOk ∧ p.2.SourceOk ∧ p.2.source? ≠ some u) → ∀ fan : Table Nat 10,
      (plan.foldl (fanStep s) fan).get u ≤ fan.get u := by
  induction plan with
  | nil => exact fun _ _ => Nat.le_refl _
  | cons p plan ih =>
    intro h fan
    obtain ⟨hold, hp, hne⟩ := h p List.mem_cons_self
    refine (ih (fun q hq => h q (List.mem_cons_of_mem _ hq)) _).trans ?_
    rw [fanStep_get hold hp hu, Entry.feeds, Entry.feeds, if_neg hne]
    omega

/-- A plan that the fan-out check has passed leaves no counter above FOLIM that was not above it before (R33). -/
theorem fanAfter_le {s : State} {u n : Nat} (hu : u < 1024) {plan : Plan}
    (hok : ∀ p ∈ plan, (s.effective p.1).SourceOk ∧ p.2.SourceOk) (hfan : fanExceeded s plan = none)
    (hbefore : s.cm.fanout.get u ≤ n) (hfolim : s.cm.folim.toNat ≤ n) : (fanAfter s plan).get u ≤ n := by
  by_cases hmem : u ∈ plan.filterMap (·.2.source?)
  · unfold fanExceeded at hfan
    rw [List.find?_eq_none] at hfan
    have hu := hfan u hmem
    simp only [Bool.and_eq_true, decide_eq_true_eq] at hu
    omega
  · refine (foldl_fanStep_le hu plan (fun p hp => ?_) s.cm.fanout).trans hbefore
    obtain ⟨hold, hnew⟩ := hok p hp
    exact ⟨hold, hnew, fun hsrc => hmem (List.mem_filterMap.mpr ⟨p, hp, hsrc⟩)⟩

/-! ### The law -/

theorem MapChange.keeps_fanOutLaw {s t : State} (h : MapChange s t) (hlaw : s.JournalLaw) (hs : s.FanOutLaw) :
    t.FanOutLaw := by
  unfold State.FanOutLaw at hs ⊢
  rw [activeEntry_eq, effective_eq_viewOf] at hs ⊢
  obtain ⟨hlo, hhi, hcounts⟩ := hs
  cases h with
  | same h =>
    rw [h.cm, h.journal]
    exact ⟨hlo, hhi, hcounts⟩
  | folim f hlegal hcm hj =>
    rw [hcm, hj]
    exact ⟨hlegal.1, hlegal.2, hcounts⟩
  | staged hstage hfan hsize hcm hj =>
    rw [hcm, hj, viewOf_treatAll]
    refine ⟨hlo, hhi, fun u hu => ?_⟩
    obtain ⟨hcount, hbefore, hactive⟩ := hcounts u hu
    have hsources : ∀ p ∈ planOf _ _ _, p.1 < 1024 ∧ (s.effective p.1).SourceOk ∧ p.2.SourceOk := fun p hp =>
      have hp := hstage.ok hlaw p hp
      ⟨hp.1, (hlaw.effective_ok hp.1).sourceOk, hp.2.sourceOk⟩
    exact ⟨foldl_fanStep_counts hu _ (nodup_planOf ..) hsources _ _ (fun _ _ => rfl) hcount,
      fanAfter_le hu (fun p hp => (hsources p hp).2) hfan hbefore hhi, hactive⟩
  | dropped hcm hj =>
    rw [hcm, hj]
    refine ⟨hlo, hhi, fun u hu => ?_⟩
    obtain ⟨-, -, hactive⟩ := hcounts u hu
    rw [recount_get _ hu]
    exact ⟨rfl, hactive, hactive⟩
  | applied hcm hj =>
    rw [hcm, hj, viewOf_nil]
    refine ⟨hlo, hhi, fun u hu => ?_⟩
    obtain ⟨hcount, hbefore, -⟩ := hcounts u hu
    obtain ⟨-, hjournal, hnodup, -⟩ := hlaw
    rw [fedFrom_congr (fun i hi => applyJournal_get hi _ hnodup fun e he => (hjournal e he).1) u, ← hcount]
    exact ⟨rfl, hbefore, hbefore⟩
  | reset hcm hj =>
    rw [hcm, hj, viewOf_nil, reset_active_get]
    refine ⟨by decide, by decide, fun u _ => ?_⟩
    have hnone : fedFrom (fun _ => .idle) u = 0 := by
      rw [fedFrom, countSlots_eq, List.countP_eq_zero]
      exact fun _ _ => nofun
    have hzero : ConnectionMap.reset.fanout.get u = 0 := Table.get_replicate 10 0 u
    rw [hnone, hzero]
    exact ⟨rfl, Nat.zero_le _, Nat.zero_le _⟩

/-- Settles O56: every change of the map that a step can make keeps both laws. -/
theorem stepKeepsTheFanOutCounts : Obligations.StepKeepsTheFanOutCounts := by
  intro s t hshort hlaw hs h
  exact step_keeps_of_mapChange (P := fun s => s.JournalLaw ∧ s.FanOutLaw) (fun _ _ hs => hs)
    (fun _ _ hchange ⟨hlaw, hs⟩ => ⟨hchange.keeps_journalLaw hlaw, hchange.keeps_fanOutLaw hlaw hs⟩) hshort ⟨hlaw, hs⟩ h

end Sys2Proof.Machine
end

