-- ==== Sys2Proof/Proofs/ResetLaws.lean ====
section
/-! The journal law through every step, and every law in the state right after reset. -/

namespace Sys2Proof.Machine

/-- Settles O54: every change of the map that a step can make keeps the law. -/
theorem stepKeepsTheJournalLaw : Obligations.StepKeepsTheJournalLaw := by
  intro s t hshort hlaw h
  exact step_keeps_of_mapChange (fun _ _ hs => hs) (fun _ _ hchange hs => hchange.keeps_journalLaw hs) hshort hlaw h

/-! ### What the tables hold after reset -/

theorem reset_activeEntry : State.reset.activeEntry = fun _ => .idle := reset_active_get

theorem reset_effective : State.reset.effective = fun _ => .idle := reset_active_get

theorem reset_fanout (u : Nat) : State.reset.cm.fanout.get u = 0 := Table.get_replicate 10 0 u

theorem reset_recs (r : Nat) : State.reset.sau.recs.get r = .free := Table.get_replicate 5 Reservation.free r

theorem reset_engine (n : Nat) : State.reset.engine n = .reset := Table.get_replicate 2 Engine.reset n

theorem reset_sups (i : Nat) : State.reset.sv.sups.get i = { state := .clear, lastSample := none } :=
  Table.get_replicate 4 (Supervisor.mk .clear none) i

theorem reset_level (k : Nat) : State.reset.iu.level k = 1 := Table.get_replicate 5 (1 : BitVec 3) k

/-- A view of IDLE slots is fed from no input slot. -/
theorem fedFrom_idle (u : Nat) : fedFrom (fun _ => .idle) u = 0 := by
  rw [fedFrom, countSlots_eq, List.countP_eq_zero]
  exact fun _ _ => nofun

/-! ### The laws -/

theorem reset_journalLaw : State.reset.JournalLaw := by
  refine JournalOk.nil fun i _ => ?_
  show (State.reset.activeEntry i).OkAt i
  rw [reset_activeEntry]
  exact trivial

theorem reset_connectionLaw : State.reset.ConnectionLaw := by
  rw [connectionLaw_iff, reset_activeEntry, reset_effective]
  exact ⟨viewLaw_idle, viewLaw_idle⟩

theorem reset_fanOutLaw : State.reset.FanOutLaw := by
  refine ⟨by decide, by decide, fun u _ => ?_⟩
  rw [reset_activeEntry, reset_effective, reset_fanout, fedFrom_idle]
  exact ⟨rfl, Nat.zero_le _, Nat.zero_le _⟩

/-- Every record is FREE, so there is no claim that a law could speak of. -/
theorem reset_reservationLaw : State.reset.ReservationLaw := by
  unfold State.ReservationLaw
  simp only [reset_recs]
  exact ⟨fun _ _ _ => nofun, fun _ _ _ => nofun, fun _ _ _ => nofun, fun _ _ _ _ _ _ _ => nofun⟩

theorem reset_engineLaw : State.reset.EngineLaw := by
  intro n _
  rw [reset_engine]
  exact ⟨by unfold EngineConfig.Ok; decide, by decide, trivial, nofun, fun _ => ⟨rfl, rfl⟩⟩

theorem reset_queueLaw : State.reset.QueueLaw := by
  refine ⟨Nat.zero_le _, List.nodup_nil, nofun, fun n _ => ?_, fun h => absurd rfl h⟩
  rw [reset_engine]
  exact ⟨nofun, nofun⟩

theorem reset_supervisorLaw : State.reset.SupervisorLaw := by
  refine ⟨by decide, by decide, fun i _ => ?_⟩
  rw [reset_sups]
  exact ⟨trivial, fun _ => rfl⟩

theorem reset_levelLaw : State.reset.LevelLaw := by
  intro k _
  rw [reset_level]
  decide

/-- Settles O53, law by law. -/
theorem resetSatisfiesTheLaws : Obligations.ResetSatisfiesTheLaws :=
  ⟨nofun, reset_journalLaw, reset_connectionLaw, reset_fanOutLaw, reset_reservationLaw, reset_engineLaw,
    reset_queueLaw, reset_supervisorLaw, reset_levelLaw, nofun, nofun⟩

end Sys2Proof.Machine
end

