-- ==== Sys2Proof/Proofs/JournalOrder.lean ====
section
/-! The order of the journal after a staging command (R40): what becomes of each entry, and which entries are new. -/

namespace Sys2Proof.Machine

/-- What a plan makes of a journal entry: an entry of no target slot stays, and one of a target slot takes the staged
entry in its place, or goes where that equals the active entry. -/
def keptEntry (active : Table Entry 10) (plan : Plan) (e : JournalEntry) : Option JournalEntry :=
  match plan.find? fun p => p.1 == e.slot with
  | none => some e
  | some p => if p.2 = active.get p.1 then none else some ⟨p.1, p.2⟩

/-- The staged entries that a plan adds to a journal. -/
def newEntries (active : Table Entry 10) (j : List JournalEntry) (plan : Plan) : List JournalEntry :=
  (plan.filter fun p => journalGet j p.1 == none && p.2 != active.get p.1).map fun p => ⟨p.1, p.2⟩

section
variable (active : Table Entry 10) (j : List JournalEntry) {p : Nat × Entry} {plan : Plan} {e : JournalEntry}

/-! ### Entries that stay -/

theorem keptEntry_of_not_target (h : e.slot ∉ plan.map (·.1)) : keptEntry active plan e = some e := by
  have hnone : plan.find? (fun p => p.1 == e.slot) = none := by
    rw [List.find?_eq_none]
    intro q hq hslot
    exact h (List.mem_map.mpr ⟨q, hq, by simpa using hslot⟩)
  rw [keptEntry, hnone]

theorem keptEntry_cons (plan : Plan) :
    keptEntry active (p :: plan) e =
      if e.slot = p.1 then (if p.2 = active.get p.1 then none else some ⟨p.1, p.2⟩) else keptEntry active plan e := by
  by_cases h : e.slot = p.1
  · simp [keptEntry, h]
  · have hp : (p.1 == e.slot) = false := beq_eq_false_iff_ne.mpr fun hs => h hs.symm
    rw [if_neg h, keptEntry, List.find?_cons, hp]
    rfl

/-- The first target slot and then the rest of the plan do to an entry what the whole plan does. -/
theorem keptEntry_bind (h : p.1 ∉ plan.map (·.1)) (e : JournalEntry) :
    (keptEntry active [p] e).bind (keptEntry active plan) = keptEntry active (p :: plan) e := by
  rw [keptEntry_cons, keptEntry_cons]
  by_cases hslot : e.slot = p.1
  · by_cases hactive : p.2 = active.get p.1
    · simp [hslot, hactive]
    · simp [hslot, hactive, keptEntry_of_not_target active (e := ⟨p.1, p.2⟩) h]
  · simp [hslot, keptEntry]

/-! ### Entries that are new -/

theorem newEntries_cons (p : Nat × Entry) (plan : Plan) :
    newEntries active j (p :: plan) = newEntries active j [p] ++ newEntries active j plan := by
  rw [newEntries, ← List.singleton_append, List.filter_append, List.map_append]
  rfl

/-- Treating one target slot leaves which other entries are new. -/
theorem newEntries_treat (h : p.1 ∉ plan.map (·.1)) :
    newEntries active (treat active j p) plan = newEntries active j plan := by
  refine congrArg _ (List.filter_congr fun q hq => ?_)
  have hne : q.1 ≠ p.1 := fun he => h (he ▸ List.mem_map_of_mem hq)
  rw [journalGet_treat, if_neg hne]

/-- The rest of the plan leaves the entry that its first target slot has added. -/
theorem filterMap_newEntries (h : p.1 ∉ plan.map (·.1)) :
    (newEntries active j [p]).filterMap (keptEntry active plan) = newEntries active j [p] := by
  refine (List.filterMap_congr fun e he => ?_).trans List.filterMap_some
  obtain ⟨q, hq, rfl⟩ := List.mem_map.mp he
  obtain rfl := List.mem_singleton.mp (List.mem_of_mem_filter hq)
  exact keptEntry_of_not_target active h

/-! ### One target slot, and a whole plan -/

theorem keptEntry_of_other (h : e.slot ≠ p.1) : keptEntry active [p] e = some e :=
  keptEntry_of_not_target active (by simpa using h)

/-- The four cases of R40 in one equation. -/
theorem treat_eq (p : Nat × Entry) :
    treat active j p = j.filterMap (keptEntry active [p]) ++ newEntries active j [p] := by
  unfold treat treatmentOf
  cases hj : journalGet j p.1 with
  | none =>
    have hkept : j.filterMap (keptEntry active [p]) = j := by
      refine (List.filterMap_congr fun e he => ?_).trans List.filterMap_some
      have hslot := (journalGet_eq_none j p.1).mp hj
      exact keptEntry_of_other active fun h => hslot (h ▸ List.mem_map_of_mem he)
    rw [hkept]
    by_cases ha : p.2 = active.get p.1
    · simp [newEntries, ha]
    · have ha' : (p.2 == active.get p.1) = false := by simpa using ha
      rw [Option.isSome_none, ha']
      simp [newEntries, hj, ha]
  | some x =>
    have hnew : newEntries active j [p] = [] := by simp [newEntries, hj]
    rw [hnew, List.append_nil]
    by_cases ha : p.2 = active.get p.1
    · have ha' : (p.2 == active.get p.1) = true := by simpa using ha
      rw [Option.isSome_some, ha', ← List.filterMap_eq_filter]
      refine List.filterMap_congr fun e _ => ?_
      rw [keptEntry_cons]
      by_cases h : e.slot = p.1 <;> simp [h, ha, keptEntry, Option.guard]
    · have ha' : (p.2 == active.get p.1) = false := by simpa using ha
      rw [Option.isSome_some, ha', ← List.filterMap_eq_map]
      refine List.filterMap_congr fun e _ => ?_
      rw [keptEntry_cons]
      by_cases h : e.slot = p.1 <;> simp [h, ha, keptEntry]

end

/-- Entries that stay keep their order, superseded ones their place, and new ones follow in member order (R40). -/
theorem treatAll_eq (active : Table Entry 10) (plan : Plan) : ∀ j : List JournalEntry, (plan.map (·.1)).Nodup →
    treatAll active j plan = j.filterMap (keptEntry active plan) ++ newEntries active j plan := by
  induction plan with
  | nil => exact fun j _ => ((List.append_nil _).trans List.filterMap_some).symm
  | cons p plan ih =>
    intro j hnodup
    rw [List.map_cons, List.nodup_cons] at hnodup
    obtain ⟨hnew, hnodup⟩ := hnodup
    have hbind : (fun e => (keptEntry active [p] e).bind (keptEntry active plan)) = keptEntry active (p :: plan) :=
      funext (keptEntry_bind active hnew)
    rw [treatAll, List.foldl_cons, ← treatAll, ih _ hnodup, newEntries_treat active j hnew, treat_eq,
      List.filterMap_append, List.filterMap_filterMap, filterMap_newEntries active j hnew, hbind, List.append_assoc,
      ← newEntries_cons]

/-- Settles O31, by the journal's order and by its length. -/
theorem journalKeepsItsOrder : Obligations.JournalKeepsItsOrder := fun active j plan hj hplan =>
  ⟨treatAll_eq active plan j hplan, length_treatAll active plan hj hplan⟩

end Sys2Proof.Machine
end

