-- ==== Sys2Proof/Proofs/StagingParameters.lean ====
section
/-! Check 1 of the staging commands: the parameters that R44 rules out, and the codes of the checks after it. -/

namespace Sys2Proof.Machine

/-! ### Fields of a word as masks -/

/-- A shift and a mask of low bits take a field of a word. -/
theorem toNat_shift_and_mask (w : Word) (lo : Nat) {len : Nat} (h : len ≤ 16) :
    ((w >>> lo) &&& BitVec.ofNat 16 (2 ^ len - 1)).toNat = field w lo len := by
  have hpow : 2 ^ len ≤ 2 ^ 16 := Nat.pow_le_pow_right (by decide) h
  have hpos : 0 < 2 ^ len := Nat.two_pow_pos len
  rw [BitVec.toNat_and, BitVec.toNat_ushiftRight, BitVec.toNat_ofNat, Nat.mod_eq_of_lt (by omega),
    Nat.and_two_pow_sub_one_eq_mod, Nat.shiftRight_eq_div_pow, field]

theorem toNat_and_three (w : Word) : (w &&& 3).toNat = field w 0 2 := by
  have h := toNat_shift_and_mask w 0 (len := 2) (by decide)
  rwa [BitVec.ushiftRight_zero] at h

/-! ### Codes that name no option -/

theorem delayOf_eq_none {n : Nat} : delayOf n = none ↔ 1 < n := by
  match n with
  | 0 | 1 => simp [delayOf]
  | n + 2 => simp [delayOf]

theorem delayOf_eq_minimum {n : Nat} : delayOf n = some .minimum ↔ n = 0 := by
  match n with
  | 0 | 1 => simp [delayOf]
  | n + 2 => simp [delayOf]

theorem invertOf_eq_none {n : Nat} : invertOf n = none ↔ 1 < n := by
  match n with
  | 0 | 1 => simp [invertOf]
  | n + 2 => simp [invertOf]

theorem conditioningOf_eq_none {n : Nat} : conditioningOf n = none ↔ 3 < n := by
  match n with
  | 0 | 1 | 2 | 3 => simp [conditioningOf]
  | n + 4 => simp [conditioningOf]

/-! ### Parameters that give no plan -/

theorem tagOk_iff (tag : Word) : tagOk tag = true ↔ tag.toNat ≤ 255 := decide_eq_true_iff

theorem connectPlan_eq_none (p : Params) :
    connectPlan p = none ↔
      15 < streamField p.p0 ∨ 63 < slotField p.p0 ∨ 15 < streamField p.p1 ∨ 63 < slotField p.p1 ∨
      p.p2.toNat = 0 ∨ 16 < p.p2.toNat ∨ 64 < slotField p.p0 + p.p2.toNat ∨ 64 < slotField p.p1 + p.p2.toNat ∨
      1 < field p.p3 0 2 ∨ 1 < field p.p3 2 2 ∨ 3 < field p.p3 4 3 ∨
      (2 ≤ p.p2.toNat ∧ field p.p3 0 2 = 0) ∨ 255 < p.p5.toNat := by
  rw [← delayOf_eq_none, ← invertOf_eq_none, ← conditioningOf_eq_none, ← delayOf_eq_minimum (n := field _ _ _)]
  unfold connectPlan pathDelay pathInvert pathConditioning
  cases hd : delayOf (field p.p3 0 2) with
  | none => simp
  | some d =>
    cases hi : invertOf (field p.p3 2 2) with
    | none => simp
    | some inv =>
      cases hc : conditioningOf (field p.p3 4 3) with
      | none => simp
      | some c =>
        simp only [ite_eq_right_iff, reduceCtorEq, imp_false, runOk_iff, tagOk_iff, Option.some.injEq, false_or]
        by_cases hmin : d = .minimum
        · simp only [hmin, and_true]
          omega
        · simp only [hmin, and_false, not_false_eq_true, true_and, false_or]
          omega

theorem constantPlan_eq_none (p : Params) :
    constantPlan p = none ↔
      15 < streamField p.p0 ∨ 63 < slotField p.p0 ∨ p.p2.toNat = 0 ∨ 16 < p.p2.toNat ∨
      64 < slotField p.p0 + p.p2.toNat ∨ 255 < p.p4.toNat ∨ 255 < p.p5.toNat := by
  simp only [constantPlan, ite_eq_right_iff, reduceCtorEq, imp_false, runOk_iff, tagOk_iff]
  omega

theorem testPlan_eq_none (p : Params) :
    testPlan p = none ↔
      15 < streamField p.p0 ∨ 63 < slotField p.p0 ∨ p.p2.toNat = 0 ∨ 16 < p.p2.toNat ∨
      64 < slotField p.p0 + p.p2.toNat ∨ 3 < p.p4.toNat ∨ 255 < p.p5.toNat := by
  simp only [testPlan, ite_eq_right_iff, reduceCtorEq, imp_false, runOk_iff, tagOk_iff]
  omega

/-! ### The codes of the later checks -/

/-- No check after the first answers BAD_PARAMETER. -/
theorem stage_code_ne (plan : Plan) (tag : Word) (needIdle : Bool) (engine : Option Nat) (s : State) :
    (stage plan tag needIdle engine s).ce.code ≠ .badParameter := by
  unfold stage
  split
  · exact nofun
  · exact nofun
  · split
    · exact nofun
    · split
      · exact nofun
      · split
        · exact nofun
        · split
          · exact nofun
          · exact nofun

/-- Checks 1 and 2 as a command answers them: it is refused for its parameters exactly where they are `bad`, whatever
the state, and after that for a commit that is PENDING (R44, R45). -/
def ParametersFirst (s : State) (bad : Prop) (t : State) : Prop :=
  (bad → t = s.answered .badParameter s.jcnt 0 0 0) ∧
    (¬bad → t.ce.code ≠ .badParameter ∧ (s.cj.commit ≠ none → t = s.answered .commitPending s.jcnt 0 0 0))

theorem stageChecked_parametersFirst {plan : Option Plan} {bad : Prop} (hbad : plan = none ↔ bad) (tag : Word)
    (engine : Option Nat) (s : State) : ParametersFirst s bad (stageChecked plan tag engine s) := by
  cases plan with
  | none => exact ⟨fun _ => rfl, fun h => absurd (hbad.mp rfl) h⟩
  | some plan =>
    refine ⟨fun h => absurd (hbad.mpr h) nofun, fun _ => ?_⟩
    cases hcommit : s.cj.commit with
    | none =>
      rw [stageChecked_of_plan hcommit]
      exact ⟨stage_code_ne _ _ _ _ _, fun h => absurd rfl h⟩
    | some t =>
      have hpending : stageChecked (some plan) tag engine s = s.answered .commitPending s.jcnt 0 0 0 :=
        if_pos (by rw [hcommit]; rfl)
      rw [hpending]
      exact ⟨nofun, fun _ => rfl⟩

theorem disconnect_of_pending {s : State} {p : Params} (hstream : streamField p.p0 ≤ 15) (hslot : slotField p.p0 ≤ 63)
    (htag : p.p5.toNat ≤ 255) (hcommit : s.cj.commit ≠ none) :
    disconnect p s = s.answered .commitPending s.jcnt 0 0 0 := by
  rw [disconnect, if_pos (disconnect_legal hstream hslot htag), if_pos (Option.isSome_iff_ne_none.mpr hcommit)]
  rfl

theorem disconnect_code_ne {s : State} {p : Params} (hstream : streamField p.p0 ≤ 15) (hslot : slotField p.p0 ≤ 63)
    (htag : p.p5.toNat ≤ 255) : (disconnect p s).ce.code ≠ .badParameter := by
  by_cases hcommit : s.cj.commit = none
  · cases hplace : (s.effective p.target).place? with
    | none =>
      rw [disconnect_of_idle hstream hslot htag hcommit (place?_eq_none.mp hplace)]
      exact nofun
    | some wm =>
      obtain ⟨w, m⟩ := wm
      by_cases hm : m = 0
      · subst hm
        rw [disconnect_of_head hstream hslot htag hcommit hplace]
        exact stage_code_ne _ _ _ _ _
      · rw [disconnect_of_member hstream hslot htag hcommit hplace hm]
        exact nofun
  · rw [disconnect_of_pending hstream hslot htag hcommit]
    exact nofun

theorem disconnect_parametersFirst (p : Params) (s : State) :
    ParametersFirst s (15 < streamField p.p0 ∨ 63 < slotField p.p0 ∨ 255 < p.p5.toNat) (disconnect p s) := by
  refine ⟨fun h => if_neg ?_, fun h => ?_⟩
  · rw [tagOk_iff]
    omega
  · have hstream : streamField p.p0 ≤ 15 := by omega
    have hslot : slotField p.p0 ≤ 63 := by omega
    have htag : p.p5.toNat ≤ 255 := by omega
    exact ⟨disconnect_code_ne hstream hslot htag, disconnect_of_pending hstream hslot htag⟩

/-- Settles O26, command by command. -/
theorem stagingParameterCheck : Obligations.StagingParameterCheck := by
  intro s p i code bad hc hmem
  obtain ⟨t, hexec, ht⟩ : ∃ t, exec i s = .next t ∧ ParametersFirst s bad t := by
    have hinvert : ((p.p3 >>> 2) &&& 3).toNat = field p.p3 2 2 := toNat_shift_and_mask p.p3 2 (len := 2) (by decide)
    have hcond : ((p.p3 >>> 4) &&& 7).toNat = field p.p3 4 3 := toNat_shift_and_mask p.p3 4 (len := 3) (by decide)
    rw [toNat_and_three, hinvert, hcond] at hmem
    simp only [List.mem_cons, Prod.mk.injEq, List.not_mem_nil, or_false] at hmem
    rcases hmem with ⟨rfl, rfl, rfl⟩ | ⟨rfl, rfl, rfl⟩ | ⟨rfl, rfl, rfl⟩ | ⟨rfl, rfl, rfl⟩
    · exact ⟨_, completion_of_commanded hc fun p => stageChecked (connectPlan p) p.p5 none,
        stageChecked_parametersFirst (connectPlan_eq_none p) p.p5 none s⟩
    · exact ⟨_, completion_of_commanded hc fun p => stageChecked (constantPlan p) p.p5 none,
        stageChecked_parametersFirst (constantPlan_eq_none p) p.p5 none s⟩
    · exact ⟨_, completion_of_commanded hc fun p => stageChecked (testPlan p) p.p5 (some p.p4.toNat),
        stageChecked_parametersFirst (testPlan_eq_none p) p.p5 (some p.p4.toNat) s⟩
    · exact ⟨_, completion_of_commanded hc disconnect, disconnect_parametersFirst p s⟩
  obtain ⟨hbad, hgood⟩ := ht
  exact ⟨fun h => hexec.trans (congrArg _ (hbad h)), fun h => ⟨t, hexec, hgood h⟩⟩

end Sys2Proof.Machine
end

