-- ==== Sys2Proof/Proofs/Commits.lean ====
section
/-! COMMIT and CANCEL, and the application of a commit at a frame start. -/

namespace Sys2Proof.Machine

/-! ### COMMIT and CANCEL (R53, R60) -/

/-- The commit state replaced. -/
def State.withCommit (s : State) (commit : Option Trigger) : State := { s with cj := { s.cj with commit := commit } }

theorem triggerOf_eq_none {kind : Word} (h : 2 < kind.toNat) (target : Word) : triggerOf kind target = none := by
  unfold triggerOf
  split
  case h_4 => rfl
  all_goals omega

section
variable {s : State} {p : Params}

theorem commitCommand_of_bad (h : triggerOf p.p0 p.p1 = none) :
    commitCommand p s = s.answered .badParameter s.jcnt 0 0 0 := by
  rw [commitCommand, h]
  rfl

theorem commitCommand_of_pending {t : Trigger} (h : triggerOf p.p0 p.p1 = some t) (hcommit : s.cj.commit ≠ none) :
    commitCommand p s = s.answered .commitPending s.jcnt 0 0 0 := by
  rw [commitCommand, h]
  exact if_pos (Option.isSome_iff_ne_none.mpr hcommit)

theorem commitCommand_of_none {t : Trigger} (h : triggerOf p.p0 p.p1 = some t) (hcommit : s.cj.commit = none) :
    commitCommand p s = (s.withCommit (some t)).answered .ok s.jcnt (s.cj.cseq + 1) 0 0 := by
  rw [commitCommand, h]
  exact if_neg (by simp [hcommit])

theorem cancelCommand_of_pending (h : s.cj.commit ≠ none) :
    cancelCommand s = (s.withCommit none).answered .ok s.jcnt 0 0 0 := if_pos (Option.isSome_iff_ne_none.mpr h)

theorem cancelCommand_of_none (h : s.cj.commit = none) :
    cancelCommand s = s.answered .noCommitPending s.jcnt 0 0 0 := if_neg (by simp [h])

end

/-- Settles O33, by the answers of the two commands. -/
theorem commitAndCancelCommands : Obligations.CommitAndCancelCommands := by
  refine ⟨fun s p hc => ?_, fun s p hc => ?_⟩
  · have hexec : exec .commit s = .next (commitCommand p s) := completion_of_commanded hc commitCommand
    rw [hexec]
    refine ⟨fun h => congrArg _ (commitCommand_of_bad (triggerOf_eq_none h p.p1)), fun trigger htrigger => ?_⟩
    have ht : triggerOf p.p0 p.p1 = some trigger := by
      rcases htrigger with ⟨hkind, rfl⟩ | ⟨hkind, rfl⟩ | ⟨hkind, rfl⟩ <;> rw [hkind] <;> rfl
    exact ⟨fun h => congrArg _ (commitCommand_of_pending ht h), fun h => congrArg _ (commitCommand_of_none ht h)⟩
  · have hexec : exec .cancel s = .next (cancelCommand s) := completion_of_commanded hc fun _ => cancelCommand
    rw [hexec]
    exact ⟨fun h => congrArg _ (cancelCommand_of_pending h), fun h => congrArg _ (cancelCommand_of_none h)⟩

/-! ### What falls due at a frame start -/

/-- The pending commit is due exactly where its trigger is met (R52, R54 to R56). -/
theorem applicationDue_iff (s : State) (e : FrameEvent) : s.applicationDue e = true ↔ s.triggerMetAt e := by
  unfold State.applicationDue CommitController.due State.triggerMetAt
  cases s.cj.commit with
  | none => simp
  | some t => cases t <;> simp [triggerMet]

theorem applicationDue_eq_false {s : State} {e : FrameEvent} (h : ¬s.triggerMetAt e) : s.applicationDue e = false :=
  Bool.eq_false_iff.mpr fun hdue => h ((applicationDue_iff s e).mp hdue)

/-- A record expires at a frame start exactly where it is HELD with a remaining count of 1 (R82). -/
theorem expires_iff (x : Reservation) : x.expires = true ↔ ∃ c, x = .held c ∧ c.remaining = 1 := by
  cases x with
  | free | bound => simp [Reservation.expires]
  | held c =>
    simp only [Reservation.expires, beq_iff_eq, sub_eq_zero, Reservation.held.injEq, exists_eq_left']

theorem expiryDue_iff (s : State) : s.sau.expiryDue = true ↔ ∃ r < 32, s.expiring r := by
  simp [SlotAllocation.expiryDue, expires_iff, State.expiring]

theorem EngineConfig.limit_eq {c : EngineConfig} (h : c.duration ≠ 0) :
    c.limit = some (c.duration.toNat * if c.unit = .seconds then 8000 else 1) := by
  rw [limit, if_neg h]
  cases c.unit with
  | frames => simp
  | seconds => rfl

/-- The duration test is that of R129. -/
theorem durationReached_iff (completed : Table Byte 10) (faulted : Bool) (e : Engine) :
    (engineWork completed faulted e).durationReached = true ↔ e.reachesDuration := by
  show (e.cfg.limit == some (satInc e.live.framesRun).toNat) = true ↔ _
  unfold Engine.reachesDuration
  by_cases h : e.cfg.duration = 0
  · simp [EngineConfig.limit, h]
  · rw [EngineConfig.limit_eq h, beq_iff_eq, Option.some.injEq, and_iff_right h]
    exact eq_comm

theorem workStart_completed {completed : Table Byte 10} {faulted : Bool} {e : Engine}
    (h : (workStart completed faulted e).outcome.getD .pathRemoved = .completed) : e.reachesDuration := by
  rw [← durationReached_iff completed faulted]
  by_contra hd
  simp [workStart, hd] at h

/-- A run ends COMPLETED at a frame start only where it is RUNNING and reaches its duration (R129, R131). -/
theorem engineStart_completed {completed : Table Byte 10} {faulted removed workFirst : Bool} {e : Engine}
    (h : (engineStart completed faulted removed workFirst e).outcome = some .completed) :
    e.run.isRunning = true ∧ e.reachesDuration := by
  unfold engineStart at h
  split at h
  · next hr =>
    refine ⟨hr, ?_⟩
    split at h
    · split at h
      · exact workStart_completed (Option.some.inj h)
      · cases h
    · exact workStart_completed (congrArg (·.getD .pathRemoved) h)
  · cases h

theorem frameStartMap_engine (e : FrameEvent) (s : State) (n : Nat) : (frameStartMap e s).engine n = s.engine n := by
  rw [State.engine, frameStartMap_te, State.engine]

theorem durationDue_reaches {e : FrameEvent} {s : State} (h : s.durationDue e = true) :
    ∃ n < 4, (s.engine n).run.isRunning = true ∧ (s.engine n).reachesDuration := by
  obtain ⟨n, hn, hout⟩ := List.any_eq_true.mp h
  have hreach := engineStart_completed (beq_iff_eq.mp hout)
  rw [frameStartMap_engine] at hreach
  exact ⟨n, List.mem_range.mp hn, hreach⟩

/-! ### The rows of a frame start (log 2) -/

/-- A row whose occasion is there is the whole frame start. -/
theorem taken_of_due {e : FrameEvent} {due : State → Bool} {s : State} (h : due s = true) :
    taken s (fun s => if due s then frameStart e s else s) = taken s (frameStart e) := by
  simp only [taken, h, if_true]

/-- A row whose occasion is not there changes nothing. -/
theorem taken_of_not_due {e : FrameEvent} {due : State → Bool} {s : State} (h : due s = false) :
    taken s (fun s => if due s then frameStart e s else s) = .next s := by
  simp [taken, h]

/-! ### What a frame start does to the map, the journal, the records and COMMIT_DONE -/

theorem frameStart_cj (e : FrameEvent) (s : State) :
    (frameStart e s).cj =
      if s.applicationDue e = true then
        { journal := [], commit := none, cseq := s.cj.cseq + 1, lcf := s.fcnt + 1 }
      else s.cj := by
  cases hdue : s.applicationDue e <;> simp [frameStart, frameStartMap, hdue, applyIf]

theorem frameStart_cm (e : FrameEvent) (s : State) :
    (frameStart e s).cm =
      if s.applicationDue e = true then { s.cm with active := applyJournal s.cm.active s.cj.journal } else s.cm := by
  cases hdue : s.applicationDue e <;> simp [frameStart, frameStartMap, hdue, applyIf, applyCommit]

theorem leaseCountdown_sau_congr {s u : State} (h : u.sau = s.sau) :
    (leaseCountdown u).sau = (leaseCountdown s).sau := by
  rw [leaseCountdown, leaseCountdown, raiseIf_sau, raiseIf_sau, h]

theorem leaseCountdown_recs (s : State) {r : Nat} (hr : r < 32) :
    (leaseCountdown s).sau.recs.get r = (s.sau.recs.get r).countDown := by
  rw [leaseCountdown, raiseIf_sau]
  exact Table.get_tabulate_of_lt (d := 5) (fun r => (s.sau.recs.get r).countDown) hr

/-- The records count down, and then an application frees those that are BOUND (R81, R82). -/
theorem frameStart_sau (e : FrameEvent) (s : State) :
    (frameStart e s).sau =
      if s.applicationDue e = true then (leaseCountdown s).sau.mapRecs Reservation.applied
      else (leaseCountdown s).sau := by
  have hcount := leaseCountdown_sau_congr
    (u := sampleSupervisors e.sf (takeIdleCode (completeFrames (updateHold e.cut (beginFrame e s))))) (s := s) (by simp)
  rw [frameStart, beginOutput_sau, startEngines_sau, frameStartMap, ← hcount]
  cases s.applicationDue e <;> rfl

/-! Flags below the sources that a part of the frame start raises -/

theorem flag_endRun_below (n : Nat) (o : RunOutcome) (s : State) {j : Nat} (hj : j < 3) :
    (endRun n o s).flag j = s.flag j := by
  have hsrc : ∀ k u, 3 ≤ k → (raise k u).flag j = u.flag j := by
    intro k u hk
    have hne : k ≠ j := by omega
    simp [flag_raise, hne]
  rcases endRun_cases n o s with ⟨c, r, -, -, ⟨-, h⟩ | ⟨-, h⟩⟩ | ⟨-, h⟩
  · rw [h]
    exact hsrc srcResultReady _ (by decide)
  · rw [h]
    exact hsrc srcResultBacklog _ (by decide)
  · rw [h]

theorem flag_endRunIf_below (o : Option RunOutcome) (n : Nat) (s : State) {j : Nat} (hj : j < 3) :
    (endRunIf o n s).flag j = s.flag j := by
  cases o with
  | none => rfl
  | some o => exact flag_endRun_below n o s hj

theorem flag_raiseSyncs_below (p : Nat → Bool) (s : State) {j : Nat} (hj : j < 6) :
    (raiseSyncs p s).flag j = s.flag j := by
  refine foldl_keeps (·.flag j) _ (fun s n => ?_) _ s
  have hne : srcSyncChange n ≠ j := by
    unfold srcSyncChange
    omega
  simp [flag_raiseIf, hne]

/-- The engines raise none of the sources 0 to 2. -/
theorem flag_startEngines_below (e : FrameEvent) (applied : Bool) (s : State) {j : Nat} (hj : j < 3) :
    (startEngines e applied s).flag j = s.flag j :=
  (foldl_keeps (·.flag j) _ (fun s n => flag_endRunIf_below _ n s hj) _ _).trans
    (flag_raiseSyncs_below _ _ (by omega))

theorem flag_leaseCountdown (s : State) (j : Nat) :
    (leaseCountdown s).flag j = (s.flag j || (s.sau.expiryDue && decide (2 = j))) := by
  rw [leaseCountdown, flag_raiseIf, decide_eq_true (show srcReservationExpired < 26 by decide), Bool.and_true]
  rfl

theorem flag_applyIf_commitDone (b : Bool) (s : State) : (applyIf b s).flag 1 = (s.flag 1 || b) := by
  cases b with
  | false => simp [applyIf]
  | true => simp [applyIf, applyCommit, flag_raise, srcCommitDone]

/-- COMMIT_DONE is raised by an application alone (R57). -/
theorem flag_frameStart_commitDone (e : FrameEvent) (s : State) :
    (frameStart e s).flag 1 = (s.flag 1 || s.applicationDue e) := by
  have hstart : (frameStart e s).flag 1 = (frameStartMap e s).flag 1 :=
    flag_startEngines_below e (s.applicationDue e) (frameStartMap e s) (by decide)
  rw [hstart, frameStartMap, flag_applyIf_commitDone, flag_leaseCountdown, sampleSupervisors,
    flag_raiseStreams_below _ _ (by decide)]
  simp [State.flag]

/-! ### The statements -/

/-- Under the journal law, an application makes the effective view the active map, and leaves it the effective one
(R57). -/
theorem frameStart_applies {s : State} {e : FrameEvent} (hlaw : s.JournalLaw) (hdue : s.applicationDue e = true)
    {i : Nat} (hi : i < 1024) :
    (frameStart e s).activeEntry i = s.effective i ∧ (frameStart e s).effective i = s.effective i := by
  obtain ⟨-, hjournal, hnodup, -⟩ := hlaw
  have hcm := frameStart_cm e s
  have hcj := frameStart_cj e s
  rw [if_pos hdue] at hcm hcj
  have hactive : (frameStart e s).activeEntry i = s.effective i := by
    rw [State.activeEntry, hcm]
    exact applyJournal_get hi s.cm.active hnodup fun x hx => (hjournal x hx).1
  refine ⟨hactive, ?_⟩
  rw [State.effective, hcj]
  exact hactive

/-- Settles O14, on the frame start at which the trigger is met. -/
theorem commitApplication : Obligations.CommitApplication := by
  refine ⟨fun e s h => taken_of_due (due := fun s => s.applicationDue e) ((applicationDue_iff s e).mpr h),
    fun e s c hr hlaw h hc => ?_⟩
  have hdue := (applicationDue_iff s e).mpr h
  refine ⟨frameStart e s, ?_, fun i hi => frameStart_applies hlaw hdue hi, ?_, frameStart_fcnt e s,
    frameStart_cm_fanout e s, fun r hr b hb => ?_, ?_⟩
  · rcases hc with rfl | rfl
    · exact taken_of_running hr _
    · exact (taken_of_due (due := fun s => s.applicationDue e) hdue).trans (taken_of_running hr _)
  · rw [frameStart_cj, if_pos hdue]
  · rw [frameStart_sau, if_pos hdue, mapRecs_get _ _ hr, leaseCountdown_recs s hr, hb]
    rfl
  · rw [flag_frameStart_commitDone, hdue, Bool.or_true]

/-- Settles O15, by what is due at the frame start. -/
theorem withoutTheirOccasion : Obligations.WithoutTheirOccasion := by
  refine ⟨fun e s hr h => ⟨frameStart e s, taken_of_running hr _, ?_, ?_, ?_⟩, fun e s => ⟨fun h => ?_, fun h => ?_,
    fun h => ?_⟩⟩
  · rw [frameStart_cj, if_neg (by simp [applicationDue_eq_false h])]
  · rw [frameStart_cm, if_neg (by simp [applicationDue_eq_false h])]
  · rw [flag_frameStart_commitDone, applicationDue_eq_false h, Bool.or_false]
  · refine taken_of_not_due (due := fun s => s.sau.expiryDue) (Bool.eq_false_iff.mpr fun hdue => ?_)
    obtain ⟨r, hlt, hexpiring⟩ := (expiryDue_iff s).mp hdue
    exact h r hlt hexpiring
  · exact taken_of_not_due (due := fun s => s.applicationDue e) (applicationDue_eq_false h)
  · refine taken_of_not_due (due := fun s => s.durationDue e) (Bool.eq_false_iff.mpr fun hdue => ?_)
    obtain ⟨n, hlt, hrunning, hreaches⟩ := durationDue_reaches hdue
    rcases h n hlt with hidle | hnot
    · rw [hidle] at hrunning
      cases hrunning
    · exact hnot hreaches

end Sys2Proof.Machine
end

