-- ==== Sys2Proof/Proofs/PendingJournal.lean ====
section
/-! The journal while a commit is PENDING (law 9, R45): what keeps it, and what empties it. -/

namespace Sys2Proof.Machine

/-! ### Events and completions that keep the journal -/

section
variable {s t : State}

theorem journal_of_taken {f : State → State} (h : taken s f = .next t)
    (hf : (f s).cj.journal = s.cj.journal) : t.cj.journal = s.cj.journal := by
  rcases taken_eq_next h with ⟨-, rfl⟩ | ⟨-, rfl⟩
  · exact hf
  · rfl

theorem journal_of_completion {code : Byte} {f : Params → State → State} (h : completion code s f = .next t)
    (hf : ∀ p, (f p s).cj.journal = s.cj.journal) : t.cj.journal = s.cj.journal := by
  rcases completion_cases h with ⟨p, -, rfl⟩ | ⟨-, rfl⟩
  · exact hf p
  · rfl

/-- A write to one word of a pair or a row of words, and a byte of one slot, fault where the place does not exist. -/
theorem journal_of_checked {P : Prop} [Decidable P] {f : State → State}
    (h : (if P then taken s f else .fault .noSuchPlace) = .next t) (hf : (f s).cj.journal = s.cj.journal) :
    t.cj.journal = s.cj.journal := by
  split at h
  · exact journal_of_taken h hf
  · cases h

theorem journal_of_resetNRelease {cause : ResetCause} (h : execResetNRelease cause true s = .next t) :
    t.cj.journal = s.cj.journal := by
  unfold execResetNRelease at h
  split at h
  · split at h
    · next hshort => simp at hshort
    · cases h
      rfl
  · cases h
    rfl

end

/-! ### Register writes -/

theorem journal_writeFolim (v : Word) (s : State) : (writeFolim v s).cj.journal = s.cj.journal := by
  unfold writeFolim
  split <;> rfl

theorem journal_writeWord (address : Nat) (v sf : Word) (s : State) :
    (writeWord address v sf s).cj.journal = s.cj.journal := by
  unfold writeWord
  split
  case h_1 => exact (SameMap.writeCmd v s).journal
  case h_8 => exact (SameMap.writeCmdstat v s).journal
  case h_10 => exact journal_writeFolim v s
  case h_11 => exact (SameMap.writeSven v s).journal
  case h_27 => exact (SameMap.writeIthr v s).journal
  case h_28 => exact (SameMap.inspectAt v sf s).journal
  all_goals rfl

theorem journal_busWrite (cycle : BusCycle) (address : Nat) (w : BusWord) (s : State) :
    (busWrite cycle address w s).cj.journal = s.cj.journal := by
  cases cycle with
  | whole => exact journal_writeWord address w.value w.sf s
  | endedEarly | bothStrobes => rfl

/-! ### Commands that are refused while a commit is PENDING -/

section
variable {s : State} (hcommit : s.cj.commit ≠ none)
include hcommit

theorem journal_stageChecked (plan : Option Plan) (tag : Word) (engine : Option Nat) :
    (stageChecked plan tag engine s).cj.journal = s.cj.journal := by
  unfold stageChecked
  split
  · rfl
  · rw [if_pos (Option.isSome_iff_ne_none.mpr hcommit)]
    rfl

theorem journal_disconnect (p : Params) : (disconnect p s).cj.journal = s.cj.journal := by
  unfold disconnect
  split
  · rw [if_pos (Option.isSome_iff_ne_none.mpr hcommit)]
    rfl
  · rfl

theorem journal_discardCommand : (discardCommand s).cj.journal = s.cj.journal := by
  rw [discardCommand_of_pending hcommit]
  rfl

end

/-! ### The law -/

/-- A commit that was PENDING is so no more, and the journal is empty. -/
def State.Emptied (t : State) : Prop := t.cj.journal = [] ∧ t.cj.commit = none

theorem journal_of_frameStart (e : FrameEvent) (s : State) :
    (frameStart e s).cj.journal = s.cj.journal ∨ ((frameStart e s).Emptied ∧ s.triggerMetAt e) := by
  unfold State.Emptied
  rw [frameStart_cj, ← applicationDue_iff]
  split
  · next hdue => exact Or.inr ⟨⟨rfl, rfl⟩, hdue⟩
  · exact Or.inl rfl

/-- A frame-start row applies the pending commit only if its trigger is met, and keeps the journal otherwise. -/
theorem journal_of_taken_frameStart {e : FrameEvent} {due : State → Bool} {s t : State}
    (h : taken s (fun s => if due s then frameStart e s else s) = .next t) :
    t.cj.journal = s.cj.journal ∨ (t.Emptied ∧ s.triggerMetAt e) := by
  rcases taken_eq_next h with ⟨-, rfl⟩ | ⟨-, rfl⟩
  · split
    · exact journal_of_frameStart e s
    · exact Or.inl rfl
  · exact Or.inl rfl

theorem journal_of_frameRow {c : Instr} {e : FrameEvent} {s t : State} (hc : c ∈ frameRows e)
    (h : exec c s = .next t) : t.cj.journal = s.cj.journal ∨ (t.Emptied ∧ s.triggerMetAt e) := by
  simp only [frameRows, List.mem_cons, List.not_mem_nil, or_false] at hc
  rcases hc with rfl | rfl | rfl | rfl
  · exact journal_of_taken_frameStart (due := fun _ => true) h
  · exact journal_of_taken_frameStart (due := fun s => s.sau.expiryDue) h
  · exact journal_of_taken_frameStart (due := fun s => s.applicationDue e) h
  · exact journal_of_taken_frameStart (due := fun s => s.durationDue e) h

theorem journal_of_softReset {s t : State} (h : exec .softReset s = .next t) :
    t.cj.journal = s.cj.journal ∨ t.Emptied := by
  rcases completion_cases (f := fun _ => softResetCommand) h with ⟨p, -, rfl⟩ | ⟨-, rfl⟩
  · exact Or.inr ⟨rfl, rfl⟩
  · exact Or.inl rfl

/-- The commands that can end the PENDING state together with the journal: the frame starts and the two resets. -/
def CanEmptyJournal (c : Instr) : Prop :=
  c = .softReset ∨ (∃ cause, c = .hardwareReset cause) ∨ ∃ e, c ∈ frameRows e

/-- Every other command keeps the journal while a commit is PENDING. -/
theorem journal_of_exec {c : Instr} {s t : State} (hc : c.isShortRelease = false) (hcommit : s.cj.commit ≠ none)
    (hother : ¬CanEmptyJournal c) (h : exec c s = .next t) : t.cj.journal = s.cj.journal := by
  cases c
  case frameStart e | leaseExpiry e | commitApplication e | durationExpiry e =>
    exact absurd (Or.inr (Or.inr ⟨e, by simp [frameRows]⟩)) hother
  case softReset => exact absurd (Or.inl rfl) hother
  case hardwareReset cause => exact absurd (Or.inr (Or.inl ⟨cause, rfl⟩)) hother
  case inputByteCapture stream slot b => exact journal_of_checked h (by rw [captureByte_cj])
  case outputSlotFormation stream slot => exact journal_of_checked h (by rw [formInOrder_cj])
  case connect =>
    exact journal_of_completion (f := fun p => stageChecked (connectPlan p) p.p5 none) h fun p =>
      journal_stageChecked hcommit ..
  case setConstant =>
    exact journal_of_completion (f := fun p => stageChecked (constantPlan p) p.p5 none) h fun p =>
      journal_stageChecked hcommit ..
  case setTest =>
    exact journal_of_completion (f := fun p => stageChecked (testPlan p) p.p5 (some p.p4.toNat)) h fun p =>
      journal_stageChecked hcommit ..
  case disconnect => exact journal_of_completion h (journal_disconnect hcommit)
  case discard =>
    exact journal_of_completion (f := fun _ => discardCommand) h fun _ => journal_discardCommand hcommit
  case commit => exact journal_of_completion h fun p => (SameMap.commitCommand p s).journal
  case cancel =>
    exact journal_of_completion (f := fun _ => cancelCommand) h fun _ => (SameMap.cancelCommand s).journal
  case reserve => exact journal_of_completion h fun p => (SameMap.reserveCommand p s).journal
  case hunt => exact journal_of_completion h fun p => (SameMap.huntCommand p s).journal
  case release => exact journal_of_completion h fun p => (SameMap.releaseCommand p s).journal
  case renew => exact journal_of_completion h fun p => (SameMap.renewCommand p s).journal
  case configureEngine => exact journal_of_completion h fun p => (SameMap.configureCommand p s).journal
  case start => exact journal_of_completion h fun p => (SameMap.startCommand p s).journal
  case stop => exact journal_of_completion h fun p => (SameMap.stopCommand p s).journal
  case inject => exact journal_of_completion h fun p => (SameMap.injectCommand p s).journal
  case snapshot => exact journal_of_completion h fun p => (SameMap.snapshotCommand p s).journal
  case pop =>
    exact journal_of_completion (f := fun _ => popCommand) h fun _ => (SameMap.popCommand s).journal
  case unknownCommand => exact journal_of_taken h (SameMap.unknownCompletion s).journal
  case commandOverrun v | commandTaken v => exact journal_of_taken h (SameMap.writeCmd v s).journal
  case overrunFlagClear v => exact journal_of_taken h (SameMap.writeCmdstat v s).journal
  case folimWrite v => exact journal_of_taken h (journal_writeFolim v s)
  case svenWrite v => exact journal_of_taken h (SameMap.writeSven v s).journal
  case ithrWrite v => exact journal_of_taken h (SameMap.writeIthr v s).journal
  case expfClear k v => exact journal_of_checked (f := writeExpf k v) h rfl
  case iflagClear k v => exact journal_of_checked (f := writeIflag k v) h rfl
  case imaskWrite k v => exact journal_of_checked (f := writeImask k v) h rfl
  case ilvlWrite k v => exact journal_of_checked (f := writeIlvl k v) h rfl
  case inspectSupervisor x sf => exact journal_of_taken h (SameMap.inspectAt _ _ s).journal
  case inspectInvalid w => exact journal_of_taken h (SameMap.inspectAt _ _ s).journal
  case registerWrite cycle a w => exact journal_of_taken h (journal_busWrite cycle a.toNat w s)
  case resetNRelease cause m =>
    obtain rfl : m = true := by simpa [Instr.isShortRelease] using hc
    exact journal_of_resetNRelease h
  case idlecWrite | svfrcWrite | svthrWrite | inspectActiveEntry | inspectEffectiveEntry | inspectJournal |
      inspectFanOut | inspectReservation | inspectEngineConfiguration | inspectLiveCounters | inspectSnapshot |
      inspectResultQueue | inspectHoldByte =>
    exact journal_of_taken h rfl

/-- Settles O51, by the commands that can empty the journal and those that cannot. -/
theorem pendingJournalIsFixed : Obligations.PendingJournalIsFixed := by
  intro c s t h hshort hcommit
  by_cases hc : CanEmptyJournal c
  · rcases hc with rfl | ⟨cause, rfl⟩ | ⟨e, hrow⟩
    · exact (journal_of_softReset h).imp_right fun ⟨hj, hnone⟩ => ⟨hj, hnone, Or.inl rfl⟩
    · cases h
      exact Or.inr ⟨rfl, rfl, Or.inr (Or.inl ⟨cause, rfl⟩)⟩
    · exact (journal_of_frameRow hrow h).imp_right fun ⟨⟨hj, hnone⟩, hmet⟩ =>
        ⟨hj, hnone, Or.inr (Or.inr ⟨e, hrow, hmet⟩)⟩
  · exact Or.inl (journal_of_exec hshort hcommit hc h)

end Sys2Proof.Machine
end

