-- ==== Sys2Proof/Proofs/ClaimCheck.lean ====
section
/-! The reservation check (R77): which records cover a slot, and what the check answers. -/

namespace Sys2Proof.Machine

/-! ### Records that cover a slot -/

section
variable {u : SlotAllocation} {p : Claim → Bool} {tag : Word} {slot r : Nat}

theorem coversWith_iff :
    u.coversWith p slot r = true ↔ ∃ c, (u.recs.get r).claim? = some c ∧ p c = true ∧ c.covers slot = true := by
  unfold SlotAllocation.coversWith
  cases (u.recs.get r).claim? with
  | none => simp
  | some c => simp

theorem coversWith_own : u.coversWith (fun c => c.tag == tag) slot r = true ↔ u.claims r tag slot := by
  simp [coversWith_iff, SlotAllocation.claims]

theorem coversWith_foreign :
    u.coversWith (fun c => c.tag != tag) slot r = true ↔ ∃ other, u.claims r other slot ∧ other ≠ tag := by
  rw [coversWith_iff]
  constructor
  · rintro ⟨c, hc, hne, hcov⟩
    exact ⟨c.tag, ⟨c, hc, rfl, hcov⟩, bne_iff_ne.mp hne⟩
  · rintro ⟨_, ⟨c, hc, rfl, hcov⟩, hne⟩
    exact ⟨c, hc, bne_iff_ne.mpr hne, hcov⟩

theorem coveringWith_eq_none : u.coveringWith p slot = none ↔ ∀ r < 32, ¬u.coversWith p slot r = true := by
  simp [SlotAllocation.coveringWith]

/-- The search for a covering record finds the lowest-numbered one. -/
theorem coveringWith_eq_some :
    u.coveringWith p slot = some r ↔
      r < 32 ∧ u.coversWith p slot r = true ∧ ∀ q < r, ¬u.coversWith p slot q = true := by
  unfold SlotAllocation.coveringWith
  rw [List.find?_range_eq_some, List.mem_range]
  simp only [Bool.not_eq_true', Bool.not_eq_true]
  tauto

theorem coveringWith_ne_none (hr : r < 32) (h : u.coversWith p slot r = true) : u.coveringWith p slot ≠ none :=
  fun hnone => coveringWith_eq_none.mp hnone r hr h

end

/-! ### Part 1 of the check -/

section
variable {u : SlotAllocation} {tag : Word} {slots : List Nat}

theorem foreignClaim_eq_none :
    foreignClaim u tag slots = none ↔ ∀ x ∈ slots, ∀ r < 32, ∀ other, u.claims r other x → other = tag := by
  simp only [foreignClaim, List.findSome?_eq_none_iff, Option.map_eq_none_iff, coveringWith_eq_none,
    coversWith_foreign, not_exists, not_and, not_not]

/-- Part 1 names the first target slot that a record of another tag covers. -/
theorem foreignClaim_of_first {t r : Nat} {pre post : List Nat} (hslots : slots = pre ++ t :: post)
    (hpre : ∀ x ∈ pre, ∀ r < 32, ∀ other, u.claims r other x → other = tag)
    (ht : u.coveringWith (fun c => c.tag != tag) t = some r) : foreignClaim u tag slots = some (t, r) := by
  have hnone : foreignClaim u tag pre = none := foreignClaim_eq_none.mpr hpre
  unfold foreignClaim at hnone ⊢
  rw [hslots, List.findSome?_append, hnone, Option.none_or, List.findSome?_cons, ht]
  rfl

/-! ### What the check answers -/

theorem claimCheck_of_foreign {t r : Nat} (h : foreignClaim u tag slots = some (t, r)) :
    claimCheck u tag slots = .slotReserved t r := by
  simp [claimCheck, h]

section
variable (hf : foreignClaim u tag slots = none)
include hf

theorem claimCheck_untagged (htag : tag = 0) : claimCheck u tag slots = .passed none := by
  simp only [claimCheck, hf, if_pos htag]

section
variable (htag : tag ≠ 0) {head : Nat} {rest : List Nat} (hslots : slots = head :: rest)
include htag hslots

theorem claimCheck_of_no_record (h : u.coveringWith (fun c => c.tag == tag) head = none) :
    claimCheck u tag slots = .notReserved head 32 := by
  subst hslots
  simp only [claimCheck, hf, if_neg htag, h]

section
variable {r : Nat} (hr : u.coveringWith (fun c => c.tag == tag) head = some r)
include hr

/-- The record of the head leaves a later target slot uncovered. -/
theorem claimCheck_of_gap {t : Nat}
    (h : (slots.find? fun t => !u.coversWith (fun c => c.tag == tag) t r) = some t) :
    claimCheck u tag slots = .notReserved t r := by
  subst hslots
  simp only [claimCheck, hf, if_neg htag, hr, h]

theorem claimCheck_of_cover (h : (slots.find? fun t => !u.coversWith (fun c => c.tag == tag) t r) = none) :
    claimCheck u tag slots = .passed (some r) := by
  subst hslots
  simp only [claimCheck, hf, if_neg htag, hr, h]

end
end
end

/-- Everything that is known where the check passes: no target slot is covered under another tag, and with a tag the
record found covers all of them. -/
theorem claimCheck_passed {record : Option Nat} (h : claimCheck u tag slots = .passed record) :
    (∀ x ∈ slots, ∀ r < 32, ∀ other, u.claims r other x → other = tag) ∧
      ((record = none ∧ (tag = 0 ∨ slots = [])) ∨
        ∃ r < 32, record = some r ∧ tag ≠ 0 ∧ ∀ x ∈ slots, u.claims r tag x) := by
  cases hf : foreignClaim u tag slots with
  | some tr =>
    rw [claimCheck_of_foreign (t := tr.1) (r := tr.2) hf] at h
    cases h
  | none =>
    refine ⟨foreignClaim_eq_none.mp hf, ?_⟩
    by_cases htag : tag = 0
    · rw [claimCheck_untagged hf htag] at h
      cases h
      exact Or.inl ⟨rfl, Or.inl htag⟩
    · cases hslots : slots with
      | nil =>
        subst hslots
        simp only [claimCheck, hf, if_neg htag] at h
        cases h
        exact Or.inl ⟨rfl, Or.inr rfl⟩
      | cons head rest =>
        rw [← hslots]
        cases hr : u.coveringWith (fun c => c.tag == tag) head with
        | none =>
          rw [claimCheck_of_no_record hf htag hslots hr] at h
          cases h
        | some r =>
          obtain ⟨hlt, -, -⟩ := coveringWith_eq_some.mp hr
          cases hall : slots.find? fun t => !u.coversWith (fun c => c.tag == tag) t r with
          | some t =>
            rw [claimCheck_of_gap hf htag hslots hr hall] at h
            cases h
          | none =>
            rw [claimCheck_of_cover hf htag hslots hr hall] at h
            cases h
            refine Or.inr ⟨r, hlt, rfl, htag, fun x hx => ?_⟩
            have := List.find?_eq_none.mp hall x hx
            exact coversWith_own.mp (by simpa using this)

end

/-- Settles O27, by the two parts of the check. -/
theorem reservationCheck : Obligations.ReservationCheck := by
  intro u tag slots
  refine ⟨fun t pre post hslots hpre ⟨q, hq, other, hclaim, hne⟩ => ?_, fun hown => ?_⟩
  · have hcovered := coveringWith_ne_none hq (coversWith_foreign.mpr ⟨other, hclaim, hne⟩)
    obtain ⟨r, hr⟩ := Option.ne_none_iff_exists'.mp hcovered
    obtain ⟨hlt, hcov, -⟩ := coveringWith_eq_some.mp hr
    obtain ⟨other, hclaim, hne⟩ := coversWith_foreign.mp hcov
    exact ⟨r, hlt, other, claimCheck_of_foreign (foreignClaim_of_first hslots hpre hr), hclaim, hne⟩
  · have hf := foreignClaim_eq_none.mpr hown
    refine ⟨claimCheck_untagged hf, fun htag head rest hslots => ⟨fun hnone => ?_, fun r hlt hclaim hlow => ?_⟩⟩
    · refine claimCheck_of_no_record hf htag hslots (coveringWith_eq_none.mpr fun r hr => ?_)
      rw [coversWith_own]
      exact hnone r hr
    · have hr : u.coveringWith (fun c => c.tag == tag) head = some r := by
        simp only [coveringWith_eq_some, coversWith_own]
        exact ⟨hlt, hclaim, hlow⟩
      refine ⟨fun hall => claimCheck_of_cover hf htag hslots hr (List.find?_eq_none.mpr fun x hx => ?_),
        fun t pre post hsplit hpre ht => claimCheck_of_gap hf htag hslots hr
          (List.find?_eq_some_iff_append.mpr ⟨?_, pre, post, hsplit, fun x hx => ?_⟩)⟩
      · simp [coversWith_own.mpr (hall x hx)]
      · rwa [Bool.not_eq_true', ← Bool.not_eq_true, coversWith_own]
      · simp [coversWith_own.mpr (hpre x hx)]

end Sys2Proof.Machine
end

