-- ==== Sys2Proof/Proofs/FreeSlots.lean ====
section
/-! Free slots and FREE records (R65, R67): the searches of RESERVE and HUNT. -/

namespace Sys2Proof.Machine

/-! ### Free slots -/

theorem coversWith_any {u : SlotAllocation} {slot r : Nat} :
    u.coversWith (fun _ => true) slot r = true ↔ ∃ tag, u.claims r tag slot := by
  simp [coversWith_iff, SlotAllocation.claims]

theorem covering_eq_none {u : SlotAllocation} {slot : Nat} :
    u.covering slot = none ↔ ∀ r < 32, ∀ tag, ¬u.claims r tag slot := by
  simp only [SlotAllocation.covering, coveringWith_eq_none, coversWith_any, not_exists]

/-- The record that `covering` names covers the slot. -/
theorem covering_some {u : SlotAllocation} {slot r : Nat} (h : u.covering slot = some r) :
    r < 32 ∧ ∃ tag, u.claims r tag slot := by
  obtain ⟨hlt, hcov, -⟩ := coveringWith_eq_some.mp h
  exact ⟨hlt, coversWith_any.mp hcov⟩

section
variable {s : State} {slot : Nat}

theorem isFree_iff :
    s.isFree slot = true ↔
      s.activeEntry slot = .idle ∧ s.effective slot = .idle ∧ ∀ r < 32, ∀ tag, ¬s.sau.claims r tag slot := by
  simp only [State.isFree, Bool.and_eq_true, beq_iff_eq, Option.isNone_iff_eq_none, covering_eq_none, and_assoc]

/-- A slot that is IDLE in the active map, has no journal entry and is not free is covered by a record. -/
theorem covering_ne_none (hactive : s.activeEntry slot = .idle) (hj : journalGet s.cj.journal slot = none)
    (hfree : s.isFree slot = false) : s.sau.covering slot ≠ none := by
  intro hnone
  have heff : s.effective slot = .idle := by rw [State.effective, hj, hactive, Option.getD_none]
  rw [isFree_iff.mpr ⟨hactive, heff, covering_eq_none.mp hnone⟩] at hfree
  cases hfree

/-! The reason for which RESERVE finds a slot busy (R69) -/

theorem busyReason_of_active (h : s.activeEntry slot ≠ .idle) : busyReason s slot = (1, 0) := if_pos h

theorem busyReason_of_journal (hactive : s.activeEntry slot = .idle) (hj : journalGet s.cj.journal slot ≠ none) :
    busyReason s slot = (2, 0) := by
  rw [busyReason, if_neg (not_not.mpr hactive), if_pos (Option.isSome_iff_ne_none.mpr hj)]

theorem busyReason_of_record (hactive : s.activeEntry slot = .idle) (hj : journalGet s.cj.journal slot = none)
    {r : Nat} (hr : s.sau.covering slot = some r) : busyReason s slot = (3, word r) := by
  rw [busyReason, if_neg (not_not.mpr hactive), hj, hr]
  rfl

end

/-! ### Runs of free slots -/

theorem firstNotFree_eq_none {s : State} {stream first w : Nat} :
    firstNotFree s stream first w = none ↔ ∀ k < w, s.isFree (64 * stream + first + k) = true := by
  simp [firstNotFree, flat]

/-- The first slot of a run that is not free. -/
theorem firstNotFree_eq_some {s : State} {stream first w k : Nat} (hk : k < w)
    (hpre : ∀ j < k, s.isFree (64 * stream + first + j) = true) (hbusy : s.isFree (64 * stream + first + k) = false) :
    firstNotFree s stream first w = some (64 * stream + first + k) := by
  rw [firstNotFree, List.find?_map, Option.map_eq_some_iff]
  refine ⟨k, List.find?_range_eq_some.mpr ⟨?_, List.mem_range.mpr hk, fun j hj => ?_⟩, rfl⟩
  · simp [flat, hbusy]
  · simp [flat, hpre j hj]

/-! ### FREE records -/

theorem lowestFree_eq_none {u : SlotAllocation} : u.lowestFree = none ↔ ∀ r < 32, u.recs.get r ≠ .free := by
  simp [SlotAllocation.lowestFree]

theorem lowestFree_eq_some {u : SlotAllocation} {r : Nat} :
    u.lowestFree = some r ↔ r < 32 ∧ u.recs.get r = .free ∧ ∀ q < r, u.recs.get q ≠ .free := by
  rw [SlotAllocation.lowestFree, List.find?_range_eq_some, List.mem_range]
  simp only [beq_iff_eq, Bool.not_eq_true', beq_eq_false_iff_ne]
  tauto

/-! ### The candidates of HUNT (R71) -/

/-- The run of `w` slots from slot `q` of stream `st` is a candidate of HUNT, and all its slots are free. -/
def State.Fits (s : State) (mask : Word) (start w a st q : Nat) : Prop :=
  st < 16 ∧ mask.getLsbD st = true ∧ start ≤ q ∧ a ∣ q ∧ q + w ≤ 64 ∧ ∀ k < w, s.isFree (64 * st + q + k) = true

section
variable {s : State} {mask : Word} {start w a st q : Nat}

/-- The search in one stream finds the first accepted candidate. -/
theorem find?_candidates :
    ((candidates start w a).find? fun q => accepted s st w q) =
      (List.range 64).find? fun q => (start ≤ q && q % a == 0 && q + w ≤ 64) && accepted s st w q := by
  simp only [candidates, List.find?_filter, Bool.decide_and, Bool.decide_eq_true]

theorem candidate_iff (hst : st < 16 ∧ mask.getLsbD st = true) :
    ((start ≤ q && q % a == 0 && q + w ≤ 64) && accepted s st w q) = true ↔ s.Fits mask start w a st q := by
  simp only [Bool.and_eq_true, decide_eq_true_eq, beq_iff_eq, accepted, Option.isNone_iff_eq_none,
    firstNotFree_eq_none, State.Fits, Nat.dvd_iff_mod_eq_zero, hst, true_and, and_assoc]

theorem State.Fits.slot_lt (hw : 1 ≤ w) (h : s.Fits mask start w a st q) : q < 64 := by
  obtain ⟨-, -, -, -, hfit, -⟩ := h
  omega

theorem find?_candidates_eq_none (hw : 1 ≤ w) (hst : st < 16 ∧ mask.getLsbD st = true) :
    ((candidates start w a).find? fun q => accepted s st w q) = none ↔ ∀ q, ¬s.Fits mask start w a st q := by
  rw [find?_candidates, List.find?_eq_none]
  simp only [candidate_iff hst, List.mem_range]
  exact ⟨fun h q hq => h q (hq.slot_lt hw) hq, fun h q _ => h q⟩

theorem find?_candidates_some (hst : st < 16 ∧ mask.getLsbD st = true)
    (h : ((candidates start w a).find? fun q => accepted s st w q) = some q) :
    s.Fits mask start w a st q ∧ ∀ q', s.Fits mask start w a st q' → q ≤ q' := by
  rw [find?_candidates, List.find?_range_eq_some] at h
  obtain ⟨hq, -, hlow⟩ := h
  refine ⟨(candidate_iff hst).mp hq, fun q' hq' => ?_⟩
  by_contra hlt
  have := hlow q' (Nat.not_le.mp hlt)
  rw [(candidate_iff hst).mpr hq'] at this
  cases this

end

/-- A search through the chosen numbers below `n` stops at the lowest one that answers. -/
theorem findSome?_filter_range {β : Type} {n : Nat} {p : Nat → Bool} {f : Nat → Option β} {b : β}
    (h : ((List.range n).filter p).findSome? f = some b) :
    ∃ i < n, p i = true ∧ f i = some b ∧ ∀ j < i, p j = true → f j = none := by
  obtain ⟨pre, i, post, hsplit, hi, hpre⟩ := List.findSome?_eq_some_iff.mp h
  have hmem : ∀ j, j ∈ pre ++ i :: post ↔ j < n ∧ p j = true := by
    intro j
    rw [← hsplit, List.mem_filter, List.mem_range]
  obtain ⟨hin, hip⟩ := (hmem i).mp (by simp)
  refine ⟨i, hin, hip, hi, fun j hj hjp => ?_⟩
  have hsorted : (pre ++ i :: post).Pairwise (· < ·) := hsplit ▸ List.pairwise_lt_range.filter p
  obtain ⟨-, hpost, -⟩ := List.pairwise_append.mp hsorted
  have hlater := (List.pairwise_cons.mp hpost).1
  rcases List.mem_append.mp ((hmem j).mpr ⟨by omega, hjp⟩) with hjpre | hjpost
  · exact hpre j hjpre
  · rcases List.mem_cons.mp hjpost with rfl | hjpost
    · omega
    · have := hlater j hjpost
      omega

section
variable {s : State} {mask : Word} {start w a : Nat} (hw : 1 ≤ w)
include hw

theorem huntSearch_eq_none :
    huntSearch s mask start w a = none ↔ ∀ st q, ¬s.Fits mask start w a st q := by
  simp only [huntSearch, List.findSome?_eq_none_iff, List.mem_filter, List.mem_range, Option.map_eq_none_iff]
  refine ⟨fun h st q hfit => ?_, fun h st hst => (find?_candidates_eq_none hw hst).mpr (h st)⟩
  have hst : st < 16 ∧ mask.getLsbD st = true := ⟨hfit.1, hfit.2.1⟩
  exact (find?_candidates_eq_none hw hst).mp (h st hst) q hfit

/-- HUNT finds the first fit in ascending stream and slot. -/
theorem huntSearch_some {st q : Nat} (h : huntSearch s mask start w a = some (st, q)) :
    s.Fits mask start w a st q ∧ ∀ st' q', s.Fits mask start w a st' q' → st < st' ∨ (st = st' ∧ q ≤ q') := by
  obtain ⟨i, hi, hmask, hfound, hlow⟩ := findSome?_filter_range h
  obtain ⟨q', hq', heq⟩ := Option.map_eq_some_iff.mp hfound
  cases heq
  obtain ⟨hfit, hfirst⟩ := find?_candidates_some ⟨hi, hmask⟩ hq'
  refine ⟨hfit, fun st' q' hfit' => ?_⟩
  have hst' : st' < 16 ∧ mask.getLsbD st' = true := ⟨hfit'.1, hfit'.2.1⟩
  rcases Nat.lt_trichotomy st st' with hlt | rfl | hlt
  · exact Or.inl hlt
  · exact Or.inr ⟨rfl, hfirst q' hfit'⟩
  · have hnone := hlow st' hlt hst'.2
    rw [Option.map_eq_none_iff, find?_candidates_eq_none hw hst'] at hnone
    exact absurd hfit' (hnone q')

/-- The first fit is the answer of HUNT's search. -/
theorem huntSearch_eq_some {st q : Nat} (hfit : s.Fits mask start w a st q)
    (hfirst : ∀ st' q', s.Fits mask start w a st' q' → st < st' ∨ (st = st' ∧ q ≤ q')) :
    huntSearch s mask start w a = some (st, q) := by
  cases hfound : huntSearch s mask start w a with
  | none => exact absurd hfit ((huntSearch_eq_none hw).mp hfound st q)
  | some found =>
    obtain ⟨st', q'⟩ := found
    obtain ⟨hfit', hfirst'⟩ := huntSearch_some hw hfound
    have h1 := hfirst st' q' hfit'
    have h2 := hfirst' st q hfit
    obtain ⟨rfl, rfl⟩ : st = st' ∧ q = q' := by omega
    rfl

end

/-! ### Legal parameters (R69, R70) -/

theorem claimTagOk_iff (tag : Word) : claimTagOk tag = true ↔ tag ≠ 0 ∧ tag.toNat ≤ 255 := by
  simp [claimTagOk]

theorem huntOk_iff (p : Params) :
    huntOk p = true ↔ p.p0 ≠ 0 ∧ 1 ≤ p.p2.toNat ∧ p.p2.toNat ≤ 16 ∧ p.p1.toNat ≤ 63 ∧
      alignmentField p.p4 ∈ [1, 2, 4, 8, 16] ∧ (p.p4.getLsbD 15 = true → claimTagOk p.p5 = true ∧ p.p3 ≠ 0) := by
  simp only [huntOk, alignmentOk, reserveField, Bool.and_eq_true, Bool.or_eq_true, Bool.not_eq_true',
    decide_eq_true_eq, List.mem_cons, List.not_mem_nil, or_false, and_assoc, or_assoc]
  cases p.p4.getLsbD 15 <;> simp

end Sys2Proof.Machine
end

