-- ==== Sys2Proof/Proofs/ClaimChanges.lean ====
section
/-! What a command can do to the reservation records: `ClaimChange` lists it, and every command makes one of its
changes. -/

namespace Sys2Proof.Machine

/-! ### Commands that leave the records and what they stand on alone -/

/-- `t` has the active map, the journal and the records of `s`. -/
structure SameClaims (s t : State) : Prop where
  active : t.cm.active = s.cm.active
  journal : t.cj.journal = s.cj.journal
  recs : t.sau.recs = s.sau.recs

theorem SameMap.sameClaims {s t : State} (h : SameMap s t) (hsau : t.sau = s.sau) : SameClaims s t :=
  ⟨by rw [h.cm], h.journal, by rw [hsau]⟩

section
variable (p : Params) (v : Word) (s : State)

theorem sau_commitCommand : (commitCommand p s).sau = s.sau := by
  unfold commitCommand
  split
  · rfl
  · split <;> rfl

theorem sau_cancelCommand : (cancelCommand s).sau = s.sau := by
  unfold cancelCommand
  split <;> rfl

theorem sau_configureCommand : (configureCommand p s).sau = s.sau := by
  unfold configureCommand
  dsimp only
  split
  · split
    · rfl
    · split <;> rfl
  · rfl

theorem sau_injectCommand : (injectCommand p s).sau = s.sau := by
  unfold injectCommand
  dsimp only
  split
  · split <;> rfl
  · rfl

theorem sau_startCommand : (startCommand p s).sau = s.sau := by
  unfold startCommand
  dsimp only
  split
  · split
    · split
      · rfl
      · rw [keepTail_eq_emit]
        rfl
    · rfl
  · rfl

theorem sau_stopCommand : (stopCommand p s).sau = s.sau := by
  unfold stopCommand
  dsimp only
  split
  · split
    · rw [complete_sau, endRun_sau]
    · rfl
  · rfl

theorem sau_snapshotCommand : (snapshotCommand p s).sau = s.sau := by
  unfold snapshotCommand
  dsimp only
  split <;> rfl

theorem sau_serveBacklog : (serveBacklog s).sau = s.sau := by
  unfold serveBacklog
  split <;> rfl

theorem sau_popCommand : (popCommand s).sau = s.sau := by
  unfold popCommand
  split
  · rfl
  · rw [complete_sau, sau_serveBacklog]

theorem sau_unknownCompletion : (unknownCompletion s).sau = s.sau := by
  unfold unknownCompletion
  split
  · split <;> rfl
  · rfl

theorem sau_writeCmd : (writeCmd v s).sau = s.sau := by
  unfold writeCmd
  split <;> rfl

theorem sau_writeCmdstat : (writeCmdstat v s).sau = s.sau := by
  unfold writeCmdstat
  split <;> rfl

theorem sau_writeSven : (writeSven v s).sau = s.sau := by
  rw [writeSven_eq]

theorem sau_writeIthr : (writeIthr v s).sau = s.sau := by
  unfold writeIthr
  split <;> rfl

end

namespace SameClaims

theorem refl (s : State) : SameClaims s s := ⟨rfl, rfl, rfl⟩

theorem answer (c : Completion) (r0 r1 r2 r3 : Word) (s : State) : SameClaims s (complete c r0 r1 r2 r3 s) :=
  ⟨rfl, rfl, rfl⟩

theorem writeFolim (v : Word) (s : State) : SameClaims s (writeFolim v s) := by
  unfold Machine.writeFolim
  split
  · exact ⟨rfl, rfl, rfl⟩
  · exact refl s

theorem writeWord (address : Nat) (v sf : Word) (s : State) : SameClaims s (writeWord address v sf s) := by
  unfold Machine.writeWord
  split
  case h_1 => exact (SameMap.writeCmd v s).sameClaims (sau_writeCmd v s)
  case h_8 => exact (SameMap.writeCmdstat v s).sameClaims (sau_writeCmdstat v s)
  case h_10 => exact writeFolim v s
  case h_11 => exact (SameMap.writeSven v s).sameClaims (sau_writeSven v s)
  case h_27 => exact (SameMap.writeIthr v s).sameClaims (sau_writeIthr v s)
  case h_28 => exact (SameMap.inspectAt v sf s).sameClaims (inspectAt_sau v sf s)
  all_goals exact ⟨rfl, rfl, rfl⟩

theorem busWrite (cycle : BusCycle) (address : Nat) (w : BusWord) (s : State) :
    SameClaims s (busWrite cycle address w s) := by
  cases cycle with
  | whole => exact writeWord address w.value w.sf s
  | endedEarly | bothStrobes => exact refl s

end SameClaims

/-! ### What a command can do -/

/-- What one record may become by RESERVE, HUNT, RELEASE and RENEW: FREE, the same claim with a fresh lease, or a new
claim over a run of free slots. -/
inductive State.Replaces (s : State) (r : Nat) : Reservation → Prop
  | freed : s.Replaces r .free
  | renewed {c : Claim} {lease : Word} (hold : s.sau.recs.get r = .held c) (hlease : lease ≠ 0) :
      s.Replaces r (.held { c with lease := lease, remaining := lease })
  | taken {c : Claim} (hok : c.Ok) (hfree : ∀ k < c.width, s.isFree (64 * c.stream + c.first + k) = true) :
      s.Replaces r (.held c)

/-- Everything that a command can do to the records. -/
inductive ClaimChange (s t : State) : Prop
  | same (h : SameClaims s t)
  | replaced {r : Nat} {x : Reservation} (hr : r < 32) (hx : s.Replaces r x) (hactive : t.cm.active = s.cm.active)
      (hj : t.cj.journal = s.cj.journal) (hrecs : t.sau.recs = s.sau.recs.set r x)
  | staged {plan : Plan} {tag : Word} {record : Option Nat} (hplan : (plan.map (·.1)).Nodup)
      (hclaim : claimCheck s.sau tag (plan.map (·.1)) = .passed record) (hactive : t.cm.active = s.cm.active)
      (hj : t.cj.journal = treatAll s.cm.active s.cj.journal plan) (hsau : t.sau = s.sau.bind t.cj.journal record)
  | dropped (hactive : t.cm.active = s.cm.active) (hj : t.cj.journal = [])
      (hsau : t.sau = s.sau.mapRecs Reservation.unbind)
  | frameStart (e : FrameEvent) (ht : t = frameStart e s)
  | freed (hrecs : ∀ r, t.sau.recs.get r = .free)

namespace ClaimChange

theorem answer (c : Completion) (r0 r1 r2 r3 : Word) (s : State) : ClaimChange s (complete c r0 r1 r2 r3 s) :=
  .same (.answer ..)

/-! RESERVE, HUNT, RELEASE and RENEW -/

/-- A new claim over a run of free slots, with a legal tag and a lease that is not 0. -/
theorem replaces_newClaim {s : State} {r stream first w : Nat} {tag lease : Word} (hstream : stream ≤ 15)
    (hw : 1 ≤ w ∧ w ≤ 16) (hfit : first + w ≤ 64) (htag : claimTagOk tag = true) (hlease : lease ≠ 0)
    (hfree : ∀ k < w, s.isFree (64 * stream + first + k) = true) :
    s.Replaces r (.held (newClaim stream first w tag lease)) := by
  obtain ⟨htag0, htag⟩ := (claimTagOk_iff tag).mp htag
  exact .taken ⟨hstream, hw.1, hw.2, hfit, htag0, htag, hlease, hlease⟩ hfree

theorem reserveCommand (p : Params) (s : State) : ClaimChange s (reserveCommand p s) := by
  unfold Machine.reserveCommand
  dsimp only
  split
  · next hlegal =>
    obtain ⟨hrun, htag, hlease⟩ := hlegal
    obtain ⟨hstream, hw1, hw16, hfit⟩ := (runOk_iff ..).mp hrun
    split
    · exact answer ..
    · next hfree =>
      split
      · exact answer ..
      · next r hr =>
        exact .replaced (lowestFree_eq_some.mp hr).1 (replaces_newClaim hstream ⟨hw1, hw16⟩ hfit htag hlease
          (firstNotFree_eq_none.mp hfree)) rfl rfl rfl
  · exact answer ..

theorem huntCommand (p : Params) (s : State) : ClaimChange s (huntCommand p s) := by
  unfold Machine.huntCommand
  split
  · next hlegal =>
    obtain ⟨-, hw1, hw16, -, -, hreserve⟩ := (huntOk_iff p).mp hlegal
    split
    · exact answer ..
    · next st q hfound =>
      split
      · next hreserved =>
        obtain ⟨htag, hlease⟩ := hreserve hreserved
        split
        · exact answer ..
        · next r hr =>
          obtain ⟨⟨hst, -, -, -, hfit, hfree⟩, -⟩ := huntSearch_some hw1 hfound
          exact .replaced (lowestFree_eq_some.mp hr).1 (replaces_newClaim (Nat.le_of_lt_succ hst) ⟨hw1, hw16⟩ hfit htag
            hlease hfree) rfl rfl rfl
      · exact answer ..
  · exact answer ..

theorem releaseCommand (p : Params) (s : State) : ClaimChange s (releaseCommand p s) := by
  unfold Machine.releaseCommand
  split
  · next hlegal =>
    split
    · exact answer ..
    · split <;> exact answer ..
    · split
      · exact answer ..
      · exact .replaced (Nat.lt_succ_of_le hlegal.1) .freed rfl rfl rfl
  · exact answer ..

theorem renewCommand (p : Params) (s : State) : ClaimChange s (renewCommand p s) := by
  unfold Machine.renewCommand
  split
  · next hlegal =>
    obtain ⟨hr, -, hlease⟩ := hlegal
    split
    · exact answer ..
    · split <;> exact answer ..
    · next c hheld =>
      split
      · exact answer ..
      · exact .replaced (Nat.lt_succ_of_le hr) (.renewed hheld hlease) rfl rfl rfl
  · exact answer ..

/-! Staging, DISCARD and SOFT RESET -/

theorem stage {plan : Plan} (hplan : (plan.map (·.1)).Nodup) (tag : Word) (needIdle : Bool) (engine : Option Nat)
    (s : State) : ClaimChange s (stage plan tag needIdle engine s) := by
  rcases stage_cases plan tag needIdle engine s with ⟨c, r1, r2, heq, -⟩ | ⟨record, hpass, heq⟩
  · rw [heq]
    exact answer ..
  · rw [heq]
    exact .staged hplan hpass.claim rfl rfl rfl

theorem stageChecked {s : State} {plan : Option Plan} {tag : Word} {engine : Option Nat}
    (h : ∀ l, plan = some l → ∃ head w e, ConnectionPlan l engine head w e) :
    ClaimChange s (stageChecked plan tag engine s) := by
  unfold Machine.stageChecked
  split
  · exact answer ..
  · next l =>
    split
    · exact answer ..
    · obtain ⟨head, w, e, hplan⟩ := h l rfl
      exact stage (hplan.plan_eq ▸ nodup_planOf ..) ..

theorem disconnect (p : Params) (s : State) : ClaimChange s (disconnect p s) := by
  unfold Machine.disconnect
  split
  · split
    · exact answer ..
    · dsimp only
      split
      · exact answer ..
      · split
        · exact answer ..
        · exact stage (nodup_planOf ..) ..
  · exact answer ..

theorem discardCommand (s : State) : ClaimChange s (discardCommand s) := by
  unfold Machine.discardCommand
  split
  · exact answer ..
  · exact .dropped rfl rfl rfl

theorem softResetCommand (s : State) : ClaimChange s (softResetCommand s) :=
  .freed fun r => Table.get_replicate 5 Reservation.free r

/-! Events and completions -/

theorem taken {f : State → State} (hf : ∀ s, ClaimChange s (f s)) {s t : State} (h : taken s f = .next t) :
    ClaimChange s t := by
  rcases taken_eq_next h with ⟨-, rfl⟩ | ⟨-, rfl⟩
  · exact hf s
  · exact .same (.refl _)

theorem completion {code : Byte} {f : Params → State → State} (hf : ∀ p s, ClaimChange s (f p s)) {s t : State}
    (h : completion code s f = .next t) : ClaimChange s t := by
  rcases completion_cases h with ⟨p, -, rfl⟩ | ⟨-, rfl⟩
  · exact hf p s
  · exact .same (.refl _)

/-- A frame-start row is the frame start where its occasion is there, and nothing otherwise (log 2). -/
theorem frameRow {e : FrameEvent} {due : State → Bool} {s t : State}
    (h : Machine.taken s (fun s => if due s then Machine.frameStart e s else s) = .next t) : ClaimChange s t := by
  refine taken (fun s => ?_) h
  split
  · exact .frameStart e rfl
  · exact .same (.refl s)

/-- A write to one word of a pair or a row of words, which faults where the word does not exist. -/
theorem wordWrite {P : Prop} [Decidable P] {f : State → State} (hf : ∀ s, SameClaims s (f s)) {s t : State}
    (h : (if P then Machine.taken s f else .fault .noSuchPlace) = .next t) : ClaimChange s t := by
  split at h
  · exact taken (fun s => .same (hf s)) h
  · cases h

theorem resetNRelease {cause : ResetCause} {s t : State} (h : execResetNRelease cause true s = .next t) :
    ClaimChange s t := by
  unfold execResetNRelease at h
  split at h
  · split at h
    · next hshort => simp at hshort
    · cases h
      exact .same ⟨rfl, rfl, rfl⟩
  · cases h
    exact .same (.refl _)

/-- Every command but a release after too short a reset makes one of these changes. -/
theorem of_exec {c : Instr} {s t : State} (hc : c.isShortRelease = false) (h : exec c s = .next t) :
    ClaimChange s t := by
  cases c with
  | frameStart e => exact taken (fun _ => .frameStart e rfl) h
  | leaseExpiry e => exact frameRow (due := fun s => s.sau.expiryDue) h
  | commitApplication e => exact frameRow (due := fun s => s.applicationDue e) h
  | durationExpiry e => exact frameRow (due := fun s => s.durationDue e) h
  | inputByteCapture stream slot b =>
    exact wordWrite (f := captureByte stream slot b)
      (fun _ => ⟨by rw [captureByte_cm], by rw [captureByte_cj], by rw [captureByte_sau]⟩) h
  | outputSlotFormation stream slot =>
    exact wordWrite (f := formInOrder stream slot)
      (fun _ => ⟨by rw [formInOrder_cm], by rw [formInOrder_cj], by rw [formInOrder_sau]⟩) h
  | connect =>
    exact completion (f := fun p => Machine.stageChecked (connectPlan p) p.p5 none)
      (fun _ _ => stageChecked fun _ h => ⟨_, _, connectPlan_some h⟩) h
  | setConstant =>
    exact completion (f := fun p => Machine.stageChecked (constantPlan p) p.p5 none)
      (fun _ _ => stageChecked fun _ h => ⟨_, _, constantPlan_some h⟩) h
  | setTest =>
    exact completion (f := fun p => Machine.stageChecked (testPlan p) p.p5 (some p.p4.toNat))
      (fun _ _ => stageChecked fun _ h => ⟨_, _, testPlan_some h⟩) h
  | disconnect => exact completion disconnect h
  | commit => exact completion (fun p s => .same ((SameMap.commitCommand p s).sameClaims (sau_commitCommand p s))) h
  | cancel => exact completion (fun _ s => .same ((SameMap.cancelCommand s).sameClaims (sau_cancelCommand s))) h
  | discard => exact completion (fun _ => discardCommand) h
  | reserve => exact completion reserveCommand h
  | hunt => exact completion huntCommand h
  | release => exact completion releaseCommand h
  | renew => exact completion renewCommand h
  | configureEngine =>
    exact completion (fun p s => .same ((SameMap.configureCommand p s).sameClaims (sau_configureCommand p s))) h
  | start => exact completion (fun p s => .same ((SameMap.startCommand p s).sameClaims (sau_startCommand p s))) h
  | stop => exact completion (fun p s => .same ((SameMap.stopCommand p s).sameClaims (sau_stopCommand p s))) h
  | inject => exact completion (fun p s => .same ((SameMap.injectCommand p s).sameClaims (sau_injectCommand p s))) h
  | snapshot =>
    exact completion (fun p s => .same ((SameMap.snapshotCommand p s).sameClaims (sau_snapshotCommand p s))) h
  | pop => exact completion (fun _ s => .same ((SameMap.popCommand s).sameClaims (sau_popCommand s))) h
  | softReset => exact completion (fun _ => softResetCommand) h
  | unknownCommand =>
    exact taken (fun s => .same ((SameMap.unknownCompletion s).sameClaims (sau_unknownCompletion s))) h
  | commandOverrun v | commandTaken v =>
    exact taken (fun s => .same ((SameMap.writeCmd v s).sameClaims (sau_writeCmd v s))) h
  | overrunFlagClear v =>
    exact taken (fun s => .same ((SameMap.writeCmdstat v s).sameClaims (sau_writeCmdstat v s))) h
  | folimWrite v => exact taken (fun s => .same (.writeFolim v s)) h
  | svenWrite v => exact taken (fun s => .same ((SameMap.writeSven v s).sameClaims (sau_writeSven v s))) h
  | ithrWrite v => exact taken (fun s => .same ((SameMap.writeIthr v s).sameClaims (sau_writeIthr v s))) h
  | expfClear k v => exact wordWrite (f := writeExpf k v) (fun _ => ⟨rfl, rfl, rfl⟩) h
  | iflagClear k v => exact wordWrite (f := writeIflag k v) (fun _ => ⟨rfl, rfl, rfl⟩) h
  | imaskWrite k v => exact wordWrite (f := writeImask k v) (fun _ => ⟨rfl, rfl, rfl⟩) h
  | ilvlWrite k v => exact wordWrite (f := writeIlvl k v) (fun _ => ⟨rfl, rfl, rfl⟩) h
  | inspectSupervisor x sf =>
    exact taken (fun s => .same ((SameMap.inspectAt _ _ s).sameClaims (inspectAt_sau _ _ s))) h
  | inspectInvalid w => exact taken (fun s => .same ((SameMap.inspectAt _ _ s).sameClaims (inspectAt_sau _ _ s))) h
  | registerWrite cycle a w => exact taken (fun s => .same (.busWrite cycle a.toNat w s)) h
  | hardwareReset cause =>
    cases h
    exact .freed reset_recs
  | resetNRelease cause m =>
    obtain rfl : m = true := by simpa [Instr.isShortRelease] using hc
    exact resetNRelease h
  | idlecWrite | svfrcWrite | svthrWrite | inspectActiveEntry | inspectEffectiveEntry | inspectJournal | inspectFanOut |
    inspectReservation | inspectEngineConfiguration | inspectLiveCounters | inspectSnapshot | inspectResultQueue |
    inspectHoldByte =>
    refine taken (fun _ => .same ?_) h
    exact ⟨rfl, rfl, rfl⟩

end ClaimChange

end Sys2Proof.Machine
end

