-- ==== Sys2Proof/Proofs/ReservationLaw.lean ====
section
/-! The reservation law (laws 4, 5 and 6) through every change of the records, the map and the journal. -/

namespace Sys2Proof.Machine

/-! ### The law, record by record -/

/-- A HELD or BOUND record covers the slot. -/
def Reservation.Covers (x : Reservation) (slot : Nat) : Prop := ∃ c, x.claim? = some c ∧ c.covers slot = true

/-- What the law asks of one record, beside the others. -/
structure Reservation.OkOn (active : Table Entry 10) (j : List JournalEntry) (x : Reservation) : Prop where
  ok : ∀ c, x.claim? = some c → c.Ok
  idle : ∀ slot, x.Covers slot → active.get slot = .idle
  held : ∀ c, x = .held c → c.inJournal j = false
  bound : ∀ c, x = .bound c → c.inJournal j = true

/-- The reservation law reads the active map, the journal and the records. -/
structure RecordsOk (active : Table Entry 10) (j : List JournalEntry) (recs : Table Reservation 5) : Prop where
  each : ∀ r < 32, (recs.get r).OkOn active j
  apart : ∀ r < 32, ∀ q < 32, r ≠ q → ∀ slot, (recs.get r).Covers slot → ¬(recs.get q).Covers slot

theorem reservationLaw_iff (s : State) : s.ReservationLaw ↔ RecordsOk s.cm.active s.cj.journal s.sau.recs := by
  constructor
  · rintro ⟨hclaim, hheld, hbound, hapart⟩
    refine ⟨fun r hr => ⟨fun c hc => (hclaim r hr c hc).1, ?_, hheld r hr, hbound r hr⟩, ?_⟩
    · rintro slot ⟨c, hc, hcov⟩
      exact (hclaim r hr c hc).2 slot hcov
    · rintro r hr q hq hne slot ⟨c, hc, hcov⟩ ⟨c', hc', hcov'⟩
      exact hapart r hr q hq c c' hne hc hc' slot ⟨hcov, hcov'⟩
  · rintro ⟨heach, hapart⟩
    refine ⟨fun r hr c hc => ⟨(heach r hr).ok c hc, fun slot hcov => (heach r hr).idle slot ⟨c, hc, hcov⟩⟩,
      fun r hr => (heach r hr).held, fun r hr => (heach r hr).bound, ?_⟩
    rintro r hr q hq c c' hne hc hc' slot ⟨hcov, hcov'⟩
    exact hapart r hr q hq hne slot ⟨c, hc, hcov⟩ ⟨c', hc', hcov'⟩

theorem claims_covers {u : SlotAllocation} {r slot : Nat} {tag : Word} (h : u.claims r tag slot) :
    (u.recs.get r).Covers slot := by
  obtain ⟨c, hc, -, hcov⟩ := h
  exact ⟨c, hc, hcov⟩

theorem claims_of_covers {u : SlotAllocation} {r slot : Nat} {c : Claim} (hc : (u.recs.get r).claim? = some c)
    (hcov : c.covers slot = true) : u.claims r c.tag slot := ⟨c, hc, rfl, hcov⟩

/-! ### Slots that a claim covers -/

theorem Claim.covers_iff {c : Claim} (hfit : c.first + c.width ≤ 64) {slot : Nat} :
    c.covers slot = true ↔ ∃ k < c.width, slot = 64 * c.stream + c.first + k := by
  simp only [Claim.covers, Bool.and_eq_true, beq_iff_eq, decide_eq_true_eq]
  unfold streamOf slotOf
  constructor
  · rintro ⟨⟨hstream, hlo⟩, hhi⟩
    exact ⟨slot % 64 - c.first, by omega, by omega⟩
  · rintro ⟨k, hk, rfl⟩
    omega

theorem Claim.Ok.slot_lt {c : Claim} (h : c.Ok) {slot : Nat} (hcov : c.covers slot = true) : slot < 1024 := by
  obtain ⟨hstream, -, -, hfit, -⟩ := h
  obtain ⟨k, hk, rfl⟩ := (Claim.covers_iff hfit).mp hcov
  omega

theorem Claim.inJournal_iff {c : Claim} {j : List JournalEntry} :
    c.inJournal j = true ↔ ∃ slot, c.covers slot = true ∧ journalGet j slot ≠ none := by
  rw [Claim.inJournal, List.any_eq_true]
  constructor
  · rintro ⟨e, he, hcov⟩
    refine ⟨e.slot, hcov, fun hnone => ?_⟩
    exact (journalGet_eq_none j e.slot).mp hnone (List.mem_map_of_mem he)
  · rintro ⟨slot, hcov, hsome⟩
    obtain ⟨x, hx⟩ := Option.ne_none_iff_exists'.mp hsome
    exact ⟨_, mem_of_journalGet hx, hcov⟩

theorem Claim.inJournal_eq_false {c : Claim} {j : List JournalEntry} :
    c.inJournal j = false ↔ ∀ slot, c.covers slot = true → journalGet j slot = none := by
  rw [← Bool.not_eq_true, Claim.inJournal_iff]
  push Not
  exact Iff.rfl

theorem Claim.inJournal_congr {c : Claim} {j j' : List JournalEntry}
    (h : ∀ slot, c.covers slot = true → journalGet j' slot = journalGet j slot) : c.inJournal j' = c.inJournal j := by
  rw [Bool.eq_iff_iff, Claim.inJournal_iff, Claim.inJournal_iff]
  exact exists_congr fun slot => and_congr_right fun hcov => by rw [h slot hcov]

/-! ### One record -/

section
variable {active : Table Entry 10} {j : List JournalEntry} {x : Reservation} {c : Claim}

theorem Reservation.not_covers_free (slot : Nat) : ¬Reservation.free.Covers slot := by
  rintro ⟨c, hc, -⟩
  cases hc

theorem Reservation.covers_held {slot : Nat} : (Reservation.held c).Covers slot ↔ c.covers slot = true := by
  simp [Covers, claim?]

theorem Reservation.covers_bound {slot : Nat} : (Reservation.bound c).Covers slot ↔ c.covers slot = true := by
  simp [Covers, claim?]

theorem okOn_free (active : Table Entry 10) (j : List JournalEntry) : Reservation.free.OkOn active j :=
  ⟨nofun, fun slot h => absurd h (Reservation.not_covers_free slot), nofun, nofun⟩

theorem okOn_held (hok : c.Ok) (hidle : ∀ slot, c.covers slot = true → active.get slot = .idle)
    (hj : c.inJournal j = false) : (Reservation.held c).OkOn active j := by
  refine ⟨?_, fun slot h => hidle slot (Reservation.covers_held.mp h), ?_, nofun⟩
  · rintro _ ⟨⟩
    exact hok
  · rintro _ ⟨⟩
    exact hj

theorem okOn_bound (hok : c.Ok) (hidle : ∀ slot, c.covers slot = true → active.get slot = .idle)
    (hj : c.inJournal j = true) : (Reservation.bound c).OkOn active j := by
  refine ⟨?_, fun slot h => hidle slot (Reservation.covers_bound.mp h), nofun, ?_⟩
  · rintro _ ⟨⟩
    exact hok
  · rintro _ ⟨⟩
    exact hj

/-- A claim with another lease and remaining count, neither of them 0. -/
theorem Claim.Ok.withLease (h : c.Ok) {lease remaining : Word} (hlease : lease ≠ 0) (hremaining : remaining ≠ 0) :
    ({ c with lease := lease, remaining := remaining } : Claim).Ok := by
  obtain ⟨hstream, hw1, hw16, hfit, htag0, htag, -, -⟩ := h
  exact ⟨hstream, hw1, hw16, hfit, htag0, htag, hlease, hremaining⟩

theorem Claim.Ok.fit (h : c.Ok) : c.first + c.width ≤ 64 := by
  obtain ⟨-, -, -, hfit, -⟩ := h
  exact hfit

theorem Claim.Ok.lease_ne_zero (h : c.Ok) : c.lease ≠ 0 := by
  obtain ⟨-, -, -, -, -, -, hlease, -⟩ := h
  exact hlease

theorem Claim.Ok.tag_ne_zero (h : c.Ok) : c.tag ≠ 0 := by
  obtain ⟨-, -, -, -, htag, -⟩ := h
  exact htag

/-- A HELD record with another lease and remaining count covers the same slots (R75, R82). -/
theorem Reservation.OkOn.withLease (h : (Reservation.held c).OkOn active j) {lease remaining : Word}
    (hlease : lease ≠ 0) (hremaining : remaining ≠ 0) :
    (Reservation.held { c with lease := lease, remaining := remaining }).OkOn active j :=
  okOn_held ((h.ok c rfl).withLease hlease hremaining) (fun slot hcov => h.idle slot ⟨c, rfl, hcov⟩) (h.held c rfl)

theorem countDown_held (c : Claim) :
    (Reservation.held c).countDown =
      if c.remaining - 1 = 0 then .free else .held { c with remaining := c.remaining - 1 } := rfl

theorem Reservation.OkOn.countDown (h : x.OkOn active j) : x.countDown.OkOn active j := by
  cases x with
  | free | bound => exact h
  | held c =>
    rw [countDown_held]
    split
    · exact okOn_free active j
    · next hne => exact h.withLease (h.ok c rfl).lease_ne_zero hne

theorem Reservation.covers_countDown {slot : Nat} (h : x.countDown.Covers slot) : x.Covers slot := by
  cases x with
  | free | bound => exact h
  | held c =>
    rw [countDown_held] at h
    split at h
    · exact absurd h (not_covers_free slot)
    · have hcov := covers_held.mp h
      exact covers_held.mpr hcov

/-- An empty journal leaves no record BOUND (R80). -/
theorem Reservation.OkOn.unbind (h : x.OkOn active j) : x.unbind.OkOn active [] := by
  cases x with
  | free => exact okOn_free active []
  | held c => exact okOn_held (h.ok c rfl) (fun slot hcov => h.idle slot ⟨c, rfl, hcov⟩) rfl
  | bound c =>
    have hok := h.ok c rfl
    exact okOn_held (hok.withLease hok.lease_ne_zero hok.lease_ne_zero) (fun slot hcov => h.idle slot ⟨c, rfl, hcov⟩)
      rfl

theorem Reservation.covers_unbind {slot : Nat} (h : x.unbind.Covers slot) : x.Covers slot := by
  cases x with
  | free | held => exact h
  | bound c =>
    obtain ⟨_, ⟨⟩, hcov⟩ := h
    exact covers_bound.mpr hcov

/-- The application of a commit changes no slot that a HELD record covers (R57, R81). -/
theorem Reservation.OkOn.applied (hjournal : JournalOk active j) (h : x.OkOn active j) :
    x.applied.OkOn (applyJournal active j) [] := by
  cases x with
  | free | bound => exact okOn_free _ _
  | held c =>
    refine okOn_held (h.ok c rfl) (fun slot hcov => ?_) rfl
    have hnone := Claim.inJournal_eq_false.mp (h.held c rfl) slot hcov
    obtain ⟨-, hentries, hnodup, -⟩ := hjournal
    rw [applyJournal_get ((h.ok c rfl).slot_lt hcov) active hnodup fun e he => (hentries e he).1, viewOf, hnone,
      Option.getD_none]
    exact h.idle slot ⟨c, rfl, hcov⟩

theorem Reservation.covers_applied {slot : Nat} (h : x.applied.Covers slot) : x.Covers slot := by
  cases x with
  | free | held => exact h
  | bound c => exact absurd h (not_covers_free slot)

/-- The binding of R79 decides HELD or BOUND by the new journal. -/
theorem Reservation.OkOn.rebind (h : x.OkOn active j) (j' : List JournalEntry) : (rebind j' x).OkOn active j' := by
  cases x with
  | free => exact okOn_free active j'
  | held c =>
    have hidle : ∀ slot, c.covers slot = true → active.get slot = .idle := fun slot hcov => h.idle slot ⟨c, rfl, hcov⟩
    unfold Machine.rebind
    dsimp only
    split
    · next hj => exact okOn_bound (h.ok c rfl) hidle hj
    · next hj => exact okOn_held (h.ok c rfl) hidle (Bool.eq_false_iff.mpr hj)
  | bound c =>
    have hidle : ∀ slot, c.covers slot = true → active.get slot = .idle := fun slot hcov => h.idle slot ⟨c, rfl, hcov⟩
    have hok := h.ok c rfl
    unfold Machine.rebind
    dsimp only
    split
    · next hj => exact okOn_bound hok hidle hj
    · next hj =>
      exact okOn_held (hok.withLease hok.lease_ne_zero hok.lease_ne_zero) hidle (Bool.eq_false_iff.mpr hj)

theorem Reservation.covers_rebind {j' : List JournalEntry} {slot : Nat} (h : (rebind j' x).Covers slot) :
    x.Covers slot := by
  cases x with
  | free => exact h
  | held c | bound c =>
    obtain ⟨c', hc', hcov⟩ := h
    unfold Machine.rebind at hc'
    dsimp only at hc'
    split at hc' <;> cases hc' <;> exact ⟨c, rfl, hcov⟩

/-- A journal that agrees with the old one on the record's slots. -/
theorem Reservation.OkOn.congr {j' : List JournalEntry} (h : x.OkOn active j)
    (hj : ∀ slot, x.Covers slot → journalGet j' slot = journalGet j slot) : x.OkOn active j' := by
  refine ⟨h.ok, h.idle, fun c hc => ?_, fun c hc => ?_⟩
  · subst hc
    rw [Claim.inJournal_congr fun slot hcov => hj slot (covers_held.mpr hcov)]
    exact h.held c rfl
  · subst hc
    rw [Claim.inJournal_congr fun slot hcov => hj slot (covers_bound.mpr hcov)]
    exact h.bound c rfl

end

/-! ### All records -/

section
variable {active : Table Entry 10} {j : List JournalEntry} {recs : Table Reservation 5}

/-- Records that cover no more than before stay apart. -/
theorem RecordsOk.shrink (h : RecordsOk active j recs) {active' : Table Entry 10} {j' : List JournalEntry}
    {recs' : Table Reservation 5} (heach : ∀ r < 32, (recs'.get r).OkOn active' j')
    (hsub : ∀ r < 32, ∀ slot, (recs'.get r).Covers slot → (recs.get r).Covers slot) : RecordsOk active' j' recs' :=
  ⟨heach, fun r hr q hq hne slot hcov hcov' =>
    h.apart r hr q hq hne slot (hsub r hr slot hcov) (hsub q hq slot hcov')⟩

theorem recs_get_set {r q : Nat} (hr : r < 32) (hq : q < 32) (recs : Table Reservation 5) (x : Reservation) :
    (recs.set r x).get q = if r = q then x else recs.get q := by
  rw [Table.get_set]
  exact if_congr (by omega) rfl rfl

/-- One record replaced by one that stands apart from the others. -/
theorem RecordsOk.set (h : RecordsOk active j recs) {r : Nat} (hr : r < 32) {x : Reservation}
    (hx : x.OkOn active j) (hapart : ∀ q < 32, r ≠ q → ∀ slot, x.Covers slot → ¬(recs.get q).Covers slot) :
    RecordsOk active j (recs.set r x) := by
  refine ⟨fun q hq => ?_, fun q hq q' hq' hne slot => ?_⟩
  · rw [recs_get_set hr hq]
    split
    · exact hx
    · exact h.each q hq
  · rw [recs_get_set hr hq, recs_get_set hr hq']
    split
    · next hrq =>
      rw [if_neg (hrq ▸ hne)]
      exact hapart q' hq' (hrq ▸ hne) slot
    · next hrq =>
      split
      · exact fun hcov hcov' => hapart q hq hrq slot hcov' hcov
      · exact h.apart q hq q' hq' hne slot

end

/-! ### Every change keeps the law -/

/-- A free slot has no journal entry: none that differs from its active entry, which is IDLE. -/
theorem journalGet_of_isFree {s : State} (hlaw : s.JournalLaw) {slot : Nat} (h : s.isFree slot = true) :
    journalGet s.cj.journal slot = none := by
  obtain ⟨hactive, heff, -⟩ := isFree_iff.mp h
  obtain ⟨-, hentries, -⟩ := hlaw
  cases hx : journalGet s.cj.journal slot with
  | none => rfl
  | some x =>
    obtain ⟨-, -, hne⟩ := hentries _ (mem_of_journalGet hx)
    rw [State.effective, hx, Option.getD_some] at heff
    exact absurd (heff.trans hactive.symm) hne

theorem keeps_of_replaced {s : State} (hlaw : s.JournalLaw) (h : RecordsOk s.cm.active s.cj.journal s.sau.recs)
    {r : Nat} (hr : r < 32) {x : Reservation} (hx : s.Replaces r x) :
    RecordsOk s.cm.active s.cj.journal (s.sau.recs.set r x) := by
  cases hx with
  | freed => exact h.set hr (okOn_free _ _) fun _ _ _ slot hcov => absurd hcov (Reservation.not_covers_free slot)
  | @renewed c lease hold hlease =>
    have hsame : ∀ slot, (Reservation.held { c with lease := lease, remaining := lease }).Covers slot →
        (s.sau.recs.get r).Covers slot := by
      intro slot hcov
      have hcov := Reservation.covers_held.mp hcov
      rw [hold]
      exact Reservation.covers_held.mpr hcov
    have hok := h.each r hr
    rw [hold] at hok
    exact h.set hr (hok.withLease hlease hlease) fun q hq hne slot hcov => h.apart r hr q hq hne slot (hsame slot hcov)
  | @taken c hok hfree =>
    have hslots : ∀ slot, c.covers slot = true → s.isFree slot = true := by
      intro slot hcov
      obtain ⟨k, hk, rfl⟩ := (Claim.covers_iff hok.fit).mp hcov
      exact hfree k hk
    refine h.set hr (okOn_held hok (fun slot hcov => (isFree_iff.mp (hslots slot hcov)).1)
      (Claim.inJournal_eq_false.mpr fun slot hcov => journalGet_of_isFree hlaw (hslots slot hcov))) ?_
    rintro q hq - slot hcov ⟨c', hc', hcov'⟩
    obtain ⟨-, -, hnone⟩ := isFree_iff.mp (hslots slot (Reservation.covers_held.mp hcov))
    exact hnone q hq _ (claims_of_covers hc' hcov')

theorem journalGet_treatAll_other {active : Table Entry 10} {j : List JournalEntry} {plan : Plan}
    (hplan : (plan.map (·.1)).Nodup) {slot : Nat} (h : slot ∉ plan.map (·.1)) :
    journalGet (treatAll active j plan) slot = journalGet j slot := by
  have hnone : plan.find? (fun p => p.1 == slot) = none := by
    rw [List.find?_eq_none]
    intro p hp hslot
    exact h (List.mem_map.mpr ⟨p, hp, by simpa using hslot⟩)
  rw [journalGet_treatAll active plan j hplan slot, hnone]

/-- A record that the claim check did not find covers no target slot: it would have another tag, or share the slot with
the record found. -/
theorem not_target_of_covers {u : SlotAllocation} {active : Table Entry 10} {j : List JournalEntry}
    (h : RecordsOk active j u.recs) {tag : Word} {slots : List Nat} {record : Option Nat}
    (hclaim : claimCheck u tag slots = .passed record) {q : Nat} (hq : q < 32) (hne : record ≠ some q) {slot : Nat}
    (hcov : (u.recs.get q).Covers slot) : slot ∉ slots := by
  intro hmem
  obtain ⟨hown, hrecord⟩ := claimCheck_passed hclaim
  obtain ⟨c, hc, hcc⟩ := hcov
  have htag : c.tag = tag := hown slot hmem q hq c.tag (claims_of_covers hc hcc)
  rcases hrecord with ⟨-, rfl | rfl⟩ | ⟨r, hr, rfl, -, hall⟩
  · exact ((h.each q hq).ok c hc).tag_ne_zero htag
  · cases hmem
  · exact h.apart r hr q hq (fun hrq => hne (hrq ▸ rfl)) slot (claims_covers (hall slot hmem)) ⟨c, hc, hcc⟩

theorem bind_recs_get {u : SlotAllocation} {j : List JournalEntry} {record : Option Nat}
    (hrecord : ∀ r, record = some r → r < 32) {q : Nat} (hq : q < 32) :
    (u.bind j record).recs.get q = if record = some q then rebind j (u.recs.get q) else u.recs.get q := by
  cases record with
  | none => rfl
  | some r =>
    rw [SlotAllocation.bind, recs_get_set (hrecord r rfl) hq]
    by_cases hrq : r = q
    · subst hrq
      simp
    · simp [hrq]

theorem claimCheck_record_lt {u : SlotAllocation} {tag : Word} {slots : List Nat} {record : Option Nat}
    (h : claimCheck u tag slots = .passed record) : ∀ r, record = some r → r < 32 := by
  rintro r rfl
  obtain ⟨-, ⟨hnone, -⟩ | ⟨q, hq, heq, -⟩⟩ := claimCheck_passed h
  · cases hnone
  · cases heq
    exact hq

/-- A staging command binds its record, and its target slots are no other record's. -/
theorem keeps_of_staged {active : Table Entry 10} {j : List JournalEntry} {u : SlotAllocation}
    (h : RecordsOk active j u.recs) {plan : Plan} (hplan : (plan.map (·.1)).Nodup) {tag : Word} {record : Option Nat}
    (hclaim : claimCheck u tag (plan.map (·.1)) = .passed record) :
    RecordsOk active (treatAll active j plan) (u.bind (treatAll active j plan) record).recs := by
  refine h.shrink (fun q hq => ?_) fun q hq slot => ?_ <;> rw [bind_recs_get (claimCheck_record_lt hclaim) hq] <;> split
  · exact (h.each q hq).rebind _
  · next hne =>
    exact (h.each q hq).congr fun slot hcov =>
      journalGet_treatAll_other hplan (not_target_of_covers h hclaim hq hne hcov)
  · exact Reservation.covers_rebind
  · exact id

theorem keeps_of_mapRecs {active active' : Table Entry 10} {j j' : List JournalEntry} {u : SlotAllocation}
    (h : RecordsOk active j u.recs) {f : Reservation → Reservation}
    (hf : ∀ x : Reservation, x.OkOn active j → (f x).OkOn active' j')
    (hcov : ∀ (x : Reservation) slot, (f x).Covers slot → x.Covers slot) :
    RecordsOk active' j' (u.mapRecs f).recs := by
  refine h.shrink (fun r hr => ?_) fun r hr slot => ?_ <;> rw [mapRecs_get u f hr]
  · exact hf _ (h.each r hr)
  · exact hcov _ slot

theorem leaseCountdown_mapRecs (s : State) :
    (leaseCountdown s).sau.recs = (s.sau.mapRecs Reservation.countDown).recs := by
  rw [leaseCountdown, raiseIf_sau]
  rfl

theorem keeps_of_frameStart {s : State} (e : FrameEvent) (hlaw : s.JournalLaw)
    (h : RecordsOk s.cm.active s.cj.journal s.sau.recs) :
    RecordsOk (frameStart e s).cm.active (frameStart e s).cj.journal (frameStart e s).sau.recs := by
  have hcount : RecordsOk s.cm.active s.cj.journal (leaseCountdown s).sau.recs := by
    rw [leaseCountdown_mapRecs]
    exact keeps_of_mapRecs h (fun _ hx => hx.countDown) fun _ _ => Reservation.covers_countDown
  rw [frameStart_cm, frameStart_cj, frameStart_sau]
  split
  · exact keeps_of_mapRecs hcount (fun _ hx => hx.applied ((journalLaw_iff s).mp hlaw)) fun _ _ =>
      Reservation.covers_applied
  · exact hcount

theorem ClaimChange.keeps_reservationLaw {s t : State} (h : ClaimChange s t) (hlaw : s.JournalLaw)
    (hs : s.ReservationLaw) : t.ReservationLaw := by
  rw [reservationLaw_iff] at hs ⊢
  cases h with
  | same h =>
    rw [h.active, h.journal, h.recs]
    exact hs
  | replaced hr hx hactive hj hrecs =>
    rw [hactive, hj, hrecs]
    exact keeps_of_replaced hlaw hs hr hx
  | staged hplan hclaim hactive hj hsau =>
    rw [hsau, hactive, hj]
    exact keeps_of_staged hs hplan hclaim
  | dropped hactive hj hsau =>
    rw [hactive, hj, hsau]
    exact keeps_of_mapRecs hs (fun _ hx => hx.unbind) fun _ _ => Reservation.covers_unbind
  | frameStart e ht =>
    rw [ht]
    exact keeps_of_frameStart e hlaw hs
  | freed hrecs =>
    refine ⟨fun r _ => ?_, fun r _ q _ _ slot hcov => ?_⟩
    · rw [hrecs]
      exact okOn_free _ _
    · rw [hrecs] at hcov
      exact absurd hcov (Reservation.not_covers_free slot)

/-- Settles O57: the journal law by O54, and the reservation law by what the command does to the records. -/
theorem stepKeepsTheReservationLaws : Obligations.StepKeepsTheReservationLaws := by
  intro s t hshort hlaw hs h
  obtain ⟨hshort', hlaw'⟩ := stepKeepsTheJournalLaw s t hshort hlaw h
  refine ⟨hshort', hlaw', ?_⟩
  unfold step at h
  split at h
  · cases h
    exact hs
  · next c rest hpending =>
    have hc : c.isShortRelease = false := hshort c (by simp [hpending])
    exact (ClaimChange.of_exec hc h).keeps_reservationLaw hlaw hs

end Sys2Proof.Machine
end

