-- ==== Sys2Proof/Proofs/ReservationCommands.lean ====
section
/-! The answers of RESERVE, HUNT, RELEASE and RENEW (R69 to R75). -/

namespace Sys2Proof.Machine

/-! ### RESERVE -/

section
variable {s : State} {p : Params}

/-- The parameters that RESERVE takes (R69). -/
def Params.ReserveLegal (p : Params) : Prop :=
  runOk (streamField p.p0) (slotField p.p0) p.p2.toNat = true ∧ claimTagOk p.p5 = true ∧ p.p3 ≠ 0

theorem reserveLegal_iff (p : Params) :
    p.ReserveLegal ↔ streamField p.p0 ≤ 15 ∧ 1 ≤ p.p2.toNat ∧ p.p2.toNat ≤ 16 ∧ slotField p.p0 + p.p2.toNat ≤ 64 ∧
      p.p5 ≠ 0 ∧ p.p5.toNat ≤ 255 ∧ p.p3 ≠ 0 := by
  rw [Params.ReserveLegal, runOk_iff, claimTagOk_iff]
  simp only [and_assoc]

theorem reserveCommand_of_bad (h : ¬p.ReserveLegal) : reserveCommand p s = s.answered .badParameter 0 0 0 0 :=
  if_neg h

section
variable (hlegal : p.ReserveLegal)
include hlegal

theorem reserveCommand_of_busy {t : Nat}
    (h : firstNotFree s (streamField p.p0) (slotField p.p0) p.p2.toNat = some t) :
    reserveCommand p s = s.answered .slotsBusy 0 (word t) (busyReason s t).1 (busyReason s t).2 := by
  unfold Params.ReserveLegal at hlegal
  simp only [reserveCommand, if_pos hlegal, h]
  rfl

variable (hfree : firstNotFree s (streamField p.p0) (slotField p.p0) p.p2.toNat = none)
include hfree

theorem reserveCommand_of_full (h : s.sau.lowestFree = none) :
    reserveCommand p s = s.answered .reservationsFull 0 0 0 0 := by
  unfold Params.ReserveLegal at hlegal
  simp only [reserveCommand, if_pos hlegal, hfree, h]
  rfl

theorem reserveCommand_of_record {r : Nat} (h : s.sau.lowestFree = some r) :
    reserveCommand p s =
      (s.setRec r (.held (newClaim (streamField p.p0) (slotField p.p0) p.p2.toNat p.p5 p.p3))).answered .ok (word r)
        (word (64 * streamField p.p0 + slotField p.p0)) 0 0 := by
  unfold Params.ReserveLegal at hlegal
  simp only [reserveCommand, if_pos hlegal, hfree, h]
  rfl

end

/-- Why a slot is not free, in the order of R69. -/
theorem busyReason_cases {slot : Nat} (hfree : s.isFree slot = false) :
    (s.activeEntry slot ≠ .idle → busyReason s slot = (1, 0)) ∧
    (s.activeEntry slot = .idle →
      (journalGet s.cj.journal slot ≠ none → busyReason s slot = (2, 0)) ∧
      (journalGet s.cj.journal slot = none →
        ∃ r < 32, ∃ tag, busyReason s slot = (3, word r) ∧ s.sau.claims r tag slot)) := by
  refine ⟨busyReason_of_active, fun hactive => ⟨busyReason_of_journal hactive, fun hj => ?_⟩⟩
  obtain ⟨r, hr⟩ := Option.ne_none_iff_exists'.mp (covering_ne_none hactive hj hfree)
  obtain ⟨hlt, tag, hclaim⟩ := covering_some hr
  exact ⟨r, hlt, tag, busyReason_of_record hactive hj hr, hclaim⟩

end

/-! ### HUNT -/

section
variable {s : State} {p : Params}

theorem huntCommand_of_bad (h : ¬huntOk p = true) : huntCommand p s = s.answered .badParameter 0 0 0 0 := if_neg h

section
variable (hlegal : huntOk p = true)
include hlegal

theorem huntCommand_of_none (h : huntSearch s p.p0 p.p1.toNat p.p2.toNat (alignmentField p.p4) = none) :
    huntCommand p s = s.answered .noneFree 0 0 0 0 := by
  simp only [huntCommand, if_pos hlegal, h]
  rfl

variable {st q : Nat} (hfound : huntSearch s p.p0 p.p1.toNat p.p2.toNat (alignmentField p.p4) = some (st, q))
include hfound

theorem huntCommand_of_found (h : p.p4.getLsbD 15 = false) :
    huntCommand p s = s.answered .ok (word st) (word q) (word (64 * st + q)) 0xFFFF := by
  simp only [huntCommand, if_pos hlegal, hfound, reserveField, h]
  rfl

variable (hreserve : p.p4.getLsbD 15 = true)
include hreserve

theorem huntCommand_of_full (h : s.sau.lowestFree = none) :
    huntCommand p s = s.answered .reservationsFull 0 0 0 0 := by
  simp only [huntCommand, if_pos hlegal, hfound, reserveField, hreserve, if_true, h]
  rfl

theorem huntCommand_of_record {r : Nat} (h : s.sau.lowestFree = some r) :
    huntCommand p s =
      (s.setRec r (.held (newClaim st q p.p2.toNat p.p5 p.p3))).answered .ok (word st) (word q) (word (64 * st + q))
        (word r) := by
  simp only [huntCommand, if_pos hlegal, hfound, reserveField, hreserve, if_true, h]
  rfl

end
end

/-! ### RELEASE and RENEW -/

section
variable {s : State} {p : Params}

/-- The parameters that RELEASE takes (R74). -/
def Params.ReleaseLegal (p : Params) : Prop := p.p0.toNat ≤ 31 ∧ claimTagOk p.p5 = true

/-- The parameters that RENEW takes (R75). -/
def Params.RenewLegal (p : Params) : Prop := p.p0.toNat ≤ 31 ∧ claimTagOk p.p5 = true ∧ p.p3 ≠ 0

/-- The refusals of RELEASE and RENEW on a record that is not HELD under the command's tag, in their order. -/
def RefusedByRecord (s : State) (p : Params) (t : State) : Prop :=
  (s.sau.recs.get p.p0.toNat = .free → t = s.answered .notReserved p.p0 0 0 0) ∧
  (∀ c, (s.sau.recs.get p.p0.toNat).claim? = some c → c.tag ≠ p.p5 → t = s.answered .tagMismatch p.p0 0 0 0) ∧
  (∀ c, s.sau.recs.get p.p0.toNat = .bound c → c.tag = p.p5 → t = s.answered .bound p.p0 0 0 0)

theorem releaseCommand_of_bad (h : ¬p.ReleaseLegal) : releaseCommand p s = s.answered .badParameter p.p0 0 0 0 :=
  if_neg h

theorem renewCommand_of_bad (h : ¬p.RenewLegal) : renewCommand p s = s.answered .badParameter p.p0 0 0 0 := if_neg h

/-- A record with a claim is HELD or BOUND. -/
theorem claim?_eq_some {x : Reservation} {c : Claim} : x.claim? = some c ↔ x = .held c ∨ x = .bound c := by
  cases x <;> simp [Reservation.claim?]

/-- What RELEASE and RENEW share: they refuse a record that is not HELD under the command's tag, and go on to `ok` on
one that is. -/
def onOwnRecord (p : Params) (ok : Claim → State) (s : State) : State :=
  match s.sau.recs.get p.p0.toNat with
  | .free => s.answered .notReserved p.p0 0 0 0
  | .bound c =>
    if c.tag ≠ p.p5 then s.answered .tagMismatch p.p0 0 0 0 else s.answered .bound p.p0 0 0 0
  | .held c => if c.tag ≠ p.p5 then s.answered .tagMismatch p.p0 0 0 0 else ok c

theorem releaseCommand_of_legal (hlegal : p.ReleaseLegal) :
    releaseCommand p s = onOwnRecord p (fun _ => (s.setRec p.p0.toNat .free).answered .ok p.p0 0 0 0) s :=
  if_pos hlegal

theorem renewCommand_of_legal (hlegal : p.RenewLegal) :
    renewCommand p s = onOwnRecord p (fun c => (s.setRec p.p0.toNat (.held { c with
      lease := p.p3, remaining := p.p3 })).answered .ok p.p0 p.p3 0 0) s := if_pos hlegal

theorem onOwnRecord_refused (ok : Claim → State) : RefusedByRecord s p (onOwnRecord p ok s) := by
  unfold RefusedByRecord onOwnRecord
  refine ⟨fun hx => ?_, fun c hc htag => ?_, fun c hx htag => ?_⟩
  · rw [hx]
  · rcases claim?_eq_some.mp hc with hx | hx <;> rw [hx] <;> exact if_pos htag
  · rw [hx]
    exact if_neg (not_not.mpr htag)

theorem onOwnRecord_of_held (ok : Claim → State) {c : Claim} (hx : s.sau.recs.get p.p0.toNat = .held c)
    (htag : c.tag = p.p5) : onOwnRecord p ok s = ok c := by
  rw [onOwnRecord, hx]
  exact if_neg (not_not.mpr htag)

end

end Sys2Proof.Machine

namespace Sys2Proof.Proofs

open Sys2Proof.Machine

/-- Settles O35, by the answers of RESERVE. -/
theorem reserveCommand : Obligations.ReserveCommand := by
  rintro s p stream first w hc rfl rfl rfl
  have hexec : exec .reserve s = .next (Machine.reserveCommand p s) :=
    completion_of_commanded hc Machine.reserveCommand
  rw [hexec]
  refine ⟨fun hbad => congrArg _ (reserveCommand_of_bad fun hlegal => ?_),
    fun hstream hw1 hw16 hfit htag0 htag hlease => ?_⟩
  · obtain ⟨hstream, hw1, hw16, hfit, htag0, htag, hlease⟩ := (reserveLegal_iff p).mp hlegal
    simp only [htag0, hlease, or_false, false_or] at hbad
    omega
  have hlegal := (reserveLegal_iff p).mpr ⟨hstream, hw1, hw16, hfit, htag0, htag, hlease⟩
  refine ⟨fun k hk hpre hbusy => ?_, fun hfree => ⟨fun hfull => ?_, fun r hr hx hlow => ?_⟩⟩
  · obtain ⟨hactive, hidle⟩ := busyReason_cases hbusy
    refine ⟨_, _, congrArg _ (reserveCommand_of_busy hlegal (firstNotFree_eq_some hk hpre hbusy)), fun h => ?_,
      fun h => ⟨fun hj => ?_, fun hj => ?_⟩⟩
    · rw [hactive h]
      exact ⟨rfl, rfl⟩
    · rw [(hidle h).1 hj]
      exact ⟨rfl, rfl⟩
    · obtain ⟨r, hr, tag, hreason, hclaim⟩ := (hidle h).2 hj
      rw [hreason]
      exact ⟨rfl, r, hr, tag, rfl, hclaim⟩
  · exact congrArg _ (reserveCommand_of_full hlegal (firstNotFree_eq_none.mpr hfree) (lowestFree_eq_none.mpr hfull))
  · exact congrArg _ (reserveCommand_of_record hlegal (firstNotFree_eq_none.mpr hfree)
      (lowestFree_eq_some.mpr ⟨hr, hx, hlow⟩))

/-- Settles O36, by the answers of HUNT. -/
theorem huntCommand : Obligations.HuntCommand := by
  rintro s p w a fits hc rfl rfl hfits
  have hexec : exec .hunt s = .next (Machine.huntCommand p s) := completion_of_commanded hc Machine.huntCommand
  rw [hexec]
  refine ⟨fun hbad => congrArg _ (huntCommand_of_bad fun hlegal => ?_), fun hmask hw1 hw16 hstart halign hreserve => ?_⟩
  · obtain ⟨hmask, hw1, hw16, hstart, halign, hreserve⟩ := (huntOk_iff p).mp hlegal
    rcases hbad with h | h | h | h | h | ⟨hbit, h⟩
    · exact hmask h
    · omega
    · omega
    · omega
    · exact h halign
    · obtain ⟨htag, hlease⟩ := hreserve hbit
      obtain ⟨htag0, htag⟩ := (claimTagOk_iff _).mp htag
      rcases h with h | h | h
      · exact htag0 h
      · omega
      · exact hlease h
  have hlegal : huntOk p = true := (huntOk_iff p).mpr ⟨hmask, hw1, hw16, hstart, halign, fun hbit =>
    have ⟨htag0, htag, hlease⟩ := hreserve hbit
    ⟨(claimTagOk_iff _).mpr ⟨htag0, htag⟩, hlease⟩⟩
  have hfits : ∀ st q, fits st q ↔ s.Fits p.p0 p.p1.toNat p.p2.toNat (alignmentField p.p4) st q := hfits
  simp only [hfits]
  refine ⟨fun hnone => congrArg _ (huntCommand_of_none hlegal ((huntSearch_eq_none hw1).mpr hnone)),
    fun st q hfit hfirst => ?_⟩
  have hfound := huntSearch_eq_some hw1 hfit hfirst
  exact ⟨fun hbit => congrArg _ (huntCommand_of_found hlegal hfound hbit), fun hbit =>
    ⟨fun hfull => congrArg _ (huntCommand_of_full hlegal hfound hbit (lowestFree_eq_none.mpr hfull)),
      fun r hr hx hlow => congrArg _
        (huntCommand_of_record hlegal hfound hbit (lowestFree_eq_some.mpr ⟨hr, hx, hlow⟩))⟩⟩

/-- Settles O37, by the answers of the two commands. -/
theorem releaseAndRenewCommands : Obligations.ReleaseAndRenewCommands := by
  intro s p i code hmem hc
  simp only [List.mem_cons, Prod.mk.injEq, List.not_mem_nil, or_false] at hmem
  rcases hmem with ⟨rfl, rfl⟩ | ⟨rfl, rfl⟩
  · have hexec : exec .release s = .next (releaseCommand p s) := completion_of_commanded hc releaseCommand
    rw [hexec]
    refine ⟨fun hbad => congrArg _ (releaseCommand_of_bad ?_), fun hr htag0 htag _ => ?_⟩
    · rintro ⟨hr, htag⟩
      obtain ⟨htag0, htag⟩ := (claimTagOk_iff _).mp htag
      rcases hbad with h | h | h | ⟨⟨⟩, -⟩
      · omega
      · exact htag0 h
      · omega
    · rw [releaseCommand_of_legal ⟨hr, (claimTagOk_iff _).mpr ⟨htag0, htag⟩⟩]
      obtain ⟨hfree, hmismatch, hbound⟩ := onOwnRecord_refused (s := s) (p := p) _
      exact ⟨fun h => congrArg _ (hfree h), fun c h htag => congrArg _ (hmismatch c h htag),
        fun c h htag => congrArg _ (hbound c h htag),
        fun c h htag => ⟨fun _ => congrArg _ (onOwnRecord_of_held _ h htag), nofun⟩⟩
  · have hexec : exec .renew s = .next (renewCommand p s) := completion_of_commanded hc renewCommand
    rw [hexec]
    refine ⟨fun hbad => congrArg _ (renewCommand_of_bad ?_), fun hr htag0 htag hlease => ?_⟩
    · rintro ⟨hr, htag, hlease⟩
      obtain ⟨htag0, htag⟩ := (claimTagOk_iff _).mp htag
      rcases hbad with h | h | h | ⟨-, h⟩
      · omega
      · exact htag0 h
      · omega
      · exact hlease h
    · rw [renewCommand_of_legal ⟨hr, (claimTagOk_iff _).mpr ⟨htag0, htag⟩, hlease rfl⟩]
      obtain ⟨hfree, hmismatch, hbound⟩ := onOwnRecord_refused (s := s) (p := p) _
      exact ⟨fun h => congrArg _ (hfree h), fun c h htag => congrArg _ (hmismatch c h htag),
        fun c h htag => congrArg _ (hbound c h htag),
        fun c h htag => ⟨nofun, fun _ => congrArg _ (onOwnRecord_of_held _ h htag)⟩⟩

end Sys2Proof.Proofs
end

