-- ==== Sys2Proof/Proofs/BindingAndLeases.lean ====
section
/-! The records through a staging command that completes with OK (R79), and through a frame start (R82, R83). -/

namespace Sys2Proof.Machine

/-! ### A staging command that completes with OK -/

/-- A staging command on the slots `head` to `head + w − 1` has passed its checks and leads from `s` to `t`. -/
structure StagedOk (tag : Word) (head w : Nat) (s t : State) (record : Option Nat) : Prop where
  width_pos : 1 ≤ w
  claim : claimCheck s.sau tag ((List.range w).map (head + ·)) = .passed record
  sau : t.sau = s.sau.bind t.cj.journal record

section
variable {s : State} {tag : Word} {engine : Option Nat}

theorem stagedOk_of_code {head w : Nat} {entry : Nat → Entry} {needIdle : Bool} (hw : 1 ≤ w)
    (h : (stage (planOf head w entry) tag needIdle engine s).ce.code = .ok) :
    ∃ record, StagedOk tag head w s (stage (planOf head w entry) tag needIdle engine s) record := by
  rcases stage_cases (planOf head w entry) tag needIdle engine s with ⟨c, r1, r2, heq, hc⟩ | ⟨record, hpass, heq⟩
  · rw [heq] at h
    exact absurd h hc
  · rw [heq]
    have hclaim := hpass.claim
    rw [map_fst_planOf] at hclaim
    exact ⟨record, hw, hclaim, rfl⟩

theorem stagedOk_of_stageChecked {plan : Option Plan} {head w : Nat}
    (hplan : ∀ l, plan = some l → ∃ e, ConnectionPlan l engine head w e)
    (h : (stageChecked plan tag engine s).ce.code = .ok) :
    ∃ record, StagedOk tag head w s (stageChecked plan tag engine s) record := by
  cases plan with
  | none => cases h
  | some l =>
    obtain ⟨e, he⟩ := hplan l rfl
    by_cases hcommit : s.cj.commit = none
    · rw [stageChecked_of_plan hcommit, he.plan_eq] at h ⊢
      exact stagedOk_of_code he.headAt.run.1 h
    · rw [stageChecked, if_pos (Option.isSome_iff_ne_none.mpr hcommit)] at h
      cases h

theorem stagedOk_of_disconnect {p : Params} {w : Nat} (hlaw : s.JournalLaw)
    (hplace : (s.effective p.target).place? = some (w, 0)) (h : (disconnect p s).ce.code = .ok) :
    ∃ record, StagedOk p.p5 p.target w s (disconnect p s) record := by
  by_cases hlegal : streamField p.p0 ≤ 15 ∧ slotField p.p0 ≤ 63 ∧ tagOk p.p5 = true
  · obtain ⟨hstream, hslot, htag⟩ := hlegal
    rw [tagOk_iff] at htag
    by_cases hcommit : s.cj.commit = none
    · rw [disconnect_of_head hstream hslot htag hcommit hplace] at h ⊢
      exact stagedOk_of_code (hlaw.headAt (target_lt hstream hslot) hplace).run.1 h
    · rw [disconnect_of_pending hstream hslot htag hcommit] at h
      cases h
  · rw [disconnect, if_neg hlegal] at h
    cases h

end

/-- The four staging commands. -/
theorem stagedOk_of_exec {s t : State} {i : Instr} {code : Byte} {p : Params} {w : Nat} (hlaw : s.JournalLaw)
    (hi : (i, code) ∈ stagings) (hc : s.Commanded code p) (hexec : exec i s = .next t) (hok : t.ce.code = .ok)
    (hw : i ≠ .disconnect → w = p.p2.toNat)
    (hplace : i = .disconnect → (s.effective p.target).place? = some (w, 0)) :
    ∃ record, StagedOk p.p5 p.target w s t record := by
  simp only [stagings, List.mem_cons, Prod.mk.injEq, List.not_mem_nil, or_false] at hi
  rcases hi with ⟨rfl, rfl⟩ | ⟨rfl, rfl⟩ | ⟨rfl, rfl⟩ | ⟨rfl, rfl⟩
  · cases (completion_of_commanded hc fun p => stageChecked (connectPlan p) p.p5 none).symm.trans hexec
    exact hw nofun ▸ stagedOk_of_stageChecked (fun _ => connectPlan_some) hok
  · cases (completion_of_commanded hc fun p => stageChecked (constantPlan p) p.p5 none).symm.trans hexec
    exact hw nofun ▸ stagedOk_of_stageChecked (fun _ => constantPlan_some) hok
  · cases (completion_of_commanded hc fun p => stageChecked (testPlan p) p.p5 (some p.p4.toNat)).symm.trans hexec
    exact hw nofun ▸ stagedOk_of_stageChecked (fun _ => testPlan_some) hok
  · cases (completion_of_commanded hc disconnect).symm.trans hexec
    exact stagedOk_of_disconnect hlaw (hplace rfl) hok

/-! The record after the binding of R79 -/

theorem rebind_of_inJournal {x : Reservation} {c : Claim} {j : List JournalEntry} (hx : x.claim? = some c)
    (hj : c.inJournal j = true) : rebind j x = .bound c := by
  rcases claim?_eq_some.mp hx with rfl | rfl <;> exact if_pos hj

theorem rebind_held {c : Claim} {j : List JournalEntry} (hj : c.inJournal j = false) :
    rebind j (.held c) = .held c := if_neg (Bool.eq_false_iff.mp hj)

theorem rebind_bound {c : Claim} {j : List JournalEntry} (hj : c.inJournal j = false) :
    rebind j (.bound c) = .held { c with remaining := c.lease } := if_neg (Bool.eq_false_iff.mp hj)

theorem bind_expf (u : SlotAllocation) (j : List JournalEntry) (record : Option Nat) :
    (u.bind j record).expf = u.expf := by
  cases record <;> rfl

/-- Settles O32, by the record that the claim check passed. -/
theorem stagingBindsItsRecord : Obligations.StagingBindsItsRecord := by
  rintro s t i code p head w hlaw hi hc hexec hok rfl hw hplace
  obtain ⟨record, hstaged⟩ := stagedOk_of_exec hlaw hi hc hexec hok hw hplace
  have hclaim := hstaged.claim
  obtain ⟨-, ⟨rfl, h0⟩ | ⟨r, hr, rfl, htag, hall⟩⟩ := claimCheck_passed hclaim
  · have hempty : (List.range w).map (p.target + ·) ≠ [] := by
      have := hstaged.width_pos
      simp only [ne_eq, List.map_eq_nil_iff, List.range_eq_nil]
      omega
    exact ⟨fun _ => hstaged.sau, fun htag => absurd h0 (not_or.mpr ⟨htag, hempty⟩)⟩
  refine ⟨fun h0 => absurd h0 htag, fun _ => ?_⟩
  have hcovers : ∀ k < w, s.sau.claims r p.p5 (p.target + k) := fun k hk =>
    hall _ (List.mem_map_of_mem (List.mem_range.mpr hk))
  obtain ⟨c, hx, hctag, -⟩ := hcovers 0 hstaged.width_pos
  have hrec : ∀ q < 32, t.sau.recs.get q =
      if some r = some q then rebind t.cj.journal (s.sau.recs.get q) else s.sau.recs.get q := fun q hq => by
    rw [hstaged.sau, bind_recs_get (claimCheck_record_lt hclaim) hq]
  have hself := hrec r hr
  rw [if_pos rfl] at hself
  refine ⟨r, hr, c, hclaim, hx, hctag, fun k hk => ?_, fun q hq hne => ?_, ?_, fun ⟨e, he, hcov⟩ => ?_, fun hnone => ?_⟩
  · obtain ⟨c', hx', -, hcov⟩ := hcovers k hk
    cases hx.symm.trans hx'
    exact hcov
  · rw [hrec q hq, if_neg fun h => hne (Option.some.inj h).symm]
  · rw [hstaged.sau, bind_expf]
  · rw [hself]
    exact rebind_of_inJournal hx (List.any_eq_true.mpr ⟨e, he, hcov⟩)
  · have hj : c.inJournal t.cj.journal = false :=
      List.any_eq_false.mpr fun e he => Bool.eq_false_iff.mp (hnone e he)
    rw [hself]
    refine ⟨fun h => ?_, fun h => ?_⟩
    · rw [h, rebind_held hj]
    · rw [h, rebind_bound hj]

/-! ### The countdown of leases at a frame start -/

theorem getLsbD_one_shift {r j : Nat} (hj : j < 32) : (1#32 <<< r).getLsbD j = decide (r = j) := by
  simp only [BitVec.getLsbD_shiftLeft, BitVec.getLsbD_one, hj, decide_true, Bool.true_and]
  rw [Bool.eq_iff_iff]
  simp only [Bool.and_eq_true, Bool.not_eq_true', decide_eq_true_eq, decide_eq_false_iff_not]
  omega

/-- A flag register after the flags of the chosen records are set. -/
theorem getLsbD_foldl_flags (p : Nat → Bool) {j : Nat} (hj : j < 32) (l : List Nat) : ∀ f : BitVec 32,
    (l.foldl (fun f r => if p r then f ||| (1#32 <<< r) else f) f).getLsbD j = true ↔
      f.getLsbD j = true ∨ (j ∈ l ∧ p j = true) := by
  induction l with
  | nil => simp
  | cons r l ih =>
    intro f
    rw [List.foldl_cons, ih, List.mem_cons]
    by_cases hp : p r = true
    · rw [if_pos hp, BitVec.getLsbD_or, getLsbD_one_shift hj, Bool.or_eq_true, decide_eq_true_eq]
      by_cases hrj : r = j
      · subst hrj
        simp [hp]
      · have hjr : ¬j = r := fun h => hrj h.symm
        simp [hrj, hjr]
    · rw [if_neg hp]
      by_cases hjr : j = r
      · subst hjr
        simp [hp]
      · simp [hjr]

theorem expiryFlags_iff (s : State) {r : Nat} (hr : r < 32) :
    s.sau.expiryFlags.getLsbD r = true ↔ s.sau.expf.getLsbD r = true ∨ s.expiring r := by
  unfold SlotAllocation.expiryFlags
  rw [getLsbD_foldl_flags (fun r => (s.sau.recs.get r).expires) hr]
  simp [hr, expires_iff, State.expiring]

theorem frameStart_expf (e : FrameEvent) (s : State) : (frameStart e s).sau.expf = s.sau.expiryFlags := by
  rw [frameStart_sau, leaseCountdown, raiseIf_sau]
  split <;> rfl

/-- A record counts down, and then an application frees it where it is BOUND (R81, R82). -/
theorem frameStart_recs (e : FrameEvent) (s : State) {r : Nat} (hr : r < 32) :
    (frameStart e s).sau.recs.get r =
      if s.applicationDue e = true then (s.sau.recs.get r).countDown.applied else (s.sau.recs.get r).countDown := by
  rw [frameStart_sau]
  split
  · rw [mapRecs_get _ _ hr, leaseCountdown_recs s hr]
  · rw [leaseCountdown_recs s hr]

theorem countDown_of_one {c : Claim} (h : c.remaining = 1) : (Reservation.held c).countDown = .free := by
  rw [countDown_held, if_pos (sub_eq_zero.mpr h)]

theorem countDown_of_ne_one {c : Claim} (h : c.remaining ≠ 1) :
    (Reservation.held c).countDown = .held { c with remaining := c.remaining - 1 } := by
  rw [countDown_held, if_neg (sub_ne_zero.mpr h)]

/-- RESERVATION_EXPIRED is raised by the countdown alone (R82). -/
theorem flag_frameStart_expired (e : FrameEvent) (s : State) :
    (frameStart e s).flag 2 = (s.flag 2 || s.sau.expiryDue) := by
  have hstart : (frameStart e s).flag 2 = (frameStartMap e s).flag 2 :=
    flag_startEngines_below e (s.applicationDue e) (frameStartMap e s) (by decide)
  have happly : ∀ (b : Bool) (u : State), (applyIf b u).flag 2 = u.flag 2 := by
    intro b u
    cases b with
    | false => rfl
    | true => simp [applyIf, applyCommit, srcCommitDone, State.flag]
  rw [hstart, frameStartMap, happly, flag_leaseCountdown, sampleSupervisors, flag_raiseStreams_below _ _ (by decide)]
  simp [State.flag]

/-- Settles O13, on the frame start and record by record. -/
theorem leasesCountDownAtFrameStart : Obligations.LeasesCountDownAtFrameStart := by
  refine ⟨fun e s h => taken_of_due (due := fun s => s.sau.expiryDue) ((expiryDue_iff s).mpr h),
    fun e s c hr hc => ⟨frameStart e s, ?_, fun r hlt => ⟨fun hx => ?_, fun b hx => ?_, fun h hx => ?_, ?_⟩, ?_⟩⟩
  · rcases hc with rfl | ⟨rfl, hexpiring⟩
    · exact taken_of_running hr _
    · exact (taken_of_due (due := fun s => s.sau.expiryDue) ((expiryDue_iff s).mpr hexpiring)).trans
        (taken_of_running hr _)
  · rw [frameStart_recs e s hlt, hx]
    split <;> rfl
  · rw [frameStart_recs e s hlt, hx, ← applicationDue_iff]
    exact ⟨fun h => if_pos h, fun h => if_neg h⟩
  · rw [frameStart_recs e s hlt, hx]
    refine ⟨fun h1 => ?_, fun h1 => ?_⟩
    · rw [countDown_of_one h1]
      split <;> rfl
    · rw [countDown_of_ne_one h1]
      split <;> rfl
  · rw [frameStart_expf, expiryFlags_iff s hlt]
  · rw [flag_frameStart_expired, Bool.or_eq_true, expiryDue_iff]

end Sys2Proof.Machine
end

