-- ==== Sys2Proof/Proofs/RegisterWords.lean ====
section
/-! The words of the register window, bit by bit and field by field: writes of flags, masks and levels, and what every
address reads. -/

namespace Sys2Proof.Machine

/-! ### Words of a pair (R83, R161, R163, R173) -/

/-- Bit `j` of a register stands in word `j / 16` of its pair, at bit `j % 16`. -/
theorem getLsbD_place {w : Nat} (v : Word) (k : Nat) {j : Nat} (hw : j < w) (h32 : j < 32) :
    (place v k : BitVec w).getLsbD j = (decide (j / 16 = k) && v.getLsbD (j % 16)) := by
  simp only [place, BitVec.getLsbD_setWidth, BitVec.getLsbD_shiftLeft, hw, h32, decide_true, Bool.true_and]
  by_cases hk : j / 16 = k
  · have hlo : ¬j < 16 * k := by omega
    have hbit : j - 16 * k = j % 16 := by omega
    have hin : j % 16 < 32 := by omega
    simp [hk, hlo, hbit, hin]
  · by_cases hlo : j < 16 * k
    · simp [hk, hlo]
    · have hout : v.getLsbD (j - 16 * k) = false := BitVec.getLsbD_of_ge _ _ (by omega)
      simp [hk, hout]

theorem getLsbD_clearOnes {w : Nat} (x : BitVec w) (k : Nat) (v : Word) {j : Nat} (hw : j < w) (h32 : j < 32) :
    (clearOnes x k v).getLsbD j = (x.getLsbD j && !(decide (j / 16 = k) && v.getLsbD (j % 16))) := by
  rw [clearOnes, BitVec.getLsbD_and, BitVec.getLsbD_not, getLsbD_place v k hw h32, decide_eq_true hw, Bool.true_and]

theorem getLsbD_replaceHalf {w : Nat} (x : BitVec w) (k : Nat) (v : Word) {j : Nat} (hw : j < w) (h32 : j < 32) :
    (replaceHalf x k v).getLsbD j = if j / 16 = k then v.getLsbD (j % 16) else x.getLsbD j := by
  have hones : (0xFFFF : Word).getLsbD (j % 16) = true := by
    have hj : j % 16 < 16 := Nat.mod_lt _ (by decide)
    interval_cases j % 16 <;> rfl
  rw [replaceHalf, BitVec.getLsbD_or, BitVec.getLsbD_and, BitVec.getLsbD_not, getLsbD_place _ k hw h32,
    getLsbD_place _ k hw h32, hones, decide_eq_true hw]
  by_cases hk : j / 16 = k <;> simp [hk]

theorem getLsbD_half {w : Nat} (x : BitVec w) (k : Nat) {j : Nat} (hj : j < 16) :
    (half x k).getLsbD j = x.getLsbD (16 * k + j) := by
  rw [half, BitVec.getLsbD_setWidth, BitVec.getLsbD_ushiftRight, decide_eq_true hj, Bool.true_and]

theorem getLsbD_half_zero {w : Nat} (x : BitVec w) {j : Nat} (hj : j < 16) : (half x 0).getLsbD j = x.getLsbD j := by
  rw [getLsbD_half x 0 hj, Nat.mul_zero, Nat.zero_add]

/-- The upper word of a register of 26 bits shows ten of them, and 0 above. -/
theorem getLsbD_half_one (x : BitVec 26) {j : Nat} (hj : j < 16) :
    (j < 10 → (half x 1).getLsbD j = x.getLsbD (16 + j)) ∧ (10 ≤ j → (half x 1).getLsbD j = false) :=
  ⟨fun _ => getLsbD_half x 1 hj, fun h => (getLsbD_half x 1 hj).trans (BitVec.getLsbD_of_ge _ _ (by omega))⟩

/-! ### Level words (R164, R173) -/

theorem newLevel_eq (old : BitVec 3) (v : Word) (j : Nat) :
    newLevel old v j = if field v (4 * j) 3 ≠ 0 then BitVec.ofNat 3 (field v (4 * j) 3) else old := by
  unfold newLevel
  dsimp only
  rw [setWidth_shift_eq_field, ite_not]
  exact if_congr (ofNat_field_eq_zero v (4 * j) 3) rfl rfl

theorem writeLevels_get (levels : Table (BitVec 3) 5) (k : Nat) (v : Word) {j : Nat} (hj : j < 26) :
    (writeLevels levels k v).get j =
      if j / 4 = k ∧ field v (4 * (j % 4)) 3 ≠ 0 then BitVec.ofNat 3 (field v (4 * (j % 4)) 3) else levels.get j := by
  rw [writeLevels, Table.get_tabulate_of_lt _ (by omega), newLevel_eq]
  by_cases hk : j / 4 = k
  · rw [if_pos ⟨hk, hj⟩]
    exact if_congr (and_iff_right hk).symm rfl rfl
  · rw [if_neg fun h => hk h.1, if_neg fun h => hk h.1]

/-- A write to one word of a pair or a row of words. -/
theorem wordWrite_taken {k n : Nat} {s : State} (hr : s.inReset = false) (hk : k < n) (f : State → State) :
    (if k < n then taken s f else .fault .noSuchPlace) = .next (f s) := by
  rw [if_pos hk, taken_of_running hr]

/-- Settles O44, register by register. -/
theorem flagMaskAndLevelWrites : Obligations.FlagMaskAndLevelWrites := by
  refine ⟨fun s k v hr hk => ⟨⟨writeExpf k v s, wordWrite_taken hr hk _, rfl, fun r hlt => ?_⟩,
    ⟨writeIflag k v s, wordWrite_taken hr hk _, rfl, fun j hlt => ?_⟩,
    ⟨writeImask k v s, wordWrite_taken hr hk _, rfl, fun j hlt => ?_⟩⟩,
    fun s k v hr hk => ⟨writeIlvl k v s, wordWrite_taken hr hk _, rfl, fun j hlt => ?_⟩⟩
  · exact getLsbD_clearOnes s.sau.expf k v hlt hlt
  · exact getLsbD_clearOnes s.iu.flags k v hlt (by omega)
  · exact getLsbD_replaceHalf s.iu.masks k v hlt (by omega)
  · exact writeLevels_get s.iu.levels k v hlt

/-! ### Sums of bits and of fields -/

theorem bitValue_eq (b : Bool) : bitValue b = if b = true then 1 else 0 := rfl

theorem word_bitValue (b : Bool) : word (bitValue b) = if b = true then 1 else 0 := by
  cases b <;> rfl

theorem bitValue_lt_two (b : Bool) : bitValue b < 2 := by
  cases b <;> decide

/-- A number given by its lowest `n` bits. -/
theorem sum_bits_succ (b : Nat → Bool) (n : Nat) :
    ((List.range (n + 1)).map fun i => 2 ^ i * bitValue (b i)).sum =
      2 ^ n * bitValue (b n) + ((List.range n).map fun i => 2 ^ i * bitValue (b i)).sum := by
  rw [List.range_succ, List.map_append, List.sum_append, List.map_singleton, List.sum_singleton, Nat.add_comm]

theorem sum_bits_lt (b : Nat → Bool) (n : Nat) : ((List.range n).map fun i => 2 ^ i * bitValue (b i)).sum < 2 ^ n := by
  induction n with
  | zero => exact Nat.one_pos
  | succ n ih =>
    have hbit : 2 ^ n * bitValue (b n) ≤ 2 ^ n * 1 := Nat.mul_le_mul_left _ (Nat.le_of_lt_succ (bitValue_lt_two _))
    rw [sum_bits_succ, Nat.pow_succ]
    omega

theorem testBit_bitValue_zero (b : Bool) : (bitValue b).testBit 0 = b := by
  cases b <;> rfl

theorem testBit_sum_bits (b : Nat → Bool) {n j : Nat} (hj : j < n) :
    (((List.range n).map fun i => 2 ^ i * bitValue (b i)).sum).testBit j = b j := by
  induction n with
  | zero => exact absurd hj (Nat.not_lt_zero _)
  | succ n ih =>
    rw [sum_bits_succ, Nat.testBit_two_pow_mul_add _ (sum_bits_lt b n)]
    split
    · next hlt => exact ih hlt
    · next hge =>
      obtain rfl : j = n := by omega
      rw [Nat.sub_self, testBit_bitValue_zero]

theorem getLsbD_word (n : Nat) {j : Nat} (hj : j < 16) : (word n).getLsbD j = n.testBit j := by
  rw [word, BitVec.getLsbD_ofNat, decide_eq_true hj, Bool.true_and]

/-- SVSTAT shows the faulted supervisors (R96). -/
theorem getLsbD_svstat (v : Supervisors) {i : Nat} (hi : i < 16) :
    (svstat v).getLsbD i = (v.sups.get i).state.faulted := by
  rw [svstat, getLsbD_word _ hi, testBit_sum_bits (fun i => (v.sups.get i).state.faulted) hi]

theorem toNat_word {n : Nat} (h : n < 65536) : (word n).toNat = n := by
  rw [word, BitVec.toNat_ofNat]
  exact Nat.mod_eq_of_lt h

theorem RunName.value_lt (r : RunName) : r.value < 3 := by
  cases r <;> decide

/-- ENGST holds the run state codes in fields of two bits (R173). -/
theorem engst_fields (s : State) :
    (engst s).toNat < 256 ∧ ∀ n < 4, (engst s).toNat / 4 ^ n % 4 = (s.engine n).run.name.value := by
  have h0 := (s.engine 0).run.name.value_lt
  have h1 := (s.engine 1).run.name.value_lt
  have h2 := (s.engine 2).run.name.value_lt
  have h3 := (s.engine 3).run.name.value_lt
  have hsum : ((List.range 4).map fun n => 4 ^ n * (s.engine n).run.name.value).sum =
      (s.engine 0).run.name.value + 4 * (s.engine 1).run.name.value + 16 * (s.engine 2).run.name.value +
        64 * (s.engine 3).run.name.value := by
    simp [List.range_succ]
    ring
  rw [engst, hsum, toNat_word (by omega)]
  refine ⟨by omega, fun n hn => ?_⟩
  interval_cases n <;> omega

theorem shownLevel_lt (u : InterruptUnit) (k j : Nat) : shownLevel u k j < 8 := by
  unfold shownLevel
  split
  · exact BitVec.isLt _
  · decide

/-- A level word holds four level fields (R173). -/
theorem levelWord_field (u : InterruptUnit) (k : Nat) {j : Nat} (hj : j < 4) :
    (levelWord u k).toNat / 16 ^ j % 16 = shownLevel u k j := by
  have h0 := shownLevel_lt u k 0
  have h1 := shownLevel_lt u k 1
  have h2 := shownLevel_lt u k 2
  have h3 := shownLevel_lt u k 3
  rw [levelWord, toNat_word (by omega)]
  interval_cases j <;> omega

/-! ### Reads (Table 10-1) -/

theorem completion_value {c : Completion} {code : Nat} (h : (c, code) ∈ completionCodes) : code = c.value := by
  have hall : ∀ x ∈ completionCodes, x.2 = x.1.value := by decide
  exact hall _ h

/-- CMDSTAT (R155, R173). -/
theorem cmdstat_eq {c : CommandEngine} {code : Nat} (h : (c.code, code) ∈ completionCodes) :
    cmdstat c = word ((c.lastCode.getD 0).toNat + 256 * code + (if c.lastCode.isSome = true then 8192 else 0) +
      (if c.overrun = true then 16384 else 0) + (if c.busy.isSome = true then 32768 else 0)) := by
  rw [cmdstat, completion_value h]
  simp only [bitValue_eq, mul_ite, mul_one, mul_zero, Nat.reducePow]

/-- CSTAT (R173). -/
theorem cstat_eq (commit : Option Trigger) (level : Bool) :
    cstat commit level =
      word ((if commit = none then 0 else 1) + 2 * triggerValue commit + (if level = true then 256 else 0)) := by
  cases commit <;> cases level <;> rfl

theorem ctgt_of_other {commit : Option Trigger} (h : ∀ target, commit ≠ some (.atFrame target)) : ctgt commit = 0 := by
  unfold ctgt
  split
  · next t => exact absurd rfl (h t)
  · rfl

/-- CMD and the addresses that Table 10-1 does not assign. -/
theorem readWord_of_unassigned (s : State) (level : Bool) {a : Nat}
    (h : a ∈ [0x00, 0x07, 0x0D, 0x0E, 0x0F, 0x15, 0x16, 0x17, 0x1F, 0x24, 0x25, 0x26, 0x27, 0x35, 0x36, 0x37] ∨
      0x41 < a) : readWord s a level = 0 := by
  unfold readWord
  split
  case h_51 => rfl
  all_goals exact absurd h (by decide)

/-- Settles O48, address by address. -/
theorem statusWords : Obligations.StatusWords := by
  intro s level read hr hread
  have hword : ∀ a, read a = readWord s a.toNat level := fun a => (hread a).trans (if_neg (by simp [hr]))
  simp only [hword]
  refine ⟨fun a h => readWord_of_unassigned s level h, ⟨rfl, rfl, rfl, rfl, rfl, rfl⟩, fun code h => cmdstat_eq h,
    ⟨rfl, rfl, rfl, rfl⟩, ⟨setWidth_eq_word _, setWidth_eq_word _, rfl, rfl, rfl⟩, ⟨rfl, rfl, rfl⟩, ?_, ?_, ?_, rfl, ?_,
    ?_, ?_, rfl, ?_, ?_, setWidth_eq_word _, rfl, ?_⟩
  · exact cstat_eq s.cj.commit level
  · intro target h
    show ctgt s.cj.commit = target
    rw [h]
    rfl
  · exact ctgt_of_other
  · intro i hi
    rw [← faulted_iff, ← getLsbD_svstat s.sv hi]
    rfl
  · exact fun j hj => ⟨getLsbD_half_zero s.sau.expf hj, getLsbD_half s.sau.expf 1 hj⟩
  · obtain ⟨hlt, hfields⟩ := engst_fields s
    refine ⟨hlt, fun n hn => (hfields n hn).trans ?_⟩
    cases (s.engine n).run <;> rfl
  · intro j hj
    obtain ⟨hflag, hflag0⟩ := getLsbD_half_one s.iu.flags hj
    obtain ⟨hmask, hmask0⟩ := getLsbD_half_one s.iu.masks hj
    exact ⟨getLsbD_half_zero s.iu.flags hj, getLsbD_half_zero s.iu.masks hj, fun h => ⟨hflag h, hmask h⟩,
      fun h => ⟨hflag0 h, hmask0 h⟩⟩
  · intro k hk j hj
    have h : readWord s (BitVec.ofNat 7 (0x2C + k)).toNat level = levelWord s.iu k := by
      interval_cases k <;> rfl
    rw [h]
    exact levelWord_field s.iu k hj
  · exact ⟨rfl, word_bitValue s.biu.valid, rfl, rfl, rfl, rfl, rfl, rfl, rfl, rfl⟩

end Sys2Proof.Machine
end

