-- ==== Sys2Proof/Proofs/SettingsLaws.lean ====
section
/-! The laws of the supervisors, the levels, the last command code and the reset hold through every command. -/

namespace Sys2Proof.Machine

/-! ### Counts of a supervisor through a sample (Table 5-1) -/

theorem toNat_succ {w : Nat} {k : BitVec w} (h : k.toNat + 1 < 2 ^ w) : (k + 1).toNat = k.toNat + 1 := by
  have hone : (1 : BitVec w).toNat = 1 := Nat.mod_eq_of_lt (Nat.lt_of_le_of_lt (Nat.le_add_left 1 _) h)
  rw [BitVec.toNat_add_of_lt (by rwa [hone]), hone]

theorem SvState.Ok.asserted {x : SvState} (h : x.Ok) (decl : BitVec 4) : (x.asserted decl).Ok := by
  cases x with
  | clear =>
    show SvState.Ok (if decl = 1 then .fault else .suspect 1)
    split
    · exact trivial
    · exact ⟨by decide, by decide⟩
  | suspect k =>
    show SvState.Ok (if decl.toNat ≤ k.toNat + 1 then .fault else .suspect (k + 1))
    split
    · exact trivial
    · have hlt := decl.isLt
      show 1 ≤ (k + 1).toNat ∧ (k + 1).toNat ≤ 14
      rw [toNat_succ (by omega)]
      omega
  | fault | recovering => exact trivial

theorem SvState.Ok.deasserted {x : SvState} (h : x.Ok) (clrc : Byte) : (x.deasserted clrc).Ok := by
  cases x with
  | clear | suspect => exact trivial
  | fault =>
    show SvState.Ok (if clrc = 1 then .clear else .recovering 1)
    split
    · exact trivial
    · exact ⟨by decide, by decide⟩
  | recovering k =>
    show SvState.Ok (if clrc.toNat ≤ k.toNat + 1 then .clear else .recovering (k + 1))
    split
    · exact trivial
    · have hlt := clrc.isLt
      show 1 ≤ (k + 1).toNat ∧ (k + 1).toNat ≤ 254
      rw [toNat_succ (by omega)]
      omega

theorem SvState.Ok.sample {x : SvState} (h : x.Ok) (decl : BitVec 4) (clrc : Byte) (input : Bool) :
    (x.sample decl clrc input).Ok := by
  cases input with
  | true => exact h.asserted decl
  | false => exact h.deasserted clrc

/-- A disabled supervisor takes no sample (R89). -/
theorem Supervisors.sampled_of_disabled {v : Supervisors} {i : Nat} (h : v.sven.getLsbD i = false) (sf : Word) :
    v.sampled sf i = v.sups.get i :=
  if_neg (by rw [h]; exact Bool.false_ne_true)

theorem Supervisors.sampled_of_enabled {v : Supervisors} {i : Nat} (h : v.sven.getLsbD i = true) (sf : Word) :
    v.sampled sf i =
      { state := (v.sups.get i).state.sample v.decl v.clrc (v.input sf i), lastSample := some (v.input sf i) } :=
  if_pos h

theorem sups_frameStart (e : FrameEvent) (s : State) {i : Nat} (hi : i < 16) :
    (frameStart e s).sv.sups.get i = s.sv.sampled e.sf i := by
  rw [frameStart_sv]
  exact Table.get_tabulate_of_lt (d := 4) (fun i => s.sv.sampled e.sf i) hi

/-! ### The laws of the settings -/

/-- A command that leads from `s` to `t` keeps the laws of the supervisors, the levels and the last command code. -/
structure KeepsSettings (s t : State) : Prop where
  supervisors : s.SupervisorLaw → t.SupervisorLaw
  levels : s.LevelLaw → t.LevelLaw
  command : s.CommandLaw → t.CommandLaw

namespace KeepsSettings

theorem of_eq {s t : State} (hsv : t.sv = s.sv) (hlevels : t.iu.levels = s.iu.levels) (hce : t.ce = s.ce) :
    KeepsSettings s t where
  supervisors h := by rwa [State.SupervisorLaw, hsv]
  levels h := by
    unfold State.LevelLaw InterruptUnit.level
    rwa [hlevels]
  command h := by rwa [State.CommandLaw, hce]

theorem refl (s : State) : KeepsSettings s s := ⟨id, id, id⟩

/-- The completion of a command leaves the part IDLE (R149). -/
theorem complete {c : Completion} {r0 r1 r2 r3 : Word} {s t : State} (hsv : t.sv = s.sv)
    (hlevels : t.iu.levels = s.iu.levels) : KeepsSettings s (complete c r0 r1 r2 r3 t) where
  supervisors := (of_eq (s := s) (t := { t with ce := s.ce }) hsv hlevels rfl).supervisors
  levels := (of_eq (s := s) (t := { t with ce := s.ce }) hsv hlevels rfl).levels
  command _ := nofun

/-! Staging, commits and reservations -/

theorem stage (plan : Plan) (tag : Word) (needIdle : Bool) (engine : Option Nat) (s : State) :
    KeepsSettings s (stage plan tag needIdle engine s) := by
  rcases stage_cases plan tag needIdle engine s with ⟨c, r1, r2, heq, -⟩ | ⟨record, -, heq⟩
  · rw [heq]
    exact complete rfl rfl
  · rw [heq]
    exact complete rfl rfl

theorem stageChecked (plan : Option Plan) (tag : Word) (engine : Option Nat) (s : State) :
    KeepsSettings s (stageChecked plan tag engine s) := by
  unfold Machine.stageChecked
  split
  · exact complete rfl rfl
  · split
    · exact complete rfl rfl
    · exact stage ..

theorem disconnect (p : Params) (s : State) : KeepsSettings s (disconnect p s) := by
  unfold Machine.disconnect
  split
  · split
    · exact complete rfl rfl
    · dsimp only
      split
      · exact complete rfl rfl
      · split
        · exact complete rfl rfl
        · exact stage ..
  · exact complete rfl rfl

theorem commitCommand (p : Params) (s : State) : KeepsSettings s (commitCommand p s) := by
  unfold Machine.commitCommand
  split
  · exact complete rfl rfl
  · split <;> exact complete rfl rfl

theorem cancelCommand (s : State) : KeepsSettings s (cancelCommand s) := by
  unfold Machine.cancelCommand
  split <;> exact complete rfl rfl

theorem discardCommand (s : State) : KeepsSettings s (discardCommand s) := by
  unfold Machine.discardCommand
  split <;> exact complete rfl rfl

theorem reserveCommand (p : Params) (s : State) : KeepsSettings s (reserveCommand p s) := by
  unfold Machine.reserveCommand
  dsimp only
  split
  · split
    · exact complete rfl rfl
    · split <;> exact complete rfl rfl
  · exact complete rfl rfl

theorem huntCommand (p : Params) (s : State) : KeepsSettings s (huntCommand p s) := by
  unfold Machine.huntCommand
  split
  · split
    · exact complete rfl rfl
    · split
      · split <;> exact complete rfl rfl
      · exact complete rfl rfl
  · exact complete rfl rfl

theorem releaseCommand (p : Params) (s : State) : KeepsSettings s (releaseCommand p s) := by
  unfold Machine.releaseCommand
  split
  · split
    · exact complete rfl rfl
    · split <;> exact complete rfl rfl
    · split <;> exact complete rfl rfl
  · exact complete rfl rfl

theorem renewCommand (p : Params) (s : State) : KeepsSettings s (renewCommand p s) := by
  unfold Machine.renewCommand
  split
  · split
    · exact complete rfl rfl
    · split <;> exact complete rfl rfl
    · split <;> exact complete rfl rfl
  · exact complete rfl rfl

/-! Engines -/

theorem configureCommand (p : Params) (s : State) : KeepsSettings s (configureCommand p s) := by
  unfold Machine.configureCommand
  dsimp only
  split
  · split
    · exact complete rfl rfl
    · split <;> exact complete rfl rfl
  · exact complete rfl rfl

theorem startCommand (p : Params) (s : State) : KeepsSettings s (startCommand p s) := by
  unfold Machine.startCommand
  dsimp only
  split
  · split
    · split
      · exact complete rfl rfl
      · rw [keepTail_eq_emit]
        exact complete rfl rfl
    · exact complete rfl rfl
  · exact complete rfl rfl

theorem stopCommand (p : Params) (s : State) : KeepsSettings s (stopCommand p s) := by
  unfold Machine.stopCommand
  dsimp only
  split
  · split
    · exact complete (endRun_sv ..) (endRun_iu_levels ..)
    · exact complete rfl rfl
  · exact complete rfl rfl

theorem injectCommand (p : Params) (s : State) : KeepsSettings s (injectCommand p s) := by
  unfold Machine.injectCommand
  dsimp only
  split
  · split <;> exact complete rfl rfl
  · exact complete rfl rfl

theorem snapshotCommand (p : Params) (s : State) : KeepsSettings s (snapshotCommand p s) := by
  unfold Machine.snapshotCommand
  dsimp only
  split <;> exact complete rfl rfl

theorem popCommand (s : State) : KeepsSettings s (popCommand s) := by
  unfold Machine.popCommand
  split
  · exact complete rfl rfl
  · unfold serveBacklog
    split <;> exact complete rfl rfl

theorem softResetCommand (s : State) : KeepsSettings s (softResetCommand s) := complete rfl rfl

theorem unknownCompletion (s : State) : KeepsSettings s (unknownCompletion s) := by
  unfold Machine.unknownCompletion
  split
  · split
    · exact refl s
    · exact complete rfl rfl
  · exact refl s

/-! Register writes -/

/-- The CMD write that takes a command loads its code (R146). -/
theorem writeCmd (v : Word) (s : State) : KeepsSettings s (writeCmd v s) := by
  unfold Machine.writeCmd
  split
  · refine ⟨id, id, fun _ c hc => ?_⟩
    cases hc
    rfl
  · exact ⟨id, id, id⟩

theorem writeCmdstat (v : Word) (s : State) : KeepsSettings s (writeCmdstat v s) := by
  unfold Machine.writeCmdstat
  split <;> exact ⟨id, id, id⟩

theorem writeFolim (v : Word) (s : State) : KeepsSettings s (writeFolim v s) := by
  unfold Machine.writeFolim
  split <;> exact ⟨id, id, id⟩

/-- A supervisor that the write leaves disabled was disabled, or is disabled by the write (R93). -/
theorem writeSven (v : Word) (s : State) : KeepsSettings s (writeSven v s) := by
  have hsv := congrArg State.sv (writeSven_eq v s)
  refine ⟨fun ⟨hdecl, hclrc, hsups⟩ => ?_, ?_, ?_⟩
  · refine ⟨by rwa [hsv], by rwa [hsv], fun i hi => ?_⟩
    rw [sups_writeSven v s hi]
    split
    · exact ⟨trivial, fun _ => rfl⟩
    · next hkept =>
      refine ⟨(hsups i hi).1, fun hoff => (hsups i hi).2 ?_⟩
      rw [hsv] at hoff
      simpa [Supervisors.disabledBy, hoff] using hkept
  · rw [writeSven_eq]
    exact id
  · rw [writeSven_eq]
    exact id

/-- A threshold field of 0 leaves the threshold (R91). -/
theorem writeSvthr (v : Word) (s : State) : KeepsSettings s (writeSvthr v s) := by
  refine ⟨fun ⟨hdecl, hclrc, hsups⟩ => ⟨?_, ?_, hsups⟩, id, id⟩
  · show (if _ then _ else _) ≠ _
    split
    · exact hdecl
    · assumption
  · show (if _ then _ else _) ≠ _
    split
    · exact hclrc
    · assumption

/-- A level field of 0 leaves the level (R164). -/
theorem writeIlvl (k : Nat) (v : Word) (s : State) : KeepsSettings s (writeIlvl k v s) := by
  refine ⟨id, fun h j hj => ?_, id⟩
  show (writeLevels s.iu.levels k v).get j ≠ 0
  rw [writeLevels_get _ k v hj]
  split
  · next hfield => exact (ofNat_field_eq_zero ..).not.mpr hfield.2
  · exact h j hj

theorem writeIthr (v : Word) (s : State) : KeepsSettings s (writeIthr v s) := by
  unfold Machine.writeIthr
  split <;> exact ⟨id, id, id⟩

theorem inspectAt (v sf : Word) (s : State) : KeepsSettings s (inspectAt v sf s) :=
  of_eq (inspectAt_sv ..) (by rw [inspectAt_iu]) (inspectAt_ce ..)

theorem writeWord (address : Nat) (v sf : Word) (s : State) : KeepsSettings s (writeWord address v sf s) := by
  unfold Machine.writeWord
  split
  case h_1 => exact writeCmd v s
  case h_8 => exact writeCmdstat v s
  case h_10 => exact writeFolim v s
  case h_11 => exact writeSven v s
  case h_13 => exact writeSvthr v s
  case h_20 | h_21 | h_22 | h_23 | h_24 | h_25 | h_26 => exact writeIlvl _ v s
  case h_27 => exact writeIthr v s
  case h_28 => exact inspectAt v sf s
  all_goals exact ⟨id, id, id⟩

theorem busWrite (cycle : BusCycle) (address : Nat) (w : BusWord) (s : State) :
    KeepsSettings s (busWrite cycle address w s) := by
  cases cycle with
  | whole => exact writeWord address w.value w.sf s
  | endedEarly | bothStrobes => exact refl s

/-! Frame starts, captures and formations -/

theorem frameStart (e : FrameEvent) (s : State) : KeepsSettings s (frameStart e s) := by
  refine ⟨fun ⟨hdecl, hclrc, hsups⟩ => ?_, ?_, ?_⟩
  · have hsv := frameStart_sv e s
    refine ⟨by rwa [hsv], by rwa [hsv], fun i hi => ?_⟩
    obtain ⟨hok, hoff⟩ := hsups i hi
    have hsven : (Machine.frameStart e s).sv.sven = s.sv.sven := by rw [hsv]
    rw [sups_frameStart e s hi, hsven]
    cases hen : s.sv.sven.getLsbD i with
    | false =>
      rw [Supervisors.sampled_of_disabled hen]
      exact ⟨hok, fun _ => hoff hen⟩
    | true =>
      rw [Supervisors.sampled_of_enabled hen]
      exact ⟨hok.sample .., nofun⟩
  · unfold State.LevelLaw InterruptUnit.level
    rw [frameStart_iu_levels]
    exact id
  · unfold State.CommandLaw
    rw [frameStart_ce]
    exact id

theorem captureByte (stream slot : Nat) (b : Byte) (s : State) : KeepsSettings s (captureByte stream slot b s) :=
  of_eq (captureByte_sv ..) (by rw [captureByte_iu]) (captureByte_ce ..)

theorem formInOrder (stream slot : Nat) (s : State) : KeepsSettings s (formInOrder stream slot s) :=
  of_eq (formInOrder_sv ..) (by rw [formInOrder_iu]) (formInOrder_ce ..)

/-! Events and completions -/

theorem taken {f : State → State} (hf : ∀ s, KeepsSettings s (f s)) {s t : State} (h : taken s f = .next t) :
    KeepsSettings s t := by
  rcases taken_eq_next h with ⟨-, rfl⟩ | ⟨-, rfl⟩
  · exact hf s
  · exact refl _

theorem completion {code : Byte} {f : Params → State → State} (hf : ∀ p s, KeepsSettings s (f p s)) {s t : State}
    (h : completion code s f = .next t) : KeepsSettings s t := by
  rcases completion_cases h with ⟨p, -, rfl⟩ | ⟨-, rfl⟩
  · exact hf p s
  · exact refl _

/-- A frame-start row is the frame start where its occasion is there, and nothing otherwise (log 2). -/
theorem frameRow {e : FrameEvent} {due : State → Bool} {s t : State}
    (h : Machine.taken s (fun s => if due s then Machine.frameStart e s else s) = .next t) : KeepsSettings s t := by
  refine taken (fun s => ?_) h
  split
  · exact frameStart e s
  · exact refl s

/-- An event at a place, which faults where the place does not exist. -/
theorem checked {P : Prop} [Decidable P] {f : State → State} (hf : ∀ s, KeepsSettings s (f s)) {s t : State}
    (h : (if P then Machine.taken s f else .fault .noSuchPlace) = .next t) : KeepsSettings s t := by
  split at h
  · exact taken hf h
  · cases h

theorem hardwareReset (hold : ResetHold) (s : State) : KeepsSettings s (hardwareReset hold s) :=
  ⟨fun _ => reset_supervisorLaw, fun _ => reset_levelLaw, fun _ => nofun⟩

theorem resetNRelease {cause : ResetCause} {s t : State} (h : execResetNRelease cause true s = .next t) :
    KeepsSettings s t := by
  unfold execResetNRelease at h
  split at h
  · split at h
    · next hshort => simp at hshort
    · cases h
      exact ⟨id, id, id⟩
  · cases h
    exact refl _

/-- Every command but a release after too short a reset keeps the laws. -/
theorem of_exec {c : Instr} {s t : State} (hc : c.isShortRelease = false) (h : exec c s = .next t) :
    KeepsSettings s t := by
  cases c with
  | frameStart e => exact taken (frameStart e) h
  | leaseExpiry e => exact frameRow (due := fun s => s.sau.expiryDue) h
  | commitApplication e => exact frameRow (due := fun s => s.applicationDue e) h
  | durationExpiry e => exact frameRow (due := fun s => s.durationDue e) h
  | inputByteCapture stream slot b => exact checked (captureByte stream slot b) h
  | outputSlotFormation stream slot => exact checked (formInOrder stream slot) h
  | connect => exact completion (fun p => stageChecked (connectPlan p) p.p5 none) h
  | setConstant => exact completion (fun p => stageChecked (constantPlan p) p.p5 none) h
  | setTest => exact completion (fun p => stageChecked (testPlan p) p.p5 (some p.p4.toNat)) h
  | disconnect => exact completion disconnect h
  | commit => exact completion commitCommand h
  | cancel => exact completion (fun _ => cancelCommand) h
  | discard => exact completion (fun _ => discardCommand) h
  | reserve => exact completion reserveCommand h
  | hunt => exact completion huntCommand h
  | release => exact completion releaseCommand h
  | renew => exact completion renewCommand h
  | configureEngine => exact completion configureCommand h
  | start => exact completion startCommand h
  | stop => exact completion stopCommand h
  | inject => exact completion injectCommand h
  | snapshot => exact completion snapshotCommand h
  | pop => exact completion (fun _ => popCommand) h
  | softReset => exact completion (fun _ => softResetCommand) h
  | unknownCommand => exact taken unknownCompletion h
  | commandOverrun v | commandTaken v => exact taken (writeCmd v) h
  | overrunFlagClear v => exact taken (writeCmdstat v) h
  | folimWrite v => exact taken (writeFolim v) h
  | svenWrite v => exact taken (writeSven v) h
  | svthrWrite v => exact taken (writeSvthr v) h
  | ilvlWrite k v => exact checked (writeIlvl k v) h
  | ithrWrite v => exact taken (writeIthr v) h
  | expfClear k v => exact checked (f := writeExpf k v) (fun _ => ⟨id, id, id⟩) h
  | iflagClear k v => exact checked (f := writeIflag k v) (fun _ => ⟨id, id, id⟩) h
  | imaskWrite k v => exact checked (f := writeImask k v) (fun _ => ⟨id, id, id⟩) h
  | inspectSupervisor x sf => exact taken (inspectAt _ sf) h
  | inspectInvalid w => exact taken (inspectAt w.value w.sf) h
  | registerWrite cycle a w => exact taken (busWrite cycle a.toNat w) h
  | hardwareReset cause =>
    cases h
    exact hardwareReset ..
  | resetNRelease cause m =>
    obtain rfl : m = true := by simpa [Instr.isShortRelease] using hc
    exact resetNRelease h
  | idlecWrite | svfrcWrite | inspectActiveEntry | inspectEffectiveEntry | inspectJournal | inspectFanOut |
    inspectReservation | inspectEngineConfiguration | inspectLiveCounters | inspectSnapshot | inspectResultQueue |
    inspectHoldByte =>
    refine taken (fun _ => ?_) h
    exact ⟨id, id, id⟩

end KeepsSettings

/-! ### The part held in reset (R177) -/

section
variable {c : Instr} {s t : State}

/-- An event that the part takes only outside reset. -/
theorem eq_of_taken_held {f : State → State} (hr : s.inReset = true) (h : taken s f = .next t) : t = s := by
  rw [taken_of_held hr] at h
  cases h
  rfl

theorem eq_of_completion_held {code : Byte} {f : Params → State → State} (hr : s.inReset = true)
    (h : completion code s f = .next t) : t = s := eq_of_taken_held hr h

theorem eq_of_checked_held {P : Prop} [Decidable P] {f : State → State} (hr : s.inReset = true)
    (h : (if P then taken s f else .fault .noSuchPlace) = .next t) : t = s := by
  split at h
  · exact eq_of_taken_held hr h
  · cases h

/-- While the part is held in reset, no command but those of the reset hold itself changes anything. -/
theorem eq_of_exec_held (hreset : ∀ cause, c ≠ .hardwareReset cause) (hrelease : ∀ cause m, c ≠ .resetNRelease cause m)
    (hr : s.inReset = true) (h : exec c s = .next t) : t = s := by
  cases c
  case hardwareReset cause => exact absurd rfl (hreset cause)
  case resetNRelease cause m => exact absurd rfl (hrelease cause m)
  case inputByteCapture | outputSlotFormation | expfClear | iflagClear | imaskWrite | ilvlWrite =>
    exact eq_of_checked_held hr h
  case connect | setConstant | setTest | disconnect | commit | cancel | discard | reserve | hunt | release | renew |
      configureEngine | start | stop | inject | snapshot | pop | softReset =>
    dsimp only [exec, execConnect, execSetConstant, execSetTest, execCancel, execDiscard, execPop, execSoftReset] at h
    exact eq_of_completion_held hr h
  all_goals exact eq_of_taken_held hr h

theorem held_of_exec (hreset : ∀ cause, c ≠ .hardwareReset cause) (hrelease : ∀ cause m, c ≠ .resetNRelease cause m)
    (h : exec c s = .next t) : t.held = s.held := by
  cases Effect.of_exec h with
  | kept h => exact h.held
  | frameStart e _ => exact frameStart_held e s
  | capture b _ _ => exact captureByte_held ..
  | formation _ _ => exact formInOrder_held ..
  | hardwareReset cause => exact absurd rfl (hreset cause)
  | release cause m _ => exact absurd rfl (hrelease cause m)
  | shortRelease cause => exact absurd rfl (hrelease cause false)

theorem inReset_of_holds {cause : ResetCause} (h : s.held.holds cause = true) : s.inReset = true := by
  cases cause with
  | resetN => exact (Bool.or_eq_true ..).mpr (Or.inl h)
  | powerUp => exact (Bool.or_eq_true ..).mpr (Or.inr h)

/-- A state at the reset values stays at them when what holds it changes. -/
theorem State.ResetLaw.withHeld (hs : s.ResetLaw) (hr : s.inReset = true) (held : ResetHold) :
    State.ResetLaw { s with held := held } :=
  fun _ => congrArg (fun u : State => { u with held := held }) (hs hr)

theorem resetLaw_of_release {cause : ResetCause} (hs : s.ResetLaw) (h : execResetNRelease cause true s = .next t) :
    t.ResetLaw := by
  unfold execResetNRelease at h
  split at h
  · next hholds =>
    split at h
    · next hshort => simp at hshort
    · cases h
      exact hs.withHeld (inReset_of_holds hholds) _
  · cases h
    exact hs

/-- A reset loads the values, a release leaves them, and every other command leaves a part held in reset alone. -/
theorem resetLaw_of_exec (hc : c.isShortRelease = false) (hs : s.ResetLaw) (h : exec c s = .next t) : t.ResetLaw := by
  by_cases hreset : ∃ cause, c = .hardwareReset cause
  · obtain ⟨cause, rfl⟩ := hreset
    cases h
    exact fun _ => rfl
  · by_cases hrelease : ∃ cause m, c = .resetNRelease cause m
    · obtain ⟨cause, m, rfl⟩ := hrelease
      obtain rfl : m = true := by simpa [Instr.isShortRelease] using hc
      exact resetLaw_of_release hs h
    · have hreset' : ∀ cause, c ≠ .hardwareReset cause := fun cause heq => hreset ⟨cause, heq⟩
      have hrelease' : ∀ cause m, c ≠ .resetNRelease cause m := fun cause m heq => hrelease ⟨cause, m, heq⟩
      intro ht
      have hr : s.inReset = true := by rwa [State.inReset, held_of_exec hreset' hrelease' h] at ht
      obtain rfl := eq_of_exec_held hreset' hrelease' hr h
      exact hs hr

end

/-- A state with a shorter queue has the reset values of the longer one. -/
theorem State.ResetLaw.withPending {s : State} (hs : s.ResetLaw) (pending : List Instr) :
    State.ResetLaw { s with pending := pending } :=
  fun hr => congrArg (fun u : State => { u with pending := pending }) (hs hr)

/-- Settles O60: the laws of the settings and the reset values, each through the command at the front of the queue. -/
theorem stepKeepsTheSettingsLaws : Obligations.StepKeepsTheSettingsLaws := by
  intro s t hshort hsup hlevel hcommand hreset h
  unfold step at h
  split at h
  · cases h
    exact ⟨hshort, hsup, hlevel, hcommand, hreset⟩
  · next c rest hpending =>
    have hc : c.isShortRelease = false := hshort c (by simp [hpending])
    have hkeeps := KeepsSettings.of_exec hc h
    refine ⟨fun i hi => ?_, hkeeps.supervisors hsup, hkeeps.levels hlevel, hkeeps.command hcommand,
      resetLaw_of_exec hc (hreset.withPending rest) h⟩
    rw [(Effect.of_exec h).pending_eq] at hi
    exact hshort i (by rw [hpending]; exact List.mem_cons_of_mem c hi)

end Sys2Proof.Machine
end

