-- ==== Sys2Proof/Proofs/Supervision.lean ====
section
/-! The samples of a frame start (R89, R90, R92), and runs of equal samples. -/

namespace Sys2Proof.Machine

/-! ### STREAM_CHANGE at a frame start -/

/-- The moves that raise STREAM_CHANGE (R92). -/
theorem changes_iff (old new : SvState) :
    old.changes new = true ↔
      (new = .fault ∧ old ≠ .fault) ∨ (new = .clear ∧ (old = .fault ∨ ∃ k, old = .recovering k)) := by
  simp [SvState.changes, faulted_iff]

/-- The end of a run raises RESULT_READY or RESULT_BACKLOG alone (R138, R139). -/
theorem flag_endRun_of_ne (n : Nat) (o : RunOutcome) (s : State) {j : Nat} (hready : srcResultReady ≠ j)
    (hbacklog : srcResultBacklog ≠ j) : (endRun n o s).flag j = s.flag j := by
  rcases endRun_cases n o s with ⟨c, r, -, -, ⟨-, h⟩ | ⟨-, h⟩⟩ | ⟨-, h⟩
  · rw [h, flag_raise, decide_eq_false hready, Bool.false_and, Bool.or_false]
    rfl
  · rw [h, flag_raise, decide_eq_false hbacklog, Bool.false_and, Bool.or_false]
    rfl
  · rw [h]

theorem flag_raiseSyncs_above (p : Nat → Bool) (s : State) {j : Nat} (hj : 10 ≤ j) :
    (raiseSyncs p s).flag j = s.flag j := by
  rw [Bool.eq_iff_iff]
  refine (flag_foldl_raiseIf p srcSyncChange j _ s).trans (or_iff_left ?_)
  rintro ⟨k, hk, -, heq, -⟩
  have hlt := List.mem_range.mp hk
  unfold srcSyncChange at heq
  omega

theorem flag_endRunIf_of_ne (o : Option RunOutcome) (n : Nat) (s : State) {j : Nat} (hready : srcResultReady ≠ j)
    (hbacklog : srcResultBacklog ≠ j) : (endRunIf o n s).flag j = s.flag j := by
  cases o with
  | none => rfl
  | some o => exact flag_endRun_of_ne n o s hready hbacklog

/-- The engines raise no source above 9. -/
theorem flag_startEngines_above (e : FrameEvent) (applied : Bool) (s : State) {j : Nat} (hj : 10 ≤ j) :
    (startEngines e applied s).flag j = s.flag j := by
  have hlt : ∀ k < 10, k ≠ j := by omega
  exact (foldl_keeps (·.flag j) _ (fun s n => flag_endRunIf_of_ne _ n s (hlt _ (by decide)) (hlt _ (by decide)))
    _ _).trans (flag_raiseSyncs_above _ _ hj)

theorem flag_applyIf_of_ne (b : Bool) (s : State) {j : Nat} (hj : srcCommitDone ≠ j) :
    (applyIf b s).flag j = s.flag j := by
  cases b with
  | false => rfl
  | true =>
    show (raise srcCommitDone _).flag j = _
    rw [flag_raise, decide_eq_false hj, Bool.false_and, Bool.or_false]
    rfl

/-- STREAM_CHANGE is raised by the samples alone (R92). -/
theorem flag_frameStart_stream (e : FrameEvent) (s : State) {i : Nat} (hi : i < 16) :
    (frameStart e s).flag (10 + i) = true ↔
      s.flag (10 + i) = true ∨ (s.sv.sups.get i).state.changes (s.sv.sampled e.sf i).state = true := by
  have hstart : (frameStart e s).flag (10 + i) = (frameStartMap e s).flag (10 + i) :=
    flag_startEngines_above e (s.applicationDue e) (frameStartMap e s) (Nat.le_add_right 10 i)
  have hlt : ∀ k < 10, k ≠ 10 + i := by omega
  rw [hstart, frameStartMap, flag_applyIf_of_ne _ _ (hlt srcCommitDone (by decide)), flag_leaseCountdown,
    decide_eq_false (hlt 2 (by decide)), Bool.and_false, Bool.or_false]
  exact flag_raiseStreams_stream _ _ hi

/-- Settles O11: the sample of an enabled supervisor, by its state and its input. -/
theorem supervisorsSampleAtFrameStart : Obligations.SupervisorsSampleAtFrameStart := by
  intro e s hr
  refine ⟨frameStart e s, taken_of_running hr _, fun i hi => ⟨fun hoff => ?_, fun hon input hinput => ?_⟩⟩
  · have hsame := Supervisors.sampled_of_disabled hoff e.sf
    refine ⟨(sups_frameStart e s hi).trans hsame, Bool.eq_iff_iff.mpr ?_⟩
    rw [flag_frameStart_stream e s hi, hsame, changes_iff]
    refine or_iff_left ?_
    rintro (⟨heq, hne⟩ | ⟨heq, hfault | ⟨k, hfault⟩⟩)
    · exact hne heq
    · simp [heq] at hfault
    · simp [heq] at hfault
  · have hsup : (frameStart e s).sv.sups.get i =
        { state := (s.sv.sups.get i).state.sample s.sv.decl s.sv.clrc input, lastSample := some input } := by
      rw [sups_frameStart e s hi, Supervisors.sampled_of_enabled hon, hinput]
      rfl
    refine ⟨by rw [hsup], ?_, ?_⟩
    · rw [hsup]
      cases (s.sv.sups.get i).state <;> cases input <;> rfl
    · rw [flag_frameStart_stream e s hi, ← sups_frameStart e s hi, changes_iff]

/-! ### Runs of equal samples (R90) -/

/-- A state that counts equal samples goes over to another state at the limit, and stays there. -/
theorem count_run {w : Nat} {limit : BitVec w} {step : SvState → SvState} {start done : SvState}
    {counting : BitVec w → SvState} (hstart : step start = if limit = 1 then done else counting 1)
    (hcounting : ∀ c, step (counting c) = if limit.toNat ≤ c.toNat + 1 then done else counting (c + 1))
    (hdone : step done = done) (hlimit : limit ≠ 0) {x : Nat → SvState} {n : Nat} (h0 : x 0 = start)
    (hstep : ∀ k < n, x (k + 1) = step (x k)) :
    ∀ k, 0 < k → k ≤ n → x k = if k < limit.toNat then counting (BitVec.ofNat w k) else done := by
  have hpos : limit.toNat ≠ 0 := fun h => hlimit (BitVec.eq_of_toNat_eq (h.trans BitVec.toNat_zero.symm))
  have hlt := limit.isLt
  intro k
  induction k with
  | zero => exact fun h => absurd h (Nat.lt_irrefl 0)
  | succ k ih =>
    intro _ hk
    rw [hstep k hk]
    rcases k.eq_zero_or_pos with rfl | hk0
    · have hone : limit = 1 ↔ ¬1 < limit.toNat := by
        have htoNat : (1 : BitVec w).toNat = 1 :=
          Nat.mod_eq_of_lt (Nat.lt_of_le_of_lt (Nat.one_le_iff_ne_zero.mpr hpos) hlt)
        rw [← BitVec.toNat_inj, htoNat]
        omega
      rw [h0, hstart, if_congr hone rfl rfl, ite_not]
      rfl
    · rw [ih hk0 (Nat.le_of_succ_le hk)]
      by_cases hcount : k < limit.toNat
      · have htoNat : (BitVec.ofNat w k).toNat = k := Nat.mod_eq_of_lt (by omega)
        rw [if_pos hcount, hcounting, htoNat, ← ite_not, if_congr Nat.not_le rfl rfl, BitVec.ofNat_add]
        rfl
      · rw [if_neg hcount, if_neg (by omega), hdone]

section
variable {f : Nat → State} {e : Nat → FrameEvent} {i n : Nat}
  (hrun : ∀ k < n, (f k).inReset = false ∧ exec (.frameStart (e k)) (f k) = .next (f (k + 1)))
include hrun

theorem run_succ {k : Nat} (hk : k < n) : f (k + 1) = frameStart (e k) (f k) := by
  obtain ⟨hr, hexec⟩ := hrun k hk
  exact (Host.Outcome.next.inj ((taken_of_running hr _).symm.trans hexec)).symm

/-- Frame starts leave the settings of the supervisors. -/
theorem run_settings {k : Nat} (hk : k ≤ n) : (f k).sv = { (f 0).sv with sups := (f k).sv.sups } := by
  induction k with
  | zero => rfl
  | succ k ih =>
    rw [run_succ hrun hk, frameStart_sv, ih (by omega)]

/-- In a run of frame starts, an enabled supervisor takes a sample at each. -/
theorem run_sample (hi : i < 16) (hon : (f 0).sv.sven.getLsbD i = true) {k : Nat} (hk : k < n) :
    ((f (k + 1)).sv.sups.get i).state = ((f k).sv.sups.get i).state.sample (f 0).sv.decl (f 0).sv.clrc
      ((e k).sf.getLsbD i || (f 0).sv.svfrc.getLsbD i) := by
  have hset := run_settings hrun (Nat.le_of_lt hk)
  have hon' : (f k).sv.sven.getLsbD i = true := by rwa [hset]
  rw [run_succ hrun hk, sups_frameStart (e k) (f k) hi, Supervisors.sampled_of_enabled hon', Supervisors.input, hset]

end

/-- Settles O12: SUSPECT counts the asserted samples up to DECL, and RECOVERING the deasserted ones up to CLRC. -/
theorem consecutiveSamplesDeclareAndClear : Obligations.ConsecutiveSamplesDeclareAndClear := by
  intro f e i n hi hrun hon
  refine ⟨fun hinput h0 hdecl => ?_, fun hinput h0 hclrc => ?_⟩
  · refine count_run (step := .asserted (f 0).sv.decl) rfl (fun _ => rfl) rfl hdecl h0 fun k hk => ?_
    rw [run_sample hrun hi hon hk, (Bool.or_eq_true ..).mpr (hinput k hk)]
    rfl
  · refine count_run (step := .deasserted (f 0).sv.clrc) rfl (fun _ => rfl) rfl hclrc h0 fun k hk => ?_
    obtain ⟨hsf, hfrc⟩ := hinput k hk
    rw [run_sample hrun hi hon hk, hsf, hfrc]
    rfl

end Sys2Proof.Machine
end

