-- ==== Sys2Proof/Proofs/HoldStore.lean ====
section
/-! The hold bytes at a frame start (R98, R99): the update by the frame that ends, then the application of a commit. -/

namespace Sys2Proof.Machine

/-! ### The update by the frame that ends (R98) -/

/-- A slot was sent in full where the frame holds its byte and the frame start does not cut it off (R3, R98). -/
theorem sentInFull_iff (s : State) (e : FrameEvent) (i : Nat) :
    s.oa.sentInFull e.cut i = true ↔ s.oa.frame.get i ≠ none ∧ ¬s.cutsOff e i := by
  have hcut : (e.cut && s.oa.noneAfter (slotOf i)) = true ↔ s.cutsOff e i := by
    show _ ↔ e.cut = true ∧ ∀ o < 16, s.oa.next.get o ≤ slotOf i + 1
    simp [OutputAssembler.noneAfter]
  rw [OutputAssembler.sentInFull, Bool.and_eq_true, Option.isSome_iff_ne_none, Bool.not_eq_true', ← Bool.not_eq_true,
    hcut]

/-- The byte sent for a SWITCHED slot whose source's frame state was CLEAR becomes its hold byte. -/
theorem heldByte_of_sent {s : State} {e : FrameEvent} {i src w m : Nat} {d : Delay} {inv : Bool} {c : Conditioning}
    {b : Byte} (hentry : s.activeEntry i = .switched src d inv c w m)
    (hclear : s.oa.frameState.get (streamOf src) = .clear) (hbyte : s.oa.frame.get i = some b) (hcut : ¬s.cutsOff e i) :
    heldByte s e.cut i = b := by
  have hsent : s.oa.sentInFull e.cut i = true := (sentInFull_iff s e i).mpr ⟨by simp [hbyte], hcut⟩
  rw [heldByte, hentry]
  exact (if_pos ⟨hclear, hsent⟩).trans (by rw [hbyte, Option.getD_some])

/-- A slot that is not SWITCHED, has a source outside CLEAR, or was not sent in full keeps its hold byte. -/
theorem heldByte_of_kept {s : State} {e : FrameEvent} {i : Nat}
    (h : ∀ src d inv c w m, s.activeEntry i = .switched src d inv c w m →
      s.oa.frameState.get (streamOf src) ≠ .clear ∨ s.oa.frame.get i = none ∨ s.cutsOff e i) :
    heldByte s e.cut i = s.hold.get i := by
  unfold heldByte
  split
  · next src d inv c w m hentry =>
    refine if_neg fun ⟨hclear, hsent⟩ => ?_
    obtain ⟨hbyte, hcut⟩ := (sentInFull_iff s e i).mp hsent
    rcases h src d inv c w m hentry with hne | hnone | hcuts
    · exact hne hclear
    · exact hbyte hnone
    · exact hcut hcuts
  · rfl

/-! ### The application of a commit (R99) -/

theorem applyHold_get (idle : Byte) (old new : Table Entry 10) (hold : Table Byte 10) {i : Nat} (hi : i < 1024) :
    (applyHold idle old new hold).get i = if new.get i = old.get i then hold.get i else idle :=
  Table.get_tabulate_of_lt (d := 10) (fun i => if new.get i = old.get i then hold.get i else idle) hi

theorem frameStart_hold (e : FrameEvent) (s : State) :
    (frameStart e s).hold =
      if s.applicationDue e = true then
        applyHold s.oa.idlec s.cm.active (applyJournal s.cm.active s.cj.journal) (updateHold e.cut s).hold
      else (updateHold e.cut s).hold := by
  cases hdue : s.applicationDue e <;> simp [frameStart, frameStartMap, hdue, applyIf, applyCommit, takeIdleCode] <;> rfl

/-- Under the journal law, an application sets the hold byte of each slot whose entry it changes. -/
theorem frameStart_hold_get {s : State} (hlaw : s.JournalLaw) (e : FrameEvent) {i : Nat} (hi : i < 1024) :
    (frameStart e s).hold.get i =
      if s.applicationDue e = true ∧ s.effective i ≠ s.activeEntry i then s.oa.idlec else heldByte s e.cut i := by
  obtain ⟨-, hjournal, hnodup, -⟩ := hlaw
  have heff : (applyJournal s.cm.active s.cj.journal).get i = s.effective i :=
    applyJournal_get hi s.cm.active hnodup fun x hx => (hjournal x hx).1
  have hheld : (updateHold e.cut s).hold.get i = heldByte s e.cut i := Table.get_tabulate_of_lt (d := 10) _ hi
  rw [frameStart_hold]
  by_cases hdue : s.applicationDue e = true
  · rw [if_pos hdue, applyHold_get _ _ _ _ hi, heff, hheld, ← ite_not]
    exact if_congr (and_iff_right hdue).symm rfl rfl
  · rw [if_neg hdue, if_neg fun h => hdue h.1, hheld]

/-- Settles O16: the application comes after the update, and overwrites it where it changes the entry. -/
theorem holdBytesAtFrameStart : Obligations.HoldBytesAtFrameStart := by
  intro e s hr hlaw
  refine ⟨frameStart e s, taken_of_running hr _, fun i hi => ?_⟩
  rw [frameStart_hold_get hlaw e hi, ← applicationDue_iff]
  refine ⟨fun h => if_pos h, fun h => ?_⟩
  rw [if_neg h]
  exact ⟨fun _ _ _ _ _ _ _ hentry hclear hbyte hcut => heldByte_of_sent hentry hclear hbyte hcut, heldByte_of_kept⟩

end Sys2Proof.Machine
end

