-- ==== Sys2Proof/Proofs/EngineInspection.lean ====
section
/-! Inspections of engines, counters, snapshots, results and supervisors, and of records that do not exist. -/

namespace Sys2Proof.Machine

/-! ### Codes of the records (Table 10-6) -/

theorem pattern_value {p : Pattern} {code : Nat} (h : (p, code) ∈ patternCodes) : code = p.value := by
  have hall : ∀ x ∈ patternCodes, x.2 = x.1.value := by decide
  exact hall _ h

theorem unit_value {u : DurationUnit} {code : Nat} (h : (u, code) ∈ unitCodes) : code = u.value := by
  have hall : ∀ x ∈ unitCodes, x.2 = x.1.value := by decide
  exact hall _ h

theorem eq_runName_value {run : RunName → Nat} (h : run .idle = 0 ∧ run .running = 1 ∧ run .ended = 2) :
    run = RunName.value := by
  obtain ⟨hidle, hrunning, hended⟩ := h
  funext r
  cases r with
  | idle => exact hidle
  | running => exact hrunning
  | ended => exact hended

theorem eq_checkerName_value {chk : CheckerName → Nat}
    (h : chk .off = 0 ∧ chk .hunting = 1 ∧ chk .confirming = 2 ∧ chk .locked = 3) : chk = CheckerName.value := by
  obtain ⟨hoff, hhunting, hconfirming, hlocked⟩ := h
  funext c
  cases c with
  | off => exact hoff
  | hunting => exact hhunting
  | confirming => exact hconfirming
  | locked => exact hlocked

/-! ### Result records -/

theorem resultCopy_of_some {s : State} {i : Nat} {r : ResultRecord} (h : s.rq.queue[i / 2]? = some r) :
    resultCopy s i = some (if i % 2 = 0 then resultWords0 r else resultWords1 r) := by
  rw [resultCopy, h]
  rfl

theorem resultCopy_of_le {s : State} {i : Nat} (h : 2 * s.rq.queue.length ≤ i) : resultCopy s i = none := by
  have hpos : s.rq.queue.length ≤ i / 2 := by omega
  rw [resultCopy, List.getElem?_eq_none hpos]
  rfl

/-! ### Supervisors (R102) -/

theorem supervisorWords_eq (v : Supervisors) (sf : Word) (i : Nat) :
    supervisorWords v sf i =
      ⟨word ((v.sups.get i).state.value + 256 * (v.sups.get i).state.count),
        word ((if v.sven.getLsbD i = true then 1 else 0) + (if v.svfrc.getLsbD i = true then 2 else 0) +
          16 * sampleValue (v.sups.get i).lastSample + (if sf.getLsbD i = true then 256 else 0)),
        word v.decl.toNat, word v.clrc.toNat, 0, 0, 0, 0⟩ := by
  rw [supervisorWords, setWidth_eq_word, setWidth_eq_word]
  simp only [bitValue_eq, mul_ite, mul_one, mul_zero, Nat.reducePow]

/-- An INSA write at given levels of the SF lines, which selector 10 alone shows (R102, R175). -/
theorem taken_inspectAt {s u : State} {sel : BitVec 5} {x : BitVec 11} {sf : Word} {copy : Option DataWords}
    (hr : s.inReset = false) (hu : u = if sel = 10 then { s with pins := { s.pins with sf := sf } } else s)
    (hcopy : tableCopy u sel.toNat x.toNat = copy) :
    taken s (inspectAt (insaWord sel x) sf) = .next (u.inspected sel x copy) := by
  have hsel : field (insaWord sel x) 11 5 = 10 ↔ sel = 10 := by
    rw [field_selector, ← BitVec.toNat_inj]
    rfl
  rw [taken_of_running hr, inspectAt, if_congr hsel rfl rfl, ← hu, writeInsa, field_selector, field_index, hcopy]
  rfl

/-! ### Records that do not exist (R175) -/

theorem tableCopy_of_no_table (s : State) {selector : Nat} (h : 10 < selector) (i : Nat) :
    tableCopy s selector i = none := by
  unfold tableCopy
  split
  case h_12 => rfl
  all_goals exact absurd h (by decide)

/-- An INSA word names no record where its selector names no table, or where its index is out of the table's range. -/
theorem tableCopy_eq_none {s : State} {sel : BitVec 5} {i : Nat}
    (h : 10 < sel.toNat ∨ (sel.toNat ∈ [0, 1, 3, 9] ∧ 1024 ≤ i) ∨ (sel = 2 ∧ s.cj.journal.length ≤ i) ∨
      (sel = 4 ∧ 32 ≤ i) ∨ (sel = 5 ∧ 4 ≤ i) ∨ (sel.toNat ∈ [6, 7] ∧ 8 ≤ i) ∨
      (sel = 8 ∧ 2 * s.rq.queue.length ≤ i) ∨ (sel = 10 ∧ 16 ≤ i)) : tableCopy s sel.toNat i = none := by
  rcases h with h | ⟨hsel, h⟩ | ⟨rfl, h⟩ | ⟨rfl, h⟩ | ⟨rfl, h⟩ | ⟨hsel, h⟩ | ⟨rfl, h⟩ | ⟨rfl, h⟩
  · exact tableCopy_of_no_table s h i
  · simp only [List.mem_cons, List.not_mem_nil, or_false] at hsel
    rcases hsel with hsel | hsel | hsel | hsel <;> rw [hsel] <;> exact inRange_of_le h _
  · exact journalCopy_of_le h
  · exact inRange_of_le h _
  · exact inRange_of_le h _
  · simp only [List.mem_cons, List.not_mem_nil, or_false] at hsel
    rcases hsel with hsel | hsel <;> rw [hsel] <;> exact inRange_of_le h _
  · exact resultCopy_of_le h
  · exact inRange_of_le h _

/-- Settles O50, table by table. -/
theorem inspectEnginesResultsAndSupervisors : Obligations.InspectEnginesResultsAndSupervisors := by
  refine ⟨fun s x lo hi run chk hr hwords hrun hchk => ?_, fun s hr => ⟨fun x sf t ht => ⟨?_, fun h => ?_⟩, ?_⟩⟩
  · obtain rfl : lo = loWord := funext fun v => (hwords v).1
    obtain rfl : hi = hiWord := funext fun v => (hwords v).2
    obtain rfl := eq_runName_value hrun
    obtain rfl := eq_checkerName_value hchk
    refine ⟨?_, fun h => ?_, ?_, fun h => ?_, ?_, fun h => ?_, ?_, fun h => ?_⟩
    · rintro _ pattern unit h rfl hpattern hunit
      rw [pattern_value hpattern, unit_value hunit]
      exact taken_writeInsa hr (inRange_of_lt h _)
    · exact taken_writeInsa hr (inRange_of_le h _)
    · rintro _ _ h rfl rfl
      exact taken_writeInsa hr (inRange_of_lt h _)
    · exact taken_writeInsa hr (inRange_of_le h _)
    · rintro _ _ h rfl rfl
      exact taken_writeInsa hr (inRange_of_lt h _)
    · exact taken_writeInsa hr (inRange_of_le h _)
    · rintro r _ h rfl
      refine taken_writeInsa hr ((resultCopy_of_some h).trans ?_)
      unfold resultWords0
      cases r.outcome <;> rfl
    · exact taken_writeInsa hr (resultCopy_of_le h)
  · rintro _ code count rfl h hstate
    refine taken_inspectAt hr ht ((inRange_of_lt h _).trans ?_)
    subst ht
    rw [supervisorWords_eq]
    obtain ⟨rfl, rfl⟩ : code = (s.sv.sups.get x.toNat).state.value ∧ count = (s.sv.sups.get x.toNat).state.count := by
      cases hst : (s.sv.sups.get x.toNat).state <;> rw [hst] at hstate <;> exact Prod.mk.inj hstate
    rcases (s.sv.sups.get x.toNat).lastSample with _ | _ | _ <;> rfl
  · exact taken_inspectAt hr ht (inRange_of_le h _)
  · intro sel x sf h
    refine taken_inspectAt hr rfl (tableCopy_eq_none ?_)
    split <;> exact h

end Sys2Proof.Machine
end

