-- ==== Sys2Proof/Proofs/EngineCommands.lean ====
section
/-! CONFIGURE ENGINE, INJECT and SNAPSHOT: the configuration that parameters give, and the answers. -/

namespace Sys2Proof.Machine

/-! ### The configuration that parameters give (R105, R174) -/

theorem patternOf_eq_none {n : Nat} : patternOf n = none ↔ 3 < n := by
  match n with
  | 0 | 1 | 2 | 3 => simp [patternOf]
  | n + 4 => simp [patternOf]

theorem unitOf_eq_none {n : Nat} : unitOf n = none ↔ 1 < n := by
  match n with
  | 0 | 1 => simp [unitOf]
  | n + 2 => simp [unitOf]

theorem mem_patternCodes {n : Nat} {pattern : Pattern} (h : patternOf n = some pattern) :
    (pattern, n) ∈ patternCodes := by
  unfold patternOf at h
  split at h <;> cases h <;> decide

theorem mem_unitCodes {n : Nat} {unit : DurationUnit} (h : unitOf n = some unit) : (unit, n) ∈ unitCodes := by
  unfold unitOf at h
  split at h <;> cases h <;> decide

theorem eq_true_iff_of_invertOf {n : Nat} {b : Bool} (h : invertOf n = some b) : b = true ↔ n = 1 := by
  unfold invertOf at h
  split at h <;> cases h <;> decide

/-- The parameters of CONFIGURE ENGINE give configuration `c`: every field names the value of `c`, and these pass the
check. -/
structure Params.Gives (p : Params) (c : EngineConfig) : Prop where
  pattern : patternOf (field p.p0 3 3) = some c.pattern
  invert : invertOf (field p.p0 6 2) = some c.invert
  unit : unitOf (field p.p0 8 2) = some c.unit
  word : c.word = p.p2 ++ p.p1
  len : c.len = field p.p0 10 6
  chkSlot : c.chkSlot = field p.p3 0 8
  chkWidth : c.chkWidth = field p.p3 8 5
  lossThreshold : c.lossThreshold = field p.p4 0 8
  chkStream : c.chkStream = field p.p4 8 5
  duration : c.duration = p.p5
  ok : c.Ok

theorem gives_of_configOf {p : Params} {c : EngineConfig} (h : configOf p = some c) : p.Gives c := by
  unfold configOf at h
  split at h
  · next pattern invert unit hpattern hinvert hunit =>
    dsimp only at h
    split at h
    · next hlegal =>
      obtain ⟨hlen, hlen32, hstream, hfirst, hwidth, hfit, hthreshold, hthreshold64⟩ := hlegal
      cases h
      refine ⟨hpattern, hinvert, hunit, rfl, rfl, rfl, rfl, rfl, rfl, rfl, hlen, hlen32, hstream, hfirst, hwidth, ?_,
        hthreshold, hthreshold64⟩
      dsimp only
      omega
    · cases h
  · cases h

/-- Fields that each name a legal value give a configuration. -/
theorem exists_configOf {p : Params} (hpattern : field p.p0 3 3 ≤ 3) (hunit : field p.p0 8 2 ≤ 1)
    (hinvert : field p.p0 6 2 ≤ 1) (hlen : 8 ≤ field p.p0 10 6) (hlen32 : field p.p0 10 6 ≤ 32)
    (hstream : field p.p4 8 5 ≤ 15) (hfirst : field p.p3 0 8 ≤ 63) (hwidth : field p.p3 8 5 ≤ 16)
    (hfit : 1 ≤ field p.p3 8 5 → field p.p3 0 8 + field p.p3 8 5 ≤ 64) (hthreshold : 1 ≤ field p.p4 0 8)
    (hthreshold64 : field p.p4 0 8 ≤ 64) : ∃ c, configOf p = some c := by
  obtain ⟨pattern, hpattern⟩ := Option.ne_none_iff_exists'.mp (patternOf_eq_none.not.mpr (Nat.not_lt.mpr hpattern))
  obtain ⟨unit, hunit⟩ := Option.ne_none_iff_exists'.mp (unitOf_eq_none.not.mpr (Nat.not_lt.mpr hunit))
  obtain ⟨invert, hinvert⟩ := Option.ne_none_iff_exists'.mp (invertOf_eq_none.not.mpr (Nat.not_lt.mpr hinvert))
  have hlast : field p.p3 8 5 = 0 ∨ field p.p3 0 8 + field p.p3 8 5 - 1 ≤ 63 := by omega
  simp only [configOf, hpattern, hinvert, hunit]
  exact ⟨_, if_pos ⟨hlen, hlen32, hstream, hfirst, hwidth, hlast, hthreshold, hthreshold64⟩⟩

/-- A field that names no legal value gives none. -/
theorem configOf_eq_none {p : Params} (h : 3 < field p.p0 3 3 ∨ 1 < field p.p0 8 2 ∨ 1 < field p.p0 6 2 ∨
      field p.p0 10 6 < 8 ∨ 32 < field p.p0 10 6 ∨ 15 < field p.p4 8 5 ∨ 63 < field p.p3 0 8 ∨ 16 < field p.p3 8 5 ∨
      (1 ≤ field p.p3 8 5 ∧ 64 < field p.p3 0 8 + field p.p3 8 5) ∨ field p.p4 0 8 = 0 ∨ 64 < field p.p4 0 8) :
    configOf p = none := by
  refine Option.eq_none_iff_forall_ne_some.mpr fun c hc => ?_
  have hgives := gives_of_configOf hc
  obtain ⟨hlen, hlen32, hstream, hfirst, hwidth, hfit, hthreshold, hthreshold64⟩ := hgives.ok
  rw [hgives.len] at hlen hlen32
  rw [hgives.chkStream] at hstream
  rw [hgives.chkSlot] at hfirst hfit
  rw [hgives.chkWidth] at hwidth hfit
  rw [hgives.lossThreshold] at hthreshold hthreshold64
  rcases h with h | h | h | h
  · exact absurd (patternOf_eq_none.mpr h) (by rw [hgives.pattern]; nofun)
  · exact absurd (unitOf_eq_none.mpr h) (by rw [hgives.unit]; nofun)
  · exact absurd (invertOf_eq_none.mpr h) (by rw [hgives.invert]; nofun)
  · omega

/-! ### CONFIGURE ENGINE (R105) -/

section
variable {s : State} {p : Params}

theorem configureCommand_of_no_engine (h : 3 < configEngine p) :
    configureCommand p s = s.answered .badParameter 0 0 0 0 := if_neg (Nat.not_le.mpr h)

theorem configureCommand_of_bad (hn : configEngine p ≤ 3) (h : configOf p = none) :
    configureCommand p s = s.answered .badParameter (word (configEngine p)) 0 0 0 := by
  rw [configureCommand, if_pos hn, h]
  rfl

theorem configureCommand_of_busy (hn : configEngine p ≤ 3) {cfg : EngineConfig} (h : configOf p = some cfg)
    {run : RunName} (hrun : (s.engine (configEngine p)).run.name = run) (hbusy : run ≠ .idle) :
    configureCommand p s = s.answered .engineBusy (word (configEngine p)) (word run.value) 0 0 := by
  have hidle := run_ne_idle hrun hbusy
  rw [configureCommand, if_pos hn, h, ← hrun]
  dsimp only
  split
  · contradiction
  · rfl

theorem configureCommand_of_idle (hn : configEngine p ≤ 3) {cfg : EngineConfig} (h : configOf p = some cfg)
    (hrun : (s.engine (configEngine p)).run = .idle) :
    configureCommand p s =
      (s.setEngine (configEngine p) { s.engine (configEngine p) with cfg := cfg }).answered .ok
        (word (configEngine p)) 0 0 0 := by
  rw [configureCommand, if_pos hn, h]
  simp only [hrun]
  rfl

end

/-- Settles O38, by the answers of the command and the configuration that its parameters give. -/
theorem configureEngineCommand : Obligations.ConfigureEngineCommand := by
  rintro s p n pattern invert unit len first width threshold stream hc rfl rfl rfl rfl rfl rfl rfl rfl rfl
  have hexec : exec .configureEngine s = .next (configureCommand p s) := completion_of_commanded hc configureCommand
  rw [hexec]
  refine ⟨fun h => congrArg _ (configureCommand_of_no_engine h), fun hn => ⟨fun hbad => congrArg _
    (configureCommand_of_bad hn (configOf_eq_none hbad)), ?_⟩⟩
  intro hpattern hunit hinvert hlen hlen32 hstream hfirst hwidth hfit hthreshold hthreshold64
  obtain ⟨cfg, hcfg⟩ := exists_configOf hpattern hunit hinvert hlen hlen32 hstream hfirst hwidth hfit hthreshold
    hthreshold64
  have hgives := gives_of_configOf hcfg
  exact ⟨fun hr => congrArg _ (configureCommand_of_busy hn hcfg hr nofun), fun hr => congrArg _
    (configureCommand_of_busy hn hcfg hr nofun), fun hr => ⟨cfg, congrArg _ (configureCommand_of_idle hn hcfg hr),
    mem_patternCodes hgives.pattern, eq_true_iff_of_invertOf hgives.invert, hgives.word, hgives.len, hgives.chkStream,
    hgives.chkSlot, hgives.chkWidth, hgives.lossThreshold, hgives.duration, mem_unitCodes hgives.unit⟩⟩

/-! ### INJECT (R114) -/

theorem RunState.isRunning_iff (r : RunState) : r.isRunning = true ↔ r.name = .running := by
  cases r with
  | idle | ended => exact ⟨nofun, nofun⟩
  | running => exact ⟨fun _ => rfl, fun _ => rfl⟩

section
variable {s : State} {p : Params}

theorem injectCommand_of_no_engine (h : 3 < p.p0.toNat) : injectCommand p s = s.answered .badParameter 0 0 0 0 := by
  have hn : ¬p.p0.toNat ≤ 3 := Nat.not_le.mpr h
  simp only [injectCommand, hn, false_and, if_false]
  rfl

theorem injectCommand_of_bad (hn : p.p0.toNat ≤ 3) (h : p.p1.toNat = 0 ∨ 255 < p.p1.toNat) :
    injectCommand p s = s.answered .badParameter (word p.p0.toNat) 0 0 0 := by
  have hcount : ¬(p.p0.toNat ≤ 3 ∧ 1 ≤ p.p1.toNat ∧ p.p1.toNat ≤ 255) := by omega
  simp only [injectCommand, if_neg hcount, if_pos hn]
  rfl

theorem injectCommand_of_not_running (hn : p.p0.toNat ≤ 3) (hcount : 1 ≤ p.p1.toNat ∧ p.p1.toNat ≤ 255)
    {run : RunName} (hrun : (s.engine p.p0.toNat).run.name = run) (hstill : run ≠ .running) :
    injectCommand p s = s.answered .engineNotRunning (word p.p0.toNat) (word run.value) 0 0 := by
  rw [← hrun] at hstill ⊢
  simp only [injectCommand, if_pos (And.intro hn hcount), if_neg ((RunState.isRunning_iff _).not.mpr hstill)]
  rfl

theorem injectCommand_of_running (hn : p.p0.toNat ≤ 3) (hcount : 1 ≤ p.p1.toNat ∧ p.p1.toNat ≤ 255)
    (hrun : (s.engine p.p0.toNat).run.name = .running) {count : Nat}
    (h : count = min ((s.engine p.p0.toNat).gen.pendingInj + p.p1.toNat) 255) :
    injectCommand p s =
      (s.setEngine p.p0.toNat { s.engine p.p0.toNat with
          gen := { (s.engine p.p0.toNat).gen with pendingInj := count } }).answered .ok (word p.p0.toNat) (word count)
        (word ((s.engine p.p0.toNat).gen.pendingInj + p.p1.toNat - 255)) 0 := by
  simp only [injectCommand, if_pos (And.intro hn hcount), if_pos ((RunState.isRunning_iff _).mpr hrun), h]
  rfl

/-! ### SNAPSHOT (R135) -/

theorem runCode_eq {e : Engine} {run : RunName} (h : e.run.name = run) : runCode e = word run.value := by
  rw [runCode, h]

theorem snapshotCommand_of_no_engine (h : 3 < p.p0.toNat) :
    snapshotCommand p s = s.answered .badParameter 0 0 0 0 := if_neg (Nat.not_le.mpr h)

theorem snapshotCommand_of_engine (hn : p.p0.toNat ≤ 3) :
    snapshotCommand p s =
      (s.setEngine p.p0.toNat { s.engine p.p0.toNat with
          snap := snapshotOf (s.engine p.p0.toNat) s.fcnt }).answered .ok (word p.p0.toNat)
        (s.engine p.p0.toNat).lastRun (runCode (s.engine p.p0.toNat)) 0 := if_pos hn

end

/-- Settles O41, by the answers of the two commands. -/
theorem injectAndSnapshotCommands : Obligations.InjectAndSnapshotCommands := by
  constructor
  · rintro s p n c hc rfl rfl
    have hexec : exec .inject s = .next (injectCommand p s) := completion_of_commanded hc injectCommand
    rw [hexec]
    refine ⟨fun h => congrArg _ (injectCommand_of_no_engine h), fun hn => ⟨fun h => congrArg _
      (injectCommand_of_bad hn h), fun hpos hle => ⟨fun hr => ?_, fun hr => ?_, fun count hr h => ?_⟩⟩⟩
    · exact congrArg _ (injectCommand_of_not_running hn ⟨hpos, hle⟩ hr nofun)
    · exact congrArg _ (injectCommand_of_not_running hn ⟨hpos, hle⟩ hr nofun)
    · exact congrArg _ (injectCommand_of_running hn ⟨hpos, hle⟩ hr h)
  · rintro s p n hc rfl
    have hexec : exec .snapshot s = .next (snapshotCommand p s) := completion_of_commanded hc snapshotCommand
    rw [hexec]
    refine ⟨fun h => congrArg _ (snapshotCommand_of_no_engine h), fun hn => ⟨_, congrArg _
      (snapshotCommand_of_engine hn), runCode_eq, runCode_eq, runCode_eq⟩⟩

end Sys2Proof.Machine
end

