-- ==== Sys2Proof/Proofs/TestChanges.lean ====
section
/-! What a command can do to the test engines and the result queue: `TestChange` lists it, and every command makes one
of its changes. -/

namespace Sys2Proof.Machine

/-! ### Commands that leave the engines and the queue alone -/

/-- `t` has the test engines and the result queue of `s`. -/
structure SameTests (s t : State) : Prop where
  te : t.te = s.te
  rq : t.rq = s.rq

namespace SameTests

theorem refl (s : State) : SameTests s s := ⟨rfl, rfl⟩

/-! Staging, commits and reservations -/

theorem stage (plan : Plan) (tag : Word) (needIdle : Bool) (engine : Option Nat) (s : State) :
    SameTests s (stage plan tag needIdle engine s) := by
  rcases stage_cases plan tag needIdle engine s with ⟨c, r1, r2, heq, -⟩ | ⟨record, -, heq⟩
  · rw [heq]
    exact ⟨rfl, rfl⟩
  · rw [heq]
    exact ⟨rfl, rfl⟩

theorem stageChecked (plan : Option Plan) (tag : Word) (engine : Option Nat) (s : State) :
    SameTests s (stageChecked plan tag engine s) := by
  unfold Machine.stageChecked
  split
  · exact ⟨rfl, rfl⟩
  · split
    · exact ⟨rfl, rfl⟩
    · exact stage ..

theorem disconnect (p : Params) (s : State) : SameTests s (disconnect p s) := by
  unfold Machine.disconnect
  split
  · split
    · exact ⟨rfl, rfl⟩
    · dsimp only
      split
      · exact ⟨rfl, rfl⟩
      · split
        · exact ⟨rfl, rfl⟩
        · exact stage ..
  · exact ⟨rfl, rfl⟩

theorem commitCommand (p : Params) (s : State) : SameTests s (commitCommand p s) := by
  unfold Machine.commitCommand
  split
  · exact ⟨rfl, rfl⟩
  · split <;> exact ⟨rfl, rfl⟩

theorem cancelCommand (s : State) : SameTests s (cancelCommand s) := by
  unfold Machine.cancelCommand
  split <;> exact ⟨rfl, rfl⟩

theorem discardCommand (s : State) : SameTests s (discardCommand s) := by
  unfold Machine.discardCommand
  split <;> exact ⟨rfl, rfl⟩

theorem reserveCommand (p : Params) (s : State) : SameTests s (reserveCommand p s) := by
  unfold Machine.reserveCommand
  dsimp only
  split
  · split
    · exact ⟨rfl, rfl⟩
    · split <;> exact ⟨rfl, rfl⟩
  · exact ⟨rfl, rfl⟩

theorem huntCommand (p : Params) (s : State) : SameTests s (huntCommand p s) := by
  unfold Machine.huntCommand
  split
  · split
    · exact ⟨rfl, rfl⟩
    · split
      · split <;> exact ⟨rfl, rfl⟩
      · exact ⟨rfl, rfl⟩
  · exact ⟨rfl, rfl⟩

theorem releaseCommand (p : Params) (s : State) : SameTests s (releaseCommand p s) := by
  unfold Machine.releaseCommand
  split
  · split
    · exact ⟨rfl, rfl⟩
    · split <;> exact ⟨rfl, rfl⟩
    · split <;> exact ⟨rfl, rfl⟩
  · exact ⟨rfl, rfl⟩

theorem renewCommand (p : Params) (s : State) : SameTests s (renewCommand p s) := by
  unfold Machine.renewCommand
  split
  · split
    · exact ⟨rfl, rfl⟩
    · split <;> exact ⟨rfl, rfl⟩
    · split <;> exact ⟨rfl, rfl⟩
  · exact ⟨rfl, rfl⟩

theorem unknownCompletion (s : State) : SameTests s (unknownCompletion s) := by
  unfold Machine.unknownCompletion
  split
  · split
    · exact refl s
    · exact ⟨rfl, rfl⟩
  · exact refl s

/-! Register writes -/

theorem writeCmd (v : Word) (s : State) : SameTests s (writeCmd v s) := by
  unfold Machine.writeCmd
  split <;> exact ⟨rfl, rfl⟩

theorem writeCmdstat (v : Word) (s : State) : SameTests s (writeCmdstat v s) := by
  unfold Machine.writeCmdstat
  split <;> exact ⟨rfl, rfl⟩

theorem writeFolim (v : Word) (s : State) : SameTests s (writeFolim v s) := by
  unfold Machine.writeFolim
  split <;> exact ⟨rfl, rfl⟩

theorem writeSven (v : Word) (s : State) : SameTests s (writeSven v s) := by
  rw [writeSven_eq]
  exact ⟨rfl, rfl⟩

theorem writeIthr (v : Word) (s : State) : SameTests s (writeIthr v s) := by
  unfold Machine.writeIthr
  split <;> exact ⟨rfl, rfl⟩

theorem inspectAt (v sf : Word) (s : State) : SameTests s (inspectAt v sf s) := ⟨inspectAt_te .., inspectAt_rq ..⟩

theorem writeWord (address : Nat) (v sf : Word) (s : State) : SameTests s (writeWord address v sf s) := by
  unfold Machine.writeWord
  split
  case h_1 => exact writeCmd v s
  case h_8 => exact writeCmdstat v s
  case h_10 => exact writeFolim v s
  case h_11 => exact writeSven v s
  case h_27 => exact writeIthr v s
  case h_28 => exact inspectAt v sf s
  all_goals exact ⟨rfl, rfl⟩

theorem busWrite (cycle : BusCycle) (address : Nat) (w : BusWord) (s : State) :
    SameTests s (busWrite cycle address w s) := by
  cases cycle with
  | whole => exact writeWord address w.value w.sf s
  | endedEarly | bothStrobes => exact refl s

end SameTests

/-! ### What a command can do -/

/-- Everything that a command can do to the test engines and the result queue. -/
inductive TestChange (s : State) : State → Prop
  | same {t : State} (h : SameTests s t) : TestChange s t
  | configured (p : Params) : TestChange s (configureCommand p s)
  | started (p : Params) : TestChange s (startCommand p s)
  | stopped (p : Params) : TestChange s (stopCommand p s)
  | injected (p : Params) : TestChange s (injectCommand p s)
  | copied (p : Params) : TestChange s (snapshotCommand p s)
  | popped : TestChange s (popCommand s)
  | cleared : TestChange s (softResetCommand s)
  | frameStart (e : FrameEvent) : TestChange s (frameStart e s)
  | captured (stream slot : Nat) (b : Byte) : TestChange s (captureByte stream slot b s)
  | formed (stream slot : Nat) : TestChange s (formInOrder stream slot s)
  | reset (hold : ResetHold) : TestChange s (hardwareReset hold s)

namespace TestChange

theorem taken {f : State → State} (hf : ∀ s, TestChange s (f s)) {s t : State} (h : taken s f = .next t) :
    TestChange s t := by
  rcases taken_eq_next h with ⟨-, rfl⟩ | ⟨-, rfl⟩
  · exact hf s
  · exact .same (.refl _)

theorem completion {code : Byte} {f : Params → State → State} (hf : ∀ p s, TestChange s (f p s)) {s t : State}
    (h : completion code s f = .next t) : TestChange s t := by
  rcases completion_cases h with ⟨p, -, rfl⟩ | ⟨-, rfl⟩
  · exact hf p s
  · exact .same (.refl _)

/-- A frame-start row is the frame start where its occasion is there, and nothing otherwise (log 2). -/
theorem frameRow {e : FrameEvent} {due : State → Bool} {s t : State}
    (h : Machine.taken s (fun s => if due s then Machine.frameStart e s else s) = .next t) : TestChange s t := by
  refine taken (fun s => ?_) h
  split
  · exact .frameStart e
  · exact .same (.refl s)

/-- An event at a place, which faults where the place does not exist. -/
theorem checked {P : Prop} [Decidable P] {f : State → State} (hf : ∀ s, TestChange s (f s)) {s t : State}
    (h : (if P then Machine.taken s f else .fault .noSuchPlace) = .next t) : TestChange s t := by
  split at h
  · exact taken hf h
  · cases h

theorem resetNRelease {cause : ResetCause} {s t : State} (h : execResetNRelease cause true s = .next t) :
    TestChange s t := by
  unfold execResetNRelease at h
  split at h
  · split at h
    · next hshort => simp at hshort
    · cases h
      exact .same ⟨rfl, rfl⟩
  · cases h
    exact .same (.refl _)

/-- Every command but a release after too short a reset makes one of these changes. -/
theorem of_exec {c : Instr} {s t : State} (hc : c.isShortRelease = false) (h : exec c s = .next t) :
    TestChange s t := by
  cases c with
  | frameStart e => exact taken (fun _ => .frameStart e) h
  | leaseExpiry e => exact frameRow (due := fun s => s.sau.expiryDue) h
  | commitApplication e => exact frameRow (due := fun s => s.applicationDue e) h
  | durationExpiry e => exact frameRow (due := fun s => s.durationDue e) h
  | inputByteCapture stream slot b => exact checked (fun _ => .captured stream slot b) h
  | outputSlotFormation stream slot => exact checked (fun _ => .formed stream slot) h
  | connect => exact completion (fun p s => .same (.stageChecked (connectPlan p) p.p5 none s)) h
  | setConstant => exact completion (fun p s => .same (.stageChecked (constantPlan p) p.p5 none s)) h
  | setTest => exact completion (fun p s => .same (.stageChecked (testPlan p) p.p5 (some p.p4.toNat) s)) h
  | disconnect => exact completion (fun p s => .same (.disconnect p s)) h
  | commit => exact completion (fun p s => .same (.commitCommand p s)) h
  | cancel => exact completion (fun _ s => .same (.cancelCommand s)) h
  | discard => exact completion (fun _ s => .same (.discardCommand s)) h
  | reserve => exact completion (fun p s => .same (.reserveCommand p s)) h
  | hunt => exact completion (fun p s => .same (.huntCommand p s)) h
  | release => exact completion (fun p s => .same (.releaseCommand p s)) h
  | renew => exact completion (fun p s => .same (.renewCommand p s)) h
  | configureEngine => exact completion (fun p _ => .configured p) h
  | start => exact completion (fun p _ => .started p) h
  | stop => exact completion (fun p _ => .stopped p) h
  | inject => exact completion (fun p _ => .injected p) h
  | snapshot => exact completion (fun p _ => .copied p) h
  | pop => exact completion (fun _ _ => .popped) h
  | softReset => exact completion (fun _ _ => .cleared) h
  | unknownCommand => exact taken (fun s => .same (.unknownCompletion s)) h
  | commandOverrun v | commandTaken v => exact taken (fun s => .same (.writeCmd v s)) h
  | overrunFlagClear v => exact taken (fun s => .same (.writeCmdstat v s)) h
  | folimWrite v => exact taken (fun s => .same (.writeFolim v s)) h
  | svenWrite v => exact taken (fun s => .same (.writeSven v s)) h
  | ithrWrite v => exact taken (fun s => .same (.writeIthr v s)) h
  | expfClear k v => exact checked (f := writeExpf k v) (fun _ => .same ⟨rfl, rfl⟩) h
  | iflagClear k v => exact checked (f := writeIflag k v) (fun _ => .same ⟨rfl, rfl⟩) h
  | imaskWrite k v => exact checked (f := writeImask k v) (fun _ => .same ⟨rfl, rfl⟩) h
  | ilvlWrite k v => exact checked (f := writeIlvl k v) (fun _ => .same ⟨rfl, rfl⟩) h
  | inspectSupervisor x sf => exact taken (fun s => .same (.inspectAt _ _ s)) h
  | inspectInvalid w => exact taken (fun s => .same (.inspectAt _ _ s)) h
  | registerWrite cycle a w => exact taken (fun s => .same (.busWrite cycle a.toNat w s)) h
  | hardwareReset cause =>
    cases h
    exact .reset _
  | resetNRelease cause m =>
    obtain rfl : m = true := by simpa [Instr.isShortRelease] using hc
    exact resetNRelease h
  | idlecWrite | svfrcWrite | svthrWrite | inspectActiveEntry | inspectEffectiveEntry | inspectJournal | inspectFanOut |
    inspectReservation | inspectEngineConfiguration | inspectLiveCounters | inspectSnapshot | inspectResultQueue |
    inspectHoldByte =>
    refine taken (fun _ => .same ?_) h
    exact ⟨rfl, rfl⟩

end TestChange

/-! ### Steps -/

/-- A law that does not read the queue of commands, and that every change of the engines and the result queue keeps, is
kept by every step without too short a reset. -/
theorem step_keeps_of_testChange {P : State → Prop} (hqueue : ∀ (s : State) (rest : List Instr), P s →
    P { s with pending := rest }) (hchange : ∀ s t : State, TestChange s t → P s → P t) {s t : State}
    (hshort : s.NoShortReset) (hs : P s) (h : step s = .next t) : t.NoShortReset ∧ P t := by
  unfold step at h
  split at h
  · cases h
    exact ⟨hshort, hs⟩
  · next c rest hpending =>
    have hc : c.isShortRelease = false := hshort c (by rw [hpending]; exact List.mem_cons_self)
    refine ⟨fun i hi => ?_, hchange _ t (.of_exec hc h) (hqueue s rest hs)⟩
    rw [(Effect.of_exec h).pending_eq] at hi
    exact hshort i (by rw [hpending]; exact List.mem_cons_of_mem c hi)

end Sys2Proof.Machine
end

