-- ==== Sys2Proof/Proofs/EngineLaw.lean ====
section
/-! The engine law: what an engine can become in a run, at a frame start and by a command stays in the ranges of R104,
R107 and R119, with a checker that is OFF exactly when the engine is not RUNNING. -/

namespace Sys2Proof.Machine

/-! ### The checker of a run (R119 to R126) -/

/-- What a checker is while its engine is RUNNING: not OFF, and holding what is in the ranges of R119. -/
structure Checker.Works (c : EngineConfig) (k : Checker) : Prop where
  ok : k.Ok c
  on : k ≠ .off

theorem EngineConfig.Ok.seedLength_pos {c : EngineConfig} (h : c.Ok) : 0 < c.seedLength := by
  obtain ⟨hlen, -⟩ := h
  cases hp : c.pattern <;> simp only [EngineConfig.seedLength, hp, Pattern.taps] <;> omega

section
variable {c : EngineConfig}

theorem Checker.Works.hunting {coll : List Bool} (h : coll.length < c.seedLength) : Works c (.hunting coll) :=
  ⟨h, nofun⟩

/-- A checker that starts to hunt holds no bit yet. -/
theorem Checker.Works.hunting_nil (hc : c.Ok) : Works c (.hunting []) := hunting hc.seedLength_pos

theorem Checker.Works.confirming (ref : Reference) {count : Nat} (h : count < 64) : Works c (.confirming ref count) :=
  ⟨h, nofun⟩

theorem Checker.Works.locked (ref : Reference) {bits errs : Nat} (hbits : bits < 256) (herrs : errs ≤ bits) :
    Works c (.locked ref bits errs) := ⟨⟨hbits, herrs⟩, nofun⟩

/-- A full collection that gives no reference drops its oldest bit, so it never reaches S bits (R122). -/
theorem works_huntBit {coll : List Bool} (h : coll.length < c.seedLength) (b : Bool) :
    (huntBit c coll b).Works c := by
  unfold huntBit
  dsimp only
  split
  · next hlt => exact .hunting hlt
  · split
    · exact .confirming _ (by decide)
    · refine .hunting ?_
      rwa [List.length_drop, List.length_append, List.length_singleton, Nat.add_sub_cancel]

theorem works_confirmBit (hc : c.Ok) (ref : Reference) (count : Nat) (b : Bool) :
    (confirmBit c ref count b).Works c := by
  unfold confirmBit
  split
  · split
    · exact .locked _ (by decide) (Nat.le_refl 0)
    · next hlt => exact .confirming _ (Nat.not_le.mp hlt)
  · exact .hunting_nil hc

/-- A block counts no more errors than bits (R124). -/
theorem works_lockedBit (hc : c.Ok) (ref : Reference) {bits errs : Nat} (herrs : errs ≤ bits) (b : Bool)
    (w : CheckWork) : (lockedBit c ref bits errs b w).checker.Works c := by
  unfold lockedBit
  dsimp only
  generalize (b != (ref.predict c).1) = wrong
  have hcount : (if wrong = true then errs + 1 else errs) ≤ bits + 1 := by
    split <;> omega
  generalize (if wrong = true then errs + 1 else errs) = count at hcount ⊢
  by_cases hlt : bits + 1 < 256
  · rw [if_pos hlt]
    exact .locked _ hlt hcount
  · rw [if_neg hlt]
    by_cases hlost : c.lossThreshold ≤ count
    · rw [if_pos hlost]
      exact .hunting_nil hc
    · rw [if_neg hlost]
      exact .locked _ (by decide) (Nat.le_refl 0)

theorem works_checkBit (hc : c.Ok) {w : CheckWork} (h : w.checker.Works c) (b : Bool) :
    (checkBit c w b).checker.Works c := by
  obtain ⟨hok, hon⟩ := h
  unfold checkBit
  split
  · next hoff => exact absurd hoff hon
  · next hk =>
    rw [hk] at hok
    exact works_huntBit hok b
  · dsimp only
    split <;> exact works_confirmBit hc ..
  · next hk =>
    rw [hk] at hok
    obtain ⟨-, herrs⟩ := hok
    exact works_lockedBit hc _ herrs b w

theorem works_foldl_checkBit (hc : c.Ok) : ∀ (bits : List Bool) {w : CheckWork}, w.checker.Works c →
    (bits.foldl (checkBit c) w).checker.Works c
  | [], _, h => h
  | b :: bits, _, h => works_foldl_checkBit hc bits (works_checkBit hc h b)

theorem works_faultFrame (hc : c.Ok) {w : CheckWork} (h : w.checker.Works c) : (faultFrame w).checker.Works c := by
  unfold faultFrame
  split
  · exact h
  all_goals exact .hunting_nil hc

theorem works_checkerWork (hc : c.Ok) (first faulted : Bool) (completed : Table Byte 10) {w : CheckWork}
    (h : w.checker.Works c) : (checkerWork c first faulted completed w).checker.Works c := by
  unfold checkerWork
  split
  · exact h
  · split
    · exact works_faultFrame hc h
    · exact works_foldl_checkBit hc _ h

end

/-! ### One engine -/

namespace Engine.Ok
variable {e : Engine}

theorem of_running (hcfg : e.cfg.Ok) (hrun : e.run.isRunning = true) (hinj : e.gen.pendingInj ≤ 255)
    (hchecker : e.checker.Works e.cfg) (hwidth : e.cfg.chkWidth ≠ 0) : e.Ok :=
  ⟨hcfg, hinj, hchecker.ok, fun _ => ⟨hchecker.on, hwidth⟩, fun h => absurd (hrun.symm.trans h) nofun⟩

theorem of_not_running (hcfg : e.cfg.Ok) (hrun : e.run.isRunning = false) (hinj : e.gen.pendingInj = 0)
    (hchecker : e.checker = .off) : e.Ok := by
  refine ⟨hcfg, hinj ▸ Nat.zero_le _, ?_, fun h => absurd (hrun.symm.trans h) nofun, fun _ => ⟨hchecker, hinj⟩⟩
  rw [hchecker]
  exact trivial

theorem config (h : e.Ok) : e.cfg.Ok := h.1

theorem injections (h : e.Ok) : e.gen.pendingInj ≤ 255 := h.2.1

theorem works (h : e.Ok) (hrun : e.run.isRunning = true) : e.checker.Works e.cfg ∧ e.cfg.chkWidth ≠ 0 := by
  obtain ⟨-, -, hok, hrunning, -⟩ := h
  obtain ⟨hon, hwidth⟩ := hrunning hrun
  exact ⟨⟨hok, hon⟩, hwidth⟩

theorem idles (h : e.Ok) (hrun : e.run.isRunning = false) : e.checker = .off ∧ e.gen.pendingInj = 0 := by
  obtain ⟨-, -, -, -, hidle⟩ := h
  exact hidle hrun

/-- The law speaks of the configuration, the injections, the checker and the run alone. -/
theorem congr {e' : Engine} (h : e.Ok) (hcfg : e'.cfg = e.cfg) (hinj : e'.gen.pendingInj = e.gen.pendingInj)
    (hchecker : e'.checker = e.checker) (hrun : e'.run = e.run) : e'.Ok := by
  unfold Engine.Ok
  rwa [hcfg, hinj, hchecker, hrun]

/-- A configuration is replaced only while the checker is OFF (R105). -/
theorem configured (h : e.Ok) (hrun : e.run = .idle) {cfg : EngineConfig} (hcfg : cfg.Ok) :
    Engine.Ok { e with cfg := cfg } := by
  have hidle : e.run.isRunning = false := by rw [hrun]; rfl
  obtain ⟨hoff, hinj⟩ := h.idles hidle
  exact of_not_running hcfg hidle hinj hoff

/-- A RUNNING engine may hold any number of injections up to 255 (R114). -/
theorem injected (h : e.Ok) (hrun : e.run.isRunning = true) {q : Sequence} {count : Nat} (hcount : count ≤ 255) :
    Engine.Ok { e with gen := { seq := q, pendingInj := count } } := by
  obtain ⟨hchecker, hwidth⟩ := h.works hrun
  exact of_running h.config hrun hcount hchecker hwidth

theorem started (h : e.Ok) (hwidth : e.cfg.chkWidth ≠ 0) (runSeq cseq : Word) : (e.started runSeq cseq).Ok :=
  of_running (e := e.started runSeq cseq) h.config rfl (Nat.zero_le _) (.hunting_nil h.config) hwidth

theorem ended (h : e.Ok) {run : RunState} (hrun : run.isRunning = false) : (e.ended run).Ok :=
  of_not_running (e := e.ended run) h.config hrun rfl rfl

theorem softReset (h : e.Ok) : e.softReset.Ok := of_not_running (e := e.softReset) h.config rfl rfl rfl

/-- An ENDED engine that POP serves is IDLE (R141). -/
theorem served (h : e.Ok) (hrun : e.run.isRunning = false) : Engine.Ok { e with run := .idle } := by
  obtain ⟨hoff, hinj⟩ := h.idles hrun
  exact of_not_running (e := { e with run := .idle }) h.config rfl hinj hoff

theorem engineWork (h : e.Ok) (hrun : e.run.isRunning = true) (completed : Table Byte 10) (faulted : Bool) :
    (engineWork completed faulted e).engine.Ok := by
  obtain ⟨hchecker, hwidth⟩ := h.works hrun
  exact of_running (e := (Machine.engineWork completed faulted e).engine) h.config hrun h.injections
    (works_checkerWork h.config _ _ _ hchecker) hwidth

theorem engineStart (h : e.Ok) (completed : Table Byte 10) (faulted removed workFirst : Bool) :
    (engineStart completed faulted removed workFirst e).engine.Ok := by
  unfold Machine.engineStart
  split
  · next hrun =>
    split
    · split
      · exact h.engineWork hrun completed faulted
      · exact h
    · exact h.engineWork hrun completed faulted
  · exact h

end Engine.Ok

/-! ### The law through every change -/

/-- The law holds of every number, since an engine is looked up modulo 4. -/
theorem State.EngineLaw.ok {s : State} (h : s.EngineLaw) (n : Nat) : (s.engine n).Ok := by
  have hmod : s.engine n = s.engine (n % 4) := (Table.get_mod s.te.engines n).symm
  rw [hmod]
  exact h _ (Nat.mod_lt n (by decide))

namespace State.EngineLaw
variable {s : State}

theorem congr {t : State} (h : s.EngineLaw) (hengines : t.te.engines = s.te.engines) : t.EngineLaw := by
  unfold State.EngineLaw State.engine
  rwa [hengines]

theorem setEngine (h : s.EngineLaw) (n : Nat) {e : Engine} (he : e.Ok) : (s.setEngine n e).EngineLaw := by
  intro m hm
  rw [engine_setEngine]
  split
  · exact he
  · exact h m hm

theorem of_tabulate {f : Nat → Engine} (hengines : s.te.engines = .tabulate 2 f) (hf : ∀ n, (f n).Ok) :
    s.EngineLaw := by
  intro n hn
  rw [State.engine, hengines, Table.get_tabulate_of_lt f hn]
  exact hf n

/-! Commands -/

theorem configureCommand (h : s.EngineLaw) (p : Params) : (configureCommand p s).EngineLaw := by
  unfold Machine.configureCommand
  dsimp only
  split
  · split
    · exact h
    · next cfg hcfg =>
      split
      · next hidle => exact h.setEngine _ ((h.ok _).configured hidle (gives_of_configOf hcfg).ok)
      · exact h
  · exact h

theorem startCommand (h : s.EngineLaw) (p : Params) : (startCommand p s).EngineLaw := by
  unfold Machine.startCommand
  dsimp only
  split
  · split
    · split
      · exact h
      · next hwidth =>
        rw [keepTail_eq_emit]
        exact h.setEngine _ ((h.ok _).started hwidth ..)
    · exact h
  · exact h

theorem endRun (h : s.EngineLaw) (n : Nat) (o : RunOutcome) : (endRun n o s).EngineLaw := by
  rcases endRun_cases n o s with ⟨c, r, -, -, ⟨-, heq⟩ | ⟨-, heq⟩⟩ | ⟨-, heq⟩
  · rw [heq]
    exact h.setEngine n ((h.ok n).ended rfl)
  · rw [heq]
    exact h.setEngine n ((h.ok n).ended rfl)
  · rwa [heq]

theorem stopCommand (h : s.EngineLaw) (p : Params) : (stopCommand p s).EngineLaw := by
  unfold Machine.stopCommand
  dsimp only
  split
  · split
    · exact h.endRun _ .stopped
    · exact h
  · exact h

theorem injectCommand (h : s.EngineLaw) (p : Params) : (injectCommand p s).EngineLaw := by
  unfold Machine.injectCommand
  dsimp only
  split
  · split
    · next hrun => exact h.setEngine _ ((h.ok _).injected hrun (Nat.min_le_right ..))
    · exact h
  · exact h

theorem snapshotCommand (h : s.EngineLaw) (p : Params) : (snapshotCommand p s).EngineLaw := by
  unfold Machine.snapshotCommand
  dsimp only
  split
  · exact h.setEngine _ ((h.ok _).congr rfl rfl rfl rfl)
  · exact h

/-- POP serves only an engine that is ENDED (R141). -/
theorem ended_of_served {n : Nat} {r : ResultRecord} (h : s.served = some (n, r)) : (s.engine n).run = .ended r := by
  unfold State.served at h
  split at h
  · cases h
  · split at h
    · cases h
      assumption
    · cases h

theorem serveBacklog (h : s.EngineLaw) : (serveBacklog s).EngineLaw := by
  unfold Machine.serveBacklog
  split
  · exact h
  · next n r hserved =>
    have hrun : (s.engine n).run.isRunning = false := by
      rw [ended_of_served hserved]
      rfl
    exact h.setEngine n ((h.ok n).served hrun)

theorem popCommand (h : s.EngineLaw) : (popCommand s).EngineLaw := by
  unfold Machine.popCommand
  split
  · exact h
  · next r rest _ => exact (h.congr (t := { s with rq := { s.rq with queue := rest } }) rfl).serveBacklog

theorem softResetCommand (h : s.EngineLaw) : (softResetCommand s).EngineLaw :=
  of_tabulate (f := fun n => (s.engine n).softReset) rfl fun n => (h.ok n).softReset

/-! The frame start -/

theorem endRunIf (h : s.EngineLaw) (o : Option RunOutcome) (n : Nat) : (endRunIf o n s).EngineLaw := by
  cases o with
  | none => exact h
  | some o => exact h.endRun n o

/-- What one pass of a loop keeps, the loop keeps. -/
theorem foldl {f : State → Nat → State} (hf : ∀ (s : State) n, s.EngineLaw → (f s n).EngineLaw) :
    ∀ (l : List Nat) {s : State}, s.EngineLaw → (l.foldl f s).EngineLaw
  | [], _, h => h
  | n :: l, s, h => foldl hf l (hf s n h)

theorem startEngines (h : s.EngineLaw) (e : FrameEvent) (applied : Bool) : (startEngines e applied s).EngineLaw := by
  refine foldl (fun _ n hs => hs.endRunIf _ n) _
    (of_tabulate (f := fun n => (engineStartOf e applied s n).engine) ?_ ?_)
  · rw [raiseSyncs_te]
  · exact fun n => (h.ok n).engineStart ..

theorem frameStart (h : s.EngineLaw) (e : FrameEvent) : (frameStart e s).EngineLaw :=
  (h.congr (t := frameStartMap e s) (by rw [frameStartMap_te])).startEngines e _

/-! The formation of slots -/

/-- A byte with an injection leaves one injection less (R115). -/
theorem supplyByte (h : s.EngineLaw) (n : Nat) (em : Emission) : (supplyByte n em s).2.EngineLaw := by
  unfold Machine.supplyByte
  dsimp only
  have hn := h.ok n
  split
  · next hpos =>
    cases hrun : (s.engine n).run.isRunning with
    | true =>
      have hcount : (s.engine n).gen.pendingInj - 1 ≤ 255 := Nat.le_trans (Nat.sub_le ..) hn.injections
      exact h.setEngine n ((hn.injected hrun hcount).congr rfl rfl rfl rfl)
    | false => exact absurd (hn.idles hrun).2 (Nat.ne_of_gt hpos)
  · exact h.setEngine n (hn.congr rfl rfl rfl rfl)

theorem testByte (h : s.EngineLaw) (n : Nat) : (testByte n s).2.EngineLaw := by
  unfold Machine.testByte
  split
  · exact h
  · next em _ =>
    split
    · exact h.supplyByte n em
    · exact h

theorem slotByte (h : s.EngineLaw) (i : Nat) : (slotByte i s).2.EngineLaw := by
  unfold Machine.slotByte
  split
  · exact h
  · exact h
  · exact h
  · next n _ _ _ => exact h.testByte n

theorem formSlot (h : s.EngineLaw) (stream slot : Nat) : (formSlot stream slot s).EngineLaw := by
  unfold Machine.formSlot
  split
  · exact h.slotByte (flat stream slot)
  · exact h

theorem formSlots (h : s.EngineLaw) (k : Nat) : (formSlots k s).EngineLaw :=
  foldl (fun _ t hs => foldl (fun _ stream hs => hs.formSlot stream t) _ hs) _ h

theorem formInOrder (h : s.EngineLaw) (stream slot : Nat) : (formInOrder stream slot s).EngineLaw := by
  unfold Machine.formInOrder
  split
  · exact (h.formSlots slot).formSlot stream slot
  · exact h

/-- The receive memory is no part of the engines. -/
theorem receive (h : s.EngineLaw) (rfm : ReceiveMemory) : State.EngineLaw { s with rfm := rfm } := h

theorem captureByte (h : s.EngineLaw) (stream slot : Nat) (b : Byte) : (captureByte stream slot b s).EngineLaw := by
  unfold Machine.captureByte
  split
  · exact (h.formSlots (s.formedBy stream slot)).receive _
  · exact h

end State.EngineLaw

theorem TestChange.keeps_engineLaw {s t : State} (h : TestChange s t) (hs : s.EngineLaw) : t.EngineLaw := by
  cases h with
  | same h => exact hs.congr (by rw [h.te])
  | configured p => exact hs.configureCommand p
  | started p => exact hs.startCommand p
  | stopped p => exact hs.stopCommand p
  | injected p => exact hs.injectCommand p
  | copied p => exact hs.snapshotCommand p
  | popped => exact hs.popCommand
  | cleared => exact hs.softResetCommand
  | frameStart e => exact hs.frameStart e
  | captured stream slot b => exact hs.captureByte stream slot b
  | formed stream slot => exact hs.formInOrder stream slot
  | reset hold => exact reset_engineLaw

/-- Settles O58: every change of the engines that a step can make keeps the law. -/
theorem stepKeepsTheEngineLaw : Obligations.StepKeepsTheEngineLaw :=
  fun _ _ hshort hs h =>
    step_keeps_of_testChange (fun _ _ hs => hs) (fun _ _ hchange hs => hchange.keeps_engineLaw hs) hshort hs h

end Sys2Proof.Machine
end

