-- ==== Sys2Proof/Proofs/Sequences.lean ====
section
/-! The bits of a sequence, and the bytes made of them: what a bit shifted in does, the recurrences of Table 6-2, and
the order of the bits in a byte. -/

namespace Sys2Proof.Machine

/-! ### A bit shifted in (R107, R110) -/

/-- The newest bit stands in bit 0. -/
theorem getLsbD_shiftIn_zero {w : Nat} (x : BitVec (w + 1)) (b : Bool) :
    ((x <<< 1) ||| (if b then 1 else 0)).getLsbD 0 = b := by
  cases b <;> simp

/-- Every older bit moves one place up. -/
theorem getLsbD_shiftIn_succ {w i : Nat} (x : BitVec (w + 1)) (b : Bool) (h : i < w) :
    ((x <<< 1) ||| (if b then 1 else 0)).getLsbD (i + 1) = x.getLsbD i := by
  have hget : x.getLsbD i = x[i] := BitVec.getLsbD_eq_getElem (Nat.lt_succ_of_lt h)
  cases b <;> simp [h, hget]

/-! ### One bit (R108, R109) -/

section
variable {c : EngineConfig}

theorem nextBit_of_taps {order tap : Nat} (h : c.pattern.taps = some (order, tap)) (q : Sequence) :
    nextBit c q = (prbsBit order tap q.reg, { q with reg := pushBit q.reg (prbsBit order tap q.reg) }) := by
  rw [nextBit, h]

theorem nextBit_of_word (h : c.pattern = .word) (q : Sequence) :
    nextBit c q =
      (c.wordBit q.wordPos, { reg := pushBit q.reg (c.wordBit q.wordPos), wordPos := c.nextPos q.wordPos }) := by
  rw [nextBit, h]
  rfl

/-- Table 6-2. -/
theorem taps_of_mem {pattern : Pattern} {order tap : Nat}
    (h : (pattern, order, tap) ∈ [(Pattern.prbs9, 9, 5), (.prbs23, 23, 18), (.prbs31, 31, 28)]) :
    pattern.taps = some (order, tap) := by
  have hall : ∀ x ∈ [(Pattern.prbs9, 9, 5), (.prbs23, 23, 18), (.prbs31, 31, 28)], x.1.taps = some x.2 := by decide
  exact hall _ h

/-- Whatever the pattern, the register takes in the bit that was produced (R107). -/
theorem reg_nextBit (c : EngineConfig) (q : Sequence) :
    (nextBit c q).2.reg = pushBit q.reg (nextBit c q).1 := by
  unfold nextBit
  split <;> rfl

/-! ### One byte (R110) -/

theorem seqAfter_succ (c : EngineConfig) (k : Nat) (q : Sequence) :
    seqAfter c (k + 1) q = seqAfter c k (nextBit c q).2 := rfl

/-- Taking `k` bits leaves the sequence `k` bits further on. -/
theorem takeBits_snd (c : EngineConfig) : ∀ (k : Nat) (acc : Byte) (q : Sequence),
    (takeBits c k acc q).2 = seqAfter c k q
  | 0, _, _ => rfl
  | k + 1, _, q => takeBits_snd c k _ (nextBit c q).2

/-- The bits that were in the byte move up by the number of bits taken. -/
theorem getLsbD_takeBits_old (c : EngineConfig) : ∀ (k : Nat) (acc : Byte) (q : Sequence) {i : Nat}, i + k < 8 →
    (takeBits c k acc q).1.getLsbD (i + k) = acc.getLsbD i
  | 0, _, _, _, _ => rfl
  | k + 1, acc, q, i, h => by
    rw [takeBits, show i + (k + 1) = i + 1 + k by omega, getLsbD_takeBits_old c k _ _ (by omega)]
    exact getLsbD_shiftIn_succ acc _ (by omega)

/-- Of `k` bits taken, the last stands in bit 0 and the first in bit `k` − 1. -/
theorem getLsbD_takeBits (c : EngineConfig) : ∀ (k : Nat) (acc : Byte) (q : Sequence) {j : Nat}, k ≤ 8 → j < k →
    (takeBits c k acc q).1.getLsbD (k - 1 - j) = (nextBit c (seqAfter c j q)).1
  | k + 1, acc, q, 0, hk, _ => by
    have hold := getLsbD_takeBits_old c k ((acc <<< 1) ||| (if (nextBit c q).1 then 1 else 0)) (nextBit c q).2
      (i := 0) (by omega)
    rw [Nat.zero_add] at hold
    exact hold.trans (getLsbD_shiftIn_zero acc _)
  | k + 1, acc, q, j + 1, hk, hj => by
    rw [takeBits, show k + 1 - 1 - (j + 1) = k - 1 - j by omega, seqAfter_succ]
    exact getLsbD_takeBits c k _ _ (by omega) (by omega)

theorem getLsbD_nextByte (c : EngineConfig) (q : Sequence) {k : Nat} (hk : k < 8) :
    (nextByte c q).1.getLsbD (7 - k) = ((nextBit c (seqAfter c k q)).1 ^^ c.invert) := by
  rw [← getLsbD_takeBits c 8 0 q (Nat.le_refl 8) hk, nextByte]
  cases c.invert with
  | false => simp
  | true =>
    have hlt : 7 - k < 8 := by omega
    simp [hlt]

end

/-- Settles O9, bit by bit and byte by byte. -/
theorem sequenceBitsAndBytes : Obligations.SequenceBitsAndBytes := by
  intro c q
  refine ⟨fun order tap h => ?_, fun h => ?_, ?_, fun j hj => ?_, fun k hk => getLsbD_nextByte c q hk,
    takeBits_snd c 8 0 q⟩
  · rw [nextBit_of_taps (taps_of_mem h)]
    exact ⟨rfl, rfl⟩
  · rw [nextBit_of_word h]
    exact ⟨rfl, rfl⟩
  · rw [reg_nextBit]
    exact getLsbD_shiftIn_zero ..
  · rw [reg_nextBit]
    exact getLsbD_shiftIn_succ _ _ hj

end Sys2Proof.Machine
end

