-- ==== Sys2Proof/Proofs/StopAndPop.lean ====
section
/-! STOP and POP: the end of a run by command, and the record that leaves the queue. -/

namespace Sys2Proof.Machine

/-! ### The end of a run (R132, R138, R139) -/

section
variable {s : State} {n : Nat} {start : Word}

/-- A run ends with its record appended where the queue has room. -/
theorem endRun_of_room (hrun : (s.engine n).run = .running start) (hroom : s.rq.queue.length < 8) (o : RunOutcome) :
    endRun n o s = raise srcResultReady { s.setEngine n ((s.engine n).ended .idle) with
      rq := { s.rq with queue := s.rq.queue ++ [recordOf n (s.engine n) start o] } } := by
  simp only [endRun, hrun, if_pos hroom]

/-- A run ends with its record held by the engine where the queue is full. -/
theorem endRun_of_full (hrun : (s.engine n).run = .running start) (hfull : 8 ≤ s.rq.queue.length) (o : RunOutcome) :
    endRun n o s = raise srcResultBacklog
      { s.setEngine n ((s.engine n).ended (.ended (recordOf n (s.engine n) start o))) with
        rq := { s.rq with backlog := s.rq.backlog ++ [n] } } := by
  simp only [endRun, hrun, if_neg (Nat.not_lt.mpr hfull)]

theorem engine_setEngine_self (s : State) (n : Nat) (e : Engine) : (s.setEngine n e).engine n = e := by
  rw [engine_setEngine, if_pos rfl]

theorem engine_endRun_of_room (hrun : (s.engine n).run = .running start) (hroom : s.rq.queue.length < 8)
    (o : RunOutcome) : (endRun n o s).engine n = (s.engine n).ended .idle := by
  rw [endRun_of_room hrun hroom]
  exact engine_setEngine_self s n _

theorem engine_endRun_of_full (hrun : (s.engine n).run = .running start) (hfull : 8 ≤ s.rq.queue.length)
    (o : RunOutcome) :
    (endRun n o s).engine n = (s.engine n).ended (.ended (recordOf n (s.engine n) start o)) := by
  rw [endRun_of_full hrun hfull]
  exact engine_setEngine_self s n _

end

/-! ### STOP (R130) -/

section
variable {s : State} {p : Params}

theorem stopCommand_of_no_engine (h : 3 < p.p0.toNat) : stopCommand p s = s.answered .badParameter 0 0 0 0 :=
  if_neg (Nat.not_le.mpr h)

theorem stopCommand_of_not_running (hn : p.p0.toNat ≤ 3) {run : RunName}
    (hrun : (s.engine p.p0.toNat).run.name = run) (hstill : run ≠ .running) :
    stopCommand p s = s.answered .engineNotRunning 0 (word run.value) 0 0 := by
  rw [← hrun] at hstill ⊢
  simp only [stopCommand, if_pos hn, if_neg ((RunState.isRunning_iff _).not.mpr hstill)]
  rfl

theorem stopCommand_of_running (hn : p.p0.toNat ≤ 3) {start : Word}
    (hrun : (s.engine p.p0.toNat).run = .running start) :
    stopCommand p s =
      (endRun p.p0.toNat .stopped s).answered .ok (word p.p0.toNat) (s.engine p.p0.toNat).lastRun
        (word (endRun p.p0.toNat .stopped s).rq.queue.length)
        (if ((endRun p.p0.toNat .stopped s).engine p.p0.toNat).run.name = .ended then 1 else 0) := by
  have hrunning : (s.engine p.p0.toNat).run.isRunning = true := by
    rw [hrun]
    rfl
  simp only [stopCommand, if_pos hn, if_pos hrunning]
  rfl

end

/-! ### POP (R140, R141) -/

section
variable {s : State} {r : ResultRecord} {rest : List ResultRecord}

theorem popCommand_of_empty (h : s.rq.queue = []) : popCommand s = s.answered .queueEmpty 0 0 0 0 := by
  rw [popCommand, h]
  rfl

/-- Where POP serves no engine, the record leaves and nothing else changes (R140). -/
theorem popCommand_of_none_served (hqueue : s.rq.queue = r :: rest) (hserved : s.served = none) :
    popCommand s =
      { s with rq := { s.rq with queue := rest } }.answered .ok (word rest.length) (word r.engine) r.runSeq 0xFFFF := by
  have hserve : serveBacklog { s with rq := { s.rq with queue := rest } } =
      { s with rq := { s.rq with queue := rest } } := by
    rw [serveBacklog, show State.served { s with rq := { s.rq with queue := rest } } = none from hserved]
  simp only [popCommand, hqueue, hserve, hserved]
  rfl

/-- POP serves the first engine of the backlog: its record is appended, and the engine is IDLE (R141). -/
theorem popCommand_of_served {n : Nat} {more : List Nat} {served : ResultRecord} (hqueue : s.rq.queue = r :: rest)
    (hbacklog : s.rq.backlog = n :: more) (hrun : (s.engine n).run = .ended served) :
    popCommand s =
      ({ s.setEngine n { s.engine n with run := .idle } with
          rq := { queue := rest ++ [served], backlog := more }
          iu := { s.iu with flags := s.iu.flags ||| 8 } }).answered .ok (word (rest.length + 1)) (word r.engine)
        r.runSeq (word n) := by
  have hserved : s.served = some (n, served) := by
    simp only [State.served, hbacklog, hrun]
  have hserve : serveBacklog { s with rq := { s.rq with queue := rest } } =
      { s.setEngine n { s.engine n with run := .idle } with
          rq := { queue := rest ++ [served], backlog := more }
          iu := { s.iu with flags := s.iu.flags ||| 8 } } := by
    rw [serveBacklog, show State.served { s with rq := { s.rq with queue := rest } } = some (n, served) from hserved]
    simp only [hbacklog]
    rfl
  simp only [popCommand, hqueue, hserve, hserved, List.length_append, List.length_singleton]
  rfl

theorem served_of_empty_backlog (h : s.rq.backlog = []) : s.served = none := by
  rw [State.served, h]

/-- An engine that is not ENDED is not served (log 19). -/
theorem served_of_not_ended {n : Nat} {more : List Nat} (h : s.rq.backlog = n :: more)
    (hrun : (s.engine n).run.name ≠ .ended) : s.served = none := by
  cases hr : (s.engine n).run with
  | ended served => exact absurd (congrArg RunState.name hr) hrun
  | idle | running => simp only [State.served, h, hr]

end

end Sys2Proof.Machine

namespace Sys2Proof.Proofs

open Sys2Proof.Machine

/-- Settles O40, by the answers of the command and the two ways in which a run hands over its record. -/
theorem stopCommand : Obligations.StopCommand := by
  rintro s p n hc rfl
  have hexec : exec .stop s = .next (Machine.stopCommand p s) := completion_of_commanded hc Machine.stopCommand
  rw [hexec]
  refine ⟨fun h => congrArg _ (stopCommand_of_no_engine h), fun hn => ⟨fun hr => congrArg _
    (stopCommand_of_not_running hn hr nofun), fun hr => congrArg _ (stopCommand_of_not_running hn hr nofun), ?_⟩⟩
  rintro start record done hrun rfl rfl
  rw [stopCommand_of_running hn hrun]
  constructor
  · intro hroom
    rw [engine_endRun_of_room hrun hroom, endRun_of_room hrun hroom, raise_rq, List.length_append]
    rfl
  · intro hfull
    rw [engine_endRun_of_full hrun hfull, endRun_of_full hrun hfull]
    rfl

/-- Settles O42, by whether an engine of the backlog is served. -/
theorem popCommand : Obligations.PopCommand := by
  intro s p hc
  have hexec : exec .pop s = .next (Machine.popCommand s) := completion_of_commanded hc fun _ => Machine.popCommand
  rw [hexec]
  refine ⟨fun h => congrArg _ (popCommand_of_empty h), fun r rest hqueue => ⟨fun h => ?_,
    fun n more served h hrun => ?_, fun n more h hrun => ?_⟩⟩
  · exact congrArg _ (popCommand_of_none_served hqueue (served_of_empty_backlog h))
  · exact congrArg _ (popCommand_of_served hqueue h hrun)
  · exact congrArg _ (popCommand_of_none_served hqueue (served_of_not_ended h hrun))

end Sys2Proof.Proofs
end

