-- ==== Sys2Proof/Proofs/QueueLaw.lean ====
section
/-! Law 10 (R138, R139): what a run's end, POP and a reset do to the queue and the backlog, and every other command
leaves the queue and the ENDED engines alone. -/

namespace Sys2Proof.Machine

theorem engine_of_mod_eq (s : State) {n m : Nat} (h : n % 4 = m % 4) : s.engine n = s.engine m := by
  unfold State.engine
  rw [← Table.get_mod _ n, ← Table.get_mod _ m]
  exact congrArg _ h

/-! ### Run states that a frame start and the formation of slots keep -/

theorem engineStart_run (completed : Table Byte 10) (faulted removed workFirst : Bool) (e : Engine) :
    (engineStart completed faulted removed workFirst e).engine.run = e.run := by
  unfold engineStart
  split
  · split
    · split <;> rfl
    · rfl
  · rfl

/-- Replacing one engine by one in the same run state. -/
theorem run_setEngine {s : State} {n : Nat} {e : Engine} (h : e.run = (s.engine n).run) (m : Nat) :
    ((s.setEngine n e).engine m).run = (s.engine m).run := by
  rw [engine_setEngine]
  split
  · next hm => rw [h, engine_of_mod_eq s hm]
  · rfl

theorem run_testByte (n : Nat) (s : State) (m : Nat) : ((testByte n s).2.engine m).run = (s.engine m).run := by
  unfold testByte
  split
  · rfl
  · split
    · unfold supplyByte
      dsimp only
      split
      · exact run_setEngine (by rfl) m
      · exact run_setEngine (by rfl) m
    · rfl

theorem run_formSlot (stream slot : Nat) (s : State) (m : Nat) :
    ((formSlot stream slot s).engine m).run = (s.engine m).run := by
  unfold formSlot
  split
  · unfold slotByte
    split
    · rfl
    · rfl
    · rfl
    · exact run_testByte _ s m
  · rfl

theorem run_formSlots (k : Nat) (s : State) (m : Nat) : ((formSlots k s).engine m).run = (s.engine m).run :=
  foldl_keeps (fun u => (u.engine m).run) _ (fun u t =>
    foldl_keeps (fun u => (u.engine m).run) _ (fun u stream => run_formSlot stream t u m) _ u) _ s

theorem run_formInOrder (stream slot : Nat) (s : State) (m : Nat) :
    ((formInOrder stream slot s).engine m).run = (s.engine m).run := by
  unfold formInOrder
  split
  · exact (run_formSlot ..).trans (run_formSlots ..)
  · rfl

/-- The receive memory is no part of the engines. -/
theorem engine_receive (s : State) (rfm : ReceiveMemory) (m : Nat) :
    State.engine { s with rfm := rfm } m = s.engine m := rfl

theorem run_captureByte (stream slot : Nat) (b : Byte) (s : State) (m : Nat) :
    ((captureByte stream slot b s).engine m).run = (s.engine m).run := by
  unfold captureByte
  split
  · rw [engine_receive, run_formSlots]
  · rfl

/-! ### The law -/

namespace State.QueueLaw
variable {s : State}

/-- The law speaks of the queue, the backlog and which engines are ENDED alone. -/
theorem congr {t : State} (h : s.QueueLaw) (hrq : t.rq = s.rq)
    (hrun : ∀ n < 4, (t.engine n).run.name = .ended ↔ (s.engine n).run.name = .ended) : t.QueueLaw := by
  obtain ⟨hlength, hnodup, hlt, hmem, hfull⟩ := h
  unfold State.QueueLaw
  rw [hrq]
  exact ⟨hlength, hnodup, hlt, fun n hn => (hmem n hn).trans (hrun n hn).symm, hfull⟩

theorem of_run_eq {t : State} (h : s.QueueLaw) (hrq : t.rq = s.rq) (hrun : ∀ n, (t.engine n).run = (s.engine n).run) :
    t.QueueLaw := h.congr hrq fun n _ => by rw [hrun]

/-- An engine is replaced by one that is ENDED exactly if it was. -/
theorem setEngine (h : s.QueueLaw) (n : Nat) {e : Engine}
    (hrun : e.run.name = .ended ↔ (s.engine n).run.name = .ended) : (s.setEngine n e).QueueLaw := by
  refine h.congr rfl fun m _ => ?_
  rw [engine_setEngine]
  split
  · next hm => rw [hrun, engine_of_mod_eq s hm]
  · exact Iff.rfl

/-- An engine whose run goes on is not in the backlog. -/
theorem not_mem_backlog (h : s.QueueLaw) {n : Nat} (hn : n < 4) (hrun : (s.engine n).run.name ≠ .ended) :
    n ∉ s.rq.backlog := by
  obtain ⟨-, -, -, hmem, -⟩ := h
  exact fun hin => hrun ((hmem n hn).mp hin)

/-- A queue with room leaves no engine waiting (R139). -/
theorem backlog_eq_nil (h : s.QueueLaw) (hroom : s.rq.queue.length < 8) : s.rq.backlog = [] := by
  obtain ⟨-, -, -, -, hfull⟩ := h
  exact Decidable.not_not.mp fun hne => Nat.ne_of_lt hroom (hfull hne)

/-! A run's end -/

theorem endRun_of_room (h : s.QueueLaw) {n : Nat} {start : Word} (hrun : (s.engine n).run = .running start)
    (hroom : s.rq.queue.length < 8) (o : RunOutcome) : (endRun n o s).QueueLaw := by
  have hnil := h.backlog_eq_nil hroom
  have hstill : (s.engine n).run.name ≠ .ended := by
    rw [hrun]
    nofun
  obtain ⟨-, hnodup, hlt, hmem, -⟩ := h.setEngine n (e := (s.engine n).ended .idle) ⟨nofun, fun h => absurd h hstill⟩
  rw [Machine.endRun_of_room hrun hroom]
  refine ⟨?_, hnodup, hlt, hmem, fun hne => absurd hnil hne⟩
  rw [raise_rq, List.length_append]
  exact hroom

theorem endRun_of_full (h : s.QueueLaw) {n : Nat} (hn : n < 4) {start : Word}
    (hrun : (s.engine n).run = .running start) (hfull : 8 ≤ s.rq.queue.length) (o : RunOutcome) :
    (endRun n o s).QueueLaw := by
  have hnew : n ∉ s.rq.backlog := h.not_mem_backlog hn (by rw [hrun]; nofun)
  obtain ⟨hlength, hnodup, hlt, hmem, -⟩ := h
  rw [Machine.endRun_of_full hrun hfull]
  refine ⟨hlength, ?_, ?_, fun m hm => ?_, fun _ => Nat.le_antisymm hlength hfull⟩
  · exact List.nodup_append.mpr ⟨hnodup, List.nodup_singleton n, fun a ha b hb hab =>
      hnew (List.mem_singleton.mp hb ▸ hab ▸ ha)⟩
  · intro m hm
    rcases List.mem_append.mp hm with hm | hm
    · exact hlt m hm
    · rwa [List.mem_singleton.mp hm]
  · show m ∈ s.rq.backlog ++ [n] ↔ ((s.setEngine n _).engine m).run.name = .ended
    rw [engine_setEngine, List.mem_append, List.mem_singleton, hmem m hm]
    split
    · next hmod =>
      obtain rfl : n = m := by omega
      exact iff_of_true (Or.inr rfl) rfl
    · next hmod => exact or_iff_left fun heq => hmod (by rw [heq])

theorem endRun (h : s.QueueLaw) {n : Nat} (hn : n < 4) (o : RunOutcome) : (endRun n o s).QueueLaw := by
  cases hrun : (s.engine n).run with
  | running start =>
    rcases Nat.lt_or_ge s.rq.queue.length 8 with hroom | hfull
    · exact h.endRun_of_room hrun hroom o
    · exact h.endRun_of_full hn hrun hfull o
  | idle | ended => simpa only [Machine.endRun, hrun] using h

theorem foldl_endRunIf (o : Nat → Option RunOutcome) : ∀ (l : List Nat), (∀ n ∈ l, n < 4) → ∀ {s : State}, s.QueueLaw →
    (l.foldl (fun s n => endRunIf (o n) n s) s).QueueLaw
  | [], _, _, h => h
  | n :: l, hl, s, h => by
    obtain ⟨hn, hl⟩ := List.forall_mem_cons.mp hl
    refine foldl_endRunIf o l hl ?_
    dsimp only
    cases o n with
    | none => exact h
    | some out => exact h.endRun hn out

/-! Commands -/

theorem configureCommand (h : s.QueueLaw) (p : Params) : (configureCommand p s).QueueLaw := by
  unfold Machine.configureCommand
  dsimp only
  split
  · split
    · exact h
    · split
      · exact h.setEngine _ Iff.rfl
      · exact h
  · exact h

theorem startCommand (h : s.QueueLaw) (p : Params) : (startCommand p s).QueueLaw := by
  unfold Machine.startCommand
  dsimp only
  split
  · split
    · next hidle =>
      split
      · exact h
      · rw [keepTail_eq_emit]
        refine h.setEngine _ ⟨nofun, fun hended => ?_⟩
        rw [hidle] at hended
        cases hended
    · exact h
  · exact h

theorem stopCommand (h : s.QueueLaw) (p : Params) : (stopCommand p s).QueueLaw := by
  unfold Machine.stopCommand
  dsimp only
  split
  · next hn =>
    split
    · exact h.endRun (Nat.lt_succ_of_le hn) .stopped
    · exact h
  · exact h

theorem injectCommand (h : s.QueueLaw) (p : Params) : (injectCommand p s).QueueLaw := by
  unfold Machine.injectCommand
  dsimp only
  split
  · split
    · exact h.setEngine _ Iff.rfl
    · exact h
  · exact h

theorem snapshotCommand (h : s.QueueLaw) (p : Params) : (snapshotCommand p s).QueueLaw := by
  unfold Machine.snapshotCommand
  dsimp only
  split
  · exact h.setEngine _ Iff.rfl
  · exact h

/-- The first engine of the backlog is ENDED, so POP serves it. -/
theorem first_waits (h : s.QueueLaw) {n : Nat} {more : List Nat} (hbacklog : s.rq.backlog = n :: more) :
    n < 4 ∧ ∃ r, (s.engine n).run = .ended r := by
  obtain ⟨-, -, hlt, hmem, -⟩ := h
  have hin : n ∈ s.rq.backlog := by
    rw [hbacklog]
    exact List.mem_cons_self
  refine ⟨hlt n hin, ?_⟩
  have hname := (hmem n (hlt n hin)).mp hin
  cases hrun : (s.engine n).run with
  | ended r => exact ⟨r, rfl⟩
  | idle | running =>
    rw [hrun] at hname
    cases hname

theorem popCommand (h : s.QueueLaw) : (popCommand s).QueueLaw := by
  cases hqueue : s.rq.queue with
  | nil =>
    rw [popCommand_of_empty hqueue]
    exact h
  | cons r rest =>
    cases hbacklog : s.rq.backlog with
    | nil =>
      rw [popCommand_of_none_served hqueue (served_of_empty_backlog hbacklog)]
      obtain ⟨hlength, hnodup, hlt, hmem, -⟩ := h
      rw [hqueue] at hlength
      exact ⟨Nat.le_of_succ_le hlength, hnodup, hlt, hmem, fun hne => absurd hbacklog hne⟩
    | cons n more =>
      obtain ⟨hn, served, hrun⟩ := h.first_waits hbacklog
      rw [popCommand_of_served hqueue hbacklog hrun]
      obtain ⟨hlength, hnodup, hlt, hmem, hfull⟩ := h
      have hlen : (rest ++ [served]).length = s.rq.queue.length := by
        rw [hqueue, List.length_append, List.length_singleton, List.length_cons]
      have hfull8 := hfull (by rw [hbacklog]; exact List.cons_ne_nil n more)
      rw [hbacklog] at hnodup hlt hmem
      obtain ⟨hnot, hnodup⟩ := List.nodup_cons.mp hnodup
      refine ⟨hlen.trans_le hlength, hnodup, fun m hm => hlt m (List.mem_cons_of_mem n hm), fun m hm => ?_,
        fun _ => hlen.trans hfull8⟩
      show m ∈ more ↔ ((s.setEngine n _).engine m).run.name = .ended
      rw [engine_setEngine]
      split
      · next hmod =>
        obtain rfl : n = m := by omega
        exact iff_of_false hnot nofun
      · next hmod =>
        rw [← hmem m hm, List.mem_cons]
        exact (or_iff_right fun heq => hmod (by rw [heq])).symm

theorem softResetCommand (s : State) : (softResetCommand s).QueueLaw := by
  refine ⟨Nat.zero_le _, List.nodup_nil, nofun, fun n hn => iff_of_false nofun ?_, fun hne => absurd rfl hne⟩
  have hengine : (Machine.softResetCommand s).engine n = (s.engine n).softReset :=
    Table.get_tabulate_of_lt (d := 2) (fun n => (s.engine n).softReset) hn
  rw [hengine]
  nofun

/-! The frame start -/

theorem startEngines (h : s.QueueLaw) (e : FrameEvent) (applied : Bool) : (startEngines e applied s).QueueLaw := by
  refine foldl_endRunIf _ _ (fun n hn => List.mem_range.mp hn) (h.congr (by rw [raiseSyncs_rq]) fun n hn => ?_)
  rw [engine_raiseSyncs_tabulate _ s (fun n => (engineStartOf e applied s n).engine) rfl hn, engineStartOf,
    engineStart_run]

theorem frameStart (h : s.QueueLaw) (e : FrameEvent) : (frameStart e s).QueueLaw :=
  (h.of_run_eq (t := frameStartMap e s) (frameStartMap_rq e s) fun n => by rw [frameStartMap_engine]).startEngines e _

end State.QueueLaw

theorem TestChange.keeps_queueLaw {s t : State} (h : TestChange s t) (hs : s.QueueLaw) : t.QueueLaw := by
  cases h with
  | same h => exact hs.of_run_eq h.rq fun n => by rw [State.engine, h.te, State.engine]
  | configured p => exact hs.configureCommand p
  | started p => exact hs.startCommand p
  | stopped p => exact hs.stopCommand p
  | injected p => exact hs.injectCommand p
  | copied p => exact hs.snapshotCommand p
  | popped => exact hs.popCommand
  | cleared => exact State.QueueLaw.softResetCommand s
  | frameStart e => exact hs.frameStart e
  | captured stream slot b => exact hs.of_run_eq (captureByte_rq ..) (run_captureByte stream slot b s)
  | formed stream slot => exact hs.of_run_eq (formInOrder_rq ..) (run_formInOrder stream slot s)
  | reset hold => exact reset_queueLaw

/-- Settles O59: every change of the engines and the result queue that a step can make keeps the law. -/
theorem stepKeepsTheQueueLaw : Obligations.StepKeepsTheQueueLaw :=
  fun _ _ hshort hs h =>
    step_keeps_of_testChange (fun _ _ hs => hs) (fun _ _ hchange hs => hchange.keeps_queueLaw hs) hshort hs h

end Sys2Proof.Machine
end

