-- ==== Sys2Proof/Proofs/Checkers.lean ====
section
/-! The checkers (R119, R122 to R124): what one bit does in each state, and how a checker fed a clean sequence locks. -/

namespace Sys2Proof.Machine

/-! ### One bit in HUNTING (R122) -/

section
variable {c : EngineConfig} {w : CheckWork} {coll : List Bool} {ref : Reference}

theorem checkBit_of_hunting (h : w.checker = .hunting coll) (b : Bool) :
    checkBit c w b = { w with checker := huntBit c coll b } := by
  rw [checkBit, h]

theorem huntBit_of_short (h : coll.length + 1 < c.seedLength) (b : Bool) :
    huntBit c coll b = .hunting (coll ++ [b]) := by
  have hlt : (coll ++ [b]).length < c.seedLength := by rwa [List.length_append]
  exact if_pos hlt

theorem not_short_of_full (h : coll.length + 1 = c.seedLength) (b : Bool) : ¬(coll ++ [b]).length < c.seedLength := by
  rw [List.length_append, List.length_singleton, h]
  exact Nat.lt_irrefl _

theorem huntBit_of_candidate {b : Bool} (h : coll.length + 1 = c.seedLength)
    (hcand : c.candidate (coll ++ [b]) = some ref) : huntBit c coll b = .confirming ref 0 := by
  simp only [huntBit, if_neg (not_short_of_full h b), hcand]

theorem huntBit_of_no_candidate {b : Bool} (h : coll.length + 1 = c.seedLength)
    (hcand : c.candidate (coll ++ [b]) = none) : huntBit c coll b = .hunting ((coll ++ [b]).drop 1) := by
  simp only [huntBit, if_neg (not_short_of_full h b), hcand]

/-! The reference that a full collection gives -/

/-- Table 6-2: a PRBS has an order S of at most 31 and a second tap below it. -/
theorem exists_taps (h : c.pattern ≠ .word) : ∃ order tap, c.pattern.taps = some (order, tap) ∧ c.seedLength = order ∧
    0 < tap ∧ tap < order ∧ order ≤ 31 := by
  unfold EngineConfig.seedLength
  cases hp : c.pattern with
  | word => exact absurd hp h
  | prbs9 | prbs23 | prbs31 => exact ⟨_, _, rfl, rfl, by decide, by decide, by decide⟩

theorem seedLength_of_word (h : c.pattern = .word) : c.seedLength = c.len := by
  rw [EngineConfig.seedLength, h]
  rfl

theorem candidate_of_prbs (h : c.pattern ≠ .word) {bits : List Bool} (hbits : true ∈ bits) :
    c.candidate bits = some (.prbs (regOfBits bits)) := by
  obtain ⟨order, tap, htaps, -⟩ := exists_taps h
  simp only [EngineConfig.candidate, htaps]
  exact if_pos (List.any_eq_true.mpr ⟨true, hbits, rfl⟩)

theorem candidate_of_zeros (h : c.pattern ≠ .word) {bits : List Bool} (hbits : true ∉ bits) :
    c.candidate bits = none := by
  obtain ⟨order, tap, htaps, -⟩ := exists_taps h
  simp only [EngineConfig.candidate, htaps]
  refine if_neg fun hany => ?_
  obtain ⟨b, hb, rfl⟩ := List.any_eq_true.mp hany
  exact hbits hb

theorem candidate_of_word (h : c.pattern = .word) (bits : List Bool) :
    c.candidate bits = ((List.range c.len).find? fun k => c.rotation k == bits).map Reference.word := by
  rw [EngineConfig.candidate, h]
  rfl

/-- A WORD takes the first rotation that equals the collection. -/
theorem candidate_of_rotation (h : c.pattern = .word) {bits : List Bool} {k : Nat} (hk : k < c.len)
    (heq : c.rotation k = bits) (hfirst : ∀ j < k, c.rotation j ≠ bits) : c.candidate bits = some (.word k) := by
  have hfind : (List.range c.len).find? (fun k => c.rotation k == bits) = some k :=
    List.find?_range_eq_some.mpr ⟨beq_iff_eq.mpr heq, List.mem_range.mpr hk, fun j hj => by simpa using hfirst j hj⟩
  rw [candidate_of_word h, hfind]
  rfl

theorem candidate_of_no_rotation (h : c.pattern = .word) {bits : List Bool}
    (hnone : ∀ k < c.len, c.rotation k ≠ bits) : c.candidate bits = none := by
  have hfind : (List.range c.len).find? (fun k => c.rotation k == bits) = none :=
    List.find?_range_eq_none.mpr fun k hk => by simpa using hnone k hk
  rw [candidate_of_word h, hfind]
  rfl

/-! Bits pushed into a register -/

theorem getLsbD_pushBit_zero (reg : BitVec 31) (b : Bool) : (pushBit reg b).getLsbD 0 = b :=
  getLsbD_shiftIn_zero reg b

theorem getLsbD_pushBit_succ (reg : BitVec 31) (b : Bool) {i : Nat} (h : i + 1 < 31) :
    (pushBit reg b).getLsbD (i + 1) = reg.getLsbD i := getLsbD_shiftIn_succ reg b (Nat.lt_of_succ_lt_succ h)

/-- Of the bits pushed into a register, the last stands in bit 0. -/
theorem getLsbD_foldl_pushBit (reg : BitVec 31) (bits : List Bool) : ∀ {k : Nat}, k < 31 → k < bits.length →
    (bits.foldl pushBit reg).getLsbD k = bits.getD (bits.length - 1 - k) false := by
  induction bits using List.reverseRecOn with
  | nil => exact fun _ h => absurd h (Nat.not_lt_zero _)
  | append_singleton bits b ih =>
    intro k hk hlt
    rw [List.length_append, List.length_singleton] at hlt ⊢
    rw [List.foldl_append, List.foldl_cons, List.foldl_nil]
    cases k with
    | zero =>
      rw [getLsbD_pushBit_zero]
      simp
    | succ k =>
      have hpos : bits.length + 1 - 1 - (k + 1) = bits.length - 1 - k := by omega
      rw [getLsbD_pushBit_succ _ _ hk, ih (by omega) (by omega), hpos, List.getD_append _ _ _ _ (by omega)]

/-! ### One bit in CONFIRMING and LOCKED (R123, R124) -/

section
variable {count bits errs : Nat} {b : Bool}

theorem checkBit_of_confirming (h : w.checker = .confirming ref count) (hb : b = (ref.predict c).1)
    (hcount : count + 1 < 64) : checkBit c w b = { w with checker := .confirming (ref.predict c).2 (count + 1) } := by
  have hk : confirmBit c ref count b = .confirming (ref.predict c).2 (count + 1) := by
    rw [confirmBit, if_pos hb, if_neg (Nat.not_le.mpr hcount)]
  simp only [checkBit, h, hk]
  rfl

theorem checkBit_of_confirmed (h : w.checker = .confirming ref count) (hb : b = (ref.predict c).1)
    (hcount : count + 1 = 64) :
    checkBit c w b = { w with checker := .locked (ref.predict c).2 0 0, changed := true, entered := true } := by
  have hk : confirmBit c ref count b = .locked (ref.predict c).2 0 0 := by
    rw [confirmBit, if_pos hb, if_pos (Nat.le_of_eq hcount.symm)]
  simp only [checkBit, h, hk]
  rfl

theorem checkBit_of_unconfirmed (h : w.checker = .confirming ref count) (hb : b ≠ (ref.predict c).1) :
    checkBit c w b = { w with checker := .hunting [] } := by
  have hk : confirmBit c ref count b = .hunting [] := by
    rw [confirmBit, if_neg hb]
  simp only [checkBit, h, hk]
  rfl

/-- In LOCKED the bit is compared, and the block is judged when it is full. -/
theorem checkBit_of_locked (h : w.checker = .locked ref bits errs) {errs' : Nat} {errors' : BitVec 32}
    (herrs : errs' = if b = (ref.predict c).1 then errs else errs + 1)
    (herrors : errors' = if b = (ref.predict c).1 then w.bitErrors else satInc w.bitErrors) :
    checkBit c w b =
      if bits + 1 < 256 then { w with checker := .locked (ref.predict c).2 (bits + 1) errs', bitErrors := errors' }
      else if c.lossThreshold ≤ errs' then
        { w with checker := .hunting [], bitErrors := errors', syncLosses := satInc w.syncLosses, changed := true }
      else { w with checker := .locked (ref.predict c).2 0 0, bitErrors := errors' } := by
  have hwrong : (b != (ref.predict c).1) = true ↔ ¬b = (ref.predict c).1 := bne_iff_ne
  rw [herrs, herrors]
  simp only [checkBit, h, lockedBit, hwrong, ite_not]

end

end

/-- Settles O18, state by state. -/
theorem checkerTakesABit : Obligations.CheckerTakesABit := by
  intro c w b
  refine ⟨fun coll h => ?_, fun ref count h => ⟨checkBit_of_confirming h, checkBit_of_confirmed h,
    checkBit_of_unconfirmed h⟩, fun ref bits errs h errs' errors' herrs herrors => ?_⟩
  · rw [checkBit_of_hunting h]
    refine ⟨fun hshort => by rw [huntBit_of_short hshort], fun hfull hp => ⟨fun hbits => ⟨regOfBits (coll ++ [b]), ?_,
      fun k hk => ?_⟩, fun hbits => ?_⟩, ?_⟩
    · rw [huntBit_of_candidate hfull (candidate_of_prbs hp hbits)]
    · obtain ⟨order, tap, -, hseed, -, -, horder⟩ := exists_taps hp
      have hlen : (coll ++ [b]).length = c.seedLength := by rw [List.length_append, List.length_singleton, hfull]
      rw [← hlen]
      exact getLsbD_foldl_pushBit 0 _ (by omega) (by omega)
    · rw [huntBit_of_no_candidate hfull (candidate_of_zeros hp hbits)]
    · rintro hfull hp rotation rfl
      refine ⟨fun k hk heq hfirst => ?_, fun hnone => ?_⟩
      · rw [huntBit_of_candidate hfull (candidate_of_rotation hp hk heq hfirst)]
      · rw [huntBit_of_no_candidate hfull (candidate_of_no_rotation hp hnone)]
  · rw [checkBit_of_locked h herrs herrors]
    refine ⟨fun hbits => if_pos hbits, fun hbits hgood => ?_, fun hbits hlost => ?_⟩
    · rw [if_neg (by omega), if_neg (Nat.not_le.mpr hgood)]
    · rw [if_neg (by omega), if_pos hlost]

end Sys2Proof.Machine
end

