-- ==== Sys2Proof/Proofs/CleanSequence.lean ====
section
/-! A checker fed the sequence of a generator (R122, R123): it collects S bits, takes them as its reference, and then
predicts every further bit. -/

namespace Sys2Proof.Machine

/-! ### The sequence bit by bit -/

section
variable {c : EngineConfig} {q : Sequence}

theorem seqAfter_succ' (c : EngineConfig) (k : Nat) (q : Sequence) :
    seqAfter c (k + 1) q = (nextBit c (seqAfter c k q)).2 :=
  Function.iterate_succ_apply' (fun q => (nextBit c q).2) k q

theorem firstBits_succ (c : EngineConfig) (k : Nat) (q : Sequence) :
    firstBits c (k + 1) q = firstBits c k q ++ [(nextBit c (seqAfter c k q)).1] := by
  rw [firstBits, List.range_succ, List.map_append]
  rfl

theorem length_firstBits (c : EngineConfig) (k : Nat) (q : Sequence) : (firstBits c k q).length = k := by
  rw [firstBits, List.length_map, List.length_range]

/-- The register holds the bits that were produced (R107). -/
theorem reg_seqAfter (c : EngineConfig) (q : Sequence) : ∀ k,
    (seqAfter c k q).reg = (firstBits c k q).foldl pushBit q.reg
  | 0 => rfl
  | k + 1 => by
    rw [seqAfter_succ', reg_nextBit, reg_seqAfter c q k, firstBits_succ, List.foldl_append]
    rfl

theorem nextPos_eq {k : Nat} (h : k < c.len) : c.nextPos k = (k + 1) % c.len := by
  unfold EngineConfig.nextPos
  split
  · next hlt => rw [Nat.mod_eq_of_lt hlt]
  · next hge =>
    have hlast : c.len = k + 1 := by omega
    rw [hlast, Nat.mod_self]

/-- A WORD goes round its positions (R109). -/
theorem wordPos_seqAfter (h : c.pattern = .word) (hq : q.wordPos < c.len) : ∀ k,
    (seqAfter c k q).wordPos = (q.wordPos + k) % c.len
  | 0 => (Nat.mod_eq_of_lt hq).symm
  | k + 1 => by
    have hlt : (q.wordPos + k) % c.len < c.len := Nat.mod_lt _ (Nat.zero_lt_of_lt hq)
    rw [seqAfter_succ', nextBit_of_word h, wordPos_seqAfter h hq k, nextPos_eq hlt, Nat.mod_add_mod]
    rfl

/-- The first L bits of a WORD are the rotation at its position. -/
theorem firstBits_of_word (h : c.pattern = .word) (hq : q.wordPos < c.len) :
    firstBits c c.len q = c.rotation q.wordPos := by
  refine List.map_congr_left fun j _ => ?_
  rw [nextBit_of_word h, wordPos_seqAfter h hq]

/-! ### A reference that follows the sequence -/

/-- The reference predicts the bits that the sequence produces from a sequence state: its S latest bits are those of
the register, or its word position is one from which the same bits come as from that of the sequence. -/
def Reference.Follows (c : EngineConfig) (q : Sequence) : Reference → Prop
  | .prbs reg => c.pattern ≠ .word ∧ ∀ i < c.seedLength, reg.getLsbD i = q.reg.getLsbD i
  | .word k => c.pattern = .word ∧ k < c.len ∧ q.wordPos < c.len ∧
      ∀ i, c.wordBit ((k + i) % c.len) = c.wordBit ((q.wordPos + i) % c.len)

/-- Registers that agree in their S latest bits agree in them after the same bit. -/
theorem pushBit_agree {reg reg' : BitVec 31} {n : Nat} (hn : n ≤ 31) (h : ∀ i < n, reg.getLsbD i = reg'.getLsbD i)
    (b : Bool) : ∀ i < n, (pushBit reg b).getLsbD i = (pushBit reg' b).getLsbD i
  | 0, _ => by rw [getLsbD_pushBit_zero, getLsbD_pushBit_zero]
  | i + 1, hi => by
    have hlt : i + 1 < 31 := Nat.lt_of_lt_of_le hi hn
    rw [getLsbD_pushBit_succ _ _ hlt, getLsbD_pushBit_succ _ _ hlt, h i (Nat.lt_of_succ_lt hi)]

theorem Reference.Follows.predict {ref : Reference} (h : ref.Follows c q) :
    (ref.predict c).1 = (nextBit c q).1 ∧ (ref.predict c).2.Follows c (nextBit c q).2 := by
  cases ref with
  | prbs reg =>
    obtain ⟨hp, hagree⟩ := h
    obtain ⟨order, tap, htaps, hseed, htap, hlt, horder⟩ := exists_taps hp
    rw [hseed] at hagree
    have hbit : prbsBit order tap reg = prbsBit order tap q.reg := by
      rw [prbsBit, prbsBit, hagree (order - 1) (by omega), hagree (tap - 1) (by omega)]
    simp only [Reference.predict, nextBit, htaps, hbit, true_and]
    refine ⟨hp, ?_⟩
    rw [hseed]
    exact pushBit_agree horder hagree _
  | word k =>
    obtain ⟨hp, hk, hpos, hsame⟩ := h
    have hbit := hsame 0
    rw [Nat.add_zero, Nat.add_zero, Nat.mod_eq_of_lt hk, Nat.mod_eq_of_lt hpos] at hbit
    have hlen : 0 < c.len := Nat.zero_lt_of_lt hk
    rw [nextBit_of_word hp, nextPos_eq hpos]
    simp only [Reference.predict, nextPos_eq hk]
    refine ⟨hbit, hp, Nat.mod_lt _ hlen, Nat.mod_lt _ hlen, fun i => ?_⟩
    rw [Nat.mod_add_mod, Nat.mod_add_mod, Nat.add_assoc, Nat.add_assoc]
    exact hsame (1 + i)

/-- Positions whose rotations are equal produce the same bits for ever. -/
theorem wordBit_of_rotation_eq {j k : Nat} (h : c.rotation j = c.rotation k) (hlen : 0 < c.len) (i : Nat) :
    c.wordBit ((j + i) % c.len) = c.wordBit ((k + i) % c.len) := by
  have hlt := Nat.mod_lt i hlen
  have hi := List.map_inj_left.mp h (i % c.len) (List.mem_range.mpr hlt)
  rwa [Nat.add_mod_mod, Nat.add_mod_mod] at hi

/-- The first S bits of a sequence are a reference that follows it. -/
theorem exists_candidate (hq : q.wordPos < c.len) (h : c.pattern = .word ∨ true ∈ firstBits c c.seedLength q) :
    ∃ ref, c.candidate (firstBits c c.seedLength q) = some ref ∧ ref.Follows c (seqAfter c c.seedLength q) := by
  by_cases hp : c.pattern = .word
  · have hlen : 0 < c.len := Nat.zero_lt_of_lt hq
    rw [seedLength_of_word hp, firstBits_of_word hp hq, candidate_of_word hp]
    have hsome : ((List.range c.len).find? fun k => c.rotation k == c.rotation q.wordPos).isSome = true :=
      List.find?_isSome.mpr ⟨q.wordPos, List.mem_range.mpr hq, beq_self_eq_true _⟩
    obtain ⟨k, hk⟩ := Option.isSome_iff_exists.mp hsome
    have hrot : c.rotation k = c.rotation q.wordPos :=
      beq_iff_eq.mp (List.find?_some (p := fun k => c.rotation k == c.rotation q.wordPos) hk)
    have hlt : k < c.len := List.mem_range.mp (List.mem_of_find?_eq_some hk)
    have hround : (seqAfter c c.len q).wordPos = q.wordPos := by
      rw [wordPos_seqAfter hp hq, Nat.add_mod_right, Nat.mod_eq_of_lt hq]
    rw [hk]
    refine ⟨.word k, rfl, hp, hlt, ?_, ?_⟩
    · rwa [hround]
    · rw [hround]
      exact wordBit_of_rotation_eq hrot hlen
  · obtain ⟨order, tap, -, hseed, -, -, horder⟩ := exists_taps hp
    refine ⟨_, candidate_of_prbs hp (h.resolve_left hp), hp, fun i hi => ?_⟩
    have hi31 : i < 31 := by omega
    have hlen : i < (firstBits c c.seedLength q).length := by rwa [length_firstBits]
    rw [reg_seqAfter, getLsbD_foldl_pushBit _ _ hi31 hlen]
    exact getLsbD_foldl_pushBit 0 _ hi31 hlen

/-! ### The checker on the sequence -/

/-- What the checker's work is after `k` bits of the sequence. -/
def cleanWork (c : EngineConfig) (q : Sequence) (w : CheckWork) (k : Nat) : CheckWork :=
  (firstBits c k q).foldl (checkBit c) w

theorem cleanWork_succ (c : EngineConfig) (q : Sequence) (w : CheckWork) (k : Nat) :
    cleanWork c q w (k + 1) = checkBit c (cleanWork c q w k) (nextBit c (seqAfter c k q)).1 := by
  rw [cleanWork, firstBits_succ, List.foldl_append]
  rfl

variable {w : CheckWork}

/-- Until it has S bits, the checker collects. -/
theorem cleanWork_collects (hw : w.checker = .hunting []) : ∀ {k : Nat}, k < c.seedLength →
    cleanWork c q w k = { w with checker := .hunting (firstBits c k q) }
  | 0, _ => congrArg (fun x => { w with checker := x }) hw
  | k + 1, hk => by
    have hshort : (firstBits c k q).length + 1 < c.seedLength := by rwa [length_firstBits]
    rw [cleanWork_succ, cleanWork_collects hw (Nat.lt_of_succ_lt hk), checkBit_of_hunting rfl, huntBit_of_short hshort,
      ← firstBits_succ]

/-- With its S-th bit the checker takes its reference, which is confirmed by every further bit. -/
theorem cleanWork_confirms (hw : w.checker = .hunting []) (hseed : 0 < c.seedLength) (hq : q.wordPos < c.len)
    (h : c.pattern = .word ∨ true ∈ firstBits c c.seedLength q) : ∀ {j : Nat}, j < 64 →
    ∃ ref, ref.Follows c (seqAfter c (c.seedLength + j) q) ∧
      cleanWork c q w (c.seedLength + j) = { w with checker := .confirming ref j }
  | 0, _ => by
    obtain ⟨ref, hcand, hfollows⟩ := exists_candidate hq h
    obtain ⟨k, hk⟩ := Nat.exists_eq_add_one.mpr hseed
    have hfull : (firstBits c k q).length + 1 = c.seedLength := by rw [length_firstBits, hk]
    refine ⟨ref, hfollows, ?_⟩
    rw [hk, firstBits_succ] at hcand
    rw [Nat.add_zero, hk, cleanWork_succ, cleanWork_collects hw (by omega), checkBit_of_hunting rfl,
      huntBit_of_candidate hfull hcand]
  | j + 1, hj => by
    obtain ⟨ref, hfollows, hwork⟩ := cleanWork_confirms hw hseed hq h (Nat.lt_of_succ_lt hj)
    obtain ⟨hbit, hnext⟩ := hfollows.predict
    rw [← Nat.add_assoc, seqAfter_succ', cleanWork_succ, hwork]
    exact ⟨_, hnext, checkBit_of_confirming rfl hbit.symm hj⟩

/-- From its 64th confirming bit on the checker is LOCKED, and counts no error. -/
theorem cleanWork_locks (hw : w.checker = .hunting []) (hseed : 0 < c.seedLength) (hq : q.wordPos < c.len)
    (hloss : 1 ≤ c.lossThreshold) (h : c.pattern = .word ∨ true ∈ firstBits c c.seedLength q) : ∀ j : Nat,
    ∃ ref bits, ref.Follows c (seqAfter c (c.seedLength + 64 + j) q) ∧ bits < 256 ∧ (j = 0 → bits = 0) ∧
      cleanWork c q w (c.seedLength + 64 + j) =
        { w with checker := .locked ref bits 0, changed := true, entered := true }
  | 0 => by
    obtain ⟨ref, hfollows, hwork⟩ := cleanWork_confirms hw hseed hq h (show 63 < 64 by decide)
    obtain ⟨hbit, hnext⟩ := hfollows.predict
    rw [Nat.add_zero, show c.seedLength + 64 = c.seedLength + 63 + 1 from rfl, seqAfter_succ', cleanWork_succ, hwork]
    exact ⟨_, 0, hnext, by decide, fun _ => rfl, checkBit_of_confirmed rfl hbit.symm rfl⟩
  | j + 1 => by
    obtain ⟨ref, bits, hfollows, hbits, -, hwork⟩ := cleanWork_locks hw hseed hq hloss h j
    obtain ⟨hbit, hnext⟩ := hfollows.predict
    rw [← Nat.add_assoc, seqAfter_succ', cleanWork_succ, hwork,
      checkBit_of_locked rfl (if_pos hbit.symm).symm (if_pos hbit.symm).symm, if_neg (Nat.not_le.mpr hloss)]
    by_cases hlt : bits + 1 < 256
    · exact ⟨_, bits + 1, hnext, hlt, nofun, if_pos hlt⟩
    · exact ⟨_, 0, hnext, by decide, nofun, if_neg hlt⟩

end

theorem seedLength_pos {c : EngineConfig} (h : 8 ≤ c.len) : 0 < c.seedLength := by
  by_cases hp : c.pattern = .word
  · rw [seedLength_of_word hp]
    omega
  · obtain ⟨order, tap, -, hseed, -, hlt, -⟩ := exists_taps hp
    omega

/-- Settles O19, by the three phases of the checker on a clean sequence. -/
theorem cleanSequenceLocks : Obligations.CleanSequenceLocks := by
  intro c q w hlen hq hloss hw h
  have hseed := seedLength_pos hlen
  have hlocks := cleanWork_locks hw hseed hq hloss h
  have hphases : ∀ k, (cleanWork c q w k).bitErrors = w.bitErrors ∧
      (k < c.seedLength + 64 → (cleanWork c q w k).checker.name ≠ .locked) := by
    intro k
    rcases Nat.lt_or_ge k c.seedLength with hlt | hge
    · rw [cleanWork_collects hw hlt]
      exact ⟨rfl, nofun⟩
    · obtain ⟨j, rfl⟩ := Nat.exists_eq_add_of_le hge
      rcases Nat.lt_or_ge j 64 with hj | hj
      · obtain ⟨ref, -, hwork⟩ := cleanWork_confirms hw hseed hq h hj
        rw [hwork]
        exact ⟨rfl, nofun⟩
      · obtain ⟨i, rfl⟩ := Nat.exists_eq_add_of_le hj
        obtain ⟨ref, bits, -, -, -, hwork⟩ := hlocks i
        rw [← Nat.add_assoc, hwork]
        exact ⟨rfl, fun hlt => absurd hlt (by omega)⟩
  obtain ⟨ref, bits, -, -, hzero, hwork⟩ := hlocks 0
  rw [hzero rfl] at hwork
  exact ⟨⟨ref, hwork⟩, fun k => (hphases k).2, fun k => (hphases k).1⟩

end Sys2Proof.Machine
end

