-- ==== Sys2Proof/Proofs/RunEnds.lean ====
section
/-! The runs that end at a frame start (R131, R132, R138, R139): each engine's frame-start work, and then the records
handed over in ascending engine number. -/

namespace Sys2Proof.Machine

/-! ### Records handed over (R138, R139) -/

/-- The run that engine `n` has in `s` has ended in `t` with outcome `o`: a record of it stands in the queue or is held
by the engine, which is otherwise as the run has left it (R132). -/
def RunEnded (o : RunOutcome) (n : Nat) (s t : State) : Prop :=
  ∃ start run, (s.engine n).run = .running start ∧ run.isRunning = false ∧ t.engine n = (s.engine n).ended run ∧
    t.holdsRecord n (recordOf n (s.engine n) start o)

/-- Between `s` and `t` the runs of the engines `ending` end in this order, each with its outcome by `o`: the queue
takes the records `new` while it has room, and the engines `more` join the backlog. -/
structure HandsOver (o : Nat → Option RunOutcome) (s t : State) (ending : List Nat) (new : List ResultRecord)
    (more : List Nat) : Prop where
  queue : t.rq.queue = s.rq.queue ++ new
  backlog : t.rq.backlog = s.rq.backlog ++ more
  order : new.map (·.engine) ++ more = ending
  length : new.length = min ending.length (8 - s.rq.queue.length)
  ended : ∀ n ∈ ending, ∃ out, o n = some out ∧ RunEnded out n s t
  waiting : ∀ n ∈ more, ∃ r, (t.engine n).run = .ended r ∧ r.engine = n
  others : ∀ n < 4, n ∉ ending → t.engine n = s.engine n
  ready : t.flag 3 = true ↔ s.flag 3 = true ∨ new ≠ []
  waits : t.flag 4 = true ↔ s.flag 4 = true ∨ more ≠ []

theorem endRun_of_not_running {s : State} {n : Nat} (h : (s.engine n).run.isRunning = false) (o : RunOutcome) :
    endRun n o s = s := by
  rcases endRun_cases n o s with ⟨start, r, hrun, -⟩ | ⟨-, heq⟩
  · rw [hrun] at h
    cases h
  · exact heq

namespace HandsOver
variable {o : Nat → Option RunOutcome} {s t u : State}

theorem refl (o : Nat → Option RunOutcome) (s : State) : HandsOver o s s [] [] [] where
  queue := (List.append_nil _).symm
  backlog := (List.append_nil _).symm
  order := rfl
  length := (Nat.zero_min _).symm
  ended := nofun
  waiting := nofun
  others _ _ _ := rfl
  ready := (or_iff_left fun h => h rfl).symm
  waits := (or_iff_left fun h => h rfl).symm

/-- One run ends. -/
theorem endRun {n : Nat} {out : RunOutcome} (hn : n < 4) (ho : o n = some out)
    (hrun : (s.engine n).run.isRunning = true) : ∃ new more, HandsOver o s (endRun n out s) [n] new more := by
  cases hstart : (s.engine n).run with
  | idle | ended =>
    rw [hstart] at hrun
    cases hrun
  | running start =>
    have hothers : ∀ e : Engine, ∀ m < 4, m ∉ [n] → (s.setEngine n e).engine m = s.engine m := by
      intro e m hm hne
      rw [List.mem_singleton] at hne
      exact (engine_setEngine s n m e).trans (if_neg (by omega))
    rcases Nat.lt_or_ge s.rq.queue.length 8 with hroom | hfull
    · have hengine := engine_endRun_of_room hstart hroom out
      rw [endRun_of_room hstart hroom] at hengine ⊢
      refine ⟨[recordOf n (s.engine n) start out], [], rfl, (List.append_nil _).symm, rfl, ?_, ?_, nofun, hothers _, ?_,
        ?_⟩
      · simp only [List.length_singleton]
        omega
      · intro m hm
        rw [List.mem_singleton.mp hm]
        exact ⟨out, ho, start, .idle, hstart, rfl, hengine, Or.inl (List.mem_append_right _ List.mem_cons_self)⟩
      · rw [flag_raise]
        simp [srcResultReady]
      · rw [flag_raise]
        simp [srcResultReady, State.flag]
    · have hengine := engine_endRun_of_full hstart hfull out
      rw [endRun_of_full hstart hfull] at hengine ⊢
      refine ⟨[], [n], (List.append_nil _).symm, rfl, rfl, ?_, ?_, ?_, hothers _, ?_, ?_⟩
      · simp only [List.length_nil, List.length_singleton]
        omega
      · intro m hm
        rw [List.mem_singleton.mp hm]
        exact ⟨out, ho, start, _, hstart, rfl, hengine, Or.inr (by rw [hengine]; rfl)⟩
      · intro m hm
        rw [List.mem_singleton.mp hm, hengine]
        exact ⟨_, rfl, rfl⟩
      · rw [flag_raise]
        simp [srcResultBacklog, State.flag]
      · rw [flag_raise]
        simp [srcResultBacklog]

/-- Where an engine has joined the backlog the queue is full, so no further record is appended. -/
theorem trans {e₁ e₂ more₁ more₂ : List Nat} {new₁ new₂ : List ResultRecord} (h : HandsOver o s t e₁ new₁ more₁)
    (k : HandsOver o t u e₂ new₂ more₂) (hlt : ∀ n ∈ e₁ ++ e₂, n < 4) (hdisjoint : e₁.Disjoint e₂) :
    HandsOver o s u (e₁ ++ e₂) (new₁ ++ new₂) (more₁ ++ more₂) := by
  have hcount : new₁.length + more₁.length = e₁.length := by rw [← h.order, List.length_append, List.length_map]
  have hqueue : t.rq.queue.length = s.rq.queue.length + new₁.length := by rw [h.queue, List.length_append]
  have hlen₁ := h.length
  have hlen₂ := k.length
  have hmem₁ : ∀ {n}, n ∈ more₁ → n ∈ e₁ := fun hin => h.order ▸ List.mem_append_right _ hin
  have hafter : ∀ n ∈ e₁, u.engine n = t.engine n := fun n hin =>
    k.others n (hlt n (List.mem_append_left _ hin)) fun hin₂ => hdisjoint hin hin₂
  have hbefore : ∀ n ∈ e₂, t.engine n = s.engine n := fun n hin =>
    h.others n (hlt n (List.mem_append_right _ hin)) fun hin₁ => hdisjoint hin₁ hin
  refine ⟨?_, ?_, ?_, ?_, ?_, ?_, ?_, ?_, ?_⟩
  · rw [k.queue, h.queue, List.append_assoc]
  · rw [k.backlog, h.backlog, List.append_assoc]
  · rw [← h.order, ← k.order, List.map_append]
    rcases Nat.eq_zero_or_pos more₁.length with hnone | hsome
    · rw [List.length_eq_zero_iff.mp hnone]
      simp
    · have hnil : new₂.length = 0 := by omega
      rw [List.length_eq_zero_iff.mp hnil]
      simp
  · rw [List.length_append, List.length_append]
    omega
  · intro n hin
    rcases List.mem_append.mp hin with hin | hin
    · obtain ⟨out, ho, start, run, hrun, hnot, hengine, hrecord⟩ := h.ended n hin
      refine ⟨out, ho, start, run, hrun, hnot, (hafter n hin).trans hengine, hrecord.imp (fun hq => ?_) fun hr => ?_⟩
      · rw [k.queue]
        exact List.mem_append_left _ hq
      · rwa [hafter n hin]
    · obtain ⟨out, ho, hended⟩ := k.ended n hin
      rw [RunEnded, hbefore n hin] at hended
      exact ⟨out, ho, hended⟩
  · intro n hin
    rcases List.mem_append.mp hin with hin | hin
    · rw [hafter n (hmem₁ hin)]
      exact h.waiting n hin
    · exact k.waiting n hin
  · intro n hn hout
    rw [List.mem_append, not_or] at hout
    exact (k.others n hn hout.2).trans (h.others n hn hout.1)
  · rw [k.ready, h.ready, or_assoc, ne_eq, ne_eq, ne_eq, List.append_eq_nil_iff, ← Decidable.not_and_iff_not_or_not]
  · rw [k.waits, h.waits, or_assoc, ne_eq, ne_eq, ne_eq, List.append_eq_nil_iff, ← Decidable.not_and_iff_not_or_not]

/-- The runs of the engines of a list end, where an outcome is given and the engine is RUNNING. -/
theorem foldl_endRunIf (o : Nat → Option RunOutcome) : ∀ (l : List Nat) (s : State), l.Nodup → (∀ n ∈ l, n < 4) →
    ∃ new more, HandsOver o s (l.foldl (fun s n => endRunIf (o n) n s) s)
      (l.filter fun n => (o n).isSome && (s.engine n).run.isRunning) new more
  | [], s, _, _ => ⟨[], [], refl o s⟩
  | n :: l, s, hnodup, hl => by
    obtain ⟨hnew, hnodup⟩ := List.nodup_cons.mp hnodup
    obtain ⟨hn, hl⟩ := List.forall_mem_cons.mp hl
    obtain ⟨new₂, more₂, hrest⟩ := foldl_endRunIf o l (endRunIf (o n) n s) hnodup hl
    rw [List.foldl_cons, List.filter_cons]
    by_cases hends : ((o n).isSome && (s.engine n).run.isRunning) = true
    · rw [if_pos hends]
      obtain ⟨hsome, hrun⟩ := (Bool.and_eq_true ..).mp hends
      obtain ⟨out, hout⟩ := Option.isSome_iff_exists.mp hsome
      obtain ⟨new₁, more₁, hone⟩ := endRun hn hout hrun
      have hstep : endRunIf (o n) n s = Machine.endRun n out s := by rw [hout]; rfl
      rw [hstep] at hrest ⊢
      have hfilter : (l.filter fun m => (o m).isSome && ((Machine.endRun n out s).engine m).run.isRunning) =
          l.filter fun m => (o m).isSome && (s.engine m).run.isRunning := by
        refine List.filter_congr fun m hm => ?_
        rw [hone.others m (hl m hm) fun hin => hnew (List.mem_singleton.mp hin ▸ hm)]
      rw [hfilter] at hrest
      refine ⟨_, _, hone.trans hrest (fun m hm => ?_) fun m hm hm' => ?_⟩
      · rcases List.mem_append.mp hm with hm | hm
        · rwa [List.mem_singleton.mp hm]
        · exact hl m (List.mem_of_mem_filter hm)
      · rw [List.mem_singleton.mp hm] at hm'
        exact hnew (List.mem_of_mem_filter hm')
    · rw [if_neg hends]
      have hstep : endRunIf (o n) n s = s := by
        cases ho : o n with
        | none => rfl
        | some out =>
          rw [ho, Option.isSome_some, Bool.true_and] at hends
          exact endRun_of_not_running (Bool.eq_false_iff.mpr hends) out
      rw [hstep] at hrest ⊢
      exact ⟨new₂, more₂, hrest⟩

end HandsOver

end Sys2Proof.Machine
end

