-- ==== Sys2Proof/Proofs/EngineFrames.lean ====
section
/-! An engine at a frame start (R120, R121, R125, R126, R129, R131, R134): its frame-start work counts the frame, and
its run goes on or ends. -/

namespace Sys2Proof.Machine

/-! ### The bits that a frame start presents (R120) -/

theorem flatMap_range_eight (f : Nat → Bool) : ∀ width : Nat,
    ((List.range width).flatMap fun i => [0, 1, 2, 3, 4, 5, 6, 7].map fun j => f (8 * i + j)) =
      (List.range (8 * width)).map f
  | 0 => rfl
  | width + 1 => by
    rw [List.range_succ, List.flatMap_append, flatMap_range_eight f width, Nat.mul_succ, List.range_add,
      List.map_append, List.map_map]
    rfl

/-- Bit k of the bits presented is bit 7 − k mod 8 of the slot k / 8 after the first. -/
theorem checkedBits_eq (s : State) (c : EngineConfig) : checkedBits c s.rfm.receiving = s.arrivedBits c := by
  rw [State.arrivedBits, ← flatMap_range_eight]
  refine List.flatMap_congr fun i _ => ?_
  show ([0, 1, 2, 3, 4, 5, 6, 7].map fun j =>
    (s.rfm.receiving.get (flat c.chkStream c.chkSlot + i)).getLsbD (7 - j) ^^ c.invert) = _
  refine List.map_congr_left fun j hj => ?_
  have hj8 : j < 8 := by
    have hall : ∀ j ∈ [0, 1, 2, 3, 4, 5, 6, 7], j < 8 := by decide
    exact hall j hj
  have hdiv : (8 * i + j) / 8 = i := by omega
  have hmod : (8 * i + j) % 8 = j := by omega
  rw [hdiv, hmod]
  rfl

/-! ### The work of a RUNNING engine (R126) -/

/-- The checker's work before it reads anything at a frame start. -/
def Engine.checkWork (e : Engine) : CheckWork :=
  { checker := e.checker, bitErrors := e.live.bitErrors, syncLosses := e.live.syncLosses, changed := false,
    entered := false }

/-- A fault frame takes the checker back to HUNTING with nothing collected, from LOCKED with a sync loss (R121). -/
theorem faultFrame_eq {w : CheckWork} (h : w.checker ≠ .off) :
    faultFrame w =
      { w with
        checker := .hunting []
        syncLosses := if w.checker.name = .locked then satInc w.syncLosses else w.syncLosses
        changed := w.changed || w.checker.name == .locked } := by
  unfold faultFrame
  split
  · next hoff => exact absurd hoff h
  · next hk => simp [hk, Checker.name]
  · next hk => simp [hk, Checker.name]
  · next hk => simp [hk, Checker.name]

/-- What the frame-start work of a RUNNING engine leaves, by the checker's work `w`. -/
def Engine.counted (e : Engine) (faulted : Bool) (w : CheckWork) : Engine :=
  { e with
    checker := w.checker
    live :=
      { framesRun := satInc e.live.framesRun
        framesLocked := if w.checker.name = .locked then satInc e.live.framesLocked else e.live.framesLocked
        bitErrors := w.bitErrors
        syncLosses := w.syncLosses
        faultFrames :=
          if e.live.framesRun ≠ 0 ∧ faulted = true then satInc e.live.faultFrames else e.live.faultFrames
        errorsInjected := e.live.errorsInjected
        firstLock :=
          if w.entered = true ∧ e.live.firstLock = none then some (satInc e.live.framesRun) else e.live.firstLock } }

/-- Only an entry into LOCKED sets the first-lock offset (R134). -/
theorem counted_firstLock_of_not_entered {e : Engine} {faulted : Bool} {w : CheckWork} (h : w.entered = false) :
    (e.counted faulted w).live.firstLock = e.live.firstLock :=
  if_neg fun hlock => Bool.false_ne_true (h.symm.trans hlock.1)

/-- The checker's work at a frame start (R120, R121): none at the first one, none but the loss at a fault frame. -/
def Engine.checked (completed : Table Byte 10) (faulted : Bool) (e : Engine) : CheckWork :=
  checkerWork e.cfg (e.live.framesRun == 0) faulted completed e.checkWork

theorem engineWork_engine (completed : Table Byte 10) (faulted : Bool) (e : Engine) :
    (engineWork completed faulted e).engine = e.counted faulted (e.checked completed faulted) := by
  have hfault : (!(e.live.framesRun == 0) && faulted) = true ↔ e.live.framesRun ≠ 0 ∧ faulted = true := by simp
  have hlock : ∀ b : Bool, (b && e.live.firstLock.isNone) = true ↔ b = true ∧ e.live.firstLock = none := by simp
  simp only [engineWork, Engine.counted, hfault, hlock]
  rfl

section
variable {e : Engine} {completed : Table Byte 10}

theorem checked_of_first (h : e.live.framesRun = 0) (faulted : Bool) : e.checked completed faulted = e.checkWork := by
  rw [Engine.checked, h]
  rfl

theorem checked_of_fault (h : e.live.framesRun ≠ 0) (hon : e.checker ≠ .off) :
    e.checked completed true =
      { e.checkWork with
        checker := .hunting []
        syncLosses := if e.checker.name = .locked then satInc e.live.syncLosses else e.live.syncLosses
        changed := e.checker.name == .locked } := by
  rw [Engine.checked, beq_false_of_ne h]
  exact faultFrame_eq (w := e.checkWork) hon

theorem checked_of_read (h : e.live.framesRun ≠ 0) :
    e.checked completed false = (checkedBits e.cfg completed).foldl (checkBit e.cfg) e.checkWork := by
  rw [Engine.checked, beq_false_of_ne h]
  rfl

end

/-- A frame start that leaves engine `n` the counters of its work, and raises SYNC_CHANGE as the work says, counts the
frame. -/
theorem countsFrame_of_work {s t : State} {n : Nat} {faulted : Bool} {w : CheckWork}
    (hw : w = (s.engine n).checked s.rfm.receiving faulted)
    (hfaulted : (t.sv.sups.get (s.engine n).cfg.chkStream).state.faulted = faulted)
    (hlive : (t.engine n).live = ((s.engine n).counted faulted w).live)
    (hflag : t.flag (6 + n) = true ↔ s.flag (6 + n) = true ∨ w.changed = true) : s.countsFrame t n w.checker := by
  rintro cfg old new rfl rfl rfl
  rw [hlive]
  refine ⟨rfl, rfl, rfl, fun hfirst => ?_, fun hlater hfault hon => ?_, fun hlater hfault w' hw' => ?_⟩
  · rw [checked_of_first hfirst] at hw
    subst hw
    refine ⟨rfl, rfl, rfl, if_neg fun h => h.1 hfirst, counted_firstLock_of_not_entered rfl,
      Bool.eq_iff_iff.mpr (hflag.trans (or_iff_left ?_))⟩
    nofun
  · obtain rfl : true = faulted := hfault.symm.trans hfaulted
    rw [checked_of_fault hlater hon] at hw
    subst hw
    exact ⟨rfl, rfl, if_pos ⟨hlater, rfl⟩, counted_firstLock_of_not_entered rfl, rfl,
      hflag.trans (or_congr_right beq_iff_eq)⟩
  · obtain rfl : false = faulted := hfault.symm.trans hfaulted
    rw [checked_of_read hlater, checkedBits_eq] at hw
    obtain rfl : w' = w := hw'.trans hw.symm
    exact ⟨rfl, rfl, rfl, if_neg nofun, rfl, hflag⟩

/-! ### One engine at a frame start (R131) -/

section
variable {completed : Table Byte 10} {faulted workFirst : Bool} {e : Engine}

theorem engineStart_of_not_running (h : e.run.isRunning = false) (removed : Bool) :
    engineStart completed faulted removed workFirst e = { engine := e, syncChange := false, outcome := none } :=
  if_neg (Bool.eq_false_iff.mp h)

/-- Where the engine keeps its TEST connection, its work decides. -/
theorem engineStart_of_kept (h : e.run.isRunning = true) :
    engineStart completed faulted false workFirst e = workStart completed faulted e := if_pos h

/-- With the application first, the run ends and the frame is not counted. -/
theorem engineStart_of_removed_first (h : e.run.isRunning = true) :
    engineStart completed faulted true false e =
      { engine := e, syncChange := false, outcome := some .pathRemoved } := if_pos h

/-- With the work first, the frame is counted, and the run ends all the same. -/
theorem engineStart_of_work_first (h : e.run.isRunning = true) :
    engineStart completed faulted true true e =
      { workStart completed faulted e with
        outcome := some ((workStart completed faulted e).outcome.getD .pathRemoved) } := if_pos h

theorem workStart_outcome_of_reached (h : e.reachesDuration) :
    (workStart completed faulted e).outcome = some .completed :=
  if_pos ((durationReached_iff completed faulted e).mpr h)

theorem workStart_outcome_of_not_reached (h : ¬e.reachesDuration) : (workStart completed faulted e).outcome = none :=
  if_neg fun hd => h ((durationReached_iff completed faulted e).mp hd)

end

/-! ### The frame start, engine by engine -/

/-- Engine `n` at the frame start `e` from `s`. -/
def State.startAt (s : State) (e : FrameEvent) (n : Nat) : EngineStart :=
  engineStartOf e (s.applicationDue e) (frameStartMap e s) n

/-- The supervisor of the checker stream of engine `n` is FAULT or RECOVERING after its sample (R121). -/
def State.faultedAt (s : State) (e : FrameEvent) (n : Nat) : Bool :=
  ((frameStart e s).sv.sups.get (s.engine n).cfg.chkStream).state.faulted

/-- A commit is applied at the frame start and leaves engine `n` no TEST connection (R131). -/
def State.removesTest (s : State) (e : FrameEvent) (n : Nat) : Bool :=
  s.applicationDue e && !(frameStartMap e s).hasTest n

/-- The state after the engines' work, before the records of ended runs are handed over. -/
def State.worked (s : State) (e : FrameEvent) : State :=
  raiseSyncs (fun n => (s.startAt e n).syncChange)
    { frameStartMap e s with
      te := { (frameStartMap e s).te with engines := .tabulate 2 fun n => (s.startAt e n).engine } }

section
variable (e : FrameEvent) (s : State)

theorem frameStart_eq : frameStart e s = beginOutput (endRuns (fun n => (s.startAt e n).outcome) (s.worked e)) := rfl

theorem startAt_eq (n : Nat) :
    s.startAt e n = engineStart s.rfm.receiving (s.faultedAt e n) (s.removesTest e n) (e.workFirst.getLsbD n)
      (s.engine n) := by
  have hcompleted : (frameStartMap e s).rfm.completed = s.rfm.receiving := by simp [frameStartMap, completeFrames]
  have hsv : (frameStart e s).sv = (frameStartMap e s).sv := startEngines_sv ..
  rw [State.startAt, engineStartOf, frameStartMap_engine, hcompleted, ← hsv]
  rfl

theorem engine_worked {n : Nat} (hn : n < 4) : (s.worked e).engine n = (s.startAt e n).engine :=
  engine_raiseSyncs_tabulate _ (frameStartMap e s) (fun n => (s.startAt e n).engine) rfl hn

theorem worked_rq : (s.worked e).rq = s.rq := by rw [State.worked, raiseSyncs_rq, frameStartMap_rq]

/-- The parts of a frame start before the engines' work raise COMMIT_DONE, RESERVATION_EXPIRED and STREAM_CHANGE
alone. -/
theorem flag_frameStartMap {j : Nat} (hlow : 3 ≤ j) (hhigh : j < 10) : (frameStartMap e s).flag j = s.flag j := by
  have hne : ∀ k < 3, k ≠ j := by omega
  rw [frameStartMap, flag_applyIf_of_ne _ _ (hne srcCommitDone (by decide)), flag_leaseCountdown,
    decide_eq_false (hne 2 (by decide)), Bool.and_false, Bool.or_false, sampleSupervisors,
    flag_raiseStreams_below _ _ hhigh]
  rfl

theorem flag_worked_result {j : Nat} (hlow : 3 ≤ j) (hhigh : j < 6) : (s.worked e).flag j = s.flag j :=
  (flag_raiseSyncs_below _ _ hhigh).trans (flag_frameStartMap e s hlow (by omega))

theorem flag_raiseSyncs_sync (p : Nat → Bool) (u : State) {n : Nat} (hn : n < 4) :
    (raiseSyncs p u).flag (6 + n) = true ↔ u.flag (6 + n) = true ∨ p n = true := by
  refine (flag_foldl_raiseIf p srcSyncChange (6 + n) _ u).trans (or_congr_right ⟨?_, fun h => ?_⟩)
  · rintro ⟨k, -, hp, hk, -⟩
    rwa [← Nat.add_left_cancel hk]
  · exact ⟨n, List.mem_range.mpr hn, h, rfl, by omega⟩

/-- SYNC_CHANGE is raised by the engines' work alone (R125). -/
theorem flag_frameStart_sync {n : Nat} (hn : n < 4) :
    (frameStart e s).flag (6 + n) = true ↔ s.flag (6 + n) = true ∨ (s.startAt e n).syncChange = true := by
  have hready : srcResultReady ≠ 6 + n := by
    unfold srcResultReady
    omega
  have hbacklog : srcResultBacklog ≠ 6 + n := by
    unfold srcResultBacklog
    omega
  have hends : (frameStart e s).flag (6 + n) = (s.worked e).flag (6 + n) := by
    rw [frameStart_eq]
    exact foldl_keeps (·.flag (6 + n)) _ (fun u m => flag_endRunIf_of_ne _ m u hready hbacklog) _ _
  rw [hends, State.worked, flag_raiseSyncs_sync _ _ hn]
  exact or_congr_left (by rw [← flag_frameStartMap e s (by omega) (by omega)]; rfl)

theorem startAt_run (n : Nat) : (s.startAt e n).engine.run = (s.engine n).run := by
  rw [startAt_eq, engineStart_run]

theorem startAt_of_not_running {n : Nat} (h : (s.engine n).run.isRunning = false) :
    s.startAt e n = { engine := s.engine n, syncChange := false, outcome := none } := by
  rw [startAt_eq, engineStart_of_not_running h]

/-- The engines whose runs end at a frame start. -/
def State.endingAt (s : State) (e : FrameEvent) : List Nat :=
  (List.range 4).filter fun n => (s.startAt e n).outcome.isSome

/-- The records of the runs that end at a frame start are handed over in ascending engine number. -/
theorem frameStart_handsOver : ∃ new more,
    HandsOver (fun n => (s.startAt e n).outcome) (s.worked e) (frameStart e s) (s.endingAt e) new more := by
  obtain ⟨new, more, h⟩ := HandsOver.foldl_endRunIf (fun n => (s.startAt e n).outcome) (List.range 4) (s.worked e)
    List.nodup_range fun n hn => List.mem_range.mp hn
  have hending : (List.range 4).filter (fun n => (s.startAt e n).outcome.isSome &&
      ((s.worked e).engine n).run.isRunning) = s.endingAt e := by
    refine List.filter_congr fun n hn => ?_
    rw [engine_worked e s (List.mem_range.mp hn), startAt_run]
    cases hrun : (s.engine n).run.isRunning with
    | true => exact Bool.and_true _
    | false => rw [startAt_of_not_running e s hrun]; rfl
  rw [hending] at h
  rw [frameStart_eq]
  exact ⟨new, more, h.queue, h.backlog, h.order, h.length, h.ended, h.waiting, h.others, h.ready, h.waits⟩

variable {e s} {n : Nat}

/-- An engine whose run does not end is as its work leaves it. -/
theorem frameStart_engine_of_none (hn : n < 4) (h : (s.startAt e n).outcome = none) :
    (frameStart e s).engine n = (s.startAt e n).engine := by
  obtain ⟨new, more, hover⟩ := frameStart_handsOver e s
  have hout : n ∉ s.endingAt e := fun hin => by
    have hsome := (List.mem_filter.mp hin).2
    rw [h] at hsome
    cases hsome
  rw [hover.others n hn hout, engine_worked e s hn]

/-- An engine whose run ends hands over a record of it. -/
theorem frameStart_ends (hn : n < 4) {out : RunOutcome} (h : (s.startAt e n).outcome = some out) :
    RunEnded out n (s.worked e) (frameStart e s) := by
  obtain ⟨new, more, hover⟩ := frameStart_handsOver e s
  have hin : n ∈ s.endingAt e := List.mem_filter.mpr ⟨List.mem_range.mpr hn, by rw [h]; rfl⟩
  obtain ⟨out', hout', hended⟩ := hover.ended n hin
  obtain rfl : out' = out := Option.some.inj (hout'.symm.trans h)
  exact hended

end

end Sys2Proof.Machine
end

