-- ==== Sys2Proof/Proofs/RunsAtFrameStart.lean ====
section
/-! The statements about a run at a frame start: it goes on, reaches its duration or loses its path, and its record is
handed over. -/

namespace Sys2Proof.Machine

section
variable {s : State} {e : FrameEvent} {n : Nat}

/-! ### Whether the engine keeps its TEST connection (R131) -/

theorem hasTest_iff (s : State) (n : Nat) : s.hasTest n = true ↔ ∃ i < 1024, (s.activeEntry i).engine? = some n := by
  unfold State.hasTest
  constructor
  · intro h
    obtain ⟨i, hi⟩ := Option.isSome_iff_exists.mp h
    obtain ⟨hlt, hentry⟩ := lowestSlot_some hi
    exact ⟨i, hlt, beq_iff_eq.mp hentry⟩
  · rintro ⟨i, hlt, hentry⟩
    refine Option.isSome_iff_ne_none.mpr fun hnone => ?_
    have hne := (lowestSlot_eq_none _).mp hnone i hlt
    rw [hentry, beq_self_eq_true] at hne
    cases hne

/-- Under the journal law, the map that an application leaves is the effective view (R57). -/
theorem frameStartMap_hasTest_iff (hlaw : s.JournalLaw) (hdue : s.applicationDue e = true) :
    (frameStartMap e s).hasTest n = true ↔ ∃ i < 1024, (s.effective i).engine? = some n := by
  have hmap : ∀ i < 1024, (frameStartMap e s).activeEntry i = s.effective i := by
    intro i hi
    have hcm : (frameStart e s).cm = (frameStartMap e s).cm := startEngines_cm ..
    rw [← (frameStart_applies hlaw hdue hi).1, State.activeEntry, State.activeEntry, hcm]
  rw [hasTest_iff]
  exact exists_congr fun i => and_congr_right fun hi => by rw [hmap i hi]

theorem removesTest_eq_false (h : s.keepsTest e n) : s.removesTest e n = false := by
  rcases h with hnot | ⟨hlaw, htest⟩
  · rw [State.removesTest, applicationDue_eq_false hnot, Bool.false_and]
  · cases hdue : s.applicationDue e with
    | false => rw [State.removesTest, hdue, Bool.false_and]
    | true => rw [State.removesTest, (frameStartMap_hasTest_iff hlaw hdue).mpr htest, Bool.not_true, Bool.and_false]

theorem removesTest_eq_true (hlaw : s.JournalLaw) (hmet : s.triggerMetAt e)
    (hnone : ∀ i < 1024, (s.effective i).engine? ≠ some n) : s.removesTest e n = true := by
  have hdue := (applicationDue_iff s e).mpr hmet
  have htest : (frameStartMap e s).hasTest n = false := Bool.eq_false_iff.mpr fun h => by
    obtain ⟨i, hi, hentry⟩ := (frameStartMap_hasTest_iff hlaw hdue).mp h
    exact hnone i hi hentry
  rw [State.removesTest, hdue, htest]
  rfl

/-! ### The frame start counted (R126) -/

/-- The work of engine `n` is done at the frame start `e` from `s`. -/
structure State.WorksAt (s : State) (e : FrameEvent) (n : Nat) (w : CheckWork) : Prop where
  work : w = (s.engine n).checked s.rfm.receiving (s.faultedAt e n)
  engine : (s.startAt e n).engine = (s.engine n).counted (s.faultedAt e n) w
  sync : (s.startAt e n).syncChange = w.changed

theorem startAt_of_kept (hrun : (s.engine n).run.isRunning = true) (hkeeps : s.removesTest e n = false) :
    s.startAt e n = workStart s.rfm.receiving (s.faultedAt e n) (s.engine n) := by
  rw [startAt_eq, hkeeps, engineStart_of_kept hrun]

theorem startAt_of_work_first (hrun : (s.engine n).run.isRunning = true) (hremoves : s.removesTest e n = true)
    (hfirst : e.workFirst.getLsbD n = true) :
    s.startAt e n =
      { workStart s.rfm.receiving (s.faultedAt e n) (s.engine n) with
        outcome :=
          some ((workStart s.rfm.receiving (s.faultedAt e n) (s.engine n)).outcome.getD .pathRemoved) } := by
  rw [startAt_eq, hremoves, hfirst, engineStart_of_work_first hrun]

theorem startAt_of_removed_first (hrun : (s.engine n).run.isRunning = true) (hremoves : s.removesTest e n = true)
    (hfirst : e.workFirst.getLsbD n = false) :
    s.startAt e n = { engine := s.engine n, syncChange := false, outcome := some .pathRemoved } := by
  rw [startAt_eq, hremoves, hfirst, engineStart_of_removed_first hrun]

theorem worksAt_of_kept (hrun : (s.engine n).run.isRunning = true) (hkeeps : s.removesTest e n = false) :
    s.WorksAt e n ((s.engine n).checked s.rfm.receiving (s.faultedAt e n)) := by
  refine ⟨rfl, ?_, ?_⟩
  · rw [startAt_of_kept hrun hkeeps]
    exact engineWork_engine ..
  · rw [startAt_of_kept hrun hkeeps]
    rfl

theorem worksAt_of_work_first (hrun : (s.engine n).run.isRunning = true) (hremoves : s.removesTest e n = true)
    (hfirst : e.workFirst.getLsbD n = true) :
    s.WorksAt e n ((s.engine n).checked s.rfm.receiving (s.faultedAt e n)) := by
  refine ⟨rfl, ?_, ?_⟩
  · rw [startAt_of_work_first hrun hremoves hfirst]
    exact engineWork_engine ..
  · rw [startAt_of_work_first hrun hremoves hfirst]
    rfl

theorem State.WorksAt.countsFrame {w : CheckWork} (h : s.WorksAt e n w) (hn : n < 4)
    (hlive : ((frameStart e s).engine n).live = (s.startAt e n).engine.live) :
    s.countsFrame (frameStart e s) n w.checker := by
  refine countsFrame_of_work h.work rfl (hlive.trans (by rw [h.engine])) ?_
  rw [flag_frameStart_sync e s hn, h.sync]

/-! ### The record of a run that ends (R132, R137) -/

/-- In `t`, a state after a frame start, the run that engine `n` had in `s` with start CSEQ `start` has ended, and `r`
is its record. -/
structure RunRecorded (s : State) (n : Nat) (start : Word) (out : RunOutcome) (t : State) (r : ResultRecord) :
    Prop where
  held : t.holdsRecord n r
  engine : r.engine = n
  outcome : r.outcome = out
  runSeq : r.runSeq = (s.engine n).lastRun
  startCseq : r.startCseq = start
  live : r.live = (t.engine n).live
  not_running : (t.engine n).run.isRunning = false
  checker : (t.engine n).checker = .off
  injections : (t.engine n).gen.pendingInj = 0
  silent : t.oa.emit.get n = none

theorem frameStart_emit (hn : n < 4) (h : ((frameStart e s).engine n).run.isRunning = false) :
    (frameStart e s).oa.emit.get n = none := by
  rw [frameStart_oa]
  have hget := Table.get_tabulate_of_lt (d := 2) (fun n => emission ((frameStart e s).engine n)) hn
  exact hget.trans (if_neg (Bool.eq_false_iff.mp h))

/-- A run that ends at a frame start is recorded with the counters that the engine's work leaves. -/
theorem frameStart_records (hn : n < 4) {start : Word} (hrun : (s.engine n).run = .running start) {out : RunOutcome}
    (hout : (s.startAt e n).outcome = some out) :
    ∃ r, RunRecorded s n start out (frameStart e s) r ∧ r.live = (s.startAt e n).engine.live := by
  obtain ⟨start', run, hstart', hnot, hengine, hheld⟩ := frameStart_ends hn hout
  rw [engine_worked e s hn] at hstart' hengine hheld
  rw [startAt_run, hrun] at hstart'
  obtain rfl : start = start' := RunState.running.inj hstart'
  have hlast : (s.startAt e n).engine.lastRun = (s.engine n).lastRun := by
    rw [startAt_eq]
    exact (Engine.KeepsSetup.engineStart ..).lastRun
  have hstopped : ((frameStart e s).engine n).run.isRunning = false := by
    rw [hengine]
    exact hnot
  refine ⟨_, ⟨hheld, rfl, rfl, hlast, rfl, ?_, hstopped, ?_, ?_, frameStart_emit hn hstopped⟩, rfl⟩
  all_goals
    rw [hengine]
    rfl

/-- A duration of at most 65 535 seconds is reached before the frame counter saturates (R129). -/
theorem satInc_of_reachesDuration {x : Engine} (h : x.reachesDuration) :
    satInc x.live.framesRun = x.live.framesRun + 1 := by
  obtain ⟨-, hreach⟩ := h
  refine if_neg fun hall => ?_
  rw [satInc, if_pos hall, hall] at hreach
  have hlt := x.cfg.duration.isLt
  simp only [BitVec.toNat_allOnes] at hreach
  split at hreach <;> omega

end

/-! ### The statements -/

/-- Settles O17: the engine is as its work leaves it. -/
theorem frameStartWorkOfARunningEngine : Obligations.FrameStartWorkOfARunningEngine := by
  refine ⟨fun e s n c hr hn hrun hkeeps hnot => ⟨frameStart e s, taken_of_running hr _, ?_⟩,
    fun e s n hr hn hidle => ⟨frameStart e s, taken_of_running hr _, ?_, ?_⟩⟩
  · have hrunning : (s.engine n).run.isRunning = true := by rw [hrun]; rfl
    have hremoves := removesTest_eq_false hkeeps
    have hworks := worksAt_of_kept hrunning hremoves
    have hnone : (s.startAt e n).outcome = none := by
      rw [startAt_of_kept hrunning hremoves]
      exact workStart_outcome_of_not_reached hnot
    have hengine := frameStart_engine_of_none hn hnone
    have hcounts := hworks.countsFrame hn (congrArg _ hengine)
    rw [hworks.engine] at hengine
    rw [hengine]
    exact ⟨hrun, rfl, hcounts⟩
  · have hstart := startAt_of_not_running e s hidle
    have hnone : (s.startAt e n).outcome = none := by rw [hstart]
    rw [frameStart_engine_of_none hn hnone, hstart]
  · rw [Bool.eq_iff_iff, flag_frameStart_sync e s hn, startAt_of_not_running e s hidle]
    exact or_iff_left nofun

/-- An engine that is RUNNING and reaches its duration ends COMPLETED, unless an application comes first and removes its
path. -/
theorem startAt_completed {e : FrameEvent} {s : State} {n : Nat} (hrun : (s.engine n).run.isRunning = true)
    (hreach : (s.engine n).reachesDuration) (h : s.keepsTest e n ∨ e.workFirst.getLsbD n = true) :
    (s.startAt e n).outcome = some .completed := by
  cases hremoves : s.removesTest e n with
  | false =>
    rw [startAt_of_kept hrun hremoves]
    exact workStart_outcome_of_reached hreach
  | true =>
    have hfirst : e.workFirst.getLsbD n = true :=
      h.resolve_left fun hkeeps => Bool.false_ne_true ((removesTest_eq_false hkeeps).symm.trans hremoves)
    rw [startAt_of_work_first hrun hremoves hfirst, workStart_outcome_of_reached hreach]
    rfl

/-- The row DURATION_EXPIRY is the whole frame start where a run ends COMPLETED at it (log 2). -/
theorem durationExpiry_eq_frameStart {e : FrameEvent} {s : State} {n : Nat} (hn : n < 4)
    (h : (s.startAt e n).outcome = some .completed) : exec (.durationExpiry e) s = exec (.frameStart e) s :=
  taken_of_due (due := fun s => s.durationDue e)
    (List.any_eq_true.mpr ⟨n, List.mem_range.mpr hn, beq_iff_eq.mpr h⟩)

/-- Settles O20: the frame is counted, and the run is recorded COMPLETED. -/
theorem durationEndsTheRun : Obligations.DurationEndsTheRun := by
  refine ⟨fun e s ⟨n, hn, hrun, hreach, h⟩ => durationExpiry_eq_frameStart hn (startAt_completed hrun hreach h),
    fun e s n start c hr hn hrun hkeeps hreach hc => ?_⟩
  have hrunning : (s.engine n).run.isRunning = true := by rw [hrun]; rfl
  have hout := startAt_completed hrunning hreach (Or.inl hkeeps)
  have hexec : exec c s = .next (frameStart e s) := by
    rcases hc with rfl | rfl
    · exact taken_of_running hr _
    · exact (durationExpiry_eq_frameStart hn hout).trans (taken_of_running hr _)
  obtain ⟨r, hrec, hlive⟩ := frameStart_records hn hrun hout
  have hworks := worksAt_of_kept hrunning (removesTest_eq_false hkeeps)
  refine ⟨frameStart e s, r, _, hexec, hrec.held, hrec.engine, hrec.outcome, hrec.runSeq, hrec.startCseq, hrec.live, ?_,
    hworks.countsFrame hn (hrec.live.symm.trans hlive), hrec.not_running, hrec.checker, hrec.injections, hrec.silent⟩
  rw [hlive, hworks.engine]
  exact satInc_of_reachesDuration hreach

/-- Settles O21, by the order of the work and the application. -/
theorem pathRemovalEndsTheRun : Obligations.PathRemovalEndsTheRun := by
  intro e s n start hr hlaw hn hrun hmet hnone
  have hrunning : (s.engine n).run.isRunning = true := by rw [hrun]; rfl
  have hremoves := removesTest_eq_true hlaw hmet hnone
  cases hfirst : e.workFirst.getLsbD n with
  | false =>
    have hstart := startAt_of_removed_first hrunning hremoves hfirst
    obtain ⟨r, hrec, hlive⟩ := frameStart_records hn hrun (congrArg EngineStart.outcome hstart)
    refine ⟨frameStart e s, r, .off, taken_of_running hr _, hrec.held, hrec.engine, hrec.runSeq, hrec.startCseq,
      hrec.live, hrec.not_running, hrec.checker, hrec.injections, hrec.silent, fun _ => ⟨hrec.outcome, ?_, ?_⟩, nofun⟩
    · rw [hlive, hstart]
    · rw [Bool.eq_iff_iff, flag_frameStart_sync e s hn, hstart]
      exact or_iff_left nofun
  | true =>
    have hstart := startAt_of_work_first hrunning hremoves hfirst
    have hworks := worksAt_of_work_first hrunning hremoves hfirst
    obtain ⟨r, hrec, hlive⟩ := frameStart_records hn hrun (congrArg EngineStart.outcome hstart)
    refine ⟨frameStart e s, r, _, taken_of_running hr _, hrec.held, hrec.engine, hrec.runSeq, hrec.startCseq, hrec.live,
      hrec.not_running, hrec.checker, hrec.injections, hrec.silent, nofun,
      fun _ => ⟨hworks.countsFrame hn (hrec.live.symm.trans hlive), fun hreach => ?_, fun hnot => ?_⟩⟩
    · rw [hrec.outcome, workStart_outcome_of_reached hreach]
      rfl
    · rw [hrec.outcome, workStart_outcome_of_not_reached hnot]
      rfl

/-- The engines whose runs end are those that were RUNNING before the frame start and are not after it. -/
theorem endingAt_eq (e : FrameEvent) (s : State) :
    s.endingAt e = (List.range 4).filter fun n =>
      (s.engine n).run.isRunning && !((frameStart e s).engine n).run.isRunning := by
  refine List.filter_congr fun n hn => ?_
  have hlt := List.mem_range.mp hn
  cases hout : (s.startAt e n).outcome with
  | none =>
    rw [frameStart_engine_of_none hlt hout, startAt_run, Bool.and_not_self]
    rfl
  | some out =>
    obtain ⟨start, run, hrun, hnot, hengine, -⟩ := frameStart_ends hlt hout
    rw [engine_worked e s hlt, startAt_run] at hrun
    have hstopped : (((s.worked e).engine n).ended run).run.isRunning = false := hnot
    rw [hengine, hrun, hstopped]
    rfl

/-- Settles O22, by the records that the frame start hands over. -/
theorem recordsHandedOverInEngineOrder : Obligations.RecordsHandedOverInEngineOrder := by
  intro e s hr _
  refine ⟨frameStart e s, taken_of_running hr _, fun ending hending => ?_⟩
  obtain ⟨new, more, h⟩ := frameStart_handsOver e s
  rw [endingAt_eq, ← hending] at h
  have hqueue := h.queue
  have hbacklog := h.backlog
  have hlength := h.length
  have hready := h.ready
  have hwaits := h.waits
  rw [worked_rq] at hqueue hbacklog hlength
  rw [flag_worked_result e s (by decide) (by decide)] at hready hwaits
  exact ⟨new, more, hqueue, hbacklog, h.order, hlength, h.waiting, hready, hwaits⟩

end Sys2Proof.Machine
end

