-- ==== Sys2Proof/Proofs/CommandEngine.lean ====
section
/-! The Command Engine: the queue's front, the writes of CMD and CMDSTAT, and SOFT RESET. -/

namespace Sys2Proof.Machine

/-! ### The queue -/

theorem step_of_front {s : State} {c : Instr} {rest : List Instr} (h : s.pending = c :: rest) :
    step s = exec c { s with pending := rest } := by
  rw [step, h]

theorem step_of_empty {s : State} (h : s.pending = []) : step s = .next s := by
  rw [step, h]

/-- Settles O1, by the two shapes of the queue. -/
theorem stepRunsTheFrontCommand : Obligations.StepRunsTheFrontCommand :=
  ⟨fun c rest s => step_of_front (s := { s with pending := c :: rest }) rfl, fun _ => step_of_empty⟩

/-! ### Writes of CMD and CMDSTAT (R146, R147, R152, R153) -/

theorem writeCmd_of_idle {s : State} (h : s.ce.busy = none) (v : Word) :
    writeCmd v s = { s with ce := { s.ce with
      busy := some { code := v.setWidth 8, params := s.ce.params }, lastCode := some (v.setWidth 8) } } := by
  rw [writeCmd, h]

theorem writeCmd_of_busy {s : State} (h : s.ce.busy ≠ none) (v : Word) :
    writeCmd v s = { s with ce := { s.ce with overrun := true }, iu := { s.iu with flags := s.iu.flags ||| 32 } } := by
  obtain ⟨c, hc⟩ := Option.ne_none_iff_exists'.mp h
  rw [writeCmd, hc]
  rfl

theorem writeCmdstat_of_set {v : Word} (h : v.getLsbD 14 = true) (s : State) :
    writeCmdstat v s = { s with ce := { s.ce with overrun := false } } := if_pos h

theorem writeCmdstat_of_clear {v : Word} (h : v.getLsbD 14 = false) (s : State) : writeCmdstat v s = s :=
  if_neg (by rw [h]; decide)

/-- Both rows that name a write of CMD are that write (log 4). -/
theorem exec_cmdRow {s : State} {v : Word} {c : Instr} (hr : s.inReset = false)
    (hc : c = .commandTaken v ∨ c = .commandOverrun v) : exec c s = .next (writeCmd v s) := by
  rcases hc with rfl | rfl <;> exact taken_of_running hr _

theorem exec_overrunFlagClear {s : State} (hr : s.inReset = false) (v : Word) :
    exec (.overrunFlagClear v) s = .next (writeCmdstat v s) := taken_of_running hr _

/-- Settles O23, write by write. -/
theorem cmdAndCmdstatWrites : Obligations.CmdAndCmdstatWrites := by
  refine ⟨fun s v hr hidle c hc => ?_, fun s v hr hbusy c hc => ?_, fun s v hr => ⟨fun h => ?_, fun h => ?_⟩⟩
  · rw [exec_cmdRow hr (List.mem_pair.mp hc), writeCmd_of_idle hidle]
  · rw [exec_cmdRow hr (List.mem_pair.mp hc).symm, writeCmd_of_busy hbusy]
  · rw [exec_overrunFlagClear hr, writeCmdstat_of_set h]
  · rw [exec_overrunFlagClear hr, writeCmdstat_of_clear h]

/-! ### SOFT RESET (R156, R157) -/

theorem exec_softReset {s : State} {p : Params} (h : s.Commanded 0x5A p) :
    exec .softReset s = .next (softResetCommand s) := completion_of_commanded h fun _ => softResetCommand

/-- A record that is HELD or BOUND is one that is not FREE (R67). -/
theorem isSome_claim? (x : Reservation) : x.claim?.isSome = (x != .free) := by
  cases x with
  | free => rfl
  | held c => rfl
  | bound c => rfl

theorem claimed_eq (u : SlotAllocation) : u.claimed = (List.range 32).countP fun r => u.recs.get r != .free :=
  List.countP_congr fun r _ => by rw [isSome_claim?]

theorem recs_softResetCommand (s : State) (r : Nat) : (softResetCommand s).sau.recs.get r = .free :=
  Table.get_replicate 5 Reservation.free r

theorem engine_softResetCommand (s : State) {n : Nat} (hn : n < 4) :
    (softResetCommand s).engine n = (s.engine n).softReset :=
  Table.get_tabulate_of_lt (d := 2) (fun n => (s.engine n).softReset) hn

/-- COMMAND_DONE alone stands after every flag has been cleared (R169). -/
theorem softResetCommand_iu (s : State) : (softResetCommand s).iu = { s.iu with flags := 1 } := by
  have hflags : (0 : BitVec 26) ||| 1#26 <<< srcCommandDone = 1 := by decide
  exact congrArg (fun flags => { s.iu with flags := flags }) hflags

/-- Settles O5: what is cleared stands in `softResetCommand`, and the counts are those of the state before it. -/
theorem softResetClearsAndKeeps : Obligations.SoftResetClearsAndKeeps := by
  intro s p hc
  refine ⟨softResetCommand s, exec_softReset hc, ?_, fun u hu => recount_get s.cm.active hu, recs_softResetCommand s,
    fun n hn => engine_softResetCommand s hn, rfl, ?_, rfl, rfl⟩
  · rw [← softResetCommand_iu]
    rfl
  · rw [← claimed_eq]
    rfl

end Sys2Proof.Machine
end

