-- ==== Sys2Proof/Proofs/Completions.lean ====
section
/-! Completions (R149, R154): `Completes` lists what the completion of a command can do, and every command makes one of
these completions. -/

namespace Sys2Proof.Machine

/-! ### What a completion can do -/

/-- Everything that the completion of the command `i` can do: it answers a code and changes nothing else, or it answers OK
after effects outside the Command Engine, or it is SOFT RESET's. UNKNOWN_COMMAND comes from its own row alone. -/
inductive Completes (i : Instr) (s : State) : State → Prop
  | answer {c : Completion} {r0 r1 r2 r3 : Word} (hc : c = .unknownCommand → i = .unknownCommand) :
      Completes i s (complete c r0 r1 r2 r3 s)
  | carriedOut {r0 r1 r2 r3 : Word} {u : State} (hce : u.ce = s.ce) : Completes i s (complete .ok r0 r1 r2 r3 u)
  | softReset (hi : i = .softReset) : Completes i s (softResetCommand s)

theorem flag_complete (c : Completion) (r0 r1 r2 r3 : Word) (s : State) :
    (complete c r0 r1 r2 r3 s).flag 0 = true := by
  rw [complete, flag_raise]
  exact Bool.or_true _

theorem serveBacklog_ce (s : State) : (serveBacklog s).ce = s.ce := by
  unfold serveBacklog
  split <;> rfl

namespace Completes

section
variable {i : Instr} {s t : State}

theorem busy (h : Completes i s t) : t.ce.busy = none := by
  cases h with
  | answer | carriedOut | softReset => rfl

theorem done (h : Completes i s t) : t.flag 0 = true := by
  cases h with
  | answer | carriedOut | softReset => exact flag_complete ..

theorem lastCode (h : Completes i s t) : t.ce.lastCode = s.ce.lastCode := by
  cases h with
  | answer | softReset => rfl
  | carriedOut hce => rw [complete_ce_lastCode, hce]

theorem params (h : Completes i s t) : t.ce.params = s.ce.params := by
  cases h with
  | answer | softReset => rfl
  | carriedOut hce => rw [complete_ce_params, hce]

theorem overrun (h : Completes i s t) (hi : i ≠ .softReset) : t.ce.overrun = s.ce.overrun := by
  cases h with
  | answer => rfl
  | carriedOut hce => rw [complete_ce_overrun, hce]
  | softReset hs => exact absurd hs hi

/-- With a code other than OK nothing but the answer changes (R149). -/
theorem refused (h : Completes i s t) (hc : t.ce.code ≠ .ok) :
    t = s.answered t.ce.code t.ce.res.r0 t.ce.res.r1 t.ce.res.r2 t.ce.res.r3 := by
  cases h with
  | answer => rfl
  | carriedOut | softReset => exact absurd rfl hc

theorem code_ne (h : Completes i s t) (hi : i ≠ .unknownCommand) : t.ce.code ≠ .unknownCommand := by
  cases h with
  | answer hc => exact fun heq => hi (hc heq)
  | carriedOut | softReset => nofun

end

/-! ### The commands -/

section
variable {i : Instr} (s : State)

theorem stage (plan : Plan) (tag : Word) (needIdle : Bool) (engine : Option Nat) :
    Completes i s (stage plan tag needIdle engine s) := by
  unfold Machine.stage
  split
  · exact answer nofun
  · exact answer nofun
  · split
    · exact answer nofun
    · split
      · exact answer nofun
      · split
        · exact answer nofun
        · split
          · exact answer nofun
          · exact carriedOut rfl

theorem stageChecked (plan : Option Plan) (tag : Word) (engine : Option Nat) :
    Completes i s (stageChecked plan tag engine s) := by
  unfold Machine.stageChecked
  split
  · exact answer nofun
  · split
    · exact answer nofun
    · exact stage ..

theorem disconnect (p : Params) : Completes i s (disconnect p s) := by
  unfold Machine.disconnect
  split
  · split
    · exact answer nofun
    · dsimp only
      split
      · exact answer nofun
      · split
        · exact answer nofun
        · exact stage ..
  · exact answer nofun

theorem commitCommand (p : Params) : Completes i s (commitCommand p s) := by
  unfold Machine.commitCommand
  split
  · exact answer nofun
  · split
    · exact answer nofun
    · exact carriedOut rfl

theorem cancelCommand : Completes i s (cancelCommand s) := by
  unfold Machine.cancelCommand
  split
  · exact carriedOut rfl
  · exact answer nofun

theorem discardCommand : Completes i s (discardCommand s) := by
  unfold Machine.discardCommand
  split
  · exact answer nofun
  · exact carriedOut rfl

theorem reserveCommand (p : Params) : Completes i s (reserveCommand p s) := by
  unfold Machine.reserveCommand
  dsimp only
  split
  · split
    · exact answer nofun
    · split
      · exact answer nofun
      · exact carriedOut rfl
  · exact answer nofun

theorem huntCommand (p : Params) : Completes i s (huntCommand p s) := by
  unfold Machine.huntCommand
  split
  · split
    · exact answer nofun
    · split
      · split
        · exact answer nofun
        · exact carriedOut rfl
      · exact answer nofun
  · exact answer nofun

theorem releaseCommand (p : Params) : Completes i s (releaseCommand p s) := by
  unfold Machine.releaseCommand
  split
  · split
    · exact answer nofun
    · split
      · exact answer nofun
      · exact answer nofun
    · split
      · exact answer nofun
      · exact carriedOut rfl
  · exact answer nofun

theorem renewCommand (p : Params) : Completes i s (renewCommand p s) := by
  unfold Machine.renewCommand
  split
  · split
    · exact answer nofun
    · split
      · exact answer nofun
      · exact answer nofun
    · split
      · exact answer nofun
      · exact carriedOut rfl
  · exact answer nofun

theorem configureCommand (p : Params) : Completes i s (configureCommand p s) := by
  unfold Machine.configureCommand
  dsimp only
  split
  · split
    · exact answer nofun
    · split
      · exact carriedOut rfl
      · exact answer nofun
  · exact answer nofun

theorem startCommand (p : Params) : Completes i s (startCommand p s) := by
  unfold Machine.startCommand
  dsimp only
  split
  · split
    · split
      · exact answer nofun
      · refine carriedOut ?_
        rw [keepTail_eq_emit]
        rfl
    · exact answer nofun
  · exact answer nofun

theorem stopCommand (p : Params) : Completes i s (stopCommand p s) := by
  unfold Machine.stopCommand
  dsimp only
  split
  · split
    · exact carriedOut (endRun_ce ..)
    · exact answer nofun
  · exact answer nofun

theorem injectCommand (p : Params) : Completes i s (injectCommand p s) := by
  unfold Machine.injectCommand
  dsimp only
  split
  · split
    · exact carriedOut rfl
    · exact answer nofun
  · exact answer nofun

theorem snapshotCommand (p : Params) : Completes i s (snapshotCommand p s) := by
  unfold Machine.snapshotCommand
  dsimp only
  split
  · exact carriedOut rfl
  · exact answer nofun

theorem popCommand : Completes i s (popCommand s) := by
  unfold Machine.popCommand
  split
  · exact answer nofun
  · exact carriedOut (serveBacklog_ce _)

end

end Completes

/-! ### The completion rows -/

/-- Every row of Table 8-4 is the completion of its code, with an effect of `Completes`. -/
theorem exists_effect {i : Instr} {code : Byte} (h : (i, code) ∈ completions) :
    ∃ f : Params → State → State, (∀ s, exec i s = completion code s f) ∧ ∀ p s, Completes i s (f p s) := by
  simp only [completions, List.mem_cons, Prod.mk.injEq, List.not_mem_nil, or_false] at h
  rcases h with ⟨rfl, rfl⟩ | ⟨rfl, rfl⟩ | ⟨rfl, rfl⟩ | ⟨rfl, rfl⟩ | ⟨rfl, rfl⟩ | ⟨rfl, rfl⟩ | ⟨rfl, rfl⟩ | ⟨rfl, rfl⟩ |
    ⟨rfl, rfl⟩ | ⟨rfl, rfl⟩ | ⟨rfl, rfl⟩ | ⟨rfl, rfl⟩ | ⟨rfl, rfl⟩ | ⟨rfl, rfl⟩ | ⟨rfl, rfl⟩ | ⟨rfl, rfl⟩ | ⟨rfl, rfl⟩ |
    ⟨rfl, rfl⟩
  · exact ⟨_, fun _ => rfl, fun p s => .stageChecked s (connectPlan p) p.p5 none⟩
  · exact ⟨_, fun _ => rfl, fun p s => .stageChecked s (constantPlan p) p.p5 none⟩
  · exact ⟨_, fun _ => rfl, fun p s => .stageChecked s (testPlan p) p.p5 (some p.p4.toNat)⟩
  · exact ⟨_, fun _ => rfl, fun p s => .disconnect s p⟩
  · exact ⟨_, fun _ => rfl, fun p s => .commitCommand s p⟩
  · exact ⟨_, fun _ => rfl, fun _ s => .cancelCommand s⟩
  · exact ⟨_, fun _ => rfl, fun _ s => .discardCommand s⟩
  · exact ⟨_, fun _ => rfl, fun p s => .reserveCommand s p⟩
  · exact ⟨_, fun _ => rfl, fun p s => .huntCommand s p⟩
  · exact ⟨_, fun _ => rfl, fun p s => .releaseCommand s p⟩
  · exact ⟨_, fun _ => rfl, fun p s => .renewCommand s p⟩
  · exact ⟨_, fun _ => rfl, fun p s => .configureCommand s p⟩
  · exact ⟨_, fun _ => rfl, fun p s => .startCommand s p⟩
  · exact ⟨_, fun _ => rfl, fun p s => .stopCommand s p⟩
  · exact ⟨_, fun _ => rfl, fun p s => .injectCommand s p⟩
  · exact ⟨_, fun _ => rfl, fun p s => .snapshotCommand s p⟩
  · exact ⟨_, fun _ => rfl, fun _ s => .popCommand s⟩
  · exact ⟨_, fun _ => rfl, fun _ _ => .softReset rfl⟩

theorem ne_unknownCommand {i : Instr} {code : Byte} (h : (i, code) ∈ completions) : i ≠ .unknownCommand := by
  rintro rfl
  simp [completions] at h

theorem exec_of_completion {i : Instr} {code : Byte} (h : (i, code) ∈ completions) {s : State} {p : Params}
    (hc : s.Commanded code p) : ∃ t, exec i s = .next t ∧ Completes i s t := by
  obtain ⟨f, hexec, hf⟩ := exists_effect h
  exact ⟨f p s, by rw [hexec, completion_of_commanded hc], hf p s⟩

theorem exec_of_not_commanded {i : Instr} {code : Byte} (h : (i, code) ∈ completions) {s : State}
    (hc : ∀ p, ¬s.Commanded code p) : exec i s = .next s := by
  obtain ⟨f, hexec, -⟩ := exists_effect h
  rw [hexec, completion_of_not_commanded hc]

/-! ### Unknown codes (R154) -/

theorem exec_unknownCommand {s : State} {code : Byte} {p : Params} (hc : s.Commanded code p)
    (hcode : commandCodes.contains code = false) :
    exec .unknownCommand s = .next (complete .unknownCommand (word code.toNat) 0 0 0 s) := by
  obtain ⟨hr, hbusy⟩ := hc
  refine (taken_of_running hr unknownCompletion).trans (congrArg _ ?_)
  rw [unknownCompletion, hbusy]
  exact if_neg (by rw [hcode]; decide)

theorem exec_unknownCommand_of_known {s : State}
    (h : ∀ code p, s.Commanded code p → commandCodes.contains code = true) : exec .unknownCommand s = .next s := by
  rcases taken_cases s unknownCompletion with ⟨hr, hexec⟩ | ⟨-, hexec⟩
  · refine hexec.trans (congrArg _ ?_)
    cases hbusy : s.ce.busy with
    | none => rw [unknownCompletion, hbusy]
    | some c =>
      rw [unknownCompletion, hbusy]
      exact if_pos (h c.code c.params ⟨hr, hbusy⟩)
  · exact hexec

/-- Settles O25: the unknown code by its own row, and every command by what its completion can answer. -/
theorem unknownCodesAnswerUnknownCommand : Obligations.UnknownCodesAnswerUnknownCommand := by
  refine ⟨fun s code p hc hcode => ⟨exec_unknownCommand hc ?_, rfl, rfl, fun hlaw => hlaw _ hc.2⟩,
    fun i code h s t p hc hexec => ?_⟩
  · exact Bool.eq_false_iff.mpr fun hmem => hcode (List.contains_iff_mem.mp hmem)
  · obtain ⟨u, hu, hcompletes⟩ := exec_of_completion h hc
    obtain rfl : u = t := Host.Outcome.next.inj (hu.symm.trans hexec)
    exact hcompletes.code_ne (ne_unknownCommand h)

/-- Settles O24, by what the completion of a command can do. -/
theorem everyCompletion : Obligations.EveryCompletion := by
  refine ⟨fun s i code p hi hc => ?_, fun _ _ h _ hc => exec_of_not_commanded h hc,
    fun _ => exec_unknownCommand_of_known⟩
  obtain ⟨t, hexec, h⟩ : ∃ t, exec i s = .next t ∧ Completes i s t := by
    rcases hi with h | ⟨rfl, hcode⟩
    · exact exec_of_completion h hc
    · exact ⟨_, exec_unknownCommand hc hcode, .answer fun _ => rfl⟩
  exact ⟨t, hexec, h.busy, h.done, h.lastCode, h.params, h.overrun, h.refused⟩

end Sys2Proof.Machine
end

