-- ==== Sys2Proof/Proofs/Interrupts.lean ====
section
/-! The interrupt unit: the pending source that the vector names, the line INT_N, and the threshold. -/

namespace Sys2Proof.Machine

namespace InterruptUnit

variable {u : InterruptUnit} {n k : Nat}

/-! ### The vector (R166) -/

theorem pendingSource_iff : u.pendingSource k = true ↔ u.flags.getLsbD k = true ∧ u.masks.getLsbD k = false := by
  rw [pendingSource, Bool.and_eq_true, Bool.not_eq_true']

theorem not_pendingSource_iff :
    ¬u.pendingSource k = true ↔ u.flags.getLsbD k = false ∨ u.masks.getLsbD k = true := by
  rw [pendingSource_iff, not_and_or, Bool.not_eq_true, Bool.not_eq_false]

/-- Of the sources below `n`, `k` is the one that the vector has to name. -/
structure FirstBelow (u : InterruptUnit) (n k : Nat) : Prop where
  lt : k < n
  pending : u.pendingSource k = true
  outranks : ∀ j < n, u.pendingSource j = true → u.level j < u.level k ∨ (u.level j = u.level k ∧ k ≤ j)

/-- What the scan of the sources in ascending order may have named once the sources below `n` are seen. -/
def Names (u : InterruptUnit) (n : Nat) : Option Nat → Prop
  | none => ∀ j < n, ¬u.pendingSource j = true
  | some k => u.FirstBelow n k

theorem better_of_not_pending (h : ¬u.pendingSource k = true) (best : Option Nat) : u.better best k = best := if_neg h

theorem better_none (h : u.pendingSource k = true) : u.better none k = some k := if_pos h

theorem better_some (h : u.pendingSource k = true) (b : Nat) :
    u.better (some b) k = if u.level b < u.level k then some k else some b := if_pos h

/-- A source that is not pending changes nothing in what is named. -/
theorem Names.skip {best : Option Nat} (h : u.Names n best) (hn : ¬u.pendingSource n = true) :
    u.Names (n + 1) best := by
  cases best with
  | none => exact Nat.forall_lt_succ_right.mpr ⟨h, hn⟩
  | some b =>
    exact ⟨Nat.lt_succ_of_lt h.lt, h.pending, Nat.forall_lt_succ_right.mpr ⟨h.outranks, fun hp => absurd hp hn⟩⟩

/-- A further source of a level that no pending source reaches takes the first place. -/
theorem FirstBelow.of_higher (hn : u.pendingSource n = true)
    (h : ∀ j < n, u.pendingSource j = true → u.level j < u.level n) : u.FirstBelow (n + 1) n where
  lt := Nat.lt_succ_self n
  pending := hn
  outranks := Nat.forall_lt_succ_right.mpr ⟨fun j hj hp => .inl (h j hj hp), fun _ => .inr ⟨rfl, Nat.le_refl n⟩⟩

/-- The first place stays with `k` when the next source has no higher level: of equal levels the lower number counts. -/
theorem FirstBelow.stays (h : u.FirstBelow n k) (hle : ¬u.level k < u.level n) : u.FirstBelow (n + 1) k where
  lt := Nat.lt_succ_of_lt h.lt
  pending := h.pending
  outranks := Nat.forall_lt_succ_right.mpr ⟨h.outranks, fun _ =>
    (Std.le_iff_lt_or_eq.mp (BitVec.not_lt.mp hle)).imp_right fun heq => ⟨heq, h.lt.le⟩⟩

theorem Names.better {best : Option Nat} (h : u.Names n best) : u.Names (n + 1) (u.better best n) := by
  by_cases hn : u.pendingSource n = true
  case neg =>
    rw [better_of_not_pending hn]
    exact h.skip hn
  case pos =>
    cases best with
    | none =>
      rw [better_none hn]
      exact .of_higher hn fun j hj hp => absurd hp (h j hj)
    | some b =>
      rw [better_some hn]
      split
      · next hlt =>
        refine .of_higher hn fun j hj hp => ?_
        rcases h.outranks j hj hp with hlow | ⟨heq, -⟩
        · exact BitVec.lt_trans hlow hlt
        · rwa [heq]
      · next hle => exact h.stays hle

theorem names_foldl_better (u : InterruptUnit) (n : Nat) : u.Names n ((List.range n).foldl u.better none) := by
  induction n with
  | zero => exact fun _ h => absurd h (Nat.not_lt_zero _)
  | succ n ih =>
    rw [List.range_succ, List.foldl_append]
    exact ih.better

/-- The vector names the first of the 26 sources, or none when no source is pending. -/
theorem names_vector (u : InterruptUnit) : u.Names 26 u.vector := names_foldl_better u 26

theorem firstBelow_of_vector (h : u.vector = some k) : u.FirstBelow 26 k := by
  have hnames := u.names_vector
  rwa [h] at hnames

theorem vector_eq_none_iff : u.vector = none ↔ ∀ j < 26, ¬u.pendingSource j = true := by
  have hnames := u.names_vector
  cases hv : u.vector with
  | none =>
    rw [hv] at hnames
    exact iff_of_true rfl hnames
  | some k =>
    have hfirst := firstBelow_of_vector hv
    exact iff_of_false nofun fun hnone => hnone k hfirst.lt hfirst.pending

/-! ### INT_N and IVEC (R166, R167) -/

theorem intAsserted_of_vector (h : u.vector = some k) : u.intAsserted = true ↔ u.ithr < u.level k := by
  rw [intAsserted, h, decide_eq_true_iff]

theorem intAsserted_of_no_vector (h : u.vector = none) : u.intAsserted = false := by
  rw [intAsserted, h]

/-- Law 11: the source that the vector names is above ITHR as soon as any pending source is, for none has a higher
level. -/
theorem intAsserted_iff :
    u.intAsserted = true ↔ ∃ k < 26, u.pendingSource k = true ∧ u.ithr.toNat < (u.level k).toNat := by
  cases hv : u.vector with
  | none =>
    have hnone := vector_eq_none_iff.mp hv
    refine iff_of_false (by rw [intAsserted_of_no_vector hv]; exact Bool.false_ne_true) ?_
    rintro ⟨k, hk, hp, -⟩
    exact hnone k hk hp
  | some b =>
    have hfirst := firstBelow_of_vector hv
    rw [intAsserted_of_vector hv, BitVec.lt_def]
    refine ⟨fun h => ⟨b, hfirst.lt, hfirst.pending, h⟩, ?_⟩
    rintro ⟨k, hk, hp, hlt⟩
    rcases hfirst.outranks k hk hp with hlow | ⟨heq, -⟩
    · exact hlt.trans (BitVec.lt_def.mp hlow)
    · rwa [← heq]

theorem ivec_of_no_vector (h : u.vector = none) : u.ivec = 0x003F := by
  rw [ivec, h]

theorem toNat_ivec_of_vector (h : u.vector = some k) :
    u.ivec.toNat = k + 256 * (u.level k).toNat + (if u.intAsserted = true then 32768 else 0) := by
  have hk := (firstBelow_of_vector h).lt
  have hlevel := (u.level k).isLt
  rw [ivec, h]
  exact toNat_word (by split <;> omega)

/-! ### The threshold (R165) -/

/-- ITHR takes no part in the choice of the vector. -/
theorem vector_ithr (u : InterruptUnit) (x : BitVec 3) : { u with ithr := x }.vector = u.vector := rfl

/-- No level is above 7. -/
theorem intAsserted_of_ithr_seven (h : u.ithr = 7) : u.intAsserted = false := by
  refine Bool.eq_false_iff.mpr fun hint => ?_
  obtain ⟨k, -, -, hlt⟩ := intAsserted_iff.mp hint
  have hlevel := (u.level k).isLt
  rw [h] at hlt
  exact absurd hlt (Nat.not_lt.mpr (Nat.le_of_lt_succ hlevel))

/-- Every level is above 0 (R164). -/
theorem intAsserted_of_ithr_zero (h : u.ithr = 0) (hlevels : ∀ k < 26, u.level k ≠ 0) :
    u.intAsserted = true ↔ ∃ k < 26, u.pendingSource k = true := by
  rw [intAsserted_iff, h]
  refine exists_congr fun k => and_congr_right fun hk => and_iff_left ?_
  exact BitVec.toNat_pos_of_ne_zero (hlevels k hk)

end InterruptUnit

/-- Settles O46, by the scan that keeps the first of the sources seen. -/
theorem vectorAndInterruptLine : Obligations.VectorAndInterruptLine := by
  refine fun u => ⟨?_, fun k hv => ?_, ?_, InterruptUnit.ivec_of_no_vector,
    fun _ => InterruptUnit.toNat_ivec_of_vector⟩
  · simp only [InterruptUnit.vector_eq_none_iff, InterruptUnit.not_pendingSource_iff]
  · obtain ⟨hlt, hpending, houtranks⟩ := InterruptUnit.firstBelow_of_vector hv
    obtain ⟨hflag, hmask⟩ := InterruptUnit.pendingSource_iff.mp hpending
    exact ⟨hlt, hflag, hmask, fun j hj hf hm => houtranks j hj (InterruptUnit.pendingSource_iff.mpr ⟨hf, hm⟩)⟩
  · simp only [InterruptUnit.intAsserted_iff, InterruptUnit.pendingSource_iff, and_assoc]

/-! ### Writes of ITHR (R165) -/

theorem writeIthr_of_above {v : Word} (h : 7 < v.toNat) (s : State) : writeIthr v s = s := if_neg (Nat.not_le.mpr h)

theorem writeIthr_of_le {v : Word} (h : v.toNat ≤ 7) (s : State) :
    writeIthr v s = { s with iu := { s.iu with ithr := BitVec.ofNat 3 v.toNat } } := by
  rw [BitVec.ofNat_toNat]
  exact if_pos h

theorem ithr_writeIthr {v : Word} (h : v.toNat ≤ 7) (s : State) : (writeIthr v s).iu.ithr.toNat = v.toNat := by
  rw [writeIthr_of_le h, BitVec.toNat_ofNat]
  exact Nat.mod_eq_of_lt (Nat.lt_succ_of_le h)

theorem busRead_ithr {s : State} (hr : s.inReset = false) (level : Bool) :
    busRead s 0x33 level = word s.iu.ithr.toNat :=
  (if_neg (by rw [hr]; exact Bool.false_ne_true)).trans (setWidth_eq_word _)

theorem word_toNat (v : Word) : word v.toNat = v := (setWidth_eq_word v).symm.trans (BitVec.setWidth_eq v)

theorem vector_writeIthr (v : Word) (s : State) : (writeIthr v s).iu.vector = s.iu.vector := by
  unfold writeIthr
  split
  · exact s.iu.vector_ithr _
  · rfl

/-- What the line shows after a write of ITHR: the sources above the value written. -/
theorem intAsserted_writeIthr {v : Word} (h : v.toNat ≤ 7) (s : State) :
    (writeIthr v s).iu.intAsserted = true ↔
      ∃ k < 26, s.iu.pendingSource k = true ∧ v.toNat < (s.iu.level k).toNat := by
  rw [InterruptUnit.intAsserted_iff, ithr_writeIthr h, writeIthr_of_le h]
  rfl

theorem ithr_of_softReset {s t : State} (h : exec .softReset s = .next t) : t.iu.ithr = s.iu.ithr := by
  rcases completion_cases (f := fun _ => softResetCommand) h with ⟨-, -, rfl⟩ | ⟨-, rfl⟩
  · rw [softResetCommand_iu]
  · rfl

/-- Settles O45: what a write of ITHR does, the line at the two ends of its range, and both resets. -/
theorem interruptThreshold : Obligations.InterruptThreshold := by
  refine ⟨fun s v hr => ⟨fun h => ?_, fun h => ⟨writeIthr v s, taken_of_running hr _, writeIthr_of_le h s,
    fun level => ?_, vector_writeIthr v s, intAsserted_writeIthr h s⟩⟩,
    fun _ => InterruptUnit.intAsserted_of_ithr_seven, fun _ => InterruptUnit.intAsserted_of_ithr_zero,
    fun cause s t h => ?_, fun _ _ => ithr_of_softReset⟩
  · exact (taken_of_running hr _).trans (congrArg _ (writeIthr_of_above h s))
  · have hr' : (writeIthr v s).inReset = false := by rwa [writeIthr_of_le h]
    rw [busRead_ithr hr', ithr_writeIthr h, word_toNat]
  · obtain rfl : hardwareReset (s.held.hold cause) s = t := Host.Outcome.next.inj h
    rfl

end Sys2Proof.Machine
end

/-! The register window and the reset pin: hardware reset, the hold and its release (R177), and write accesses (R171,
R172, R175). -/

namespace Sys2Proof.Machine

/-! ### Hardware reset (R177) -/

theorem holds_hold (h : ResetHold) (cause : ResetCause) : (h.hold cause).holds cause = true := by
  cases cause with
  | resetN => rfl
  | powerUp => rfl

/-- A reset holds the part in reset, whatever held it before. -/
theorem hardwareReset_inReset (cause : ResetCause) (s : State) :
    (hardwareReset (s.held.hold cause) s).inReset = true := inReset_of_holds (holds_hold s.held cause)

/-- An interrupt unit without a flag has no vector (R166). -/
theorem InterruptUnit.ivec_of_no_flag {u : InterruptUnit} (h : u.flags = 0) : u.ivec = 0x003F := by
  refine ivec_of_no_vector (vector_eq_none_iff.mpr fun k _ => not_pendingSource_iff.mpr (Or.inl ?_))
  rw [h]
  exact BitVec.getLsbD_zero

/-- Settles O3: the tables hold one value throughout, and every other piece is the constant of its block. -/
theorem hardwareResetValues : Obligations.HardwareResetValues := by
  intro cause s
  refine ⟨hardwareReset (s.held.hold cause) s, rfl, rfl, hardwareReset_inReset cause s, rfl, rfl,
    fun i => ⟨Table.get_replicate 10 0 i, Table.get_replicate 10 0 i⟩, rfl, rfl,
    fun i => ⟨congrFun reset_activeEntry i, congrFun reset_effective i, reset_fanout i, Table.get_replicate 10 0x54 i⟩,
    rfl, rfl, reset_recs, rfl, reset_sups, rfl, rfl, rfl, rfl, fun n => ?_, rfl, rfl, rfl, rfl, rfl, rfl,
    fun k _ => reset_level k, rfl, InterruptUnit.ivec_of_no_flag rfl, rfl, rfl, rfl⟩
  have hengine : (hardwareReset (s.held.hold cause) s).engine n = .reset := reset_engine n
  rw [hengine]
  exact ⟨rfl, rfl, rfl, rfl, rfl, rfl, rfl, rfl, rfl⟩

/-! ### The hold and its release (R177) -/

theorem exec_of_held {s : State} {c : Instr} (hr : s.inReset = true) (hc : c.wellFormed = true)
    (hreset : ∀ cause, c ≠ .hardwareReset cause) (hrelease : ∀ cause m, c ≠ .resetNRelease cause m) :
    exec c s = .next s := by
  obtain ⟨t, ht⟩ := (exec_answers c s).1 hc
  rw [ht, eq_of_exec_held hreset hrelease hr ht]

theorem busRead_of_held {s : State} (hr : s.inReset = true) (a : BitVec 7) (level : Bool) : busRead s a level = 0 :=
  if_pos hr

theorem exec_release_of_not_held {s : State} {cause : ResetCause} (h : s.held.holds cause = false) (m : Bool) :
    exec (.resetNRelease cause m) s = .next s := if_neg (Bool.eq_false_iff.mp h)

/-- A release ends the hold of its cause, unless it ends a RESET_N assertion that was too short and alone held the
part. -/
theorem exec_release_of_held {s : State} {cause : ResetCause} {m : Bool} (h : s.held.holds cause = true)
    (hm : cause = .resetN → m = true ∨ s.held.powerUp = true) :
    exec (.resetNRelease cause m) s = .next { s with held := s.held.release cause } := by
  refine (if_pos h).trans (if_neg ?_)
  rintro ⟨hcause, hshort, halone⟩
  rcases hm hcause with rfl | hpower
  · cases hshort
  · rw [hpower] at halone
    cases halone

theorem exec_release_of_short {s : State} (h : s.held.resetN = true) (hpower : s.held.powerUp = false) :
    exec (.resetNRelease .resetN false) s = .next (arbitraryState s) :=
  (if_pos h).trans (if_pos ⟨rfl, rfl, by rw [hpower]; rfl⟩)

/-- Settles O4: the part held in reset, then each release by what holds the part and how long RESET_N was asserted. -/
theorem heldInResetAndReleased : Obligations.HeldInResetAndReleased := by
  refine ⟨fun s hr => ⟨fun c => exec_of_held hr, busRead_of_held hr⟩, fun m s => ⟨fun h hm => ?_, ?_, fun h => ?_,
    fun h => ?_, fun h => ?_⟩⟩
  · exact exec_release_of_held h fun _ => hm
  · rintro h rfl hpower
    exact ⟨arbitraryState s, exec_release_of_short h hpower, rfl, State.intoRange_inRange _, rfl, rfl⟩
  · exact exec_release_of_held h nofun
  · exact exec_release_of_not_held (cause := .resetN) h m
  · exact exec_release_of_not_held (cause := .powerUp) h m

/-! ### Write accesses (R171, R172) -/

theorem exec_wholeWrite {s : State} (hr : s.inReset = false) (a : BitVec 7) (w : BusWord) :
    exec (.registerWrite .whole a w) s = .next (writeWord a.toNat w.value w.sf s) := taken_of_running hr _

/-- R words and unassigned addresses ignore a write (R172). -/
theorem writeWord_of_not_writable {n : Nat} (v sf : Word) (s : State)
    (h : n = 0x07 ∨ (0x08 < n ∧ n < 0x10) ∨ (0x14 < n ∧ n < 0x20) ∨ (0x21 < n ∧ n < 0x28) ∨ (0x33 < n ∧ n ≠ 0x38)) :
    writeWord n v sf s = s := by
  unfold writeWord
  split
  case h_29 => rfl
  all_goals exact absurd h (by decide)

/-- The words with a row of their own, each with that row (Table 10-1). -/
def wordRows (v sf : Word) : List (BitVec 7 × Instr) :=
  [(0x00, .commandTaken v), (0x08, .overrunFlagClear v), (0x10, .idlecWrite v), (0x11, .folimWrite v),
   (0x12, .svenWrite v), (0x13, .svfrcWrite v), (0x14, .svthrWrite v), (0x20, .expfClear 0 v), (0x21, .expfClear 1 v),
   (0x28, .iflagClear 0 v), (0x29, .iflagClear 1 v), (0x2A, .imaskWrite 0 v), (0x2B, .imaskWrite 1 v),
   (0x2C, .ilvlWrite 0 v), (0x2D, .ilvlWrite 1 v), (0x2E, .ilvlWrite 2 v), (0x2F, .ilvlWrite 3 v),
   (0x30, .ilvlWrite 4 v), (0x31, .ilvlWrite 5 v), (0x32, .ilvlWrite 6 v), (0x33, .ithrWrite v),
   (0x38, .inspectInvalid ⟨v, sf⟩)]

theorem wholeWrite_eq_row (v sf : Word) (s : State) :
    ∀ row ∈ wordRows v sf, exec (.registerWrite .whole row.1 ⟨v, sf⟩) s = exec row.2 s := by
  simp only [wordRows, List.forall_mem_cons]
  exact ⟨rfl, rfl, rfl, rfl, rfl, rfl, rfl, rfl, rfl, rfl, rfl, rfl, rfl, rfl, rfl, rfl, rfl, rfl, rfl, rfl, rfl, rfl,
    nofun⟩

/-- The parameter words, each with the parameters after a write of `v` (R147). -/
def paramWrites (v : Word) (p : Params) : List (BitVec 7 × Params) :=
  [(0x01, { p with p0 := v }), (0x02, { p with p1 := v }), (0x03, { p with p2 := v }), (0x04, { p with p3 := v }),
   (0x05, { p with p4 := v }), (0x06, { p with p5 := v })]

theorem writeWord_param (v sf : Word) (s : State) :
    ∀ w ∈ paramWrites v s.ce.params,
      writeWord w.1.toNat v sf s = { s with ce := { s.ce with params := w.2 } } := by
  simp only [paramWrites, List.forall_mem_cons]
  exact ⟨rfl, rfl, rfl, rfl, rfl, rfl, nofun⟩

/-! ### Writes of INSA (R175) -/

theorem field_selector_eq_ten_iff (sel : BitVec 5) (x : BitVec 11) : field (insaWord sel x) 11 5 = 10 ↔ sel = 10 := by
  rw [field_selector, ← BitVec.toNat_inj]
  rfl

/-- The levels of the SF lines matter to selector 10 alone. -/
theorem inspectAt_of_ne_ten {sel : BitVec 5} (h : sel ≠ 10) (x : BitVec 11) (sf : Word) :
    inspectAt (insaWord sel x) sf = writeInsa (insaWord sel x) :=
  funext fun _ => congrArg _ (if_neg ((field_selector_eq_ten_iff sel x).not.mpr h))

/-- The selectors that name a table, each with its inspection row (Table 10-4). -/
def inspectionRows (x : BitVec 11) (sf : Word) : List (BitVec 5 × Instr) :=
  [(0, .inspectActiveEntry x), (1, .inspectEffectiveEntry x), (2, .inspectJournal x), (3, .inspectFanOut x),
   (4, .inspectReservation x), (5, .inspectEngineConfiguration x), (6, .inspectLiveCounters x),
   (7, .inspectSnapshot x), (8, .inspectResultQueue x), (9, .inspectHoldByte x), (10, .inspectSupervisor x sf)]

/-- A write of INSA does what the inspection row of its selector does (R175). -/
theorem insaWrite_eq_row (x : BitVec 11) (sf : Word) (s : State) :
    ∀ row ∈ inspectionRows x sf, taken s (inspectAt (insaWord row.1 x) sf) = exec row.2 s := by
  have hother (sel : BitVec 5) (h : sel ≠ 10) :
      taken s (inspectAt (insaWord sel x) sf) = taken s (writeInsa (insaWord sel x)) :=
    congrArg (taken s) (inspectAt_of_ne_ten h x sf)
  simp only [inspectionRows, List.forall_mem_cons]
  exact ⟨hother 0 (by decide), hother 1 (by decide), hother 2 (by decide), hother 3 (by decide), hother 4 (by decide),
    hother 5 (by decide), hother 6 (by decide), hother 7 (by decide), hother 8 (by decide), hother 9 (by decide), rfl,
    nofun⟩

/-- A selector that names no table latches INVALID (R175). -/
theorem insaWrite_of_no_table {s : State} (hr : s.inReset = false) {sel : BitVec 5} (h : 10 < sel.toNat)
    (x : BitVec 11) (sf : Word) : taken s (inspectAt (insaWord sel x) sf) = .next (s.inspected sel x none) := by
  have hten : sel ≠ 10 := by
    rintro rfl
    exact absurd h (by decide)
  exact taken_inspectAt hr (if_neg hten).symm (tableCopy_of_no_table s h x.toNat)

theorem mem_inspectionRows {x : BitVec 11} {sf : Word} {sel : BitVec 5} {i : Instr}
    (h : (sel.toNat, i) ∈ (inspectionRows x sf).map (Prod.map BitVec.toNat id)) : (sel, i) ∈ inspectionRows x sf := by
  obtain ⟨⟨sel', i'⟩, hmem, heq⟩ := List.mem_map.mp h
  obtain ⟨hsel, rfl⟩ := Prod.mk.inj heq
  rwa [BitVec.eq_of_toNat_eq hsel] at hmem

/-- Settles O47, by the way the cycle goes and then by the word written. The rows REGISTER_WRITE of INSA and
INSPECT_INVALID are one INSA write (log 4). -/
theorem registerWriteAccess : Obligations.RegisterWriteAccess := by
  intro s a v sf hr
  refine ⟨taken_of_running hr _, taken_of_running hr _, fun i hi => wholeWrite_eq_row v sf s (a, i) hi, ?_,
    fun q hq => ?_, fun ha => ?_⟩
  · rintro sel x rfl
    refine ⟨fun i hi => ?_, fun h => ?_⟩
    · have hrow := insaWrite_eq_row x sf s (sel, i) (mem_inspectionRows hi)
      exact ⟨hrow, hrow⟩
    · have hnone := insaWrite_of_no_table hr h x sf
      exact ⟨hnone, hnone⟩
  · rw [exec_wholeWrite hr]
    exact congrArg _ (writeWord_param v sf s (a, q) hq)
  · rw [exec_wholeWrite hr]
    exact congrArg _ (writeWord_of_not_writable v sf s ha)

end Sys2Proof.Machine
